-- ==== Sys2Proof/Word.lean ====
section
/-! DEFINITION. The word types of the links: a byte, and the numbers that a list of bytes spells.
Section 0.6.1: numbers carried in messages are unsigned and are sent most significant byte first. -/

namespace Sys2Proof

/-- One byte of a frame. -/
abbrev Byte := BitVec 8

/-- One of the thirty-two equipment ports, P0 to P31 (section 0.2). -/
abbrev Port := Fin 32

/-- One of the sixteen cell records, C0 to C15 (Chapter 3). -/
abbrev CellNo := Fin 16

end Sys2Proof
end

