-- ==== Sys2Proof/Config.lean ====
section
/-! DEFINITION. What the FD32 fixes once: the sizes of its tables, the constants of its timers, and the values the
spec leaves open (constants without a body, so that no statement can rest on a value of them). -/

namespace Sys2Proof.Config

/-- The top value of a 32-bit counter that stops there (R162, R165, Tables 2-1 and 3-1). -/
def top32 : Nat := 4294967295

/-- The modulus of the two 32-bit second counters (R166). -/
def wrap32 : Nat := 4294967296

/-- The bound of every unit count kept for a lot (section 0.6.7). -/
def maxUnits : Nat := 4000000

/-- The size of the product table (R3). -/
def maxProducts : Nat := 64

/-- The size of the lot table (R6). -/
def maxLots : Nat := 256

/-- The size of the catalog (R80). -/
def maxPrograms : Nat := 128

/-- The number of tallies (R77). -/
def maxTallies : Nat := 48

/-- The size of the hold table (R129). -/
def maxHolds : Nat := 512

/-- The most hold records one lot carries (R129). -/
def maxLotHolds : Nat := 8

/-- The most lots one ship group lists (Table 10-1). -/
def maxGroupLots : Nat := 32

/-- The number of requests the input buffer holds, and of replies the busy list holds (R163). -/
def maxPending : Nat := 4

/-- The number of entries of the report queue (R165). -/
def maxReports : Nat := 64

/-- The depth at which a waiting count of dropped reports is announced (R165). -/
def lowReports : Nat := 32

/-- The frame count of the automatic link check (R22). -/
def autoCheckFrames : Nat := 1024

/-- The link check's and the announce timer's length in seconds (R25, R29). -/
def linkTimeout : Nat := 10

/-- The swap timer's length in seconds (R85). -/
def swapTimeout : Nat := 30

/-- The age in advances at which an incomplete host frame is truncated (R162). -/
def truncateAfter : Nat := 2

/-- DESIGN CHOICE (log entry 4): how many notices between blocks one taking may run before the model stops it. -/
def noticeBound : Nat := 65536

/-- FREE VALUE (log entry 5). The scrapped total after a SCRAP that carries it above 4,000,000, a sum outside the range
Table 1-3 gives the field; R141 states no result there. Applied to the counter `State.freeCount`. -/
opaque freeScrapped : Nat → BitVec 32

/-- FREE VALUE (log entry 6). The down-error count recorded for a check that ends ABANDONED before a CHECK_RESULT was
taken; R20 and R22 record 'its counts' and state none. Applied to the counter `State.freeCount`. -/
opaque freeDownErrors : Nat → BitVec 16

end Sys2Proof.Config
end

