-- ==== Sys2Proof/Syntax.lean ====
section
/-! DEFINITION. The commands of the FD32: one constructor of `Instr` for each row of spec/opcode_table.json. A row that
takes a host request has no operand, because the request stands in the input buffer (R163). A row that is a message, a
record or a line event carries what arrives with it. A row that is a timer's expiry names the timer's owner. -/

namespace Sys2Proof

/-- The two lanes of a port on which the FD32 receives (section 0.2). -/
inductive Lane where
  | control
  | result
  deriving DecidableEq, Repr

/-- Why a lane receiver loses lock (R21): malformed frames in succession, or no frame boundary for a number of byte
times. -/
inductive LockLoss where
  | malformed (frames : Nat)
  | silent (byteTimes : Nat)
  deriving DecidableEq, Repr

/-- A result-lane frame other than idle fill (Table 12-5): the eight bytes of a result record, first byte most
significant, or the seven payload bytes of a check frame. -/
inductive UpFrame where
  | record (bytes : BitVec 64)
  | check (index : BitVec 16) (pattern : BitVec 32) (checkByte : Byte)
  deriving DecidableEq, Repr

/-- The body of an ANNOUNCE as it arrives (R172); `other` is a role byte that names neither role. -/
inductive AnnounceMsg where
  | handler (id : BitVec 32) (sites : Byte) (chamberMin chamberMax kit : BitVec 16) (dock : BitVec 32) (mode : Byte)
  | tester (id : BitVec 32) (channels : Byte) (calTemp hours validity base kt kh : BitVec 16)
  | other (role : Byte)
  deriving DecidableEq, Repr

/-- The body of an H_COUNTS as it arrives (R172). -/
structure CountsMsg where
  loaded : BitVec 32
  bins : Vector (BitVec 32) 8
  jammed : BitVec 32
  flag : Byte
  deriving DecidableEq, Repr

/-- The steps of the FD32. -/
inductive Instr where
  /-- POWER_ON: RESET_N with the levels of the STRICT strap, the rate straps and the presence lines (R169, Table 12-7). -/
  | powerOn (strict : Bool) (rate : BitVec 2) (presence : BitVec 32)
  /-- HOST_FRAME: bytes arriving on the host line (R162, R163). -/
  | hostFrame (bytes : List Byte)
  /-- FRAME_TRUNCATED (R162). -/
  | frameTruncated
  /-- FRAME_SENT (R164). -/
  | frameSent
  | requestUnknownKind
  | productPut
  | productDrop
  | lotEnter
  | lotQuery
  | lotQueryListing
  | lotPriority
  | lotDrop
  | portCheck
  | portReset
  | cellSet
  | siteForce
  | cellQuery
  | programPut
  | programDrop
  | testerClear
  | tallyQuery
  | holdPlace
  | clear
  | retestStep
  | scrap
  | holdDisposeOverflow
  | holdList
  | groupOpen
  | groupClose
  | groupAdd
  | groupRemove
  | groupQuery
  | groupRelease
  | clockSet
  | paramSet
  | status
  | restartFloor
  /-- RESTART_FULL with the level of the STRICT strap, which it samples (R43, R169). -/
  | restartFull (strict : Bool)
  /-- SECOND_ADVANCE: 25,000,000 cycles of the reference clock have passed (R166). -/
  | secondAdvance
  | hourRollover
  | presenceRise (p : Port)
  | presenceFall (p : Port)
  /-- LOCK_GAINED: the lane's receiver has taken `run` well-formed frames in succession (R21). -/
  | lockGained (p : Port) (lane : Lane) (run : Nat)
  /-- LOCK_LOST: `regained` tells a loss that was regained before it was taken (R22). -/
  | lockLost (p : Port) (lane : Lane) (loss : LockLoss) (regained : Bool)
  | checkArmed (p : Port)
  | checkResult (p : Port) (downErrors : BitVec 16)
  | checkFrame (p : Port) (frame : UpFrame)
  | checkTimerExpiry (p : Port)
  | announce (p : Port) (msg : AnnounceMsg)
  | announceTimerExpiry (p : Port)
  | badFrame (p : Port)
  | unknownMessageKind (p : Port)
  | hStatus (p : Port) (mode : Byte)
  | hTemp (p : Port) (temp : BitVec 16)
  | hKit (p : Port) (kit : BitVec 16) (reseat : Byte)
  | hDock (p : Port) (tester : BitVec 32)
  | hIndex (p : Port) (mask : Byte)
  | hClean (p : Port) (mask : Byte)
  | hPhase (p : Port) (phase : Byte)
  | hCounts (p : Port) (counts : CountsMsg)
  | tHeadtemp (p : Port) (temp : BitVec 16)
  | tCal (p : Port) (temp : BitVec 16)
  | tLoaded (p : Port) (program : BitVec 16) (revision : Byte) (checkValue : BitVec 32) (indication : Byte)
  | tSwapped (p : Port)
  | resultRecord (p : Port) (bytes : BitVec 64)
  | resultLaneDiscard (p : Port) (frame : UpFrame)
  | soakTimerExpiry (c : CellNo)
  | staleTimerExpiry (c : CellNo)
  | withdrawTimerExpiry (c : CellNo)
  | drainTimerExpiry (c : CellNo)
  | loadTimerExpiry (p : Port)
  | swapTimerExpiry (p : Port)
  | assignmentPass
  | barred (p : Port)
  /-- RUNNING_EVALUATION on the tally of the cell's current lot, for a unit of the named site (R117). -/
  | runningEvaluation (c : CellNo) (site : Fin 8)
  /-- TALLY: the evaluation counter of the tally of the cell's current lot is judged (R120). -/
  | tally (c : CellNo)
  /-- SITE_MONITOR on a site of the cell (R126). -/
  | siteMonitor (c : CellNo) (site : Fin 8)
  deriving DecidableEq, Repr

end Sys2Proof
end

