-- ==== Sys2Proof/Machine/State.lean ====
section
/-! DEFINITION. The state of the FD32 as plain data: every record, table, queue, counter and pin the chapters give it,
the block's queue of waiting commands, and one counter of the model's own for free values. -/

namespace Sys2Proof.Machine

/-! ## Products and the catalog (Tables 1-1, 1-2, 5-1) -/

/-- The kind of a limit record. -/
inductive LimitKind where
  | yieldFloor
  | classCeiling
  | recoveryCeiling
  deriving DecidableEq, Repr

/-- The phase of a limit record. -/
inductive LimitPhase where
  | running
  | close
  | both
  deriving DecidableEq, Repr

/-- A limit record of a step. -/
structure LimitRec where
  kind : LimitKind
  cls : Nat
  value : Nat
  phase : LimitPhase
  deriving DecidableEq, Repr

/-- The five blanking edges of Table 1-2. -/
inductive Edge where
  | start
  | resume
  | kit
  | siteOn
  | clean
  deriving DecidableEq, Repr

/-- A step of a route (Table 1-2). `edges` is the blanking edge set, bit k for the (k+1)th edge (Table 12-3). -/
structure StepDef where
  setpoint : Int
  band : Nat
  soak : Nat
  program : Nat
  ceiling : Nat
  extCeiling : Option Nat
  extDelta : Option Nat
  blank : Nat
  edges : Byte
  divider : Nat
  smin : Nat
  consecutive : Nat
  reportDivider : Nat
  limits : List LimitRec
  deriving DecidableEq, Repr

/-- A product record (Table 1-1). `bins` maps a class to its bin; bit b of `retest` names class b. -/
structure Product where
  id : Nat
  kit : Nat
  bins : Vector Nat 16
  retest : BitVec 16
  tolerance : Nat
  steps : List StepDef
  deriving DecidableEq, Repr

/-- A program record of the catalog (Table 5-1). -/
structure Program where
  id : Nat
  revision : Nat
  checkValue : Nat
  loadLimit : Nat
  deriving DecidableEq, Repr

/-! ## Lots (Tables 1-3, 1-4) -/

inductive LotState where
  | waiting
  | queued
  | active
  | saved
  | held
  | complete
  deriving DecidableEq, Repr

inductive Priority where
  | normal
  | hot
  deriving DecidableEq, Repr

inductive StepStatus where
  | pending
  | opened
  | closed
  deriving DecidableEq, Repr

inductive Recon where
  | none
  | pass
  | mismatch
  | lost
  | accepted
  deriving DecidableEq, Repr

inductive MarginClass where
  | normal
  | extended
  deriving DecidableEq, Repr

/-- A step record of a lot (Table 1-4). -/
structure StepRec where
  status : StepStatus := .pending
  input : Option Nat := none
  loaded : Nat := 0
  bins : Vector Nat 8 := Vector.replicate 8 0
  jammed : Nat := 0
  countLost : Bool := false
  goodOut : Option Nat := none
  recon : Recon := .none
  margin : MarginClass := .normal
  closeTime : Option Nat := none
  deriving DecidableEq, Repr

/-- The location field of a lot (R8). -/
inductive Location where
  | absent
  | queue (c : CellNo) (entry : Nat)
  | save (c : CellNo)
  deriving DecidableEq, Repr

/-- A lot record (Table 1-3). `tally` is the tally reference: set while the lot holds the tally of `State.tallies` that
carries its id (R14). -/
structure Lot where
  id : Nat
  product : Nat
  entered : Nat
  quantity : Nat
  priority : Priority
  seq : Nat
  state : LotState := .waiting
  step : Nat := 0
  steps : Vector StepRec 6 := Vector.replicate 6 (StepRec.mk .pending none 0 (Vector.replicate 8 0) 0 false none .none .normal none)
  scrapped : Nat := 0
  tally : Bool := false
  location : Location := .absent
  holds : List Nat := []
  overflow : Bool := false
  group : Option (Fin 16) := none
  deriving DecidableEq, Repr

/-! ## Tallies, captures and holds (Tables 6-3, 7-2, 8-1) -/

/-- A tally held by a lot (Table 6-3); the free ones have no meaning and are not listed. -/
structure Tally where
  lot : Nat
  step : Nat
  n1 : Nat := 0
  c1 : Vector Nat 16 := Vector.replicate 16 0
  ne : Nat := 0
  ce : Vector Nat 16 := Vector.replicate 16 0
  x : Vector Nat 16 := Vector.replicate 16 0
  c2 : Vector Nat 16 := Vector.replicate 16 0
  u : Nat := 0
  badCheck : Nat := 0
  invalid : Nat := 0
  missing : Nat := 0
  stray : Nat := 0
  duplicate : Nat := 0
  excess : Nat := 0
  divider : Nat := 0
  evaluations : Nat := 0
  deriving DecidableEq, Repr

/-- A capture (Table 7-2). -/
structure Capture where
  time : Nat
  cell : CellNo
  site : Nat
  sequence : Nat
  n1 : Nat
  ne : Nat
  deriving DecidableEq, Repr

/-- The reasons of a hold, in the order of Table 8-1. -/
inductive Reason where
  | yieldFloor
  | classCeiling
  | recoveryCeiling
  | countMismatch
  | countLost
  | resultFault
  | placed
  deriving DecidableEq, Repr

inductive Severity where
  | immediate
  | atEnd
  | ship
  deriving DecidableEq, Repr

inductive Origin where
  | automatic
  | requested
  deriving DecidableEq, Repr

/-- A hold record (Table 8-1). -/
structure Hold where
  id : Nat
  lot : Nat
  reason : Reason
  cls : Nat
  step : Nat
  severity : Severity
  origin : Origin
  occurrences : Nat
  raised : Nat
  capture : Option Capture
  note : Option (List Byte)
  deriving DecidableEq, Repr

/-- A request to raise a hold (R130). -/
structure HoldReq where
  lot : Nat
  reason : Reason
  cls : Nat := 0
  step : Nat
  severity : Severity
  origin : Origin := .automatic
  capture : Option Capture := none
  note : Option (List Byte) := none
  deriving DecidableEq, Repr

/-! ## Timers, ports and lanes (Tables 2-1 to 2-5) -/

/-- A running timer: the elapsed-seconds count at its start and its length in seconds (R166). -/
structure Timer where
  start : Nat
  limit : Nat
  deriving DecidableEq, Repr

inductive PortState where
  | absent
  | training
  | checking
  | awaitAnnounce
  | inService
  | faulted
  deriving DecidableEq, Repr

inductive Role where
  | handler
  | tester
  deriving DecidableEq, Repr

inductive Mode where
  | remote
  | atHandler
  deriving DecidableEq, Repr

/-- The announce data held in a port record (R30, R31). -/
inductive AnnounceData where
  | handler (sites : Nat) (chamberMin chamberMax : Int) (kit dock : Nat) (mode : Mode)
  | tester (channels : Nat) (calTemp : Int) (hours validity base kt kh : Nat)
  deriving DecidableEq, Repr

inductive FaultCause where
  | checkFailed
  | badAnnounce
  | duplicateId
  | timeout
  deriving DecidableEq, Repr

/-- The return state of a link check. -/
inductive CheckReturn where
  | training
  | awaitAnnounce
  | inService
  deriving DecidableEq, Repr

/-- The check record (Table 2-1); `result` is the CHECK_RESULT mark with its down-error count. -/
structure CheckRec where
  latched : Bool
  frames : Nat
  ret : CheckReturn
  armed : Bool := false
  result : Option Nat := none
  expected : Nat := 0
  upErrors : Nat := 0
  deriving DecidableEq, Repr

inductive CheckOutcome where
  | pass
  | fail
  | abandoned
  deriving DecidableEq, Repr

/-- The last check field (Table 2-1). -/
structure LastCheck where
  outcome : CheckOutcome
  latched : Bool
  frames : Nat
  upErrors : Nat
  downErrors : Nat
  deriving DecidableEq, Repr

/-- What the FD32 hands to a port's control lane (Table 2-5, R172). `checkFrames next n` stands for the down check
frames of index next..n−1 that are still to leave. -/
inductive Down where
  | checkBegin (n : Nat)
  | checkFrames (next n : Nat)
  | setpoint (temp : Int)
  | feed (lot step : Nat) (sites : Byte) (bins : Vector Nat 16) (retest : BitVec 16)
  | halt
  | continue_
  | stop
  | mask (sites : Byte)
  | load (program revision : Nat)
  | swap
  | lot (tag step : Nat) (channels : Byte)
  deriving DecidableEq, Repr

/-- A port record (Table 2-1), with the messages handed to its control lane that have not yet left, oldest first (R34). -/
structure PortRec where
  state : PortState := .absent
  controlLock : Bool := false
  resultLock : Bool := false
  role : Option Role := none
  equip : Option Nat := none
  data : Option AnnounceData := none
  fault : Option FaultCause := none
  checkFailed : Bool := false
  check : Option CheckRec := none
  last : Option LastCheck := none
  announceTimer : Option Timer := none
  checkTimer : Option Timer := none
  badFrames : Nat := 0
  ignored : Nat := 0
  discarded : Nat := 0
  out : List Down := []
  deriving DecidableEq, Repr

/-! ## Cells and claims (Tables 3-1, 3-3, 3-5) -/

inductive CellState where
  | idle
  | starting
  | running
  | paused
  | draining
  | manual
  deriving DecidableEq, Repr

inductive Purpose where
  | ending
  | withdraw
  | preempt
  | hold
  | disable
  deriving DecidableEq, Repr

/-- The waiting-for set of a STARTING cell (R47). -/
structure Waiting where
  temp : Bool := false
  program : Bool := false
  tally : Bool := false
  sites : Bool := false
  cal : Bool := false
  deriving DecidableEq, Repr

/-- The cause set of a cell (R45). -/
structure Causes where
  handlerLink : Bool := false
  testerLink : Bool := false
  atHandler : Bool := false
  temp : Bool := false
  kit : Bool := false
  cal : Bool := false
  barred : Bool := false
  noSites : Bool := false
  deriving DecidableEq, Repr

inductive Soak where
  | out
  | settling
  | soaked
  deriving DecidableEq, Repr

/-- An open segment (R145). -/
structure Segment where
  lot : Nat
  step : Nat
  feedTime : Nat
  deriving DecidableEq, Repr

inductive SiteState where
  | on
  | offMonitor
  | offForced
  deriving DecidableEq, Repr

/-- A site record (Table 3-5); the pending change is the state it would set. -/
structure Site where
  state : SiteState := .on
  change : Option SiteState := none
  blank : Nat := 0
  run : Nat := 0
  expFirst : Nat := 1
  expRetest : Nat := 1
  deriving DecidableEq, Repr

/-- A formed cell (Table 3-1). The segment handler totals stand after the segment closes (R145), and `lastSegment` is
the segment they belong to. -/
structure Cell where
  handlerPort : Port
  testerPort : Port
  handlerId : Nat
  testerId : Nat
  state : CellState := .idle
  waiting : Waiting := Waiting.mk false false false false false
  causes : Causes := Causes.mk false false false false false false false false
  purpose : Option Purpose := none
  mode : Mode
  kit : Nat
  setpoint : Option Int := none
  band : Option Nat := none
  soakTime : Option Nat := none
  temp : Option Int := none
  soak : Soak := .out
  soakTimer : Option Timer := none
  staleTimer : Option Timer := none
  withdrawTimer : Option Timer := none
  drainTimer : Option Timer := none
  segment : Option Segment := none
  lastSegment : Option Segment := none
  segLoaded : Nat := 0
  segBins : Vector Nat 8 := Vector.replicate 8 0
  segJammed : Nat := 0
  lastPhase : Option Bool := none
  lastMask : Byte := 0
  indexCount : Nat := 0
  mismatchCount : Nat := 0
  sites : List Site
  deriving DecidableEq, Repr

/-- A cell record: its two settings, kept when the record is free, and the formed cell if there is one. -/
structure CellRec where
  enable : Bool := true
  preemptEnable : Bool := false
  formed : Option Cell := none
  deriving DecidableEq, Repr

/-- A cell's dispatch queue (R63): entry 0, and entries 1 to 3 in order. -/
structure DispatchQueue where
  current : Option Nat := none
  behind : List Nat := []
  deriving DecidableEq, Repr

inductive ClaimStatus where
  | formed
  | waiting
  | conflict
  deriving DecidableEq, Repr

/-- A dock claim (R37). -/
structure Claim where
  port : Port
  tester : Nat
  status : ClaimStatus
  deriving DecidableEq, Repr

/-- Why a cell was dissolved (R41). -/
inductive DissolveCause where
  | handlerGone
  | testerGone
  | dockChanged
  deriving DecidableEq, Repr

/-! ## Tester slots (Tables 5-2, 5-3) -/

inductive SlotUse where
  | unused
  | inUse
  | parked
  deriving DecidableEq, Repr

inductive Staged where
  | empty
  | loading (program revision : Nat) (timer : Timer)
  | ready (program revision : Nat)
  | failed
  deriving DecidableEq, Repr

/-- A calibration record (Table 5-3). -/
structure Calibration where
  calTemp : Int
  calTime : Nat
  headTemp : Int
  validity : Nat
  base : Nat
  kt : Nat
  kh : Nat
  deriving DecidableEq, Repr

/-- The margin values of a slot record and the floor time they were computed at (R94). -/
structure Margin where
  delta : Nat
  age : Nat
  used : Nat
  time : Nat
  deriving DecidableEq, Repr

/-- A tester slot record (Table 5-2). An unused record has no calibration record and no margin values (R98, log entry 41). -/
structure Slot where
  use : SlotUse := .unused
  equip : Option Nat := none
  active : Option (Nat × Nat) := none
  staged : Staged := .empty
  swap : Option Timer := none
  request : Option Nat := none
  failures : Nat := 0
  barred : Bool := false
  cal : Option Calibration := none
  margin : Option Margin := none
  deriving DecidableEq, Repr

/-! ## Ship groups and the assignment pass (Table 10-1, R66) -/

/-- A ship group; group id g is entry g−1 of `State.groups`. -/
structure Group where
  opened : Bool := false
  product : Option Nat := none
  allowExtended : Bool := false
  lots : List Nat := []
  deriving DecidableEq, Repr

/-- The assignment engine's pass (R66): whether a trigger waits, whether a pass is being made, the lots of its reading of
the wait list not yet reached, and the cells whose entry 1 it changed. -/
structure Pass where
  pending : Bool := false
  making : Bool := false
  remaining : List Nat := []
  changed : List CellNo := []
  deriving DecidableEq, Repr

/-! ## Reports and replies (Chapters 11 and 12) -/

/-- The close section of a LOT_STATE report (R152). -/
structure CloseSection where
  step : Nat
  recon : Recon
  failA : Bool
  failB : Bool
  failC : Bool
  loaded : Nat
  bins : Vector Nat 8
  jammed : Nat
  n1 : Nat
  u : Nat
  totals : Vector Nat 8
  goodOut : Nat
  closeTime : Nat
  deriving DecidableEq, Repr

/-- The new state a LOT_STATE report shows, or a removal indication (R18, R160). -/
inductive LotNow where
  | state (s : LotState)
  | dropped
  | released
  deriving DecidableEq, Repr

/-- A disposition of a hold with its operand (R138, R18). -/
inductive Disposition where
  | clear
  | retestStep (step : Nat)
  | scrap (n : Nat)
  | dropped
  deriving DecidableEq, Repr

/-- The outcomes of a LOAD_STATE report (R97). -/
inductive LoadOutcome where
  | loadIssued
  | swapIssued
  | loaded
  | badCheck
  | loadFail
  | stale
  | loadTimeout
  | barred
  | swapped
  | swapTimeout
  | abandoned
  | cleared
  deriving DecidableEq, Repr

/-- A release record (R160). -/
structure ReleaseRec where
  group : Nat
  product : Nat
  time : Nat
  lots : List (Nat × Nat)
  total : Nat
  deriving DecidableEq, Repr

/-- The reports of the report queue (R165), each with what its rule says it carries. -/
inductive Report where
  /-- R9, R152. -/
  | lotState (lot : Nat) (prev : Option LotState) (now : LotNow) (step quantity : Nat) (cell : Option CellNo)
      (close : Option CloseSection)
  /-- R133; `overflow` marks the reason OVERFLOW, and `hold` is then the request that could not be stored. -/
  | holdRaised (hold : Hold) (overflow merged : Bool) (lotState : LotState) (time : Nat)
  /-- R138, R142, R18; `hold` none is the overflow form. -/
  | holdCleared (lot : Nat) (hold : Option Hold) (disposition : Disposition) (state : LotState) (step quantity : Nat)
  /-- R59; a state of none is FREE. -/
  | cellState (cell : CellNo) (prev now : Option CellState) (handlerId testerId : Nat) (lot : Option Nat)
      (purpose : Option Purpose) (causes : Causes) (waiting : Waiting) (dissolved : Option DissolveCause)
  /-- R58. -/
  | siteChange (cell : CellNo) (site : Nat) (old new : SiteState)
  /-- R126: a change requested by the site monitor and not yet made. -/
  | siteRequested (cell : CellNo) (lot site : Nat) (capture : Capture)
  /-- R97. -/
  | loadState (p : Port) (equip : Option Nat) (outcome : LoadOutcome) (program : Option (Nat × Nat)) (failures : Nat)
      (barred : Bool) (active : Option (Nat × Nat)) (staged : Staged)
  /-- R24; `conflict` is the DOCK_CONFLICT indication with the claimed tester and the cell that holds it (R38). -/
  | portState (p : Port) (prev now : PortState) (role : Option Role) (equip : Option Nat) (fault : Option FaultCause)
      (checkFailed : Bool) (ended : Option LastCheck) (conflict : Option (Nat × CellNo))
  /-- R120; `ceilings` are the class and the ratio of each CLASS_CEILING limit of phase RUNNING or BOTH. -/
  | tally (lot step : Nat) (cell : CellNo) (n1 ne : Nat) (ce : Vector Nat 16) (yield : Option Nat)
      (ceilings : List (Nat × Option Nat)) (u retested recovered time : Nat)
  /-- R160. -/
  | released (rec : ReleaseRec)
  /-- R165. -/
  | reportsLost (count : Nat)
  deriving DecidableEq, Repr

/-- The status codes of Table 11-2. -/
inductive Status where
  | ok
  | unknownKind
  | malformed
  | notFound
  | exists_
  | full
  | wrongState
  | inUse
  | mismatch
  | refused
  | busy
  deriving DecidableEq, Repr

/-- The release causes (R157), and EMPTY (R159). -/
inductive ReleaseCause where
  | notComplete
  | held
  | unreconciled
  | extended
  | zeroQuantity
  | empty
  deriving DecidableEq, Repr

/-- A lot's line of a listing (R16). -/
structure LotSummary where
  id : Nat
  product : Nat
  state : LotState
  step : Nat
  quantity : Nat
  priority : Priority
  held : Bool
  deriving DecidableEq, Repr

/-- A lot's line of a GROUP_QUERY reply (R158). -/
structure GroupLine where
  id : Nat
  state : LotState
  step : Nat
  quantity : Nat
  cause : Option ReleaseCause
  deriving DecidableEq, Repr

/-- The floor parameters (Table 11-4). -/
structure Params where
  withdraw : Nat := 900
  drain : Nat := 300
  stale : Nat := 30
  unreadable : Nat := 50
  deriving DecidableEq, Repr

/-- The frame counters of the host link unit (R162, R163). -/
structure FrameCounters where
  overLength : Nat := 0
  truncated : Nat := 0
  badCrc : Nat := 0
  good : Nat := 0
  overrun : Nat := 0
  deriving DecidableEq, Repr

/-- What the GENERAL section of STATUS carries (Table 11-5). -/
structure General where
  strict : Bool
  rate : BitVec 2
  floorTime : Nat
  elapsed : Nat
  params : Params
  frames : FrameCounters
  reports : Nat
  dropped : Nat
  lots : Nat
  products : Nat
  programs : Nat
  freeTallies : Nat
  holds : Nat
  groups : Nat
  pending : Nat
  deriving DecidableEq, Repr

/-- The remaining seconds of a cell's running timers (R59). -/
structure CellTimers where
  soak : Option Nat
  stale : Option Nat
  withdraw : Option Nat
  drain : Option Nat
  deriving DecidableEq, Repr

/-- The body of a reply (R163), by the rule of its request. -/
inductive Reply where
  /-- A status byte alone. -/
  | plain (status : Status)
  /-- R6: OK with the entry sequence given. -/
  | entered (seq : Nat)
  /-- R15: the lot record, with the step records of its route. -/
  | lot (lot : Lot) (routeSteps : List StepRec)
  /-- R16. -/
  | lots (summaries : List LotSummary) (more : Bool)
  /-- R59, a free cell. -/
  | cellFree (enable preemptEnable : Bool)
  /-- R59, a formed cell. -/
  | cell (enable preemptEnable : Bool) (cell : Cell) (timers : CellTimers) (director : Bool) (queue : DispatchQueue)
      (saved : Option Nat) (handlerClaim testerClaim : Option ClaimStatus)
  /-- R128, a lot without a tally. -/
  | noTally (state : LotState) (step : Nat)
  /-- R128: the tally, the step's input quantity, the final counts, R and the five ratios. -/
  | tally (tally : Tally) (input : Option Nat) (final : Vector Nat 16) (retested : Nat) (ratios : List (Option Nat))
  /-- R137: stored, merged or (none) overflow. -/
  | placed (merged : Bool) (hold : Option Nat)
  /-- R139; `flagged` is the lot's overflow flag, or the number of flagged lots. -/
  | holds (records : List Hold) (more : Bool) (total flagged : Nat) (allLots : Bool)
  /-- R155, R156: OK with the number of lots in the list. -/
  | groupCount (n : Nat)
  /-- R158, a group that is not open. -/
  | groupFree
  /-- R158, an open group: for each lot its id, state, step index, quantity and release cause. -/
  | group (id : Nat) (product : Option Nat) (allowExtended : Bool) (lots : List GroupLine)
  /-- R159, REFUSED with its cause and lot. -/
  | releaseRefused (cause : ReleaseCause) (lot : Option Nat)
  /-- R160. -/
  | released (rec : ReleaseRec)
  /-- R166: the old floor time and the new. -/
  | clock (old new : Nat)
  /-- R167: the old value. -/
  | param (old : Nat)
  /-- R168. -/
  | general (g : General)
  | ports (records : List (PortRec × Nat)) (more : Bool)
  | claims (records : List Claim) (more : Bool)
  | testers (records : List Slot) (more : Bool)
  deriving DecidableEq, Repr

/-! ## The host link (R162 to R165) -/

/-- A frame that has arrived and whose reply has not been sent in full, in arrival order: a request of the input buffer,
with its reply once it has been formed, or a BUSY reply of the busy list (R163). -/
inductive HostEntry where
  | request (kind tag : Byte) (body : List Byte) (reply : Option Reply)
  | busy (kind tag : Byte)
  deriving DecidableEq, Repr

/-- The frame the transmitter is sending (R164). A report stays at the head of the queue until it has been sent, unless a
RESTART emptied the queue under it (`queued` false). -/
inductive Sending where
  | reply (kind tag : Byte) (body : Reply)
  | report (r : Report) (queued : Bool)
  deriving DecidableEq, Repr

/-- The levels of the straps and of the presence lines (Table 12-7). -/
structure Pins where
  strict : Bool := false
  rate : BitVec 2 := 0
  presence : BitVec 32 := 0
  deriving DecidableEq, Repr

/-! ## The machine -/

/-- The state of the FD32. -/
structure State where
  /-- The commands that are waiting, first in, first out (the block's queue). -/
  pending : List Instr := []
  pins : Pins := Pins.mk false 0 0
  /-- The sampled STRICT value (R43). -/
  strict : Bool := false
  /-- The sampled line rate (Table 11-1). -/
  rate : BitVec 2 := 0
  /-- The bytes of the host frame being received from its marker on, each with the elapsed-seconds count of its arrival;
  empty while hunting (R162). -/
  rx : List (Byte × Nat) := []
  frames : FrameCounters := FrameCounters.mk 0 0 0 0 0
  /-- The input buffer and the busy list, one list in arrival order (R163). -/
  unanswered : List HostEntry := []
  sending : Option Sending := none
  reports : List Report := []
  dropped : Nat := 0
  floorTime : Nat := 0
  elapsed : Nat := 0
  params : Params := Params.mk 900 300 30 50
  /-- Ascending product id. -/
  products : List Product := []
  /-- Ascending lot id. -/
  lots : List Lot := []
  entrySeq : Nat := 0
  ports : Vector PortRec 32
  claims : List Claim := []
  cells : Vector CellRec 16
  queues : Vector DispatchQueue 16
  saves : Vector (Option Nat) 16
  waitList : List Nat := []
  tallyWait : List CellNo := []
  pass : Pass := Pass.mk false false [] []
  /-- Ascending program id. -/
  catalog : List Program := []
  slots : Vector Slot 32
  strays : Vector Nat 32
  /-- The tallies held by lots; a tally not listed is free. -/
  tallies : List Tally := []
  /-- Ascending hold id. -/
  holds : List Hold := []
  groups : Vector Group 16
  /-- The model's own: how many free values have been used. -/
  freeCount : Nat := 0
  deriving DecidableEq, Repr

/-- Why a step can stop. -/
inductive Fault where
  /-- Raised by `settle` when the notices of one taking have not come to rest within `Config.noticeBound` steps. The spec
  has no such case: safe, since the model stops where the part would go on. -/
  | unsettled
  deriving DecidableEq, Repr

/-- Why a command has no meaning. -/
inductive Refusal where
  /-- Raised by `exec` for a row that has no meaning yet: safe, the model stops. -/
  | notModelled (mnemonic : String)
  deriving DecidableEq, Repr

/-- An absent port's record (R36). -/
def PortRec.reset : PortRec := {}

/-- Every block at its power-on state (R5, R19, R36, R60, R79, R98, R114, R144, R153, R161, R169), with the given strap
levels sampled and no presence rise taken yet. -/
def State.fresh (pins : Pins) (rate : BitVec 2) : State :=
  { pins := pins
    strict := pins.strict
    rate := rate
    ports := Vector.replicate 32 PortRec.reset
    cells := Vector.replicate 16 {}
    queues := Vector.replicate 16 {}
    saves := Vector.replicate 16 none
    slots := Vector.replicate 32 {}
    strays := Vector.replicate 32 0
    groups := Vector.replicate 16 {} }

/-- The machine right after reset: power-on with both straps and every presence line low (log entry 3). -/
def State.reset : State := State.fresh {} 0

end Sys2Proof.Machine
end

