-- ==== Sys2Proof/Machine/Operands.lean ====
section
/-! DEFINITION. What the bytes of a request body and the fields of an equipment message spell (Chapter 12), and the
range checks that are made on a body alone (R1, R2, R170). -/

namespace Sys2Proof.Machine

/-! ## Numbers in bytes (section 0.6.1) -/

/-- The byte at offset `i`, as a number. -/
def u8 (b : List Byte) (i : Nat) : Nat := (b.getD i 0).toNat

/-- The two bytes at offset `i`, most significant first. -/
def u16 (b : List Byte) (i : Nat) : Nat := u8 b i * 256 + u8 b (i + 1)

/-- The four bytes at offset `i`, most significant first. -/
def u32 (b : List Byte) (i : Nat) : Nat := u16 b i * 65536 + u16 b (i + 2)

/-- The two bytes at offset `i` as a temperature: a signed 16-bit two's-complement value in tenths (Chapter 12). -/
def s16 (b : List Byte) (i : Nat) : Int := (BitVec.ofNat 16 (u16 b i)).toInt

/-- A received temperature is clamped to −600..2000 (R33). -/
def clampTemp (t : Int) : Int := max (-600) (min 2000 t)

/-- The temperature a message field carries, as the receiving block sees it (R33). -/
def tempOf (t : BitVec 16) : Int := clampTemp t.toInt

/-- A flag byte: clear 0, set 1; any other value is undefined (R170). -/
def flagOf (n : Nat) : Option Bool :=
  if n = 0 then some false else if n = 1 then some true else none

def priorityOf (n : Nat) : Option Priority :=
  if n = 1 then some .normal else if n = 2 then some .hot else none

def severityOf (n : Nat) : Option Severity :=
  if n = 1 then some .immediate else if n = 2 then some .atEnd else if n = 3 then some .ship else none

def modeOf (b : Byte) : Option Mode :=
  if b = 1 then some .remote else if b = 2 then some .atHandler else none

/-- H_PHASE: FIRST 1 (`false`), RETEST 2 (`true`) (R172). -/
def phaseOf (b : Byte) : Option Bool :=
  if b = 1 then some false else if b = 2 then some true else none

def limitKindOf (n : Nat) : Option LimitKind :=
  if n = 1 then some .yieldFloor else if n = 2 then some .classCeiling else if n = 3 then some .recoveryCeiling
  else none

def limitPhaseOf (n : Nat) : Option LimitPhase :=
  if n = 1 then some .running else if n = 2 then some .close else if n = 3 then some .both else none

/-! ## Request kinds (Table 12-2) and body lengths (R170, Table 12-3) -/

namespace Kind
def clockSet : Byte := 0x01
def paramSet : Byte := 0x02
def productPut : Byte := 0x03
def productDrop : Byte := 0x04
def programPut : Byte := 0x05
def programDrop : Byte := 0x06
def cellSet : Byte := 0x07
def testerClear : Byte := 0x08
def lotEnter : Byte := 0x09
def lotQuery : Byte := 0x0A
def lotPriority : Byte := 0x0B
def lotDrop : Byte := 0x0C
def holdPlace : Byte := 0x0D
def holdDispose : Byte := 0x0E
def holdList : Byte := 0x0F
def siteForce : Byte := 0x10
def portCheck : Byte := 0x11
def portReset : Byte := 0x12
def groupOpen : Byte := 0x13
def groupAdd : Byte := 0x14
def groupRemove : Byte := 0x15
def groupRelease : Byte := 0x16
def groupClose : Byte := 0x17
def groupQuery : Byte := 0x18
def cellQuery : Byte := 0x19
def tallyQuery : Byte := 0x1A
def status : Byte := 0x1B
def restart : Byte := 0x1C
end Kind

/-- A kind of Table 11-3 (R163): every other kind is answered UNKNOWN_KIND. -/
def isRequestKind (k : Byte) : Bool := decide (1 ≤ k.toNat ∧ k.toNat ≤ 0x1C)

/-- The body length fits the kind's layout (R170). -/
def bodyFits (k : Byte) (body : List Byte) : Bool :=
  let n := body.length
  match k.toNat with
  | 0x01 => n == 4
  | 0x02 => n == 3
  | 0x03 => decide (24 ≤ n) && n == 24 + 61 * u8 body 23
  | 0x04 => n == 2
  | 0x05 => n == 9
  | 0x06 => n == 2
  | 0x07 => n == 3
  | 0x08 => n == 1
  | 0x09 => n == 11
  | 0x0A => n == 8
  | 0x0B => n == 5
  | 0x0C => n == 4
  | 0x0D => decide (6 ≤ n) && n == 6 + u8 body 5
  | 0x0E => n == 7 || n == 8
  | 0x0F => n == 6
  | 0x10 => n == 3
  | 0x11 => n == 4
  | 0x12 => n == 1
  | 0x13 => n == 2
  | 0x14 => n == 5
  | 0x15 => n == 5
  | 0x16 => n == 1
  | 0x17 => n == 1
  | 0x18 => n == 1
  | 0x19 => n == 1
  | 0x1A => n == 4
  | 0x1B => n == 2
  | 0x1C => n == 1
  | _ => false

/-! ## PRODUCT_PUT (R1, R2, Table 12-3) -/

/-- A limit slot as it arrives. -/
structure RawLimit where
  kind : Nat
  cls : Nat
  value : Nat
  phase : Nat
  deriving DecidableEq, Repr

/-- A route step as it arrives. -/
structure RawStep where
  setpoint : Int
  band : Nat
  soak : Nat
  program : Nat
  ceiling : Nat
  presence : Byte
  extCeiling : Nat
  extDelta : Nat
  blank : Nat
  edges : Byte
  divider : Nat
  smin : Nat
  consecutive : Nat
  reportDivider : Nat
  limitCount : Nat
  limits : List RawLimit
  deriving DecidableEq, Repr

/-- A product as it arrives. -/
structure RawProduct where
  id : Nat
  kit : Nat
  bins : Vector Nat 16
  retest : BitVec 16
  tolerance : Nat
  steps : List RawStep
  deriving DecidableEq, Repr

/-- The limit slot at offset `i`: kind, class, value, phase. -/
def rawLimit (b : List Byte) (i : Nat) : RawLimit :=
  { kind := u8 b i, cls := u8 b (i + 1), value := u16 b (i + 2), phase := u8 b (i + 4) }

/-- The 61 bytes of a step at offset `i`; limit slots beyond the limit count are not read. -/
def rawStep (b : List Byte) (i : Nat) : RawStep :=
  { setpoint := s16 b i
    band := u8 b (i + 2)
    soak := u16 b (i + 3)
    program := u16 b (i + 5)
    ceiling := u16 b (i + 7)
    presence := b.getD (i + 9) 0
    extCeiling := u16 b (i + 10)
    extDelta := u8 b (i + 12)
    blank := u8 b (i + 13)
    edges := b.getD (i + 14) 0
    divider := u8 b (i + 15)
    smin := u16 b (i + 16)
    consecutive := u8 b (i + 18)
    reportDivider := u8 b (i + 19)
    limitCount := u8 b (i + 20)
    limits := (List.range (min 8 (u8 b (i + 20)))).map fun j => rawLimit b (i + 21 + 5 * j) }

/-- The body of a PRODUCT_PUT. -/
def rawProduct (b : List Byte) : RawProduct :=
  { id := u16 b 0
    kit := u16 b 2
    bins := Vector.ofFn fun k : Fin 16 => u8 b (4 + k.val)
    retest := BitVec.ofNat 16 (u16 b 20)
    tolerance := u8 b 22
    steps := (List.range (u8 b 23)).map fun j => rawStep b (24 + 61 * j) }

/-- R1: the rules on the product as a whole. -/
def RawProduct.fits (r : RawProduct) : Bool :=
  r.id != 0
    && r.bins.toList.all (fun n => decide (n ≤ 7))
    && r.bins[0] == 0
    && (r.bins.toList.drop 1).all (fun n => n != 0)
    && !r.retest.getLsbD 0
    && decide (1 ≤ r.steps.length ∧ r.steps.length ≤ 6)

def RawStep.hasCeiling (r : RawStep) : Bool := r.presence.getLsbD 0

def RawStep.hasDelta (r : RawStep) : Bool := r.presence.getLsbD 1

/-- R2: the rules on one limit record. -/
def RawLimit.fits (l : RawLimit) : Bool :=
  (limitPhaseOf l.phase).isSome && decide (l.value ≤ 10000)
    && match limitKindOf l.kind with
       | some .classCeiling => decide (1 ≤ l.cls ∧ l.cls ≤ 15)
       | some .yieldFloor => l.cls == 0
       | some .recoveryCeiling => l.cls == 0 && l.phase == 2
       | none => false

/-- Two phases overlap when they are the same or one of them is BOTH (R2). -/
def phasesOverlap (a b : Nat) : Bool := a == b || a == 3 || b == 3

/-- R2: two limit records of one step may not agree in kind and class with phases that overlap. -/
def limitsApart : List RawLimit → Bool
  | [] => true
  | l :: ls => ls.all (fun m => !(l.kind == m.kind && l.cls == m.cls && phasesOverlap l.phase m.phase)) && limitsApart ls

/-- R2: the rules on one step. -/
def RawStep.fits (r : RawStep) : Bool :=
  decide (-600 ≤ r.setpoint ∧ r.setpoint ≤ 2000)
    && decide (1 ≤ r.band ∧ r.band ≤ 100)
    && decide (r.soak ≤ 3600)
    && r.program != 0
    && decide (1 ≤ r.ceiling ∧ r.ceiling ≤ 65534)
    && (if r.hasCeiling then decide (r.ceiling < r.extCeiling ∧ r.extCeiling ≤ 65534) && r.hasDelta else !r.hasDelta)
    && decide (r.edges.toNat < 32)
    && decide (1 ≤ r.divider ∧ r.divider ≤ 16)
    && decide (1 ≤ r.smin)
    && decide (r.limitCount ≤ 8)
    && r.limits.all RawLimit.fits
    && limitsApart r.limits

/-- The limit record a checked slot stands for. -/
def RawLimit.toLimit (l : RawLimit) : Option LimitRec :=
  match limitKindOf l.kind, limitPhaseOf l.phase with
  | some k, some p => some { kind := k, cls := l.cls, value := l.value, phase := p }
  | _, _ => none

/-- The step a checked raw step stands for. -/
def RawStep.toStep (r : RawStep) : StepDef :=
  { setpoint := r.setpoint
    band := r.band
    soak := r.soak
    program := r.program
    ceiling := r.ceiling
    extCeiling := if r.hasCeiling then some r.extCeiling else none
    extDelta := if r.hasDelta then some r.extDelta else none
    blank := r.blank
    edges := r.edges
    divider := r.divider
    smin := r.smin
    consecutive := r.consecutive
    reportDivider := r.reportDivider
    limits := r.limits.filterMap RawLimit.toLimit }

/-- The product a checked raw product stands for. -/
def RawProduct.toProduct (r : RawProduct) : Product :=
  { id := r.id, kit := r.kit, bins := r.bins, retest := r.retest, tolerance := r.tolerance,
    steps := r.steps.map RawStep.toStep }

/-! ## Result records (Table 12-6) and check patterns (R172) -/

/-- Byte k of a result record, byte 0 first. -/
def recordByte (r : BitVec 64) (k : Nat) : Nat := (r.toNat / 256 ^ (7 - k)) % 256

/-- The exclusive-or of a list of bytes. -/
def xorAll (l : List Nat) : Nat := l.foldl Nat.xor 0

/-- R100: the eight bytes combine by exclusive-or to 0x5A. -/
def recordChecks (r : BitVec 64) : Bool := xorAll ((List.range 8).map (recordByte r)) == 0x5A

/-- The fields of a result record (Tables 6-1 and 12-6); the phase is none when its nibble is undefined, and RETEST when
`true`. -/
structure RecordFields where
  tag : Nat
  site : Nat
  phase : Option Bool
  sequence : Nat
  cls : Fin 16
  origin : Fin 16
  deriving DecidableEq, Repr

/-- A sort class from a number. -/
def classOf (n : Nat) : Fin 16 := ⟨n % 16, Nat.mod_lt n (by decide)⟩

def recordFields (r : BitVec 64) : RecordFields :=
  { tag := recordByte r 0 * 256 + recordByte r 1
    site := recordByte r 2 / 16
    phase := if recordByte r 2 % 16 = 1 then some false else if recordByte r 2 % 16 = 2 then some true else none
    sequence := recordByte r 3 * 65536 + recordByte r 4 * 256 + recordByte r 5
    cls := classOf (recordByte r 6 / 16)
    origin := classOf (recordByte r 6) }

/-- R172: byte k of the check pattern of an index. -/
def patternByte (index k : Nat) : Nat := Nat.xor ((index % 256 + 0x3B * (k + 1)) % 256) (index / 256 % 256)

/-- R172: the check pattern fixed by an index, byte 0 first. -/
def checkPattern (index : Nat) : BitVec 32 :=
  BitVec.ofNat 32
    (patternByte index 0 * 16777216 + patternByte index 1 * 65536 + patternByte index 2 * 256 + patternByte index 3)

/-- R171: the exclusive-or of a check frame's seven payload bytes equals 0x5A. -/
def checkFrameChecks (index : BitVec 16) (pattern : BitVec 32) (checkByte : Byte) : Bool :=
  xorAll [index.toNat / 256, index.toNat % 256, pattern.toNat / 16777216, pattern.toNat / 65536 % 256,
    pattern.toNat / 256 % 256, pattern.toNat % 256, checkByte.toNat] == 0x5A

/-! ## The host frame's CRC (Table 12-1) -/

/-- One bit of the CRC-16: polynomial 0x1021, most significant bit first. -/
def crcBit (c : BitVec 16) : BitVec 16 := if c.msb then (c <<< 1) ^^^ 0x1021#16 else c <<< 1

/-- One byte of the CRC-16. -/
def crcByte (c : BitVec 16) (b : Byte) : BitVec 16 :=
  crcBit (crcBit (crcBit (crcBit (crcBit (crcBit (crcBit (crcBit (c ^^^ (b.zeroExtend 16 <<< 8)))))))))

/-- The CRC-16 of a list of bytes, initial value 0xFFFF and no final inversion. -/
def crc16 (bytes : List Byte) : BitVec 16 := bytes.foldl crcByte 0xFFFF#16

end Sys2Proof.Machine
end

