-- ==== Sys2Proof/Machine/Access.lean ====
section
/-! DEFINITION. Reading and writing the records of the state: the one place where each table is looked up and updated,
and the placing of reports and control-lane messages. -/

namespace Sys2Proof.Machine

/-- Every port, in number order. -/
def allPorts : List Port := List.ofFn (fun i : Fin 32 => i)

/-- Every cell, in number order. -/
def allCells : List CellNo := List.ofFn (fun i : Fin 16 => i)

/-- The port a number names, if it names one. -/
def portOf (n : Nat) : Option Port := if h : n < 32 then some ⟨n, h⟩ else none

/-- The cell a number names, if it names one. -/
def cellOf (n : Nat) : Option CellNo := if h : n < 16 then some ⟨n, h⟩ else none

/-- The ship group a group id 1..16 names (Table 10-1). -/
def groupOf (n : Nat) : Option (Fin 16) := if h : 1 ≤ n ∧ n ≤ 16 then some ⟨n - 1, by omega⟩ else none

/-! ## Counters and timers -/

/-- A 32-bit counter that stops at its top value. -/
def sat32 (n : Nat) : Nat := min n Config.top32

/-- A unit count that saturates at 4,000,000. -/
def satUnits (n : Nat) : Nat := min n Config.maxUnits

/-- The second advances since an elapsed-seconds count (R166: whatever the counter's value). -/
def since (now start : Nat) : Nat := (now + Config.wrap32 - start) % Config.wrap32

/-- A timer of t seconds is due from the t-th advance after its start (R166). -/
def Timer.due (t : Timer) (now : Nat) : Bool := decide (t.limit ≤ since now t.start)

/-- The seconds a running timer has left (R59). -/
def Timer.left (t : Timer) (now : Nat) : Nat := t.limit - since now t.start

/-- A timer is running and due. -/
def expired (t : Option Timer) (now : Nat) : Bool := t.any (·.due now)

/-- A timer started now. -/
def State.timer (s : State) (seconds : Nat) : Timer := { start := s.elapsed, limit := seconds }

/-! ## Keyed tables -/

/-- Insert into a list kept in ascending order of a key. -/
def insertAsc {α : Type} (key : α → Nat) (x : α) : List α → List α
  | [] => [x]
  | y :: ys => if key x < key y then x :: y :: ys else y :: insertAsc key x ys

def State.product? (s : State) (id : Nat) : Option Product := s.products.find? (·.id == id)

def State.program? (s : State) (id : Nat) : Option Program := s.catalog.find? (·.id == id)

def State.lot? (s : State) (id : Nat) : Option Lot := s.lots.find? (·.id == id)

def State.tally? (s : State) (lot : Nat) : Option Tally := s.tallies.find? (·.lot == lot)

def State.hold? (s : State) (id : Nat) : Option Hold := s.holds.find? (·.id == id)

/-- Change the lot record with an id; a change keeps the id. -/
def State.modLot (s : State) (id : Nat) (f : Lot → Lot) : State :=
  { s with lots := s.lots.map fun l => if l.id == id then f l else l }

/-- Change the tally a lot holds. -/
def State.modTally (s : State) (lot : Nat) (f : Tally → Tally) : State :=
  { s with tallies := s.tallies.map fun t => if t.lot == lot then f t else t }

/-- Change the step record a lot has at an index. -/
def State.modStep (s : State) (id step : Nat) (f : StepRec → StepRec) : State :=
  s.modLot id fun l => if h : step < 6 then { l with steps := l.steps.set step (f l.steps[step]) } else l

/-- The step record of a lot at an index. -/
def Lot.stepRec (l : Lot) (step : Nat) : StepRec := if h : step < 6 then l.steps[step] else {}

/-- The step of a lot's route at an index, read from the lot's product (R3). -/
def State.stepDef? (s : State) (l : Lot) (step : Nat) : Option StepDef :=
  (s.product? l.product).bind fun p => p.steps[step]?

/-- The length of a lot's route. -/
def State.routeLength (s : State) (l : Lot) : Nat := ((s.product? l.product).map (·.steps.length)).getD 0

/-! ## Indexed records -/

def State.modPort (s : State) (p : Port) (f : PortRec → PortRec) : State := { s with ports := s.ports.set p (f s.ports[p]) }

def State.modSlot (s : State) (p : Port) (f : Slot → Slot) : State := { s with slots := s.slots.set p (f s.slots[p]) }

def State.modCellRec (s : State) (c : CellNo) (f : CellRec → CellRec) : State :=
  { s with cells := s.cells.set c (f s.cells[c]) }

/-- The formed cell of a record, if it is formed. -/
def State.cell? (s : State) (c : CellNo) : Option Cell := s.cells[c].formed

/-- Change a formed cell; a free record stays free. -/
def State.modCell (s : State) (c : CellNo) (f : Cell → Cell) : State :=
  s.modCellRec c fun r => { r with formed := r.formed.map f }

def State.modQueue (s : State) (c : CellNo) (f : DispatchQueue → DispatchQueue) : State :=
  { s with queues := s.queues.set c (f s.queues[c]) }

def State.setSave (s : State) (c : CellNo) (x : Option Nat) : State := { s with saves := s.saves.set c x }

def State.modGroup (s : State) (g : Fin 16) (f : Group → Group) : State := { s with groups := s.groups.set g (f s.groups[g]) }

/-- The current lot of a cell: the lot at entry 0 of its dispatch queue (Chapter 3). -/
def State.current? (s : State) (c : CellNo) : Option Nat := s.queues[c].current

/-- The record of a cell's current lot. -/
def State.currentLot? (s : State) (c : CellNo) : Option Lot := (s.current? c).bind s.lot?

/-- The cell whose handler port is `p`. -/
def State.cellOfHandler? (s : State) (p : Port) : Option CellNo :=
  allCells.find? fun c => (s.cell? c).any fun k => k.handlerPort == p

/-- The cell whose tester port is `p`. -/
def State.cellOfTester? (s : State) (p : Port) : Option CellNo :=
  allCells.find? fun c => (s.cell? c).any fun k => k.testerPort == p

/-- The cell of which a port is part. -/
def State.cellOfPort? (s : State) (p : Port) : Option CellNo :=
  allCells.find? fun c => (s.cell? c).any fun k => k.handlerPort == p || k.testerPort == p

def State.inService (s : State) (p : Port) : Bool := s.ports[p].state == .inService

/-- The port IN_SERVICE with role TESTER and an equipment id (R38). -/
def State.testerPort? (s : State) (id : Nat) : Option Port :=
  allPorts.find? fun p => s.inService p && s.ports[p].role == some .tester && s.ports[p].equip == some id

/-! ## Reports and messages -/

/-- A report is placed at the tail of the report queue, or discarded and counted when the queue holds 64 (R165). -/
def place (r : Report) (s : State) : State :=
  if s.reports.length < Config.maxReports then { s with reports := s.reports ++ [r] }
  else { s with dropped := sat32 (s.dropped + 1) }

/-- A message handed to a port's control lane: sent when the port is IN_SERVICE, and otherwise not sent and not kept
(R34). -/
def send (p : Port) (d : Down) (s : State) : State :=
  if s.inService p then s.modPort p fun r => { r with out := r.out ++ [d] } else s

/-- A control-lane message discarded as out of place (R33). -/
def countIgnored (p : Port) (s : State) : State := s.modPort p fun r => { r with ignored := sat32 (r.ignored + 1) }

end Sys2Proof.Machine
end

