-- ==== Sys2Proof/Machine/Flags.lean ====
section
/-! DEFINITION. What the blocks derive from the state without changing it: the calibration margin, ownership, the cause
set and the waiting-for set, eligibility, the tests of limits, the reconciliation checks and the release causes. -/

namespace Sys2Proof.Machine

/-! ## The calibration margin (R94, R95) -/

/-- R94 stage 1: the head's distance from its calibration temperature in whole degrees, rounded up. -/
def Calibration.delta (k : Calibration) : Nat := ((k.headTemp - k.calTemp).natAbs + 9) / 10

/-- R94 stage 2: the whole hours since calibration, 0 before it. -/
def Calibration.age (k : Calibration) (now : Nat) : Nat := (now - k.calTime) / 3600

/-- R94 stage 3: the used margin. -/
def Calibration.used (k : Calibration) (now : Nat) : Nat :=
  if k.validity ≤ k.age now then 65535 else min 65535 (k.base + k.kt * k.delta + k.kh * k.age now)

/-- R94: the margin of a calibration record at a floor time. -/
def Calibration.margin (k : Calibration) (now : Nat) : Margin :=
  { delta := k.delta, age := k.age now, used := k.used now, time := now }

/-- R95: the extended ceiling applies. -/
def extendedApplies (k : Calibration) (now : Nat) (d : StepDef) : Bool :=
  d.extCeiling.isSome && decide (k.age now < k.validity / 2) && decide (k.delta ≤ d.extDelta.getD 0)

/-- R95: the applicable ceiling of a step. -/
def applicableCeiling (k : Calibration) (now : Nat) (d : StepDef) : Nat :=
  if extendedApplies k now d then d.extCeiling.getD d.ceiling else d.ceiling

/-- R95: the margin passes the step. -/
def Calibration.passes (k : Calibration) (now : Nat) (d : StepDef) : Bool :=
  decide (k.used now ≤ applicableCeiling k now d)

/-- R95: the margin passes the step only by extension. -/
def Calibration.passesByExtension (k : Calibration) (now : Nat) (d : StepDef) : Bool :=
  k.passes now d && decide (d.ceiling < k.used now)

/-- The margin of the tester on a port passes a step, computed afresh (R95: a consultation uses the fresh values). -/
def State.marginPasses (s : State) (p : Port) (d : StepDef) : Bool := s.slots[p].cal.any (·.passes s.floorTime d)

/-- The same, only by extension. -/
def State.marginByExtension (s : State) (p : Port) (d : StepDef) : Bool :=
  s.slots[p].cal.any (·.passesByExtension s.floorTime d)

/-! ## Programs on a tester (R47, R67, R85) -/

/-- The active program of a tester is a program's current revision. -/
def State.activeCurrent (s : State) (p : Port) (program : Nat) : Bool :=
  (s.program? program).any fun g => s.slots[p].active == some (g.id, g.revision)

/-- The staged slot of a tester is READY with a program at its current revision. -/
def State.readyCurrent (s : State) (p : Port) (program : Nat) : Bool :=
  (s.program? program).any fun g => s.slots[p].staged == .ready g.id g.revision

/-- A load is in flight on a tester. -/
def Slot.isLoading (t : Slot) : Bool :=
  match t.staged with
  | .loading _ _ _ => true
  | _ => false

/-- A load or a swap is in flight on a tester. -/
def Slot.inFlight (t : Slot) : Bool := t.isLoading || t.swap.isSome

/-! ## Ownership, readiness and the start (R43, R45, R47) -/

/-- Table 3-2: the cell is director-owned. -/
def State.director (s : State) (c : CellNo) : Bool :=
  s.cells[c].enable && (s.cell? c).any fun k => s.strict || k.mode == .remote

/-- At least one site of a cell is ON. -/
def Cell.anyOn (k : Cell) : Bool := k.sites.any (·.state == .on)

/-- A mask of the sites that meet a test, bit k for site k. -/
def siteMask (f : Site → Bool) (l : List Site) : Byte :=
  BitVec.ofNat 8 (l.zipIdx.foldl (fun n x => if f x.1 then n + 2 ^ x.2 else n) 0)

/-- The mask of the ON sites. -/
def Cell.onMask (k : Cell) : Byte := siteMask (·.state == .on) k.sites

/-- A site's target: its pending change if it has one, and otherwise its state (R57). -/
def Site.target (x : Site) : SiteState := x.change.getD x.state

/-- The mask of the sites whose target is ON (R57). -/
def Cell.targetMask (k : Cell) : Byte := siteMask (·.target == .on) k.sites

/-- A cause set is empty. -/
def Causes.isEmpty (x : Causes) : Bool :=
  !(x.handlerLink || x.testerLink || x.atHandler || x.temp || x.kit || x.cal || x.barred || x.noSites)

/-- A waiting-for set is empty. -/
def Waiting.isEmpty (x : Waiting) : Bool := !(x.temp || x.program || x.tally || x.sites || x.cal)

/-- R45: the cause set of a formed cell, derived from its inputs; empty without a current lot. -/
def State.deriveCauses (s : State) (c : CellNo) (k : Cell) : Causes :=
  match s.currentLot? c with
  | none => {}
  | some l =>
    { handlerLink := !s.inService k.handlerPort
      testerLink := !s.inService k.testerPort
      atHandler := s.strict && s.cells[c].enable && k.mode == .atHandler
      temp := k.soak != .soaked
      kit := (s.product? l.product).any (·.kit != k.kit)
      cal := (s.stepDef? l l.step).any fun d => !s.marginPasses k.testerPort d
      barred := s.slots[k.testerPort].barred
      noSites := !k.anyOn }

/-- R47: the waiting-for set of a STARTING cell, derived from its inputs. -/
def State.deriveWaiting (s : State) (c : CellNo) (k : Cell) : Waiting :=
  match s.currentLot? c with
  | none => {}
  | some l =>
    { temp := k.soak != .soaked
      program := (s.stepDef? l l.step).any fun d =>
        !s.activeCurrent k.testerPort d.program || s.slots[k.testerPort].swap.isSome
      tally := !l.tally
      sites := !k.anyOn
      cal := (s.stepDef? l l.step).any fun d => !s.marginPasses k.testerPort d }

/-! ## Holds on a lot (R129, R132, R136) -/

/-- The lot carries an open IMMEDIATE hold, or its overflow flag is set (R132). -/
def State.stopsNow (s : State) (l : Lot) : Bool :=
  l.overflow || s.holds.any fun h => h.lot == l.id && h.severity == .immediate

/-- The lot carries an open IMMEDIATE or AT_END hold, or its overflow flag is set. -/
def State.stopped (s : State) (l : Lot) : Bool :=
  l.overflow || s.holds.any fun h => h.lot == l.id && h.severity != .ship

/-! ## Eligibility (R64) and the choice of a cell (R67) -/

/-- The step's setpoint lies within the announced chamber range of a handler port. -/
def State.inChamber (s : State) (p : Port) (d : StepDef) : Bool :=
  match s.ports[p].data with
  | some (.handler _ lo hi _ _ _) => decide (lo ≤ d.setpoint ∧ d.setpoint ≤ hi)
  | _ => false

/-- R64: the cell is eligible for the lot's current step. -/
def State.eligible (s : State) (c : CellNo) (l : Lot) : Bool :=
  match s.cell? c, s.product? l.product, s.stepDef? l l.step with
  | some k, some g, some d =>
    s.director c
      && s.cells[c].enable
      && s.inService k.handlerPort && s.inService k.testerPort
      && s.inChamber k.handlerPort d
      && k.kit == g.kit
      && !s.slots[k.testerPort].barred
      && s.marginPasses k.testerPort d
      && (s.program? d.program).isSome
      && k.anyOn
  | _, _, _ => false

/-- The number of filled entries of a dispatch queue. -/
def DispatchQueue.filled (q : DispatchQueue) : Nat := q.behind.length + (if q.current.isSome then 1 else 0)

/-- R63: all four entries are filled. -/
def DispatchQueue.isFull (q : DispatchQueue) : Bool := decide (4 ≤ q.filled)

/-- R67: the rank of an eligible cell for a lot's step under the first three tie-breaks, lower first; the fourth is cell
order. -/
def State.rank (s : State) (c : CellNo) (k : Cell) (d : StepDef) : Nat :=
  4 * s.queues[c].filled
    + (if k.setpoint == some d.setpoint then 0 else 2)
    + (if s.activeCurrent k.testerPort d.program || s.readyCurrent k.testerPort d.program then 0 else 1)

/-- The first of a list with the lowest rank. -/
def leastBy {α : Type} (rank : α → Nat) : List α → Option α
  | [] => none
  | x :: xs =>
    match leastBy rank xs with
    | none => some x
    | some y => if rank y < rank x then some y else some x

/-- The cell of a list chosen for a lot's step by R67. -/
def State.choose (s : State) (l : Lot) (cs : List CellNo) : Option CellNo :=
  leastBy (fun c => match s.cell? c, s.stepDef? l l.step with
    | some k, some d => s.rank c k d
    | _, _ => 0) cs

/-- A lot's priority is HOT. -/
def State.isHot (s : State) (id : Nat) : Bool := (s.lot? id).any (·.priority == .hot)

/-- R62: the wait key, HOT before NORMAL and each in ascending entry sequence. -/
def Lot.waitKey (l : Lot) : Nat := (if l.priority == .hot then 0 else 2 * Config.wrap32) + l.seq

/-- The wait key of a lot named by its id. -/
def State.waitKeyOf (s : State) (id : Nat) : Nat := ((s.lot? id).map (·.waitKey)).getD 0

/-! ## Tallies and limits (R109, R110, R118, R121, R123 to R125) -/

/-- The sum of the counts of a list. -/
def total (l : List Nat) : Nat := l.foldl (· + ·) 0

/-- R110: the total of retested units. -/
def Tally.retested (t : Tally) : Nat := total t.x.toList

/-- R110: the final counts. -/
def Tally.final (t : Tally) : Vector Nat 16 := Vector.ofFn fun b : Fin 16 => t.c1[b] + t.c2[b] - t.x[b]

/-- R109: the tally is complete for a step's input quantity and a retest set. -/
def Tally.complete (t : Tally) (input : Nat) (retest : BitVec 16) : Bool :=
  t.n1 == input && (List.range 16).all fun b => !retest.getLsbD b || t.x[b]? == t.c1[b]?

/-- R121: a ratio shown to the host, absent when n is 0. -/
def ratio (c n : Nat) : Option Nat := if n = 0 then none else some (c * 10000 / n)

/-- The count of a class. -/
def classCount (v : Vector Nat 16) (b : Nat) : Nat := v[b]?.getD 0

/-- R118: a limit breaches on the evaluated counts. -/
def breachesRunning (t : Tally) (m : LimitRec) : Bool :=
  match m.kind with
  | .yieldFloor => decide (classCount t.ce 0 * 10000 < m.value * t.ne)
  | .classCeiling => decide (m.value * t.ne < classCount t.ce m.cls * 10000)
  | .recoveryCeiling => false

/-- R123, R124: a limit breaches at close on the final counts. -/
def breachesClose (t : Tally) (m : LimitRec) : Bool :=
  match m.kind with
  | .yieldFloor => decide (classCount t.final 0 * 10000 < m.value * t.n1)
  | .classCeiling => decide (m.value * t.n1 < classCount t.final m.cls * 10000)
  | .recoveryCeiling => decide (1 ≤ t.retested) && decide (m.value * t.retested < classCount t.c2 0 * 10000)

/-- The limits of a running evaluation: phase RUNNING or BOTH (R117). -/
def LimitRec.runs (m : LimitRec) : Bool := m.phase != .close

/-- The limits of a close evaluation: phase CLOSE or BOTH (R123). -/
def LimitRec.closes (m : LimitRec) : Bool := m.phase != .running

/-- The reason of a hold a limit raises (R119, R123). -/
def LimitRec.reason (m : LimitRec) : Reason :=
  match m.kind with
  | .yieldFloor => .yieldFloor
  | .classCeiling => .classCeiling
  | .recoveryCeiling => .recoveryCeiling

/-- R125: the unreadable check breaches. -/
def unreadableBreach (t : Tally) (ceiling : Nat) : Bool := decide (ceiling * max t.n1 1 < t.u * 10000)

/-! ## Reconciliation (R150) -/

/-- Section 9.3: T[p], the sum of the final counts over the classes mapped to bin p. -/
def binTotals (t : Tally) (bins : Vector Nat 16) : Vector Nat 8 :=
  Vector.ofFn fun p : Fin 8 =>
    (List.range 16).foldl (fun n b => if bins[b]? == some p.val then n + classCount t.final b else n) 0

/-- Check A: the handler's account is whole, and it loaded no more than the lot brought. -/
def checkA (r : StepRec) : Bool :=
  total r.bins.toList + r.jammed == r.loaded && decide (r.loaded ≤ r.input.getD 0)

/-- Check B: the tester saw no unit the handler did not load, and missed few that it did. -/
def checkB (r : StepRec) (t : Tally) (tolerance : Nat) : Bool :=
  decide (t.n1 ≤ r.loaded ∧ r.loaded - t.n1 ≤ tolerance + t.u)

/-- The distance of two counts. -/
def distance (a b : Nat) : Nat := (a - b) + (b - a)

/-- Check C: each bin holds what the tester's classes sent to it. -/
def checkC (r : StepRec) (t : Tally) (g : Product) : Bool :=
  (List.range 8).all fun p =>
    decide (distance (r.bins[p]?.getD 0) ((binTotals t g.bins)[p]?.getD 0) ≤ g.tolerance + t.u)

/-! ## Release (R157) -/

/-- A step record that release admits: CLOSED with reconciliation PASS or ACCEPTED. -/
def StepRec.reconciled (r : StepRec) : Bool := r.status == .closed && (r.recon == .pass || r.recon == .accepted)

/-- The step records of a lot's route, in route order. -/
def State.routeSteps (s : State) (l : Lot) : List StepRec := l.steps.toList.take (s.routeLength l)

/-- R157: the lot's release cause in a group with an allow-extended value, or none when it is fit to ship. -/
def State.releaseCause (s : State) (l : Lot) (allowExtended : Bool) : Option ReleaseCause :=
  if l.state != .complete then some .notComplete
  else if l.overflow || s.holds.any (·.lot == l.id) then some .held
  else if !(s.routeSteps l).all StepRec.reconciled then some .unreconciled
  else if !allowExtended && (s.routeSteps l).any (·.margin == .extended) then some .extended
  else if l.quantity = 0 then some .zeroQuantity
  else none

end Sys2Proof.Machine
end

