-- ==== Sys2Proof/Machine/Ops.lean ====
section
/-! DEFINITION. The operations the blocks share: moves of a lot, the wait list and the dispatch queues, changes of a cell's
state and sites, the loader's service decision, tallies, and the raising of holds. An operation that another block must be
told of returns the notices it owes, in order; Machine/Notices.lean delivers them within the taking. -/

namespace Sys2Proof.Machine

/-- What one block tells another within a taking. Each is delivered by `deliver` (Machine/Notices.lean). -/
inductive Notice where
  /-- An input of the cell's readiness or start may have changed: derive both sets again and act (R45, R47 to R49). -/
  | refresh (c : CellNo)
  /-- The cell's eligibility inputs have changed (R65). -/
  | eligibility (c : CellNo)
  /-- The current lot leaves entry 0 for a state, with the close section of a close (R53). -/
  | leave (c : CellNo) (dest : LotState) (close : Option CloseSection)
  /-- Entry 0 is free (R53, R74); `preempted` when the lot that left went to the save context. -/
  | fill (c : CellNo) (preempted : Bool)
  /-- A lot has come to entry 0 (R76). -/
  | start (c : CellNo)
  /-- The waiting-for set is empty (R78). -/
  | feed (c : CellNo)
  /-- The cell is to drain for a purpose (R50). -/
  | drain (c : CellNo) (purpose : Purpose)
  /-- The drain's counts are lost (R52). -/
  | countsLost (c : CellNo)
  /-- The preemption check (R70). -/
  | preemptCheck (c : CellNo)
  /-- Completeness of the lot's tally is judged (R109). -/
  | complete (lot : Nat)
  /-- A request to raise a hold (R130). -/
  | raise (q : HoldReq)
  /-- END counts close the step (R148 steps 1 and 2). -/
  | closeStep (c : CellNo)
  /-- R148 step 3. -/
  | reconcile (c : CellNo)
  /-- R148 steps 4 to 6. -/
  | closeRecord (c : CellNo)
  /-- R148 steps 7 to 9, with the close section. -/
  | closeMove (c : CellNo) (section_ : CloseSection)
  /-- A tally has been freed (R77). -/
  | tallyFreed
  /-- The margin of the tester on a port is computed, and told when it differs (R95). -/
  | consult (p : Port)
  /-- A new margin or bar of the tester on a port is told to the cell manager (R88, R95). -/
  | testerTold (p : Port)
  /-- The service decision (R85). -/
  | service (p : Port)
  /-- A handler port's claim is judged (R38). -/
  | judgeClaim (p : Port)
  /-- The claims naming a tester that are not FORMED are judged (R39). -/
  | retryClaims (tester : Nat)
  /-- A cell is dissolved (R40); the handler's new claim is judged at the end of a dissolution by a changed claim. -/
  | dissolve (c : CellNo) (why : DissolveCause)
  /-- The rest of a dissolution (R40, R41); `lost` when the current lot's counts were lost. -/
  | dissolveRest (c : CellNo) (why : DissolveCause) (lost : Bool)
  /-- The site monitor judges a unit's site (R116, R126). -/
  | monitor (c : CellNo) (site : Nat)
  /-- The divider of a lot's tally has reached D by a unit of a site (R116, R117). -/
  | evaluate (c : CellNo) (lot site : Nat)
  /-- The evaluation counter is moved and judged (R120). -/
  | evaluated (c : CellNo) (lot : Nat)
  /-- The TALLY report when the evaluation counter has reached the report divider (R120). -/
  | tallyReport (c : CellNo) (lot : Nat)
  /-- The assignment pass ends when no lot of its reading is left (R66). -/
  | passEnd
  /-- The rest of a LOT_DROP, from R18 step 4 on. -/
  | dropRest (lot : Nat)
  /-- The report of a disposition and the judgement of the lot's return (R138, R143). -/
  | disposed (hold : Hold) (disposition : Disposition)
  deriving DecidableEq, Repr

/-- A changed state and the notices owed, in order. -/
abbrev Told := State × List Notice

/-! ## Moves of a lot (R8, R9, R62, R136) -/

/-- The cell a LOT_STATE report shows for a location (R9). -/
def Location.cell? : Location → Option CellNo
  | .absent => none
  | .queue c _ => some c
  | .save c => some c

/-- R9: the lot table takes a move, recording state and location together, and places the LOT_STATE report. -/
def State.moveLot (s : State) (id : Nat) (dest : LotState) (loc : Location) (close : Option CloseSection := none) : State :=
  match s.lot? id with
  | none => s
  | some l =>
    place (.lotState id (some l.state) (.state dest) l.step l.quantity loc.cell? close)
      (s.modLot id fun l => { l with state := dest, location := loc })

/-- A trigger of the assignment engine (R66). -/
def State.trigger (s : State) : State := { s with pass := { s.pass with pending := true } }

/-- A lot leaves the wait list. -/
def State.leaveWait (s : State) (id : Nat) : State := { s with waitList := s.waitList.filter (· != id) }

/-- A lot joins the wait list at the position of its key (R62); its joining is a trigger, and a pass being made does not
take it (R66). -/
def State.joinWait (s : State) (id : Nat) : State :=
  ({ s with
    waitList := insertAsc s.waitKeyOf id (s.waitList.filter (· != id))
    pass := { s.pass with remaining := s.pass.remaining.filter (· != id) } }).trigger

/-- A move to WAITING, and on to HELD in the same taking when the lot carries a stopping hold or the flag (R136). -/
def State.toWaiting (s : State) (id : Nat) (close : Option CloseSection := none) : State :=
  let s := (s.moveLot id .waiting .absent close).joinWait id
  match s.lot? id with
  | some l => if s.stopped l then (s.leaveWait id).moveLot id .held .absent else s
  | none => s

/-! ## Dispatch queues (R63) -/

/-- The lot table records the entry number of each lot of a queue (R8). -/
def State.renumber (s : State) (c : CellNo) : State :=
  let q := s.queues[c]
  let entries := (q.current.toList.map fun id => (id, 0)) ++ q.behind.zipIdx 1
  entries.foldl (fun s e => s.modLot e.1 fun l => { l with location := .queue c e.2 }) s

/-- A lot is put behind entry 0 at the position of its key. -/
def State.insertBehind (s : State) (c : CellNo) (id : Nat) : State :=
  (s.modQueue c fun q => { q with behind := insertAsc s.waitKeyOf id q.behind }).renumber c

/-- A lot at entry 1, 2 or 3 leaves the queue and the lots behind it move up; the freed entry is a trigger (R66). -/
def State.removeBehind (s : State) (c : CellNo) (id : Nat) : State :=
  ((s.modQueue c fun q => { q with behind := q.behind.filter (· != id) }).renumber c).trigger

/-! ## Reports of a cell and its sites (R57 to R59, R112) -/

/-- The CELL_STATE report of a formed cell with a previous state (R59). -/
def reportCell (c : CellNo) (prev : Option CellState) (s : State) : State :=
  match s.cell? c with
  | none => s
  | some k => place (.cellState c prev (some k.state) k.handlerId k.testerId (s.current? c) k.purpose k.causes k.waiting none) s

/-- Bit k of a blanking edge set marks the (k+1)th edge (Table 12-3). -/
def Edge.bit : Edge → Nat
  | .start => 0
  | .resume => 1
  | .kit => 2
  | .siteOn => 3
  | .clean => 4

/-- R112: an edge is fired for the current lot's tally. It acts while the cell is fed and the tally's step has the edge in
its set, and sets the blanking counter of each affected site to Bk. -/
def fireEdge (e : Edge) (c : CellNo) (affects : Nat → Site → Bool) (s : State) : State :=
  match s.cell? c, s.currentLot? c with
  | some k, some l =>
    match s.tally? l.id with
    | some t =>
      match s.stepDef? l t.step with
      | some d =>
        if k.segment.isSome && d.edges.getLsbD e.bit then
          s.modCell c fun k => { k with sites := k.sites.zipIdx.map fun x => if affects x.2 x.1 then { x.1 with blank := d.blank } else x.1 }
        else s
      | none => s
    | none => s
  | _, _ => s

/-- R58: a site's pending change is made. -/
def makeChange (c : CellNo) (s : State) (i : Nat) : State :=
  match s.cell? c with
  | none => s
  | some k =>
    match k.sites[i]? with
    | none => s
    | some x =>
      match x.change with
      | none => s
      | some st =>
        let s := s.modCell c fun k => { k with sites := k.sites.set i { x with state := st, change := none } }
        let s := place (.siteChange c i x.state st) s
        if st = .on then fireEdge .siteOn c (fun j _ => j == i) s else s

/-- R58: the pending changes of all sites are made, in ascending site order. -/
def makeChanges (c : CellNo) (s : State) : State := (List.range 8).foldl (makeChange c) s

/-- What a change of the ON set owes: NO_SITES and SITES are judged, and the engine is told (R58). -/
def onSetNotices (c : CellNo) (before after : State) : List Notice :=
  if (before.cell? c).map Cell.onMask = (after.cell? c).map Cell.onMask then [] else [.refresh c, .eligibility c]

/-- A formed cell enters a state other than RUNNING: the pending changes it holds are made, after the entry (R57). -/
def leaveRunning (c : CellNo) (s : State) : Told := (makeChanges c s, onSetNotices c s (makeChanges c s))

/-! ## Setpoint and soak (R46) -/

/-- R46: D_SETPOINT for a step is sent, and the setpoint, band and soak time are written into the cell record. -/
def writeSetpoint (c : CellNo) (d : StepDef) (s : State) : State :=
  match s.cell? c with
  | none => s
  | some k =>
    let same := k.setpoint == some d.setpoint
    let timer := if same && k.soak == .settling then k.soakTimer.map fun t => { t with limit := d.soak } else none
    let done := expired timer s.elapsed
    send k.handlerPort (.setpoint d.setpoint)
      (s.modCell c fun k =>
        { k with
          setpoint := some d.setpoint
          band := some d.band
          soakTime := some d.soak
          soak := if !same then .out else if done then .soaked else k.soak
          soakTimer := if done then none else timer })

/-- The step of a cell's current lot. -/
def State.currentStep? (s : State) (c : CellNo) : Option StepDef := (s.currentLot? c).bind fun l => s.stepDef? l l.step

/-- R46: D_SETPOINT for the current step. -/
def sendSetpoint (c : CellNo) (s : State) : State :=
  match s.currentStep? c with
  | none => s
  | some d => writeSetpoint c d s

/-! ## The program loader (R85, R94 to R97) -/

/-- A LOAD_STATE report with the record's values after the event (R97). -/
def reportLoad (p : Port) (o : LoadOutcome) (program : Option (Nat × Nat)) (s : State) : State :=
  let t := s.slots[p]
  place (.loadState p t.equip o program t.failures t.barred t.active t.staged) s

/-- R85: the service decision. In case 2 it issues nothing, and `deliver` tells the cell manager. -/
def serve (p : Port) (s : State) : State :=
  let t := s.slots[p]
  match t.request with
  | none => s
  | some id =>
    if t.inFlight || t.barred || !s.inService p then s
    else
      match s.program? id with
      | none => s
      | some g =>
        if t.active = some (g.id, g.revision) then s
        else if t.staged = .ready g.id g.revision then
          reportLoad p .swapIssued (some (g.id, g.revision))
            (send p .swap (s.modSlot p fun t => { t with swap := some (s.timer Config.swapTimeout) }))
        else
          reportLoad p .loadIssued (some (g.id, g.revision))
            (send p (.load g.id g.revision)
              (s.modSlot p fun t => { t with staged := .loading g.id g.revision (s.timer g.loadLimit) }))

/-- R85 case 2: a service decision finds the requested program active at its current revision. -/
def State.requestActive (s : State) (p : Port) : Bool :=
  let t := s.slots[p]
  t.request.any fun id => !t.inFlight && !t.barred && s.inService p && s.activeCurrent p id

/-- R84: the tester's program request is set or cleared. -/
def setRequest (p : Port) (r : Option Nat) (s : State) : State := s.modSlot p fun t => { t with request := r }

/-- R96: the step of an open segment becomes EXTENDED when the tester's margin passes it only by extension. -/
def markExtended (p : Port) (s : State) : State :=
  match (s.cellOfTester? p).bind s.cell? with
  | none => s
  | some k =>
    match k.segment with
    | none => s
    | some g =>
      match (s.lot? g.lot).bind fun l => s.stepDef? l g.step with
      | none => s
      | some d => if s.marginByExtension p d then s.modStep g.lot g.step fun r => { r with margin := .extended } else s

/-- R94, R95: the margin of a tester in use is computed and stored, and R96 is applied. -/
def computeMargin (p : Port) (s : State) : State :=
  match s.slots[p].use, s.slots[p].cal with
  | .inUse, some k => markExtended p (s.modSlot p fun t => { t with margin := some (k.margin s.floorTime) })
  | _, _ => s

/-- R95: ΔT, age or the used margin differs from the values held. -/
def marginDiffers (p : Port) (before after : State) : Bool :=
  (before.slots[p].margin.map fun m => (m.delta, m.age, m.used)) != (after.slots[p].margin.map fun m => (m.delta, m.age, m.used))

/-- R95: a consultation of the tester on a port, which computes its margin afresh; the notice is owed when it differs. -/
def consultMargin (p : Port) (s : State) : Told :=
  (computeMargin p s, if marginDiffers p s (computeMargin p s) then [.testerTold p] else [])

/-! ## Tallies (R77, R106) -/

/-- R106: a free tally is given to a lot, with every count 0. -/
def giveTally (id : Nat) (s : State) : State :=
  match s.lot? id with
  | none => s
  | some l => ({ s with tallies := s.tallies ++ [{ lot := id, step := l.step : Tally }] } : State).modLot id fun l => { l with tally := true }

/-- R77: a started lot that has no tally is given a free one, or its cell joins the tally wait order. -/
def askTally (c : CellNo) (id : Nat) (s : State) : State :=
  if (s.lot? id).any (·.tally) then s
  else if s.tallies.length < Config.maxTallies then giveTally id s
  else if s.tallyWait.contains c then s
  else { s with tallyWait := s.tallyWait ++ [c] }

/-- R106: the tally of a lot is freed and the lot table clears the reference. -/
def freeTally (id : Nat) (s : State) : State :=
  ({ s with tallies := s.tallies.filter (·.lot != id) }).modLot id fun l => { l with tally := false }

/-! ## Draining and pausing (R48 to R50) -/

/-- R50: entry to DRAINING with a purpose; a drain entered with HANDLER_LINK present ends at once with its counts lost. -/
def enterDrain (c : CellNo) (purpose : Purpose) (s : State) : Told :=
  match s.cell? c with
  | none => (s, [])
  | some k =>
    let s := s.modCell c fun k =>
      { k with state := .draining, purpose := some purpose, withdrawTimer := none, drainTimer := some (s.timer s.params.drain) }
    let s := reportCell c (some k.state) (send k.handlerPort .stop s)
    let r := leaveRunning c s
    (r.1, (if k.causes.handlerLink then [.countsLost c] else []) ++ r.2)

/-- R48, R55: entry to PAUSED: D_HALT when the handler's link is up, the withdraw timer, the report. -/
def enterPaused (c : CellNo) (s : State) : Told :=
  match s.cell? c with
  | none => (s, [])
  | some k =>
    let s := s.modCell c fun k => { k with state := .paused, withdrawTimer := some (s.timer s.params.withdraw) }
    let s := if k.causes.handlerLink then s else send k.handlerPort .halt s
    leaveRunning c (reportCell c (some k.state) s)

/-- R49, R55: entry to RUNNING from PAUSED or MANUAL: D_CONTINUE, the RESUME edge, the divider counter cleared, the
report, and the preemption check (R70). -/
def resumeRunning (c : CellNo) (s : State) : Told :=
  match s.cell? c with
  | none => (s, [])
  | some k =>
    let s := s.modCell c fun k => { k with state := .running, withdrawTimer := none }
    let s := send k.handlerPort .continue_ s
    let s := fireEdge .resume c (fun _ x => x.state == .on) s
    let s := match s.current? c with
      | some id => s.modTally id fun t => { t with divider := 0 }
      | none => s
    (reportCell c (some k.state) s, [.preemptCheck c])

/-- R54: entry to MANUAL. -/
def enterManual (c : CellNo) (s : State) : Told :=
  match s.cell? c with
  | none => (s, [])
  | some k => leaveRunning c (reportCell c (some k.state) (s.modCell c fun k => { k with state := .manual, withdrawTimer := none }))

/-! ## Holds (R129 to R135) -/

/-- R129: the lowest id from `n` upward that no record of an ascending list holds. -/
def lowestFree : Nat → List Hold → Nat
  | n, [] => n
  | n, h :: hs => if h.id = n then lowestFree (n + 1) hs else n

/-- R131: the higher of two severities. -/
def Severity.max : Severity → Severity → Severity
  | .immediate, _ => .immediate
  | _, .immediate => .immediate
  | .atEnd, _ => .atEnd
  | _, .atEnd => .atEnd
  | .ship, .ship => .ship

/-- R129: the open record of the same lot that agrees with a request in reason, class and step. -/
def State.matching? (s : State) (q : HoldReq) : Option Hold :=
  s.holds.find? fun h => h.lot == q.lot && h.reason == q.reason && h.cls == q.cls && h.step == q.step

/-- R131: a note of zero bytes is none. -/
def noteOf : Option (List Byte) → Option (List Byte)
  | some [] => none
  | n => n

/-- R131: a request merged into a record. -/
def Hold.merge (h : Hold) (q : HoldReq) : Hold :=
  { h with
    occurrences := min 255 (h.occurrences + 1)
    severity := h.severity.max q.severity
    capture := q.capture.or h.capture
    note := (noteOf q.note).or h.note }

/-- R129: the record a stored request makes. -/
def HoldReq.record (q : HoldReq) (id now : Nat) : Hold :=
  { id := id, lot := q.lot, reason := q.reason, cls := q.cls, step := q.step, severity := q.severity, origin := q.origin,
    occurrences := 1, raised := now, capture := q.capture, note := noteOf q.note }

/-- R129: the three outcomes of a request. -/
inductive RaiseOutcome where
  | merged (h : Hold)
  | stored (h : Hold)
  | overflowed
  deriving DecidableEq, Repr

/-- R129: the outcome of a request to raise a hold on a lot. -/
def State.judgeRaise (s : State) (q : HoldReq) (l : Lot) : RaiseOutcome :=
  match s.matching? q with
  | some h => .merged (h.merge q)
  | none =>
    if l.holds.length < Config.maxLotHolds ∧ s.holds.length < Config.maxHolds then
      .stored (q.record (lowestFree 1 s.holds) s.floorTime)
    else .overflowed

/-- The cell of an ACTIVE lot. -/
def State.activeCell? (s : State) (l : Lot) : Option Cell := (l.location.cell?).bind s.cell?

/-- R134, R135: the lot's state after the effect of a hold; `now` for an IMMEDIATE hold or the overflow flag. -/
def State.stateAfterHold (s : State) (l : Lot) (now : Bool) : LotState :=
  match l.state with
  | .waiting => .held
  | .queued => .held
  | .active =>
    match s.activeCell? l with
    | none => .active
    | some k =>
      match k.state with
      | .starting => .held
      | .running => if now && k.segment.isSome && k.causes.handlerLink then .held else .active
      | .paused => if now && k.segment.isSome && k.causes.handlerLink then .held else .active
      | _ => .active
  | other => other

/-- R134, R135: the effect of a stopping hold on its lot. -/
def holdEffect (id : Nat) (now : Bool) (s : State) : Told :=
  match s.lot? id with
  | none => (s, [])
  | some l =>
    match l.state with
    | .waiting => ((s.leaveWait id).moveLot id .held .absent, [])
    | .queued =>
      match l.location with
      | .queue c _ => ((s.removeBehind c id).moveLot id .held .absent, [])
      | _ => (s, [])
    | .active =>
      match l.location.cell?, s.activeCell? l with
      | some c, some k =>
        match k.state with
        | .starting => (s, [.leave c .held none])
        | .running => (s, if now then [.drain c .hold] else [])
        | .paused => (s, if now then [.drain c .hold] else [])
        | _ => (s, [])
      | _, _ => (s, [])
    | _ => (s, [])

/-- R129 to R133: the record part of an answer, before the report: merge, store or overflow. -/
def storeHold (q : HoldReq) (l : Lot) (s : State) : State :=
  match s.judgeRaise q l with
  | .merged h => { s with holds := s.holds.map fun x => if x.id == h.id then h else x }
  | .stored h => ({ s with holds := insertAsc Hold.id h s.holds }).modLot q.lot fun l => { l with holds := l.holds ++ [h.id] }
  | .overflowed => s.modLot q.lot fun l => { l with overflow := true }

/-- The severity whose effect an answer has: `none` for SHIP, and otherwise whether it acts at once. -/
def RaiseOutcome.stops : RaiseOutcome → Option Bool
  | .merged h => if h.severity = .immediate then some true else if h.severity = .atEnd then some false else none
  | .stored h => if h.severity = .immediate then some true else if h.severity = .atEnd then some false else none
  | .overflowed => some true

/-- R133: the HOLD_RAISED report of an answer. -/
def raisedReport (q : HoldReq) (o : RaiseOutcome) (after : LotState) (now : Nat) : Report :=
  match o with
  | .merged h => .holdRaised h false true after now
  | .stored h => .holdRaised h false false after now
  | .overflowed => .holdRaised { q.record 0 0 with occurrences := 0 } true false after now

/-- R130: a request to raise a COUNT_LOST hold returns an ACCEPTED reconciliation of its step to NONE. -/
def withdrawAcceptance (q : HoldReq) (s : State) : State :=
  if q.reason = .countLost then
    s.modStep q.lot q.step fun r => if r.recon = .accepted then { r with recon := .none } else r
  else s

/-- R129 to R135: the hold table answers a request to raise a hold: the record, the report, the effect. -/
def raiseHold (q : HoldReq) (s : State) : Told :=
  match s.lot? q.lot with
  | none => (s, [])
  | some l =>
    let o := s.judgeRaise q l
    let s1 := storeHold q l (withdrawAcceptance q s)
    match o.stops with
    | none => (place (raisedReport q o l.state s.floorTime) s1, [])
    | some now => holdEffect q.lot now (place (raisedReport q o (s.stateAfterHold l now) s.floorTime) s1)

end Sys2Proof.Machine
end

