-- ==== Sys2Proof/Machine/CellOps.lean ====
section
/-! DEFINITION. What the cell manager and the assignment engine do with a cell when a notice reaches it: the sets derived
again, eligibility, the departure of the current lot, the filling of entry 0, the start, the first feed, drains, lost
counts, the preemption check, dock claims, formation and dissolution. Each function does its own part of a rule and
returns the notices that carry the rule on, in order. -/

namespace Sys2Proof.Machine

/-! ## Readiness (R42, R45, R47 to R49) -/

/-- The two sets of a cell are written. -/
def writeSets (c : CellNo) (causes : Causes) (waiting : Waiting) (s : State) : State :=
  s.modCell c fun k => { k with causes := causes, waiting := waiting }

/-- R47: what makes the unfed lot of a STARTING cell leave entry 0 and go WAITING. -/
def State.leavesUnfed (s : State) (c : CellNo) (x : Causes) : Bool :=
  x.handlerLink || x.testerLink || x.kit || x.barred || !s.director c

/-- R47, R76: a STARTING cell whose sets have been derived. The lot leaves, or the sets are written, a change of the
waiting-for set is reported, and the first feed is due when the set is empty and LOCAL is absent. -/
def refreshStarting (c : CellNo) (k : Cell) (l : Lot) (s : State) : Told :=
  let causes := s.deriveCauses c k
  let waiting := s.deriveWaiting c k
  if s.leavesUnfed c causes then (s, [.leave c .waiting none])
  else if s.stopped l then (s, [.leave c .held none])
  else
    let t := writeSets c causes waiting s
    let t := if waiting = k.waiting then t else reportCell c (some .starting) t
    (t, if waiting.isEmpty && !causes.atHandler then [.feed c] else [])

/-- R48: a RUNNING cell pauses when its cause set becomes non-empty. -/
def refreshRunning (c : CellNo) (k : Cell) (s : State) : Told :=
  let causes := s.deriveCauses c k
  let t := writeSets c causes {} s
  if causes.isEmpty then (t, []) else enterPaused c t

/-- R42: the messages to a handler whose link has come up again under a PAUSED cell: D_SETPOINT and D_MASK with the sites
whose target is ON. -/
def sendReturn (c : CellNo) (k : Cell) (s : State) : State := send k.handlerPort (.mask k.targetMask) (sendSetpoint c s)

/-- R42, R48, R49: a PAUSED cell resumes when its cause set empties, and reports a change of it otherwise. -/
def refreshPaused (c : CellNo) (k : Cell) (s : State) : Told :=
  let back := k.causes.handlerLink && s.inService k.handlerPort
  let s := if back then sendReturn c k s else s
  let causes := s.deriveCauses c ((s.cell? c).getD k)
  let s := writeSets c causes {} s
  if causes.isEmpty then resumeRunning c s
  else
    let s := if back && !causes.handlerLink then send k.handlerPort .halt s else s
    (if causes = k.causes then s else reportCell c (some .paused) s, [])

/-- R50, R52: a DRAINING cell keeps its cause set up to date, and its counts are lost when the handler's link is down. -/
def refreshDraining (c : CellNo) (k : Cell) (s : State) : Told :=
  let causes := s.deriveCauses c k
  (writeSets c causes {} s, if causes.handlerLink then [.countsLost c] else [])

/-- R45: the sets of a formed cell are derived again, with the margin consulted (R95), and the cell acts on them by its
state. A cell without a current lot has empty sets. -/
def refreshCell (c : CellNo) (s : State) : Told :=
  match s.cell? c with
  | none => (s, [])
  | some k =>
    match s.currentLot? c with
    | none => (writeSets c {} {} s, [])
    | some l =>
      let m := consultMargin k.testerPort s
      let r := match k.state with
        | .starting => refreshStarting c k l m.1
        | .running => refreshRunning c k m.1
        | .paused => refreshPaused c k m.1
        | .draining => refreshDraining c k m.1
        | .manual => (writeSets c (m.1.deriveCauses c k) {} m.1, [])
        | .idle => (writeSets c (m.1.deriveCauses c k) {} m.1, [])
      (r.1, r.2 ++ m.2)

/-! ## Eligibility (R65) -/

/-- R65: a queued lot the cell is not eligible for returns to the wait list. -/
def returnQueued (c : CellNo) (s : State) (id : Nat) : State := (s.removeBehind c id).toWaiting id

/-- The lots behind entry 0 for which the cell is not eligible, in entry order. -/
def State.ineligible (s : State) (c : CellNo) : List Nat :=
  s.queues[c].behind.filter fun id => (s.lot? id).any fun l => !s.eligible c l

/-- R65: the setpoint of a STARTING cell's current step no longer lies in the chamber range. -/
def State.outOfChamber (s : State) (c : CellNo) : Bool :=
  (s.cell? c).any fun k => k.state == .starting && (s.currentStep? c).any fun d => !s.inChamber k.handlerPort d

/-- The tester of a cell is consulted when the cell has queued lots to judge (R95). -/
def consultForQueue (c : CellNo) (s : State) : Told :=
  match s.cell? c with
  | none => (s, [])
  | some k => if s.queues[c].behind.isEmpty then (s, []) else consultMargin k.testerPort s

/-- R65: the engine takes a notice that a cell's eligibility inputs have changed. -/
def eligibilityChanged (c : CellNo) (s : State) : Told :=
  let m := consultForQueue c s
  let t := if (s.cell? c).isSome then (m.1.ineligible c).foldl (returnQueued c) m.1 else m.1
  (t.trigger, (if t.outOfChamber c then [.leave c .waiting none] else []) ++ m.2)

/-! ## The current lot leaves and entry 0 is filled (R53, R72, R74, R75) -/

/-- R53: the cell's part of a departure of the current lot. -/
def clearCurrent (c : CellNo) (s : State) : State :=
  ({ s.modQueue c (fun q => { q with current := none }) with tallyWait := s.tallyWait.filter (· != c) } : State).modCell c
    fun k => { k with segment := none, withdrawTimer := none, drainTimer := none, causes := {}, waiting := {}, purpose := none }

/-- The move of a lot that leaves entry 0 for a state (R53). -/
def moveOut (c : CellNo) (id : Nat) (dest : LotState) (close : Option CloseSection) (s : State) : State :=
  match dest with
  | .waiting => s.toWaiting id close
  | .saved => (s.setSave c (some id)).moveLot id .saved (.save c) close
  | other => s.moveLot id other .absent close

/-- R53: the current lot leaves entry 0 for a state; entry 0 is then to be filled. -/
def leaveCell (c : CellNo) (dest : LotState) (close : Option CloseSection) (s : State) : Told :=
  match s.cell? c, s.current? c with
  | some _, some id =>
    ((moveOut c id dest close (clearCurrent c s)).trigger, [.fill c (dest == .saved)])
  | _, _ => (s, [])

/-- R53: with nothing to take entry 0 the cell goes IDLE, and its tester's program request becomes none (R84). -/
def goIdle (c : CellNo) (s : State) : Told :=
  match s.cell? c with
  | none => (s, [])
  | some k =>
    leaveRunning c (reportCell c (some k.state)
      (setRequest k.testerPort none (s.modCell c fun k => { k with state := .idle })))

/-- R74: a lot comes to entry 0 and becomes ACTIVE. -/
def toEntry0 (c : CellNo) (id : Nat) (behind : List Nat) (s : State) : State :=
  ((s.modQueue c fun _ => { current := some id, behind := behind }).moveLot id .active (.queue c 0)).renumber c

/-- R74 cases 1, 3 and 4: the lot at entry 1 moves up, or the cell goes IDLE. -/
def moveUp (c : CellNo) (s : State) : Told :=
  match s.queues[c].behind with
  | [] => goIdle c s
  | id :: rest => ((toEntry0 c id rest s).trigger, [.start c])

/-- R75: the restore of a saved lot. -/
def restoreLot (c : CellNo) (k : Cell) (id : Nat) (s : State) : Told :=
  match s.lot? id with
  | none => moveUp c (s.setSave c none)
  | some l =>
    if s.stopped l then moveUp c ((s.setSave c none).moveLot id .held .absent)
    else
      let m := consultMargin k.testerPort s
      if m.1.eligible c l then
        (toEntry0 c id m.1.queues[c].behind (m.1.setSave c none), [.start c, .preemptCheck c] ++ m.2)
      else
        let r := moveUp c ((m.1.setSave c none).toWaiting id)
        (r.1, r.2 ++ m.2)

/-- R53: a saved lot leaves the save context of a cell that is not director-owned and enabled. -/
def emptySave (c : CellNo) (s : State) : State :=
  match s.saves[c] with
  | none => s
  | some id =>
    match s.lot? id with
    | none => s.setSave c none
    | some l => if s.stopped l then (s.setSave c none).moveLot id .held .absent else (s.setSave c none).toWaiting id

/-- R53, R74: entry 0 is free. A director-owned, enabled cell is filled; any other goes IDLE with its save context
emptied. -/
def fillEntry (c : CellNo) (preempted : Bool) (s : State) : Told :=
  match s.cell? c, s.current? c with
  | some k, none =>
    if s.director c then
      match s.saves[c] with
      | some id => if preempted then moveUp c s else restoreLot c k id s
      | none => moveUp c s
    else goIdle c (emptySave c s)
  | _, _ => (s, [])

/-! ## Start and first feed (R76 to R78) -/

/-- R76: a lot that has come to entry 0 is started. The `refresh` that follows judges R47 and the first feed. -/
def startLot (c : CellNo) (s : State) : Told :=
  match s.cell? c, s.current? c, s.currentStep? c with
  | some k, some id, some d =>
    let s1 := sendSetpoint c (s.modCell c fun k => { k with state := .starting })
    let s2 := serve k.testerPort (setRequest k.testerPort (some d.program) (askTally c id s1))
    let m := consultMargin k.testerPort s2
    let k2 := (m.1.cell? c).getD k
    let s3 := reportCell c (some k.state) (writeSets c (m.1.deriveCauses c k2) (m.1.deriveWaiting c k2) m.1)
    let r := leaveRunning c s3
    (r.1, r.2 ++ m.2 ++ [.refresh c])
  | _, _, _ => (s, [])

/-- The channel mask of D_LOT: the ON sites below the tester's channel count (R78). -/
def State.channelMask (s : State) (k : Cell) : Byte :=
  match s.ports[k.testerPort].data with
  | some (.tester channels _ _ _ _ _ _) => siteMask (·.state == .on) (k.sites.take channels)
  | _ => 0

/-- R78: the conditions of the first feed, judged on the present state of each input. -/
def State.mayFeed (s : State) (c : CellNo) (k : Cell) (l : Lot) : Bool :=
  k.state == .starting && s.director c && (s.deriveWaiting c k).isEmpty && !(s.deriveCauses c k).atHandler && !s.stopped l

/-- R11: a PENDING step opens with the lot's current quantity as its input quantity. -/
def openStep (l : Lot) (s : State) : State :=
  s.modStep l.id l.step fun r => if r.status = .pending then { r with status := .opened, input := some l.quantity } else r

/-- R78 steps 4 and 5, with R113: the segment opens, its totals are zero, and every site's sequences and counters start
afresh. -/
def openSegment (c : CellNo) (l : Lot) (s : State) : State :=
  s.modCell c fun k =>
    { k with
      segment := some { lot := l.id, step := l.step, feedTime := s.floorTime }
      lastSegment := some { lot := l.id, step := l.step, feedTime := s.floorTime }
      segLoaded := 0
      segBins := Vector.replicate 8 0
      segJammed := 0
      sites := k.sites.map fun x => { x with expFirst := 1, expRetest := 1, blank := 0, run := 0 } }

/-- R78: the first feed. Completeness is judged once the feed has made the cell RUNNING, and a complete tally drains the segment
for END at once (R109), so the preemption check of step 8 then finds the cell DRAINING. -/
def feedCell (c : CellNo) (s : State) : Told :=
  match s.cell? c, s.currentLot? c with
  | some k, some l =>
    match s.product? l.product, s.stepDef? l l.step with
    | some g, some d =>
      let m := consultMargin k.testerPort s
      if m.1.mayFeed c k l then
        let s1 := send k.testerPort (.lot (l.id % 65536) l.step (m.1.channelMask k)) m.1
        let s2 := send k.handlerPort (.feed l.id l.step k.onMask g.bins g.retest) s1
        let s3 := openStep l s2
        let s4 := if m.1.marginByExtension k.testerPort d then s3.modStep l.id l.step fun r => { r with margin := .extended } else s3
        let s5 := fireEdge .start c (fun _ x => x.state == .on) (openSegment c l s4)
        let s6 := setRequest k.testerPort none (s5.modCell c fun k => { k with state := .running, causes := {}, waiting := {} })
        (reportCell c (some .starting) s6, [.complete l.id, .preemptCheck c] ++ m.2)
      else (m.1, m.2)
    | _, _ => (s, [])
  | _, _ => (s, [])

/-! ## Drains (R50, R52), preemption (R70 to R72) and the return from MANUAL (R55) -/

/-- R50: a fed cell in RUNNING or PAUSED goes to DRAINING; in any other state the cause changes nothing. -/
def drainCell (c : CellNo) (purpose : Purpose) (s : State) : Told :=
  match s.cell? c with
  | none => (s, [])
  | some k =>
    if (k.state = .running ∨ k.state = .paused) ∧ k.segment.isSome then enterDrain c purpose s else (s, [])

/-- The COUNT_LOST request for a segment whose counts are lost (R40, R52, R146). -/
def lostRequest (lot step : Nat) : HoldReq := { lot := lot, reason := .countLost, step := step, severity := .atEnd }

/-- The count-lost flag of a segment's step is set and the segment closes. -/
def loseSegment (c : CellNo) (g : Segment) (s : State) : State :=
  (s.modStep g.lot g.step fun r => { r with countLost := true }).modCell c fun k => { k with segment := none, drainTimer := none }

/-- R52: the drain of a DRAINING cell ends with its counts lost. The hold just raised, or the flag set in its place, sends
the lot HELD. -/
def loseCounts (c : CellNo) (s : State) : Told :=
  match s.cell? c with
  | none => (s, [])
  | some k =>
    match k.segment with
    | none => (s, [])
    | some g =>
      if k.state = .draining then (loseSegment c g s, [.raise (lostRequest g.lot g.step), .leave c .held none]) else (s, [])

/-- R70: the conditions of preemption other than the cell's state. -/
def State.meetsPreemption (s : State) (c : CellNo) : Bool :=
  (s.currentLot? c).any (·.priority == .normal) && s.queues[c].behind.head?.any s.isHot
    && s.cells[c].preemptEnable && s.saves[c].isNone

/-- R70 to R73: the preemption check. -/
def checkPreempt (c : CellNo) (s : State) : Told :=
  match s.cell? c with
  | none => (s, [])
  | some k =>
    if s.meetsPreemption c then
      match k.state with
      | .running => (s, [.drain c .preempt])
      | .starting => (s, if s.slots[k.testerPort].swap.isSome then [] else [.leave c .saved none])
      | _ => (s, [])
    else (s, [])

/-- R55: a MANUAL cell whose handler mode turns REMOTE. Completeness is judged in the cell's new state (R109), before the
preemption check that an entry to RUNNING owes (R70), as at a first feed (log entry 18). -/
def returnFromManual (c : CellNo) (s : State) : Told :=
  match s.cell? c, s.currentLot? c with
  | some k, some l =>
    let m := consultMargin k.testerPort (send k.handlerPort (.mask k.onMask) (sendSetpoint c s))
    let causes := m.1.deriveCauses c ((m.1.cell? c).getD k)
    let t := writeSets c causes {} m.1
    let r :=
      if t.stopsNow l then enterDrain c .hold t
      else if !t.cells[c].enable then enterDrain c .disable t
      else if !causes.isEmpty then enterPaused c t
      else resumeRunning c t
    (r.1, [.complete l.id] ++ r.2 ++ m.2)
  | _, _ => (s, [])

/-- R43, R54, R55: a formed cell's handler mode is written, and the cell acts on the change by its state. -/
def changeMode (c : CellNo) (mode : Mode) (s : State) : Told :=
  match s.cell? c with
  | none => (s, [])
  | some k =>
    let t := s.modCell c fun k => { k with mode := mode }
    if k.mode = mode then (t, [])
    else if mode = .remote then
      if k.state = .manual then returnFromManual c t else (t, [])
    else if s.strict || !s.cells[c].enable then (t, [])
    else
      match k.state with
      | .starting => (t, [.leave c .waiting none])
      | .running => enterManual c t
      | .paused => enterManual c t
      | _ => (t, [])

/-! ## Site changes (R57, R58, R126) -/

/-- R57: a change that alters a site's target is written as its pending change, or removes the pending change when the
site would return to its present state, and D_MASK is handed to the handler except in MANUAL. -/
def setTarget (c : CellNo) (i : Nat) (st : SiteState) (s : State) : State :=
  match s.cell? c with
  | none => s
  | some k =>
    let same (x : Site) : Bool := x.state == st || (st == .offMonitor && x.state != .on)
    let s := s.modCell c fun k => { k with sites := k.sites.zipIdx.map fun x =>
      if x.2 = i then { x.1 with change := if same x.1 then none else some st } else x.1 }
    if k.state = .manual then s else send k.handlerPort (.mask (((s.cell? c).getD k).targetMask)) s

/-- R57, R58: outside RUNNING a site's pending change is made at once. -/
def settleSite (c : CellNo) (i : Nat) (s : State) : Told :=
  match s.cell? c with
  | none => (s, [])
  | some k => if k.state = .running then (s, []) else (makeChange c s i, onSetNotices c s (makeChange c s i))

/-- R57: an OFF of kind FORCED on a site whose target is an OFF of kind MONITOR changes the kind, and sends no D_MASK. -/
def forceKind (c : CellNo) (i : Nat) (s : State) : State :=
  s.modCell c fun k => { k with sites := k.sites.zipIdx.map fun x =>
    if x.2 = i then
      { x.1 with
        state := if x.1.change = none then .offForced else x.1.state
        change := x.1.change.map fun _ => .offForced }
    else x.1 }

/-- R57: a SITE_FORCE on a site of the cell, ON or OFF of kind FORCED. -/
def forceSite (c : CellNo) (i : Nat) (on : Bool) (s : State) : Told :=
  match (s.cell? c).bind fun k => k.sites[i]? with
  | none => (s, [])
  | some x =>
    match on, x.target with
    | true, .on => (s, [])
    | true, _ => settleSite c i (setTarget c i .on s)
    | false, .on => settleSite c i (setTarget c i .offForced s)
    | false, .offMonitor => (forceKind c i s, [])
    | false, .offForced => (s, [])

/-- R127: the capture of a unit of a site, on a lot's tally. -/
def State.capture (s : State) (c : CellNo) (site : Nat) (t : Tally) : Capture :=
  { time := s.floorTime, cell := c, site := site,
    sequence := (((s.cell? c).bind fun k => k.sites[site]?).map fun x => x.expFirst - 1).getD 0,
    n1 := t.n1, ne := t.ne }

/-- R126: the site monitor acts on a unit of a site. -/
def monitorSite (c : CellNo) (i : Nat) (s : State) : Told :=
  match s.cell? c, s.current? c with
  | some k, some id =>
    match k.sites[i]?, s.tally? id with
    | some x, some t =>
      let s := s.modCell c fun k => { k with sites := k.sites.set i { x with run := 0 } }
      if x.target = .on then
        settleSite c i (place (.siteRequested c id i (s.capture c i t)) (setTarget c i .offMonitor s))
      else (s, [])
    | _, _ => (s, [])
  | _, _ => (s, [])

/-! ## Dock claims and formation (R37 to R39) -/

/-- A claim's status is written. -/
def setClaim (p : Port) (st : ClaimStatus) (s : State) : State :=
  { s with claims := s.claims.map fun x => if x.port == p then { x with status := st } else x }

/-- The site table made at formation: one record per announced site, each ON (Table 3-5). -/
def freshSites (n : Nat) : List Site := List.replicate n {}

/-- R38: the cell formed from a handler port and a tester port. -/
def State.newCell (s : State) (p q : Port) : Cell :=
  let ids (r : PortRec) : Nat := r.equip.getD 0
  match s.ports[p].data with
  | some (.handler sites _ _ kit _ mode) =>
    { handlerPort := p, testerPort := q, handlerId := ids s.ports[p], testerId := ids s.ports[q], mode := mode, kit := kit,
      sites := freshSites sites }
  | _ =>
    { handlerPort := p, testerPort := q, handlerId := ids s.ports[p], testerId := ids s.ports[q], mode := .remote, kit := 0,
      sites := [] }

/-- R38: a PORT_STATE report with the DOCK_CONFLICT indication, and no change of state. -/
def reportConflict (p : Port) (tester : Nat) (c : CellNo) (s : State) : State :=
  let r := s.ports[p]
  place (.portState p r.state r.state r.role r.equip none r.checkFailed none (some (tester, c))) s

/-- R38: a claim that is not FORMED is judged. -/
def judgeClaim (p : Port) (s : State) : Told :=
  match s.claims.find? (·.port == p) with
  | none => (s, [])
  | some x =>
    if x.status = .formed then (s, [])
    else
      match s.testerPort? x.tester with
      | none => (setClaim p .waiting s, [])
      | some q =>
        match s.cellOfTester? q with
        | some c => (reportConflict p x.tester c (setClaim p .conflict s), [])
        | none =>
          match allCells.find? fun c => (s.cell? c).isNone with
          | none => (setClaim p .waiting s, [])
          | some c =>
            if s.inService p && (s.cellOfHandler? p).isNone then
              (reportCell c none ((setClaim p .formed s).modCellRec c fun r => { r with formed := some (s.newCell p q) }),
                [.eligibility c])
            else (setClaim p .waiting s, [])

/-- R39: the claims that name a tester and are not FORMED are judged in claim-list order. -/
def retryClaims (tester : Nat) (s : State) : Told :=
  (s, (s.claims.filter fun x => x.tester == tester && x.status != .formed).map fun x => .judgeClaim x.port)

/-- R37: a claim is taken from a handler's docked tester id. A claim that names another id, or none, dissolves the
handler's cell, and the new claim is then judged. -/
def takeClaim (p : Port) (tester : Nat) (s : State) : Told :=
  let old := s.claims.find? (·.port == p)
  if old.any (·.tester == tester) then (s, [.judgeClaim p])
  else
    let kept := s.claims.filter (·.port != p)
    let s := { s with claims := if tester = 0 then kept else kept ++ [{ port := p, tester := tester, status := .waiting }] }
    (s, match s.cellOfHandler? p with
      | some c => [.dissolve c .dockChanged]
      | none => [.judgeClaim p])

/-! ## Dissolution (R40, R41) -/

/-- R40: a dissolution begins with the current lot; a fed cell's counts are lost. The segment closes before the COUNT_LOST hold
is raised (log entry 24). -/
def dissolveCell (c : CellNo) (why : DissolveCause) (s : State) : Told :=
  match s.cell? c, s.current? c with
  | some k, some _ =>
    match k.segment with
    | some g => (loseSegment c g s, [.raise (lostRequest g.lot g.step), .dissolveRest c why true])
    | none => (s, [.dissolveRest c why false])
  | some _, none => (s, [.dissolveRest c why false])
  | none, _ => (s, [])

/-- R40, R41 steps 1 and 2: the lots of a dissolved cell leave it. -/
def dissolveLots (c : CellNo) (lost : Bool) (s : State) : State :=
  let q := s.queues[c]
  let saved := s.saves[c]
  let s := (s.modQueue c fun _ => {}).setSave c none
  let s := match q.current with
    | none => s
    | some id => if lost then s.moveLot id .held .absent else s.toWaiting id
  (saved.toList ++ q.behind).foldl (fun s id => s.toWaiting id) s

/-- R40, R41: the rest of a dissolution. -/
def dissolveRest (c : CellNo) (why : DissolveCause) (lost : Bool) (s : State) : Told :=
  match s.cell? c with
  | none => (s, [])
  | some k =>
    let s := dissolveLots c lost s
    let s := (setRequest k.testerPort none s).modCellRec c fun r => { r with formed := none }
    let s := { s with tallyWait := s.tallyWait.filter (· != c) }
    let s := place (.cellState c (some k.state) none k.handlerId k.testerId none none {} {} (some why)) s
    (s.trigger,
      (if s.inService k.testerPort then [.retryClaims k.testerId] else [])
        ++ (if why = .dockChanged then [.judgeClaim k.handlerPort] else []))

end Sys2Proof.Machine
end

