-- ==== Sys2Proof/Machine/Judge.lean ====
section
/-! DEFINITION. What follows a notice in the limit evaluator, the close, result intake and the lot table: completeness,
running evaluation, the close of a step, the freeing of a tally, the end of a pass, the rest of a drop, and the report and
return of a disposition. -/

namespace Sys2Proof.Machine

/-! ## Completeness (R109) and freed tallies (R77) -/

/-- R109: the tally of an ACTIVE lot is judged, and a complete one is told to its cell. -/
def judgeComplete (id : Nat) (s : State) : Told :=
  match s.lot? id, s.tally? id with
  | some l, some t =>
    match l.location, s.product? l.product, (l.stepRec t.step).input with
    | .queue c 0, some g, some n => (s, if t.complete n g.retest then [.drain c .ending] else [])
    | _, _, _ => (s, [])
  | _, _ => (s, [])

/-- R77: a freed tally goes to the first cell of the tally wait order, which leaves the order. -/
def tallyFreed (s : State) : Told :=
  match s.tallyWait with
  | [] => (s, [])
  | c :: rest =>
    if s.tallies.length < Config.maxTallies then
      match s.current? c with
      | some id => (giveTally id { s with tallyWait := rest }, [.refresh c])
      | none => ({ s with tallyWait := rest }, [.tallyFreed])
    else (s, [])

/-- R106: a lot's tally, if it holds one, is freed and the engine is told. -/
def dropTally (l : Lot) (s : State) : Told := if l.tally then (freeTally l.id s, [.tallyFreed]) else (s, [])

/-! ## Running evaluation (R117 to R120) -/

/-- R119: the request for a limit breached by a running evaluation. -/
def runningRequest (t : Tally) (x : Capture) (m : LimitRec) : HoldReq :=
  { lot := t.lot, reason := m.reason, cls := m.cls, step := t.step, severity := .immediate, capture := some x }

/-- R117: the limits of a running evaluation that breach, in list order. -/
def runningBreaches (t : Tally) (d : StepDef) : List LimitRec := d.limits.filter fun m => m.runs && breachesRunning t m

/-- R116: the divider counter of a lot's tally equals D of its step. It is judged as the unit has just left the counter, before
what the site monitor causes. -/
def evaluationDue (id : Nat) (s : State) : Bool :=
  match s.lot? id, s.tally? id with
  | some l, some t => (s.stepDef? l t.step).any fun d => t.divider == d.divider
  | _, _ => false

/-- R116, R117: an evaluation point, which `evaluationDue` has found. The divider counter is set to 0 and, once n_e has reached
Smin, a running evaluation is made. -/
def evaluateRunning (c : CellNo) (id site : Nat) (s : State) : Told :=
  match s.lot? id, s.tally? id with
  | some l, some t =>
    match s.stepDef? l t.step with
    | none => (s, [])
    | some d =>
      let s1 := s.modTally id fun t => { t with divider := 0 }
      if t.ne < d.smin then (s1, [])
      else (s1, (runningBreaches t d).map (fun m => .raise (runningRequest t (s.capture c site t) m)) ++ [.evaluated c id])
  | _, _ => (s, [])

/-- R120: after a running evaluation the evaluation counter is increased while the report divider is non-zero. -/
def countEvaluation (c : CellNo) (id : Nat) (s : State) : Told :=
  match (s.lot? id).bind fun l => (s.tally? id).bind fun t => s.stepDef? l t.step with
  | none => (s, [])
  | some d =>
    if d.reportDivider = 0 then (s, [])
    else (s.modTally id fun t => { t with evaluations := t.evaluations + 1 }, [.tallyReport c id])

/-- R120: the TALLY report of a tally. -/
def tallyReportOf (c : CellNo) (t : Tally) (d : StepDef) (now : Nat) : Report :=
  .tally t.lot t.step c t.n1 t.ne t.ce (ratio (classCount t.ce 0) t.ne)
    ((d.limits.filter fun m => m.kind == .classCeiling && m.runs).map fun m => (m.cls, ratio (classCount t.ce m.cls) t.ne))
    t.u t.retested (classCount t.c2 0) now

/-- R120: when the evaluation counter equals a non-zero report divider, a TALLY report is placed and the counter is set
to 0. -/
def reportTally (c : CellNo) (id : Nat) (s : State) : Told :=
  match s.lot? id, s.tally? id with
  | some l, some t =>
    match s.stepDef? l t.step with
    | none => (s, [])
    | some d =>
      if d.reportDivider ≠ 0 ∧ t.evaluations = d.reportDivider then
        (place (tallyReportOf c t d s.floorTime) (s.modTally id fun t => { t with evaluations := 0 }), [])
      else (s, [])
  | _, _ => (s, [])

/-! ## The close of a step (R123 to R125, R148 to R152) -/

/-- R123, R124: the limits of a close evaluation that breach, in list order; none when n1 is below Smin. -/
def closeBreaches (t : Tally) (d : StepDef) : List LimitRec :=
  if t.n1 < d.smin then [] else d.limits.filter fun m => m.closes && breachesClose t m

/-- R123: the request for a limit breached at close. -/
def closeRequest (t : Tally) (m : LimitRec) : HoldReq :=
  { lot := t.lot, reason := m.reason, cls := m.cls, step := t.step, severity := .atEnd }

/-- R125: the request of the unreadable check. -/
def unreadableRequest (t : Tally) : HoldReq := { lot := t.lot, reason := .resultFault, step := t.step, severity := .atEnd }

/-- R150: the request of a failed reconciliation. -/
def mismatchRequest (lot step : Nat) : HoldReq := { lot := lot, reason := .countMismatch, step := step, severity := .atEnd }

/-- The tally of a cell's current lot; a lot without one is judged on zero counts (a fed lot always holds one, R148). -/
def State.closingTally (s : State) (l : Lot) : Tally := (s.tally? l.id).getD { lot := l.id, step := l.step }

/-- R147, R148 steps 1 and 2: END counts close the segment, the close evaluation is made, then the unreadable check. -/
def closeStep (c : CellNo) (s : State) : Told :=
  match s.currentLot? c with
  | none => (s, [])
  | some l =>
    match s.stepDef? l l.step with
    | none => (s, [])
    | some d =>
      let t := s.closingTally l
      let s1 := s.modCell c fun k => { k with segment := none, withdrawTimer := none, drainTimer := none }
      (s1, (closeBreaches t d).map (fun m => .raise (closeRequest t m))
        ++ (if unreadableBreach t s.params.unreadable then [.raise (unreadableRequest t)] else [])
        ++ [.reconcile c])

/-- R151: the lot carries an open COUNT_LOST record of a step. -/
def State.hasLostRecord (s : State) (lot step : Nat) : Bool :=
  s.holds.any fun h => h.lot == lot && h.reason == .countLost && h.step == step

/-- R148 step 3: reconciliation by R150, or its outcome settled by R151. -/
def reconcileStep (c : CellNo) (s : State) : Told :=
  match s.currentLot? c with
  | none => (s, [])
  | some l =>
    match s.product? l.product with
    | none => (s, [])
    | some g =>
      let t := s.closingTally l
      let r := l.stepRec l.step
      let record (o : Recon) : State := s.modStep l.id l.step fun r => { r with recon := o }
      if r.countLost then
        if r.recon = .accepted then (s, [.closeRecord c])
        else
          (record .lost,
            (if s.hasLostRecord l.id l.step then [] else [.raise (lostRequest l.id l.step)]) ++ [.closeRecord c])
      else if checkA r && checkB r t g.tolerance && checkC r t g then (record .pass, [.closeRecord c])
      else (record .mismatch, [.raise (mismatchRequest l.id l.step), .closeRecord c])

/-- R149: the lot's quantity after a close. -/
def closeQuantity (r : StepRec) : Nat := min r.bins[0] (r.input.getD 0)

/-- R152: the close section of a step that is closing. -/
def closeSectionOf (l : Lot) (t : Tally) (g : Product) (now : Nat) : CloseSection :=
  let r := l.stepRec l.step
  let failed (ok : Bool) : Bool := r.recon == .mismatch && !ok
  { step := l.step, recon := r.recon, failA := failed (checkA r), failB := failed (checkB r t g.tolerance),
    failC := failed (checkC r t g), loaded := r.loaded, bins := r.bins, jammed := r.jammed, n1 := t.n1, u := t.u,
    totals := binTotals t g.bins, goodOut := closeQuantity r, closeTime := now }

/-- R148 steps 4 to 6: quantity, good out and close time, and the tally freed. -/
def closeRecord (c : CellNo) (s : State) : Told :=
  match s.currentLot? c with
  | none => (s, [])
  | some l =>
    match s.product? l.product with
    | none => (s, [])
    | some g =>
      let q := closeQuantity (l.stepRec l.step)
      let s1 := (s.modLot l.id fun l => { l with quantity := q }).modStep l.id l.step fun r =>
        { r with goodOut := some q, closeTime := some s.floorTime, status := .closed }
      let f := dropTally l s1
      (f.1, f.2 ++ [.closeMove c (closeSectionOf l (s.closingTally l) g s.floorTime)])

/-- R149: where a closed lot, with its index advanced, goes. -/
def State.closeDest (s : State) (l : Lot) : LotState :=
  if s.stopped l then .held else if l.step = s.routeLength l then .complete else .waiting

/-- R148 steps 7 to 9: the index advances, and the lot leaves entry 0 with the report of the close. -/
def closeMove (c : CellNo) (section_ : CloseSection) (s : State) : Told :=
  match s.currentLot? c with
  | none => (s, [])
  | some l =>
    (s.modLot l.id fun l => { l with step := l.step + 1 },
      [.leave c (s.closeDest { l with step := l.step + 1 }) (some section_)])

/-! ## The end of a pass (R66) -/

/-- R66: a pass whose reading is exhausted ends, and the preemption check is made on every cell whose entry 1 changed,
in the order in which the pass first changed them (log entry 43). -/
def endPass (s : State) : Told :=
  if s.pass.making ∧ s.pass.remaining = [] then
    ({ s with pass := { s.pass with making := false, changed := [] } }, s.pass.changed.map fun c => .preemptCheck c)
  else (s, [])

/-! ## Leaving a ship group (R156) -/

/-- R156: a lot leaves its group's list; a group emptied by a remove or a drop loses its product id. -/
def leaveGroup (l : Lot) (s : State) : State :=
  match l.group with
  | none => s
  | some g =>
    (s.modGroup g fun x =>
      let rest := x.lots.filter (· != l.id)
      { x with lots := rest, product := if rest.isEmpty then none else x.product }).modLot l.id fun l => { l with group := none }

/-! ## Drops and dispositions (R18, R138 to R143) -/

/-- R7: the entry sequence counter returns to 0 when the lot table has become empty. -/
def resetEntrySeq (s : State) : State := if s.lots.isEmpty then { s with entrySeq := 0 } else s

/-- R18 steps 4 to 7: the hold records are deleted with their reports, the lot record is removed and with it its place in the
wait list (step 1), and its removal is reported. A HOLD_CLEARED report of the drop shows the lot's values before its removal (log
entry 42). -/
def dropRest (id : Nat) (s : State) : Told :=
  match s.lot? id with
  | none => (s, [])
  | some l =>
    let clear (s : State) (h : Nat) : State :=
      match s.hold? h with
      | none => s
      | some x => place (.holdCleared id (some x) .dropped l.state l.step l.quantity) { s with holds := s.holds.filter (·.id != h) }
    let s := l.holds.foldl clear s
    let s := ({ s with lots := s.lots.filter (·.id != id) } : State).leaveWait id
    (resetEntrySeq (place (.lotState id (some l.state) .dropped l.step l.quantity none none) s), [])

/-- R143: where a disposition sends a lot, or none where it stays. -/
def State.returnDest (s : State) (l : Lot) : Option LotState :=
  match l.state with
  | .held => if s.stopped l then none else some (if l.step < s.routeLength l then .waiting else .complete)
  | .complete => if l.step < s.routeLength l then some (if s.stopped l then .held else .waiting) else none
  | _ => none

/-- R143: the lot is judged for its return to the flow. -/
def returnLot (id : Nat) (s : State) : State :=
  match s.lot? id with
  | none => s
  | some l =>
    match s.returnDest l with
    | none => s
    | some .waiting => s.toWaiting id
    | some other => s.moveLot id other .absent

/-- R138, R142: the HOLD_CLEARED report of a disposition, which shows the lot after the taking. -/
def reportCleared (id : Nat) (h : Option Hold) (d : Disposition) (s : State) : State :=
  match s.lot? id with
  | none => s
  | some l => place (.holdCleared id h d ((s.returnDest l).getD l.state) l.step l.quantity) s

/-- R138, R143: the report of a disposition and the lot's return. -/
def reportDisposed (h : Hold) (d : Disposition) (s : State) : Told := (returnLot h.lot (reportCleared h.lot (some h) d s), [])

end Sys2Proof.Machine
end

