-- ==== Sys2Proof/Machine/Notices.lean ====
section
/-! DEFINITION. One taking: the notices between blocks are delivered, each with the notices it owes before the next, until
none is left; then the transmitter chooses (R164). Here too is the taking of the oldest request of the input buffer
(R163). -/

namespace Sys2Proof.Machine

/-- What the block a notice is for does with it. -/
def deliver (n : Notice) (s : State) : Told :=
  match n with
  | .refresh c => refreshCell c s
  | .eligibility c => eligibilityChanged c s
  | .leave c dest close => leaveCell c dest close s
  | .fill c preempted => fillEntry c preempted s
  | .start c => startLot c s
  | .feed c => feedCell c s
  | .drain c purpose => drainCell c purpose s
  | .countsLost c => loseCounts c s
  | .preemptCheck c => checkPreempt c s
  | .complete lot => judgeComplete lot s
  | .raise q => raiseHold q s
  | .closeStep c => closeStep c s
  | .reconcile c => reconcileStep c s
  | .closeRecord c => closeRecord c s
  | .closeMove c section_ => closeMove c section_ s
  | .tallyFreed => tallyFreed s
  | .consult p => consultMargin p s
  | .testerTold p =>
    (s, match s.cellOfTester? p with
      | some c => [.refresh c, .eligibility c]
      | none => [])
  | .service p =>
    (serve p s, match s.requestActive p, s.cellOfTester? p with
      | true, some c => [.refresh c]
      | _, _ => [])
  | .judgeClaim p => judgeClaim p s
  | .retryClaims tester => retryClaims tester s
  | .dissolve c why => dissolveCell c why s
  | .dissolveRest c why lost => dissolveRest c why lost s
  | .monitor c site => monitorSite c site s
  | .evaluate c lot site => evaluateRunning c lot site s
  | .evaluated c lot => countEvaluation c lot s
  | .tallyReport c lot => reportTally c lot s
  | .passEnd => endPass s
  | .dropRest lot => dropRest lot s
  | .disposed hold disposition => reportDisposed hold disposition s

/-- Notices are delivered in order, those a delivery owes before those that waited behind it; `none` when the bound is
reached with notices left. -/
def run : Nat → List Notice → State → Option State
  | _, [], s => some s
  | 0, _ :: _, _ => none
  | fuel + 1, n :: ns, s => run fuel ((deliver n s).2 ++ ns) (deliver n s).1

/-- R164: between frames the transmitter chooses the next frame to send: the oldest unsent reply when it has been formed,
otherwise the report at the head of the queue, otherwise none. -/
def transmit (s : State) : State :=
  match s.sending with
  | some _ => s
  | none =>
    match s.unanswered with
    | .request kind tag _ (some r) :: _ => { s with sending := some (.reply kind tag r) }
    | .busy kind tag :: _ => { s with sending := some (.reply kind tag (.plain .busy)) }
    | _ =>
      match s.reports with
      | r :: _ => { s with sending := some (.report r true) }
      | [] => s

/-- The end of a taking: its notices are delivered and the transmitter chooses. -/
def settle (ns : List Notice) (s : State) : Host.Outcome State Fault Refusal :=
  match run Config.noticeBound ns s with
  | some t => .next (transmit t)
  | none => .fault .unsettled

/-! ## Requests (R163, R170) -/

/-- The oldest request of the input buffer that has not been taken: kind, tag and body. -/
def oldestUntaken : List HostEntry → Option (Byte × Byte × List Byte)
  | [] => none
  | .request kind tag body none :: _ => some (kind, tag, body)
  | _ :: rest => oldestUntaken rest

/-- The reply of the oldest untaken request is formed. -/
def formReply (r : Reply) : List HostEntry → List HostEntry
  | [] => []
  | .request kind tag body none :: rest => .request kind tag body (some r) :: rest
  | e :: rest => e :: formReply r rest

/-- R163: the reply is formed at the end of the taking. -/
def answer (r : Reply) (s : State) : State := { s with unanswered := formReply r s.unanswered }

/-- A taking of a request ends: its notices are delivered, the reply is formed, and the transmitter chooses. -/
def answered (r : Reply) (ns : List Notice) (s : State) : Host.Outcome State Fault Refusal :=
  match run Config.noticeBound ns s with
  | some t => .next (transmit (answer r t))
  | none => .fault .unsettled

/-- A request answered with a status alone and no change of other state. -/
def refuse (st : Status) (s : State) : Host.Outcome State Fault Refusal := answered (.plain st) [] s

/-- R163: the oldest untaken request is taken when it is one this row stands for, and its body is judged against the
layout of its kind. Where there is no such request the row's event does not occur, and nothing changes (log entry 7). -/
def takeRequest (mine : Byte → List Byte → Bool) (s : State) (f : List Byte → Host.Outcome State Fault Refusal) :
    Host.Outcome State Fault Refusal :=
  match oldestUntaken s.unanswered with
  | none => .next s
  | some (kind, _, body) =>
    if mine kind body then (if bodyFits kind body then f body else refuse .malformed s) else .next s

/-- The rows of one kind. -/
def ofKind (k : Byte) (kind : Byte) (_ : List Byte) : Bool := kind == k

end Sys2Proof.Machine
end

