-- ==== Sys2Proof/Machine/Assignment.lean ====
section
/-! DEFINITION. The assignment engine's pass (R66 to R68), one waiting lot a taking. -/

namespace Sys2Proof.Machine

/-- The lot at entry 1 of a cell's queue. -/
def State.entry1 (s : State) (c : CellNo) : Option Nat := s.queues[c].behind.head?

/-- R95: eligibility consults the tester of every formed cell, in order of cell number; the notices of margins that changed are
delivered after the placement (log entry 43). -/
def consultAll (s : State) : Told :=
  allCells.foldl (fun r c =>
    match r.1.cell? c with
    | none => r
    | some k =>
      let m := consultMargin k.testerPort r.1
      (m.1, r.2 ++ m.2)) (s, [])

/-- R66: a cell whose entry 1 a placement changed is remembered for the check at the pass's end. -/
def noteChanged (c : CellNo) (before after : State) : State :=
  if before.entry1 c = after.entry1 c ∨ after.pass.changed.contains c then after
  else { after with pass := { after.pass with changed := after.pass.changed ++ [c] } }

/-- R67: the chosen cell takes the lot: at entry 0 of an IDLE cell, where it is started, or behind entry 0. -/
def placeLot (c : CellNo) (id : Nat) (s : State) : Told :=
  match s.current? c with
  | none =>
    (((s.leaveWait id).modQueue c fun q => { q with current := some id }).moveLot id .active (.queue c 0), [.start c])
  | some _ =>
    let t := ((s.leaveWait id).modQueue c fun q => { q with behind := insertAsc s.waitKeyOf id q.behind })
    let n := (t.queues[c].behind.findIdx (· == id)) + 1
    (noteChanged c s ((t.moveLot id .queued (.queue c n)).renumber c), [])

/-- R68: the last NORMAL lot behind entry 0 of a cell. -/
def State.bumped? (s : State) (c : CellNo) : Option Nat := (s.queues[c].behind.filter fun id => !s.isHot id).getLast?

/-- R68: the bumped lot returns to the wait list and the HOT lot takes its place behind entry 0. -/
def bumpFor (c : CellNo) (old id : Nat) (s : State) : State :=
  let t := (s.removeBehind c old).toWaiting old
  noteChanged c s (placeLot c id t).1

/-- The cells eligible for a lot's current step, in number order. -/
def State.eligibleCells (s : State) (l : Lot) : List CellNo := allCells.filter fun c => s.eligible c l

/-- R66 to R68: a lot that is still WAITING is placed, bumps a lot, or stays. -/
def judgeWaiting (l : Lot) (s : State) : Told :=
  let m := consultAll s
  let s := m.1
  let cells := s.eligibleCells l
  match s.choose l (cells.filter fun c => !s.queues[c].isFull) with
  | some c =>
    let r := placeLot c l.id s
    (r.1, r.2 ++ m.2)
  | none =>
    if l.priority = .hot then
      match s.choose l (cells.filter fun c => s.queues[c].isFull && (s.bumped? c).isSome) with
      | some c =>
        match s.bumped? c with
        | some old => (bumpFor c old l.id s, m.2)
        | none => (s, m.2)
      | none => (s, m.2)
    else (s, m.2)

/-- R66: a pass begins on its reading of the wait list; the triggers so far are answered by it. -/
def beginPass (s : State) : State :=
  { s with pass := { pending := false, making := true, remaining := s.waitList, changed := [] } }

/-- R66: the next lot of the pass's reading is judged. -/
def passStep (s : State) : Told :=
  match s.pass.remaining with
  | [] => (s, [.passEnd])
  | id :: rest =>
    let t := { s with pass := { s.pass with remaining := rest } }
    match t.lot? id with
    | none => (t, [.passEnd])
    | some l =>
      if l.state = .waiting then
        let r := judgeWaiting l t
        (r.1, r.2 ++ [.passEnd])
      else (t, [.passEnd])

/-- ASSIGNMENT_PASS (R66): the engine judges the next waiting lot of a pass in its own taking, beginning the pass that a
trigger asked for when none is being made. -/
def execAssignmentPass (s : State) : Host.Outcome State Fault Refusal :=
  if s.pass.making then settle (passStep s).2 (passStep s).1
  else if s.pass.pending then settle (passStep (beginPass s)).2 (passStep (beginPass s)).1
  else .next s

end Sys2Proof.Machine
end

