-- ==== Sys2Proof/Machine/Ports.lean ====
section
/-! DEFINITION. The equipment link unit (Chapter 2): presence and lane lock, the link check, announce, the judgement of
control-lane messages and result-lane frames by port state, PORT_RESET and PORT_CHECK. -/

namespace Sys2Proof.Machine

/-! ## Reports of a port (R24) -/

/-- R24: the PORT_STATE report of a change, with the role and equipment id given. -/
def reportPortAs (p : Port) (prev : PortState) (role : Option Role) (equip : Option Nat) (ended : Option LastCheck) (s : State) :
    State :=
  let r := s.ports[p]
  place (.portState p prev r.state role equip (if r.state = .faulted then r.fault else none) r.checkFailed ended none) s

/-- R24: the PORT_STATE report of a change, with the role and equipment id of the record. -/
def reportPort (p : Port) (prev : PortState) (ended : Option LastCheck) (s : State) : State :=
  reportPortAs p prev s.ports[p].role s.ports[p].equip ended s

/-! ## The link check (R25 to R27) -/

/-- A message that belongs to a link check (R34). -/
def Down.ofCheck : Down → Bool
  | .checkBegin _ => true
  | .checkFrames _ _ => true
  | _ => false

/-- R25: a link check starts: the port enters CHECKING with a fresh check record, the check timer runs and CHECK_BEGIN is
handed to the control lane. -/
def beginCheck (p : Port) (latched : Bool) (frames : Nat) (ret : CheckReturn) (s : State) : State :=
  reportPort p s.ports[p].state none
    (s.modPort p fun r =>
      { r with
        state := .checking
        check := some { latched := latched, frames := frames, ret := ret }
        announceTimer := none
        checkTimer := some (s.timer Config.linkTimeout)
        out := r.out ++ [.checkBegin frames] })

/-- R22: a port that enters TRAINING goes on to the automatic check when both lanes are locked. -/
def trainedCheck (p : Port) (s : State) : State :=
  let r := s.ports[p]
  if r.state = .training ∧ r.controlLock ∧ r.resultLock then beginCheck p true Config.autoCheckFrames .training s else s

/-- R22: a change of lock flags in TRAINING. -/
def enterTraining (p : Port) (prev : PortState) (ended : Option LastCheck) (s : State) : State :=
  trainedCheck p (reportPort p prev ended s)

/-- The last check field of a check that ends. -/
def CheckRec.last (k : CheckRec) (outcome : CheckOutcome) (down : Nat) : LastCheck :=
  { outcome := outcome, latched := k.latched, frames := k.frames, upErrors := k.upErrors, downErrors := down }

/-- R20, R22: a check in progress ends ABANDONED with its counts. A down-error count that no CHECK_RESULT has given is a
free value (log entry 6). -/
def abandonedCheck (s : State) (p : Port) : Option LastCheck :=
  s.ports[p].check.map fun k => k.last .abandoned (k.result.getD (Config.freeDownErrors s.freeCount).toNat)

/-- The check record and what is left of its frames are removed, its end is recorded and both timers stop. -/
def clearCheck (p : Port) (ended : Option LastCheck) (s : State) : State :=
  let used := s.ports[p].check.any fun k => k.result.isNone
  let s := if used then { s with freeCount := s.freeCount + 1 } else s
  s.modPort p fun r =>
    { r with
      check := none
      last := ended.or r.last
      announceTimer := none
      checkTimer := none
      out := r.out.filter fun d => !d.ofCheck }

/-! ## Departures and links (R22, R27, R32, R91) -/

/-- R91: the program loader takes the departure of a tester: an operation in flight ends ABANDONED, the program stores are
unknown, and the record is parked. The margin values, which R91 does not name, stand (log entry 44). -/
def parkTester (p : Port) (s : State) : State :=
  let t := s.slots[p]
  let loaded := match t.staged with
    | .loading g v _ => some (g, v)
    | _ => none
  let swapped := match t.staged with
    | .ready g v => some (g, v)
    | _ => none
  let s := s.modSlot p fun t =>
    { t with use := .parked, active := none, staged := .empty, swap := none, request := none }
  let s := if t.isLoading then reportLoad p .abandoned loaded s else s
  if t.swap.isSome then reportLoad p .abandoned swapped s else s

/-- R32, R37, R40: the notices of a departure, after its PORT_STATE report: the program loader for a tester, then the
cell manager. -/
def departed (p : Port) (role : Option Role) (equip : Option Nat) (s : State) : Told :=
  match role with
  | none => (s, [])
  | some .tester =>
    let s := parkTester p s
    let s := { s with claims := s.claims.map fun x => if some x.tester = equip then { x with status := .waiting } else x }
    (s, match s.cellOfTester? p with
      | some c => [.dissolve c .testerGone]
      | none => [])
  | some .handler =>
    let s := { s with claims := s.claims.filter (·.port != p) }
    (s, match s.cellOfHandler? p with
      | some c => [.dissolve c .handlerGone]
      | none => [])

/-- R22, R42: the cell manager is told that a port's link has gone down. -/
def linkDown (p : Port) (s : State) : List Notice :=
  match s.cellOfPort? p with
  | some c => [.refresh c, .eligibility c]
  | none => []

/-- R27, R39, R85: the program loader and the cell manager are told that a port's link is up again, its announce data
unchanged. Within the cell manager the link cause leaves the tester's cell (R42) before the claims on the tester are retried (R39):
the spec gives the two no order, and this one is the model's choice (log entry 49). -/
def linkUp (p : Port) (s : State) : List Notice :=
  match s.ports[p].role with
  | some .tester => [.service p] ++ linkDown p s ++ [.retryClaims (s.ports[p].equip.getD 0)]
  | some .handler => linkDown p s ++ [.judgeClaim p]
  | none => []

/-- Another port is IN_SERVICE with an equipment id (R27, R29). -/
def State.duplicate (s : State) (p : Port) (equip : Option Nat) : Bool :=
  allPorts.any fun q => q != p && s.inService q && equip.isSome && s.ports[q].equip == equip

/-- R23: a port enters FAULTED. The report shows the role and equipment id held just before. -/
def enterFaulted (p : Port) (cause : FaultCause) (ended : Option LastCheck) (s : State) : Told :=
  let r := s.ports[p]
  let s := s.modPort p fun r =>
    { r with state := .faulted, fault := some cause, announceTimer := none, checkTimer := none, role := none, equip := none,
             data := none }
  departed p r.role r.equip (reportPortAs p r.state r.role r.equip ended s)

/-- R27: a port goes to AWAIT_ANNOUNCE with a fresh announce timer. -/
def awaitAnnounce (p : Port) (ended : Option LastCheck) (s : State) : State :=
  reportPort p s.ports[p].state ended
    (s.modPort p fun r => { r with state := .awaitAnnounce, announceTimer := some (s.timer Config.linkTimeout) })

/-- R27: the return to IN_SERVICE, or FAULTED when another port has announced the kept id meanwhile. -/
def returnToService (p : Port) (ended : Option LastCheck) (s : State) : Told :=
  if s.duplicate p s.ports[p].equip then enterFaulted p .duplicateId ended s
  else
    let s := reportPort p s.ports[p].state ended (s.modPort p fun r => { r with state := .inService })
    (s, linkUp p s)

/-- R27: a link check ends with an outcome, and the port moves. -/
def endCheck (p : Port) (k : CheckRec) (pass : Bool) (down : Nat) (s : State) : Told :=
  let ended := some (k.last (if pass then .pass else .fail) down)
  let s := s.modPort p fun r =>
    { r with
      check := none
      last := ended
      checkTimer := none
      checkFailed := if k.latched then !pass else r.checkFailed
      out := r.out.filter fun d => !d.ofCheck }
  if k.latched && !pass then enterFaulted p .checkFailed ended s
  else
    match k.ret with
    | .inService => returnToService p ended s
    | _ => (awaitAnnounce p ended s, [])

/-- R26: the up-checker is complete. -/
def CheckRec.complete (k : CheckRec) : Bool := decide (k.frames ≤ k.expected)

/-- R27: a check that is complete and carries the CHECK_RESULT mark ends on its counts. -/
def judgeCheck (p : Port) (s : State) : Told :=
  match s.ports[p].check with
  | none => (s, [])
  | some k =>
    match k.result with
    | none => (s, [])
    | some down => if k.complete then endCheck p k (k.upErrors == 0 && down == 0) down s else (s, [])

/-- R26: the effect of a frame on the expected up index and the up-error count. The spec gives the count no width and no top
value, and the model none (log entry 37). -/
def CheckRec.take (k : CheckRec) (f : UpFrame) : CheckRec :=
  match f with
  | .record _ => { k with upErrors := k.upErrors + 1 }
  | .check index pattern b =>
    let i := index.toNat
    let wrong := if pattern = checkPattern i then 0 else 1
    if !checkFrameChecks index pattern b then { k with upErrors := k.upErrors + 1 }
    else if k.expected ≤ i ∧ i < k.frames then
      { k with upErrors := k.upErrors + (i - k.expected) + wrong, expected := i + 1 }
    else { k with upErrors := k.upErrors + 1 }

/-- R26, R35: a frame on the result lane during a check is judged by the up-checker. -/
def upChecker (p : Port) (f : UpFrame) (s : State) : Told :=
  judgeCheck p (s.modPort p fun r => { r with check := r.check.map (·.take f) })

/-! ## Presence (R20) -/

/-- R20: a rise of the presence line, taken only in ABSENT. -/
def presenceRose (p : Port) (s : State) : State :=
  if s.ports[p].state = .absent then enterTraining p .absent none (s.modPort p fun r => { r with state := .training }) else s

/-- The level of a presence line. -/
def Pins.setPresence (x : Pins) (p : Port) (level : Bool) : Pins :=
  { x with presence := if level then x.presence ||| 1#32 <<< p.val else x.presence &&& ~~~(1#32 <<< p.val) }

/-- PRESENCE_RISE (R20). -/
def execPresenceRise (p : Port) (s : State) : Host.Outcome State Fault Refusal :=
  settle [] (presenceRose p { s with pins := s.pins.setPresence p true })

/-- R20: the effect of a fall on the port record. -/
def presenceFell (p : Port) (s : State) : Told :=
  let r := s.ports[p]
  if r.state = .absent then (s, [])
  else
    let ended := abandonedCheck s p
    let s := (clearCheck p ended s).modPort p fun r =>
      { r with state := .absent, controlLock := false, resultLock := false, role := none, equip := none, data := none,
               fault := none, checkFailed := false, out := [] }
    departed p r.role r.equip (reportPort p r.state ended s)

/-- PRESENCE_FALL (R20). -/
def execPresenceFall (p : Port) (s : State) : Host.Outcome State Fault Refusal :=
  let r := presenceFell p { s with pins := s.pins.setPresence p false }
  settle r.2 r.1

/-! ## Lane lock (R21, R22) -/

/-- R21: well-formed frames in succession that lock a lane. -/
def lockRun : Nat := 16

/-- R21: malformed frames in succession that unlock a lane. -/
def unlockRun : Nat := 8

/-- R21: the byte times without a frame boundary that unlock a lane: 32 idle fill frames. -/
def silentLimit : Lane → Nat
  | .control => 128
  | .result => 32

/-- The lock flag of a lane is written. -/
def setLock (p : Port) (lane : Lane) (v : Bool) (s : State) : State :=
  s.modPort p fun r => match lane with
    | .control => { r with controlLock := v }
    | .result => { r with resultLock := v }

/-- LOCK_GAINED (R21, R22): a lane is locked once it has taken 16 well-formed frames in succession. -/
def execLockGained (p : Port) (lane : Lane) (count : Nat) (s : State) : Host.Outcome State Fault Refusal :=
  if s.ports[p].state = .absent ∨ count < lockRun then .next s else settle [] (trainedCheck p (setLock p lane true s))

/-- R21: the receiver loses lock. -/
def losesLock (lane : Lane) : LockLoss → Bool
  | .malformed n => decide (unlockRun ≤ n)
  | .silent t => decide (silentLimit lane ≤ t)

/-- R22: a port in CHECKING, AWAIT_ANNOUNCE or IN_SERVICE that has lost a lock goes to TRAINING. Where the lock was regained
before the loss was taken, the PORT_STATE reports of TRAINING and of CHECKING are both placed before the notices that the link is
down, and so before the CELL_STATE reports those cause: R22 gives them no order, and this one is the model's choice (log entry
15). -/
def lockLoss (p : Port) (regained : Bool) (lane : Lane) (s : State) : Told :=
  let r := s.ports[p]
  if r.state = .checking ∨ r.state = .awaitAnnounce ∨ r.state = .inService then
    let ended := abandonedCheck s p
    let told := r.state = .inService ∨ r.check.any (·.ret == .inService)
    let s := (clearCheck p ended (setLock p lane regained s)).modPort p fun r => { r with state := .training }
    let s := enterTraining p r.state ended s
    (s, if told then linkDown p s else [])
  else (setLock p lane regained s, [])

/-- LOCK_LOST (R21, R22). `regained` tells a loss that was regained before it was taken: the port still leaves for
TRAINING, and goes on to CHECKING in the same taking. -/
def execLockLost (p : Port) (lane : Lane) (loss : LockLoss) (regained : Bool) (s : State) :
    Host.Outcome State Fault Refusal :=
  let locked := match lane with
    | .control => s.ports[p].controlLock
    | .result => s.ports[p].resultLock
  if s.ports[p].state = .absent ∨ !locked ∨ !losesLock lane loss then .next s
  else
    let r := lockLoss p regained lane s
    settle r.2 r.1

/-! ## Control-lane messages (R33) -/

/-- R33: a message on a locked control lane is taken when its condition holds, and discarded into the ignored-message
counter otherwise. A frame on a lane that is not locked is not taken. -/
def takeMessage (p : Port) (taken : Bool) (s : State) (f : Told) : Host.Outcome State Fault Refusal :=
  if !s.ports[p].controlLock then .next s
  else if taken then settle f.2 f.1
  else settle [] (countIgnored p s)

/-- R33: a port IN_SERVICE with a role. -/
def State.serves (s : State) (p : Port) (role : Role) : Bool := s.inService p && s.ports[p].role == some role

/-- CHECK_ARMED (R25): the mark is set and the down check frames are handed to the control lane in index order. -/
def execCheckArmed (p : Port) (s : State) : Host.Outcome State Fault Refusal :=
  takeMessage p (s.ports[p].state == .checking && s.ports[p].check.any fun k => !k.armed) s
    (s.modPort p fun r =>
      { r with
        check := r.check.map fun k => { k with armed := true }
        out := r.out ++ (r.check.map fun k => Down.checkFrames 0 k.frames).toList }, [])

/-- R25: a CHECK_RESULT sets its mark; one taken before CHECK_ARMED ends the check with outcome FAIL. -/
def takeCheckResult (p : Port) (k : CheckRec) (down : Nat) (s : State) : Told :=
  if k.armed then judgeCheck p (s.modPort p fun r => { r with check := some { k with result := some down } })
  else endCheck p k false k.frames s

/-- CHECK_RESULT (R25, R27). -/
def execCheckResult (p : Port) (downErrors : BitVec 16) (s : State) : Host.Outcome State Fault Refusal :=
  match s.ports[p].check with
  | none => takeMessage p false s (s, [])
  | some k => takeMessage p (s.ports[p].state == .checking && k.result.isNone) s (takeCheckResult p k downErrors.toNat s)

/-- R27: the end of a check by its timer: missing indices are added, a missing result counts N, and the outcome is FAIL. -/
def expireCheck (p : Port) (k : CheckRec) (s : State) : Told :=
  endCheck p { k with upErrors := k.upErrors + (k.frames - k.expected) } false (k.result.getD k.frames) s

/-- CHECK_TIMER_EXPIRY (R27). -/
def execCheckTimerExpiry (p : Port) (s : State) : Host.Outcome State Fault Refusal :=
  match s.ports[p].check with
  | none => .next s
  | some k =>
    if expired s.ports[p].checkTimer s.elapsed then
      let r := expireCheck p k s
      settle r.2 r.1
    else .next s

/-! ## Announce (R29 to R32) -/

/-- R30: the handler data of an ANNOUNCE whose fields lie in the ranges of Table 2-3. -/
def handlerData (id : BitVec 32) (sites : Byte) (lo hi kit : BitVec 16) (dock : BitVec 32) (mode : Byte) :
    Option (Nat × AnnounceData) :=
  match modeOf mode with
  | none => none
  | some m =>
    if id ≠ 0 ∧ 1 ≤ sites.toNat ∧ sites.toNat ≤ 8 ∧ tempOf lo ≤ tempOf hi ∧ dock ≠ id then
      some (id.toNat, .handler sites.toNat (tempOf lo) (tempOf hi) kit.toNat dock.toNat m)
    else none

/-- R31: the tester data of an ANNOUNCE whose fields lie in the ranges of Table 2-4. -/
def testerData (id : BitVec 32) (channels : Byte) (temp hours validity base kt kh : BitVec 16) : Option (Nat × AnnounceData) :=
  if id ≠ 0 ∧ 1 ≤ channels.toNat ∧ channels.toNat ≤ 8 ∧ 1 ≤ validity.toNat ∧ validity.toNat ≤ 8760 then
    some (id.toNat, .tester channels.toNat (tempOf temp) hours.toNat validity.toNat base.toNat kt.toNat kh.toNat)
  else none

/-- R29 step 1: the role, equipment id and data of an ANNOUNCE in range. -/
def announceData : AnnounceMsg → Option (Role × Nat × AnnounceData)
  | .handler id sites lo hi kit dock mode => (handlerData id sites lo hi kit dock mode).map fun x => (.handler, x)
  | .tester id channels temp hours validity base kt kh =>
    (testerData id channels temp hours validity base kt kh).map fun x => (.tester, x)
  | .other _ => none

/-- R83 step 1: the slot record that holds an equipment id: the port's own, else a parked one, else any, each of the lowest port
number (log entry 23). -/
def State.heldRecord (s : State) (p : Port) (equip : Nat) : Option Slot :=
  if s.slots[p].equip = some equip then some s.slots[p]
  else
    (s.slots.toList.find? fun t => t.use == .parked && t.equip == some equip).or
      (s.slots.toList.find? fun t => t.equip == some equip)

/-- R93: the calibration record an announce sets. -/
def announcedCal (now : Nat) (temp : Int) (hours validity base kt kh : Nat) : Calibration :=
  { calTemp := temp, calTime := now - 3600 * hours, headTemp := temp, validity := validity, base := base, kt := kt, kh := kh }

/-- R83: a slot record parked on another port is returned to unused. -/
def releaseParked (p : Port) (equip : Nat) (s : State) : State :=
  { s with slots := Vector.ofFn fun q : Fin 32 =>
      if q ≠ p ∧ s.slots[q].use = .parked ∧ s.slots[q].equip = some equip then {} else s.slots[q] }

/-- R83: a tester ANNOUNCE sets up the slot record of its port, with the ABANDONED reports of operations that were in
flight, and the margin is computed. -/
def setUpTester (p : Port) (equip : Nat) (cal : Calibration) (s : State) : State :=
  let held := s.heldRecord p equip
  computeMargin p
    ((releaseParked p equip (parkTester p s)).modSlot p fun _ =>
      { use := .inUse, equip := some equip, failures := (held.map (·.failures)).getD 0,
        barred := (held.map (·.barred)).getD false, cal := some cal })

/-- R42: the site table of a cell under a fresh announce. -/
def resizeSites (c : CellNo) (n : Nat) (s : State) : State :=
  match s.cell? c with
  | none => s
  | some k =>
    let s := s.modCell c fun k => { k with sites := k.sites.take n ++ freshSites (n - k.sites.length) }
    if k.state = .running then fireEdge .siteOn c (fun i _ => decide (k.sites.length ≤ i)) s else s

/-- R42: the changes a fresh handler ANNOUNCE brings to a cell it is still part of. The kit and the site table are written before
the mode acts, and the mode acts before the sets are derived again with the link up (log entry 38). -/
def refreshHandler (c : CellNo) (sites kit : Nat) (mode : Mode) (s : State) : Told :=
  let r := changeMode c mode (resizeSites c sites (s.modCell c fun k => { k with kit := kit }))
  (r.1, r.2 ++ [.refresh c, .eligibility c])

/-- R32, R37, R42: the cell manager takes the data of a handler's announce: the dock claim, then the changes to the cell
when the claim leaves it formed. -/
def handlerAnnounced (p : Port) (sites kit dock : Nat) (mode : Mode) (s : State) : Told :=
  let r := takeClaim p dock s
  match s.cellOfHandler? p with
  | none => r
  | some c =>
    if (s.cell? c).any (·.testerId == dock) then
      let h := refreshHandler c sites kit mode r.1
      (h.1, h.2 ++ r.2)
    else r

/-- R32: the notices of an entry to IN_SERVICE by ANNOUNCE. A tester's link cause leaves with the loader's notice of its margin and
bar, before the claims on it are retried (log entry 49). -/
def announced (p : Port) (equip : Nat) (d : AnnounceData) (s : State) : Told :=
  match d with
  | .handler sites _ _ kit dock mode => handlerAnnounced p sites kit dock mode s
  | .tester _ temp hours validity base kt kh =>
    (setUpTester p equip (announcedCal s.floorTime temp hours validity base kt kh) s,
      [.testerTold p, .service p, .retryClaims equip])

/-- R29: an ANNOUNCE in AWAIT_ANNOUNCE is judged. -/
def takeAnnounce (p : Port) (msg : AnnounceMsg) (s : State) : Told :=
  let r := s.ports[p]
  match announceData msg with
  | none => enterFaulted p .badAnnounce none s
  | some (role, equip, d) =>
    if r.role.isSome && !(r.role == some role && r.equip == some equip) then enterFaulted p .badAnnounce none s
    else if s.duplicate p (some equip) then enterFaulted p .duplicateId none s
    else
      announced p equip d
        (reportPort p r.state none
          (s.modPort p fun r =>
            { r with state := .inService, announceTimer := none, role := some role, equip := some equip, data := some d }))

/-- ANNOUNCE (R29 to R32). -/
def execAnnounce (p : Port) (msg : AnnounceMsg) (s : State) : Host.Outcome State Fault Refusal :=
  takeMessage p (s.ports[p].state == .awaitAnnounce) s (takeAnnounce p msg s)

/-- ANNOUNCE_TIMER_EXPIRY (R29). -/
def execAnnounceTimerExpiry (p : Port) (s : State) : Host.Outcome State Fault Refusal :=
  if s.ports[p].state = .awaitAnnounce ∧ expired s.ports[p].announceTimer s.elapsed then
    let r := enterFaulted p .timeout none s
    settle r.2 r.1
  else .next s

/-! ## Frames that are discarded (R33, R35) -/

/-- BAD_FRAME (R33): a frame whose check fails, or whose length does not fit its kind. -/
def execBadFrame (p : Port) (s : State) : Host.Outcome State Fault Refusal :=
  if s.ports[p].controlLock then settle [] (s.modPort p fun r => { r with badFrames := sat32 (r.badFrames + 1) }) else .next s

/-- UNKNOWN_MESSAGE_KIND (R33, R172): a message of a kind that is not listed. -/
def execUnknownMessageKind (p : Port) (s : State) : Host.Outcome State Fault Refusal := takeMessage p false s (s, [])

/-- A result-lane frame discarded (R35). -/
def countDiscarded (p : Port) (s : State) : State := s.modPort p fun r => { r with discarded := sat32 (r.discarded + 1) }

/-- R35: a frame of the result lane is delivered to result intake. -/
def State.delivers (s : State) (p : Port) : UpFrame → Bool
  | .record _ => s.serves p .tester
  | .check _ _ _ => false

/-- RESULT_LANE_DISCARD (R35): a frame on a locked result lane of a port that can neither check nor deliver it. Where R35 judges
or delivers the frame the row does not occur, and nothing changes (log entry 36). -/
def execResultLaneDiscard (p : Port) (f : UpFrame) (s : State) : Host.Outcome State Fault Refusal :=
  let r := s.ports[p]
  if !r.resultLock ∨ r.state = .absent ∨ r.state = .checking ∨ s.delivers p f then .next s
  else settle [] (countDiscarded p s)

/-- CHECK_FRAME (R26, R35): a check frame, or any frame during a check, on the result lane. Outside CHECKING the row does not
occur, and nothing changes (log entry 36). -/
def execCheckFrame (p : Port) (f : UpFrame) (s : State) : Host.Outcome State Fault Refusal :=
  let r := s.ports[p]
  if !r.resultLock ∨ r.state ≠ .checking then .next s
  else
    let u := upChecker p f s
    settle u.2 u.1

/-! ## PORT_RESET (R23) and PORT_CHECK (R28) -/

/-- PORT_RESET (R23). -/
def execPortReset (s : State) : Host.Outcome State Fault Refusal :=
  takeRequest (ofKind Kind.portReset) s fun b =>
    match portOf (u8 b 0) with
    | none => refuse .malformed s
    | some p =>
      if s.ports[p].state = .faulted then
        answered (.plain .ok) [] (enterTraining p .faulted none (s.modPort p fun r => { r with state := .training, fault := none }))
      else refuse .wrongState s

/-- R28: the return state of a PORT_CHECK. -/
def checkReturn : PortState → Option CheckReturn
  | .awaitAnnounce => some .awaitAnnounce
  | .inService => some .inService
  | _ => none

/-- R28 condition 3: the port belongs to a cell that is STARTING, RUNNING, PAUSED or DRAINING. -/
def State.cellBusy (s : State) (p : Port) : Bool :=
  ((s.cellOfPort? p).bind s.cell?).any fun k =>
    k.state == .starting || k.state == .running || k.state == .paused || k.state == .draining

/-- PORT_CHECK (R28). -/
def execPortCheck (s : State) : Host.Outcome State Fault Refusal :=
  takeRequest (ofKind Kind.portCheck) s fun b =>
    match portOf (u8 b 0), flagOf (u8 b 3) with
    | some p, some latched =>
      if u16 b 1 = 0 then refuse .malformed s
      else
        match checkReturn s.ports[p].state with
        | none => refuse .wrongState s
        | some ret =>
          if s.cellBusy p then refuse .wrongState s
          else if s.ports[p].role = some .tester ∧ s.slots[p].inFlight then refuse .wrongState s
          else
            let t := beginCheck p latched (u16 b 1) ret s
            answered (.plain .ok) (if ret = .inService then linkDown p t else []) t
    | _, _ => refuse .malformed s

end Sys2Proof.Machine
end

