-- ==== Sys2Proof/Machine/CellManager.lean ====
section
/-! DEFINITION. The cell manager's commands (Chapter 3): the H_ messages, the cell timers, CELL_SET, SITE_FORCE and
CELL_QUERY. H_COUNTS is in Machine/Close.lean. -/

namespace Sys2Proof.Machine

/-! ## Handler messages (R46, R54 to R58) -/

/-- R33: an H_ message is taken from a port IN_SERVICE with role HANDLER, when its fields are defined. -/
def takeHandler (p : Port) (ok : Bool) (s : State) (f : Told) : Host.Outcome State Fault Refusal :=
  takeMessage p (s.serves p .handler && ok) s f

/-- R56: an H_ message for the cell of a handler; from a handler in no cell it is discarded. -/
def forCell (p : Port) (s : State) (f : CellNo → Told) : Told :=
  match s.cellOfHandler? p with
  | some c => f c
  | none => (countIgnored p s, [])

/-- R56: the mode held in the handler port's announce data is replaced. -/
def portMode (p : Port) (mode : Mode) (s : State) : State :=
  s.modPort p fun r => { r with data := r.data.map fun d => match d with
    | .handler a b c e f _ => .handler a b c e f mode
    | t => t }

/-- R56: the kit held in the handler port's announce data is replaced. -/
def portKit (p : Port) (kit : Nat) (s : State) : State :=
  s.modPort p fun r => { r with data := r.data.map fun d => match d with
    | .handler a b c _ f m => .handler a b c kit f m
    | t => t }

/-- R43, R56: the effect of an H_STATUS. -/
def takeStatus (p : Port) (mode : Mode) (s : State) : Told :=
  let s := portMode p mode s
  match s.cellOfHandler? p with
  | none => (s, [])
  | some c =>
    let r := changeMode c mode s
    (r.1, r.2 ++ (if (s.cell? c).any (·.mode != mode) then [.refresh c, .eligibility c] else []))

/-- H_STATUS (R43, R54 to R56). -/
def execHStatus (p : Port) (mode : Byte) (s : State) : Host.Outcome State Fault Refusal :=
  match modeOf mode with
  | none => takeHandler p false s (s, [])
  | some m => takeHandler p true s (takeStatus p m s)

/-- R46: a temperature is in band when it differs from the setpoint by no more than the band. -/
def inBand (setpoint : Int) (band : Nat) (t : Int) : Bool := decide ((t - setpoint).natAbs ≤ band)

/-- R46: a reading moves the soak state. -/
def Cell.soakReading (k : Cell) (t : Int) (now : Nat) : Cell :=
  match k.setpoint, k.band, k.soakTime with
  | some sp, some band, some time =>
    if inBand sp band t then
      match k.soak with
      | .out => if time = 0 then { k with soak := .soaked } else { k with soak := .settling, soakTimer := some { start := now, limit := time } }
      | _ => k
    else { k with soak := .out, soakTimer := none }
  | _, _, _ => k

/-- R46: the effect of an H_TEMP on a cell. -/
def takeTemp (c : CellNo) (t : Int) (s : State) : Told :=
  (s.modCell c fun k => { k.soakReading t s.elapsed with temp := some t, staleTimer := some (s.timer s.params.stale) }, [.refresh c])

/-- H_TEMP (R33, R46). -/
def execHTemp (p : Port) (temp : BitVec 16) (s : State) : Host.Outcome State Fault Refusal :=
  takeHandler p true s (forCell p s fun c => takeTemp c (tempOf temp) s)

/-- R56, R112: a KIT or CLEAN edge is fired in RUNNING, PAUSED and MANUAL. -/
def firesEdges (k : Cell) : Bool := k.state == .running || k.state == .paused || k.state == .manual

/-- R112: a kit is that of the product of a cell's current lot; any other is the KIT cause of readiness and no edge. -/
def State.fitsProduct (s : State) (c : CellNo) (kit : Nat) : Bool :=
  ((s.currentLot? c).bind fun l => s.product? l.product).any (·.kit == kit)

/-- R56, R112: the effect of an H_KIT on the handler's cell. -/
def kitForCell (c : CellNo) (kit : Nat) (reseat : Bool) (s : State) : Told :=
  match s.cell? c with
  | none => (s, [])
  | some k =>
    if k.kit = kit then (if reseat && firesEdges k && s.fitsProduct c kit then fireEdge .kit c (fun _ x => x.state == .on) s else s, [])
    else (s.modCell c fun k => { k with kit := kit }, [.refresh c, .eligibility c])

/-- R56: the effect of an H_KIT. -/
def takeKit (p : Port) (kit : Nat) (reseat : Bool) (s : State) : Told :=
  let s := portKit p kit s
  match s.cellOfHandler? p with
  | none => (s, [])
  | some c => kitForCell c kit reseat s

/-- H_KIT (R56). -/
def execHKit (p : Port) (kit : BitVec 16) (reseat : Byte) (s : State) : Host.Outcome State Fault Refusal :=
  match flagOf reseat.toNat with
  | none => takeHandler p false s (s, [])
  | some f => takeHandler p true s (takeKit p kit.toNat f s)

/-- H_DOCK (R37, R56). -/
def execHDock (p : Port) (tester : BitVec 32) (s : State) : Host.Outcome State Fault Refusal :=
  takeHandler p true s (takeClaim p tester.toNat s)

/-- R58: the sites of an H_INDEX mask, below the site count, whose state is not ON. -/
def Cell.mismatches (k : Cell) (mask : Byte) : Nat :=
  k.sites.zipIdx.countP fun x => mask.getLsbD x.2 && x.1.state != .on

/-- R58: the effect of an H_INDEX on a cell. -/
def takeIndex (c : CellNo) (mask : Byte) (s : State) : Told :=
  match s.cell? c with
  | none => (s, [])
  | some k =>
    let t := if k.state = .running then makeChanges c s else s
    (t.modCell c fun k =>
        { k with lastMask := mask, indexCount := sat32 (k.indexCount + 1), mismatchCount := sat32 (k.mismatchCount + k.mismatches mask) },
      onSetNotices c s t)

/-- H_INDEX (R58). -/
def execHIndex (p : Port) (mask : Byte) (s : State) : Host.Outcome State Fault Refusal :=
  takeHandler p true s (forCell p s fun c => takeIndex c mask s)

/-- R56, R112: the effect of an H_CLEAN on a cell. -/
def takeClean (c : CellNo) (mask : Byte) (s : State) : Told :=
  (if (s.cell? c).any firesEdges then fireEdge .clean c (fun i _ => mask.getLsbD i) s else s, [])

/-- H_CLEAN (R56). -/
def execHClean (p : Port) (mask : Byte) (s : State) : Host.Outcome State Fault Refusal :=
  takeHandler p true s (forCell p s fun c => takeClean c mask s)

/-- H_PHASE (R56). -/
def execHPhase (p : Port) (phase : Byte) (s : State) : Host.Outcome State Fault Refusal :=
  match phaseOf phase with
  | none => takeHandler p false s (s, [])
  | some f => takeHandler p true s (forCell p s fun c => (s.modCell c fun k => { k with lastPhase := some f }, []))

/-! ## Timers of a cell (R46, R49, R52) -/

/-- A timer command acts when the timer is running and due; otherwise no expiry occurs (log entry 8). -/
def onExpiry (due : Bool) (s : State) (f : Told) : Host.Outcome State Fault Refusal := if due then settle f.2 f.1 else .next s

/-- SOAK_TIMER_EXPIRY (R46). -/
def execSoakTimerExpiry (c : CellNo) (s : State) : Host.Outcome State Fault Refusal :=
  onExpiry ((s.cell? c).any fun k => expired k.soakTimer s.elapsed) s
    (s.modCell c fun k => { k with soak := if k.soak = .settling then .soaked else k.soak, soakTimer := none }, [.refresh c])

/-- STALE_TIMER_EXPIRY (R46). -/
def execStaleTimerExpiry (c : CellNo) (s : State) : Host.Outcome State Fault Refusal :=
  onExpiry ((s.cell? c).any fun k => expired k.staleTimer s.elapsed) s
    (s.modCell c fun k => { k with temp := none, staleTimer := none, soak := .out, soakTimer := none }, [.refresh c])

/-- WITHDRAW_TIMER_EXPIRY (R49, R50). -/
def execWithdrawTimerExpiry (c : CellNo) (s : State) : Host.Outcome State Fault Refusal :=
  onExpiry ((s.cell? c).any fun k => k.state == .paused && expired k.withdrawTimer s.elapsed) s (s, [.drain c .withdraw])

/-- DRAIN_TIMER_EXPIRY (R52). -/
def execDrainTimerExpiry (c : CellNo) (s : State) : Host.Outcome State Fault Refusal :=
  onExpiry ((s.cell? c).any fun k => k.state == .draining && expired k.drainTimer s.elapsed) s (s, [.countsLost c])

/-! ## Requests (R44, R57, R59) -/

/-- R44: what the current lot of a formed cell meets when the enable is cleared. -/
def disabled (c : CellNo) (k : Cell) : List Notice :=
  match k.state with
  | .starting => [.leave c .waiting none]
  | .running => [.drain c .disable]
  | .paused => [.drain c .disable]
  | _ => []

/-- R44: the effect of a CELL_SET. The treatment of the current lot comes before the cause set is derived again: a PAUSED cell with
LOCAL in its set (STRICT 1) that loses its enable enters DRAINING(DISABLE) with LOCAL still in the set and in the CELL_STATE report
of the entry, and loses it right after, in the same taking. The spec gives the two no order, and this one is the model's choice
(log entry 48). -/
def setCell (c : CellNo) (enable preempt : Bool) (s : State) : Told :=
  let t := s.modCellRec c fun r => { r with enable := enable, preemptEnable := preempt }
  (t, (match s.cell? c with
      | some k => (if s.cells[c].enable && !enable then disabled c k else []) ++ [.refresh c]
      | none => [])
    ++ [.eligibility c, .preemptCheck c])

/-- CELL_SET (R44). -/
def execCellSet (s : State) : Host.Outcome State Fault Refusal :=
  takeRequest (ofKind Kind.cellSet) s fun b =>
    match cellOf (u8 b 0), flagOf (u8 b 1), flagOf (u8 b 2) with
    | some c, some enable, some preempt =>
      let r := setCell c enable preempt s
      answered (.plain .ok) r.2 r.1
    | _, _, _ => refuse .malformed s

/-- SITE_FORCE's value: ON 1, OFF 2 (Table 12-3). -/
def onOff (n : Nat) : Option Bool := if n = 1 then some true else if n = 2 then some false else none

/-- SITE_FORCE (R57). -/
def execSiteForce (s : State) : Host.Outcome State Fault Refusal :=
  takeRequest (ofKind Kind.siteForce) s fun b =>
    match cellOf (u8 b 0), onOff (u8 b 2) with
    | some c, some on =>
      if 7 < u8 b 1 then refuse .malformed s
      else
        match s.cell? c with
        | none => refuse .wrongState s
        | some k =>
          if k.sites.length ≤ u8 b 1 then refuse .notFound s
          else
            let r := forceSite c (u8 b 1) on s
            answered (.plain .ok) r.2 r.1
    | _, _ => refuse .malformed s

/-- R59: the remaining seconds of a cell's running timers. -/
def Cell.timers (k : Cell) (now : Nat) : CellTimers :=
  { soak := k.soakTimer.map (·.left now), stale := k.staleTimer.map (·.left now), withdraw := k.withdrawTimer.map (·.left now),
    drain := k.drainTimer.map (·.left now) }

/-- The handler's claim status, and the status of the claim that holds the cell's tester (R59). -/
def State.claimStatus (s : State) (p : Port) : Option ClaimStatus := (s.claims.find? (·.port == p)).map (·.status)

/-- R59: the reply of a CELL_QUERY. The tester of a formed cell is held by its handler's claim. -/
def State.cellReply (s : State) (c : CellNo) : Reply :=
  let r := s.cells[c]
  match r.formed with
  | none => .cellFree r.enable r.preemptEnable
  | some k =>
    .cell r.enable r.preemptEnable k (k.timers s.elapsed) (s.director c) s.queues[c] s.saves[c] (s.claimStatus k.handlerPort)
      (s.claimStatus k.handlerPort)

/-- CELL_QUERY (R59). -/
def execCellQuery (s : State) : Host.Outcome State Fault Refusal :=
  takeRequest (ofKind Kind.cellQuery) s fun b =>
    match cellOf (u8 b 0) with
    | none => refuse .malformed s
    | some c => answered (s.cellReply c) [] s

end Sys2Proof.Machine
end

