-- ==== Sys2Proof/Machine/Close.lean ====
section
/-! DEFINITION. H_COUNTS (Chapter 9): the handler totals of a segment and of its step, interim counts, the end of a drain
and the close of a step. -/

namespace Sys2Proof.Machine

/-- The values of an H_COUNTS, checked: L, the bins, J and whether the flag is END (R146, R172). -/
structure Counts where
  loaded : Nat
  bins : Vector Nat 8
  jammed : Nat
  last : Bool
  deriving DecidableEq, Repr

/-- R172: END 1, PARTIAL 2. -/
def endFlag (b : Byte) : Option Bool := if b = 1 then some true else if b = 2 then some false else none

/-- R146: the counts of a message whose values are all defined. -/
def countsOf (m : CountsMsg) : Option Counts :=
  match endFlag m.flag with
  | none => none
  | some last =>
    if m.loaded.toNat ≤ Config.maxUnits ∧ m.jammed.toNat ≤ Config.maxUnits
        ∧ m.bins.toList.all (fun x => decide (x.toNat ≤ Config.maxUnits)) then
      some { loaded := m.loaded.toNat, bins := m.bins.map BitVec.toNat, jammed := m.jammed.toNat, last := last }
    else none

/-- R146: an addition would carry an accumulated total of a step above 4,000,000. -/
def totalsOverflow (r : StepRec) (x : Counts) : Bool :=
  decide (Config.maxUnits < r.loaded + x.loaded) || decide (Config.maxUnits < r.jammed + x.jammed)
    || (r.bins.zipWith (· + ·) x.bins).toList.any fun n => decide (Config.maxUnits < n)

/-- R146: counts added to the accumulated totals of a step. -/
def addToStep (x : Counts) (r : StepRec) : StepRec :=
  { r with
    loaded := satUnits (r.loaded + x.loaded)
    bins := (r.bins.zipWith (· + ·) x.bins).map satUnits
    jammed := satUnits (r.jammed + x.jammed)
    countLost := r.countLost || totalsOverflow r x }

/-- R146: counts added to the segment handler totals of a cell. -/
def addToSegment (x : Counts) (k : Cell) : Cell :=
  { k with
    segLoaded := satUnits (k.segLoaded + x.loaded)
    segBins := (k.segBins.zipWith (· + ·) x.bins).map satUnits
    segJammed := satUnits (k.segJammed + x.jammed) }

/-- R51 cases 2 and 3: where the lot of a drain ended by PARTIAL counts goes. -/
def State.drainDest (s : State) (c : CellNo) (l : Lot) (purpose : Option Purpose) : LotState :=
  if s.stopped l then .held
  else if purpose = some .preempt ∧ s.queues[c].behind.head?.any s.isHot then .saved
  else .waiting

/-- R51: the drain of a cell ends with PARTIAL counts taken, and its segment closes. -/
def endDrain (c : CellNo) (l : Lot) (purpose : Option Purpose) (s : State) : Told :=
  (s.modCell c fun k => { k with segment := none, drainTimer := none }, [.leave c (s.drainDest c l purpose) none])

/-- R146, R147: the effect of an H_COUNTS on the cell of its handler, by the cell's state at the moment it is taken. PARTIAL counts
that overflow a step total outside DRAINING leave the segment open (log entry 24). -/
def takeCounts (p : Port) (c : CellNo) (x : Counts) (s : State) : Told :=
  match s.cell? c with
  | none => (countIgnored p s, [])
  | some k =>
    match k.segment with
    | none => (countIgnored p s, [])
    | some g =>
      match s.lot? g.lot with
      | none => (countIgnored p s, [])
      | some l =>
        let exceeds := totalsOverflow (l.stepRec g.step) x
        let t := (s.modCell c (addToSegment x)).modStep g.lot g.step (addToStep x)
        let raised : List Notice := if exceeds then [.raise (lostRequest g.lot g.step)] else []
        if x.last then (t, raised ++ [.closeStep c])
        else if k.state = .draining then
          if exceeds then (t, raised ++ [.leave c .held none])
          else endDrain c l k.purpose t
        else (t, raised)

/-- H_COUNTS (R33, R51, R56, R146 to R152). -/
def execHCounts (p : Port) (m : CountsMsg) (s : State) : Host.Outcome State Fault Refusal :=
  match countsOf m with
  | none => takeHandler p false s (s, [])
  | some x => takeHandler p true s (forCell p s fun c => takeCounts p c x s)

end Sys2Proof.Machine
end

