-- ==== Sys2Proof/Machine/HostLink.lean ====
section
/-! DEFINITION. The host link unit: reception and framing of bytes (R162), the input buffer and the busy list (R163), the
transmitter and the report queue (R164, R165), PARAM_SET (R167) and STATUS (R168). -/

namespace Sys2Proof.Machine

/-! ## Reception (R162, R163) -/

/-- The marker of a host frame (Table 12-1). -/
def hostMarker : Byte := 0xC3

/-- The longest body of a host frame. -/
def maxBody : Nat := 1024

/-- The number of requests pending in the input buffer. -/
def pendingRequests (l : List HostEntry) : Nat := l.countP fun e => match e with
  | .request _ _ _ _ => true
  | .busy _ _ => false

/-- The number of BUSY replies in the busy list. -/
def busyReplies (l : List HostEntry) : Nat := l.countP fun e => match e with
  | .request _ _ _ _ => false
  | .busy _ _ => true

/-- R163: a good frame enters the input buffer, or is answered BUSY, or is discarded and counted. -/
def acceptFrame (kind tag : Byte) (body : List Byte) (s : State) : State :=
  if pendingRequests s.unanswered < Config.maxPending then
    { s with unanswered := s.unanswered ++ [.request kind tag body none] }
  else if busyReplies s.unanswered < Config.maxPending then { s with unanswered := s.unanswered ++ [.busy kind tag] }
  else { s with frames := { s.frames with overrun := sat32 (s.frames.overrun + 1) } }

/-- Bytes of the line with the elapsed-seconds count of their arrival. -/
abbrev Received := List (Byte × Nat)

/-- Hunting: every byte other than the marker is discarded. -/
def hunt (l : Received) : Received := l.dropWhile fun x => x.1 != hostMarker

/-- The bytes of a received list. -/
def rawBytes (l : Received) : List Byte := l.map (·.1)

/-- What stands at the head of a received list that begins with a marker. -/
inductive HeadFrame where
  | incomplete
  | overLength
  | badCrc (size : Nat)
  | good (kind tag : Byte) (body : List Byte) (size : Nat)
  deriving DecidableEq, Repr

/-- R162, Table 12-1: the head frame of a list that begins with a marker. -/
def headFrame (b : List Byte) : HeadFrame :=
  if b.length < 3 then .incomplete
  else
    let n := u16 b 1
    if maxBody < n then .overLength
    else if b.length < n + 7 then .incomplete
    else if (crc16 ((b.drop 1).take (n + 4))).toNat = u16 b (n + 5) then
      .good (b.getD 3 0) (b.getD 4 0) ((b.drop 5).take n) (n + 7)
    else .badCrc (n + 7)

/-- R162: frames are taken from the received bytes for as long as one is complete. `fuel` bounds the number of frames;
each takes at least one byte, so the number of bytes suffices. -/
def scanFrames : Nat → Received → State → State
  | 0, l, s => { s with rx := l }
  | fuel + 1, l, s =>
    match hunt l with
    | [] => { s with rx := [] }
    | x :: rest =>
      match headFrame (rawBytes (x :: rest)) with
      | .incomplete => { s with rx := x :: rest }
      | .overLength => scanFrames fuel rest { s with frames := { s.frames with overLength := sat32 (s.frames.overLength + 1) } }
      | .badCrc _ => scanFrames fuel rest { s with frames := { s.frames with badCrc := sat32 (s.frames.badCrc + 1) } }
      | .good kind tag body size =>
        scanFrames fuel ((x :: rest).drop size)
          (acceptFrame kind tag body { s with frames := { s.frames with good := sat32 (s.frames.good + 1) } })

/-- R162: received bytes are scanned for frames. -/
def receive (l : Received) (s : State) : State := scanFrames (l.length + 1) l s

/-- HOST_FRAME: bytes arrive on the host line. -/
def execHostFrame (bytes : List Byte) (s : State) : Host.Outcome State Fault Refusal :=
  settle [] (receive (s.rx ++ bytes.map fun b => (b, s.elapsed)) s)

/-- FRAME_TRUNCATED (R162): the frame in reception is not complete two advances after its marker. It is discarded, and
hunting resumes with the byte that followed its marker. -/
def execFrameTruncated (s : State) : Host.Outcome State Fault Refusal :=
  match s.rx with
  | [] => .next s
  | x :: rest =>
    if Config.truncateAfter ≤ since s.elapsed x.2 then
      settle [] (receive rest { s with frames := { s.frames with truncated := sat32 (s.frames.truncated + 1) } })
    else .next s

/-! ## The transmitter (R164, R165) -/

/-- R165: a report leaves the queue, and the queue is judged for REPORTS_LOST. -/
def reportLeft (s : State) : State :=
  let s := { s with reports := s.reports.drop 1 }
  if s.reports.length ≤ Config.lowReports ∧ s.dropped ≠ 0 then place (.reportsLost s.dropped) { s with dropped := 0 } else s

/-- FRAME_SENT (R163, R164): the frame being sent has been sent to its end; the entry of a reply is freed, or a report
leaves the queue, and the transmitter chooses. -/
def execFrameSent (s : State) : Host.Outcome State Fault Refusal :=
  match s.sending with
  | none => .next s
  | some (.reply _ _ _) => settle [] { s with sending := none, unanswered := s.unanswered.drop 1 }
  | some (.report _ queued) => settle [] (if queued then reportLeft { s with sending := none } else { s with sending := none })

/-- REQUEST_UNKNOWN_KIND (R163): the oldest untaken request has a kind that is not a request kind. -/
def execRequestUnknownKind (s : State) : Host.Outcome State Fault Refusal :=
  match oldestUntaken s.unanswered with
  | none => .next s
  | some (kind, _, _) => if isRequestKind kind then .next s else refuse .unknownKind s

/-! ## PARAM_SET (R167) -/

/-- Table 11-4: a parameter code with its range, its value in a parameter record and the record with it replaced. -/
def paramOf (code : Nat) : Option (Nat × Nat × (Params → Nat) × (Params → Nat → Params)) :=
  if code = 1 then some (60, 7200, (·.withdraw), fun p v => { p with withdraw := v })
  else if code = 2 then some (30, 3600, (·.drain), fun p v => { p with drain := v })
  else if code = 3 then some (5, 120, (·.stale), fun p v => { p with stale := v })
  else if code = 4 then some (0, 10000, (·.unreadable), fun p v => { p with unreadable := v })
  else none

/-- PARAM_SET (R167). -/
def execParamSet (s : State) : Host.Outcome State Fault Refusal :=
  takeRequest (ofKind Kind.paramSet) s fun b =>
    match paramOf (u8 b 0) with
    | none => refuse .malformed s
    | some (lo, hi, get, set) =>
      if lo ≤ u16 b 1 ∧ u16 b 1 ≤ hi then answered (.param (get s.params)) [] { s with params := set s.params (u16 b 1) }
      else refuse .malformed s

/-! ## STATUS (R168) -/

/-- R168: the GENERAL section. -/
def State.general (s : State) : General :=
  { strict := s.strict, rate := s.rate, floorTime := s.floorTime, elapsed := s.elapsed, params := s.params, frames := s.frames,
    reports := s.reports.length, dropped := s.dropped, lots := s.lots.length, products := s.products.length,
    programs := s.catalog.length, freeTallies := Config.maxTallies - s.tallies.length, holds := s.holds.length,
    groups := s.groups.toList.countP (·.opened), pending := pendingRequests s.unanswered }

/-- A page of a section of records: those from a start index upward, up to a number, and whether more follow. -/
def page {α : Type} (start count : Nat) (l : List α) : List α × Bool :=
  ((l.drop start).take count, decide (start + count < l.length))

/-- R168: the reply of a STATUS for a section and a start index; none when either is undefined. -/
def State.statusReply (s : State) (section_ start : Nat) : Option Reply :=
  if section_ = 1 then if start = 0 then some (.general s.general) else none
  else if 31 < start then none
  else if section_ = 2 then
    let r := page start 8 (s.ports.toList.zip s.strays.toList)
    some (.ports r.1 r.2)
  else if section_ = 3 then
    let r := page start 32 s.claims
    some (.claims r.1 r.2)
  else if section_ = 4 then
    let r := page start 8 s.slots.toList
    some (.testers r.1 r.2)
  else none

/-- STATUS (R168). -/
def execStatus (s : State) : Host.Outcome State Fault Refusal :=
  takeRequest (ofKind Kind.status) s fun b =>
    match s.statusReply (u8 b 0) (u8 b 1) with
    | none => refuse .malformed s
    | some r => answered r [] s

end Sys2Proof.Machine
end

