-- ==== Sys2Proof/Machine/FloorClock.lean ====
section
/-! DEFINITION. The floor clock (R166): SECOND_ADVANCE, HOUR_ROLLOVER and CLOCK_SET; and the resets: POWER_ON and both scopes
of RESTART (R169 and the reset rules of every chapter). -/

namespace Sys2Proof.Machine

/-! ## Time (R166) -/

/-- R95, R166: an hour rollover is handed to the program loader, which recomputes the margin of every tester in use. -/
def rollover (s : State) : List Notice :=
  (allPorts.filter fun p => s.slots[p].use == .inUse).map fun p => .consult p

/-- R166: both second counters are increased by one. -/
def advance (s : State) : State :=
  { s with floorTime := (s.floorTime + 1) % Config.wrap32, elapsed := (s.elapsed + 1) % Config.wrap32 }

/-- SECOND_ADVANCE (R166): with the hour rollover a multiple of 3600 brings. -/
def execSecondAdvance (s : State) : Host.Outcome State Fault Refusal :=
  let t := advance s
  settle (if t.floorTime % 3600 = 0 then rollover t else []) t

/-- HOUR_ROLLOVER (R95, R166): a rollover is made in the taking of the advance or the CLOCK_SET that crosses the hour; the
row makes the loader's part of it, which computes every margin afresh (log entry 9). -/
def execHourRollover (s : State) : Host.Outcome State Fault Refusal := settle (rollover s) s

/-- CLOCK_SET (R166). -/
def execClockSet (s : State) : Host.Outcome State Fault Refusal :=
  takeRequest (ofKind Kind.clockSet) s fun b =>
    let t := { s with floorTime := u32 b 0 }
    answered (.clock s.floorTime (u32 b 0)) (if u32 b 0 / 3600 ≠ s.floorTime / 3600 then rollover t else []) t

/-! ## Power-on and RESTART FULL (R5, R19, R36, R60, R79, R98, R114, R144, R153, R161, R169) -/

/-- R36: each port whose presence line is high is taken as a rise, in order of port number (log entry 46). -/
def samplePresence (s : State) : State :=
  allPorts.foldl (fun s p => if s.pins.presence.getLsbD p.val then presenceRose p s else s) s

/-- POWER_ON (R169): every block at its power-on state, the straps sampled, and the ports whose lines are high in TRAINING.
The block's queue of commands and the count of free values are the model's own and stand. -/
def execPowerOn (strict : Bool) (rate : BitVec 2) (presence : BitVec 32) (s : State) : Host.Outcome State Fault Refusal :=
  settle []
    (samplePresence
      { State.fresh { strict := strict, rate := rate, presence := presence } rate with
        pending := s.pending, freeCount := s.freeCount })

/-- A restart empties the report queue; a report being sent is sent to its end (R164, R169). -/
def Sending.unqueued : Sending → Sending
  | .report r _ => .report r false
  | other => other

/-- R162, R169: the bytes of a frame in reception, with the ages they have kept, on an elapsed-seconds counter of 0. -/
def rebase (now : Nat) (l : List (Byte × Nat)) : List (Byte × Nat) :=
  l.map fun x => (x.1, (Config.wrap32 - since now x.2) % Config.wrap32)

/-- RESTART FULL (R169): as power-on, with the line rate kept, STRICT sampled, the receiver, the requests and replies not
disturbed, and every port retrained. -/
def restartFull (strict : Bool) (s : State) : State :=
  samplePresence
    { State.fresh { s.pins with strict := strict } s.rate with
      pending := s.pending
      freeCount := s.freeCount
      rx := rebase s.elapsed s.rx
      unanswered := s.unanswered
      sending := s.sending.map Sending.unqueued }

/-- The scopes of RESTART (Table 12-3). -/
def restartScope (code : Nat) (k : Byte) (b : List Byte) : Bool :=
  k == Kind.restart && (if b.length = 1 ∧ u8 b 0 = 2 then code == 2 else code == 1)

/-- RESTART with scope FULL. -/
def execRestartFull (strict : Bool) (s : State) : Host.Outcome State Fault Refusal :=
  takeRequest (restartScope 2) s fun _ => answered (.plain .ok) [] (restartFull strict s)

/-! ## RESTART FLOOR (R19, R61, R79, R98, R114, R144, R153, R161, R165, R169) -/

/-- R61, R153: a formed cell under a floor restart. The last index mask is kept (log entry 39). -/
def Cell.floorReset (k : Cell) : Cell :=
  { k with
    state := .idle
    waiting := {}
    causes := {}
    purpose := none
    withdrawTimer := none
    drainTimer := none
    segment := none
    lastSegment := none
    segLoaded := 0
    segBins := Vector.replicate 8 0
    segJammed := 0
    sites := k.sites.map fun x => { x with change := none, blank := 0, run := 0, expFirst := 1, expRetest := 1 } }

/-- R61: D_STOP is handed to the handler of a fed cell that is not MANUAL. -/
def stopFed (s : State) (c : CellNo) : State :=
  match s.cell? c with
  | none => s
  | some k => if k.segment.isSome ∧ k.state ≠ .manual then send k.handlerPort .stop s else s

/-- R61: a cell is set IDLE, with a report when its state changed. -/
def idleCell (s : State) (c : CellNo) : State :=
  match s.cell? c with
  | none => s
  | some k =>
    let t := s.modCell c Cell.floorReset
    if k.state = .idle then t else reportCell c (some k.state) t

/-- R169: the tables a floor restart empties. -/
def clearFloor (s : State) : State :=
  { s with
    lots := []
    entrySeq := 0
    tallies := []
    holds := []
    groups := Vector.replicate 16 {}
    waitList := []
    tallyWait := []
    pass := {}
    queues := Vector.replicate 16 {}
    saves := Vector.replicate 16 none
    reports := []
    dropped := 0
    sending := s.sending.map Sending.unqueued
    slots := s.slots.map fun t => { t with request := none } }

/-- RESTART FLOOR (R169). The cells report in order of cell number (log entry 43). -/
def restartFloor (s : State) : State := allCells.foldl idleCell (clearFloor (allCells.foldl stopFed s))

/-- RESTART with scope FLOOR; a RESTART of an undefined scope is refused MALFORMED here. -/
def execRestartFloor (s : State) : Host.Outcome State Fault Refusal :=
  takeRequest (restartScope 1) s fun b =>
    if u8 b 0 = 1 then answered (.plain .ok) [] (restartFloor s) else refuse .malformed s

end Sys2Proof.Machine
end

