-- ==== Sys2Proof/Machine/HoldTable.lean ====
section
/-! DEFINITION. The hold table's requests (Chapter 8): HOLD_PLACE, the three dispositions and the overflow form of
HOLD_DISPOSE, and HOLD_LIST. -/

namespace Sys2Proof.Machine

/-! ## HOLD_PLACE (R137) -/

/-- R137: the step a PLACED hold names: the current index, or the last step of the route once it has been passed. -/
def State.placedStep (s : State) (l : Lot) : Nat := if l.step < s.routeLength l then l.step else s.routeLength l - 1

/-- R137: the request of a HOLD_PLACE. -/
def State.placedRequest (s : State) (l : Lot) (severity : Severity) (note : List Byte) : HoldReq :=
  { lot := l.id, reason := .placed, step := s.placedStep l, severity := severity, origin := .requested, note := some note }

/-- R137: the reply of a HOLD_PLACE, by the outcome of its request. -/
def RaiseOutcome.reply : RaiseOutcome → Reply
  | .merged h => .placed true (some h.id)
  | .stored h => .placed false (some h.id)
  | .overflowed => .placed false none

/-- HOLD_PLACE (R137). -/
def execHoldPlace (s : State) : Host.Outcome State Fault Refusal :=
  takeRequest (ofKind Kind.holdPlace) s fun b =>
    match severityOf (u8 b 4) with
    | none => refuse .malformed s
    | some severity =>
      if u32 b 0 = 0 ∨ 32 < u8 b 5 then refuse .malformed s
      else
        match s.lot? (u32 b 0) with
        | none => refuse .notFound s
        | some l =>
          let q := s.placedRequest l severity (b.drop 6)
          answered (s.judgeRaise q l).reply [.raise q] s

/-! ## Dispositions (R138, R140, R141) -/

/-- R138: a record is deleted and its id leaves the lot's hold list. -/
def deleteHold (h : Hold) (s : State) : State :=
  ({ s with holds := s.holds.filter (·.id != h.id) } : State).modLot h.lot fun l => { l with holds := l.holds.filter (· != h.id) }

/-- R138: a CLEAR of a COUNT_MISMATCH or COUNT_LOST hold accepts the counts of its step: at once for an OPEN step, and in
place of MISMATCH or LOST for a CLOSED one. -/
def acceptStep (r : StepRec) : StepRec :=
  match r.status, r.recon with
  | .opened, _ => { r with recon := .accepted }
  | .closed, .mismatch => { r with recon := .accepted }
  | .closed, .lost => { r with recon := .accepted }
  | _, _ => r

/-- R138: the effect of a CLEAR on the step of its hold. -/
def acceptCounts (h : Hold) (s : State) : State :=
  if h.reason = .countMismatch ∨ h.reason = .countLost then s.modStep h.lot h.step acceptStep else s

/-- The requests of the ordinary form with a disposition code (Table 12-3); CLEAR takes in every other body that is not the
overflow form, so that each HOLD_DISPOSE belongs to one row. -/
def disposes (code : Nat) (k : Byte) (b : List Byte) : Bool :=
  k == Kind.holdDispose && b.length != 8 &&
    (if b.length = 7 ∧ (u8 b 2 = 2 ∨ u8 b 2 = 3) then u8 b 2 == code else code == 1)

/-- R138 check 3: the lot of a RETEST_STEP or SCRAP stands in no cell. -/
def Lot.standsFree (l : Lot) : Bool := l.state == .held || l.state == .waiting || l.state == .complete

/-- HOLD_DISPOSE with disposition CLEAR (R138, R143). -/
def execClear (s : State) : Host.Outcome State Fault Refusal :=
  takeRequest (disposes 1) s fun b =>
    if u16 b 0 = 0 ∨ u8 b 2 ≠ 1 then refuse .malformed s
    else
      match s.hold? (u16 b 0) with
      | none => refuse .notFound s
      | some h => answered (.plain .ok) [.disposed h .clear] (acceptCounts h (deleteHold h s))

/-- R140: the steps a RETEST_STEP may name: the open step, or the most recently closed one. -/
def Lot.mayRetest (l : Lot) (step : Nat) : Bool :=
  (step == l.step && (l.stepRec l.step).status == .opened) || (decide (1 ≤ l.step) && step == l.step - 1)

/-- R12, R140 steps 2 to 4: the named step and every later one return to PENDING with every field at its initial value,
the quantity becomes the named step's input quantity, and the index becomes the step. -/
def Lot.retestFrom (l : Lot) (step : Nat) : Lot :=
  { l with
    steps := Vector.ofFn fun i : Fin 6 => if step ≤ i.val then {} else l.steps[i]
    quantity := (l.stepRec step).input.getD l.quantity
    step := step }

/-- R140: a WAITING lot leaves the wait list and joins it again at its key position. -/
def rejoin (l : Lot) (s : State) : State := if l.state = .waiting then s.joinWait l.id else s

/-- HOLD_DISPOSE with disposition RETEST_STEP (R138, R140, R143). -/
def execRetestStep (s : State) : Host.Outcome State Fault Refusal :=
  takeRequest (disposes 2) s fun b =>
    let step := u32 b 3
    if u16 b 0 = 0 ∨ 5 < step then refuse .malformed s
    else
      match s.hold? (u16 b 0) with
      | none => refuse .notFound s
      | some h =>
        match s.lot? h.lot with
        | none => refuse .notFound s
        | some l =>
          if !l.standsFree then refuse .wrongState s
          else if !l.mayRetest step then refuse .mismatch s
          else
            let f := dropTally l (deleteHold h s)
            answered (.plain .ok) (f.2 ++ [.disposed h (.retestStep step)])
              (rejoin l (f.1.modLot l.id (·.retestFrom step)))

/-- R13, R141: n units scrapped. A scrapped total that would leave the range of Table 1-3 is a free value (log entry 5). -/
def scrapUnits (l : Lot) (n : Nat) (s : State) : State :=
  if l.scrapped + n ≤ Config.maxUnits then
    s.modLot l.id fun l => { l with quantity := l.quantity - n, scrapped := l.scrapped + n }
  else
    ({ s with freeCount := s.freeCount + 1 } : State).modLot l.id fun l =>
      { l with quantity := l.quantity - n, scrapped := (Config.freeScrapped s.freeCount).toNat % (Config.maxUnits + 1) }

/-- HOLD_DISPOSE with disposition SCRAP (R138, R141, R143). -/
def execScrap (s : State) : Host.Outcome State Fault Refusal :=
  takeRequest (disposes 3) s fun b =>
    let n := u32 b 3
    if u16 b 0 = 0 ∨ n = 0 then refuse .malformed s
    else
      match s.hold? (u16 b 0) with
      | none => refuse .notFound s
      | some h =>
        match s.lot? h.lot with
        | none => refuse .notFound s
        | some l =>
          if !l.standsFree then refuse .wrongState s
          else if l.quantity < n then refuse .mismatch s
          else answered (.plain .ok) [.disposed h (.scrap n)] (scrapUnits l n (deleteHold h s))

/-- R142: the flag is cleared and reported, and the lot is judged for its return. -/
def clearOverflow (l : Lot) (s : State) : State :=
  returnLot l.id (reportCleared l.id none .clear (s.modLot l.id fun l => { l with overflow := false }))

/-- The overflow form of HOLD_DISPOSE (R142, R170). -/
def execHoldDisposeOverflow (s : State) : Host.Outcome State Fault Refusal :=
  takeRequest (fun k b => k == Kind.holdDispose && b.length == 8) s fun b =>
    if u16 b 0 ≠ 0 ∨ u8 b 7 ≠ 0xFF ∨ u32 b 3 = 0 ∨ u8 b 2 ≠ 1 then refuse .malformed s
    else
      match s.lot? (u32 b 3) with
      | none => refuse .notFound s
      | some l =>
        if !l.overflow then refuse .notFound s
        else if Config.maxLotHolds ≤ l.holds.length then refuse .full s
        else answered (.plain .ok) [] (clearOverflow l s)

/-! ## HOLD_LIST (R139) -/

/-- R139: the reply of a HOLD_LIST for the records of one lot or of every lot. -/
def State.holdReply (s : State) (lot start : Nat) : Reply :=
  let records := s.holds.filter fun h => (lot == 0 || h.lot == lot) && decide (start < h.id)
  let flagged := (s.lots.filter fun l => (lot == 0 || l.id == lot) && l.overflow).length
  .holds (records.take 12) (decide (12 < records.length)) s.holds.length flagged (lot == 0)

/-- HOLD_LIST (R139). -/
def execHoldList (s : State) : Host.Outcome State Fault Refusal :=
  takeRequest (ofKind Kind.holdList) s fun b =>
    if u32 b 0 ≠ 0 ∧ (s.lot? (u32 b 0)).isNone then refuse .notFound s
    else answered (s.holdReply (u32 b 0) (u16 b 4)) [] s

end Sys2Proof.Machine
end

