-- ==== Sys2Proof/Machine/Intake.lean ====
section
/-! DEFINITION. Result intake and the limit evaluator (Chapters 6 and 7): RESULT_RECORD with its acceptance stages and its
counting, RUNNING_EVALUATION, TALLY, SITE_MONITOR and TALLY_QUERY. -/

namespace Sys2Proof.Machine

/-! ## Acceptance (R99 to R105) -/

/-- R99: a record of a port is stray: the port's stray count is increased. -/
def countStray (p : Port) (s : State) : State := { s with strays := s.strays.set p (sat32 (s.strays[p] + 1)) }

/-- R101: the four states in which a cell's results are counted. -/
def Cell.takesResults (k : Cell) : Bool :=
  k.state == .running || k.state == .paused || k.state == .draining || k.state == .manual

/-- R111: the unreadable count and one of its parts are increased, each saturating at 4,000,000. -/
def Tally.unreadable (t : Tally) (n : Nat) : Tally := { t with u := satUnits (t.u + n) }

/-- R100, R111: a bad check. -/
def Tally.addBad (t : Tally) : Tally := { t.unreadable 1 with badCheck := satUnits (t.badCheck + 1) }

/-- R102, R105, R111: an invalid record. -/
def Tally.addInvalid (t : Tally) : Tally := { t.unreadable 1 with invalid := satUnits (t.invalid + 1) }

/-- R103, R111: a gap of missing results. -/
def Tally.addMissing (t : Tally) (n : Nat) : Tally := { t.unreadable n with missing := satUnits (t.missing + n) }

/-- R101: a stray record while the current lot holds a tally. -/
def Tally.addStray (t : Tally) : Tally := { t with stray := sat32 (t.stray + 1) }

/-- R103: a duplicate. -/
def Tally.addDuplicate (t : Tally) : Tally := { t with duplicate := sat32 (t.duplicate + 1) }

/-- R104: an excess record. -/
def Tally.addExcess (t : Tally) : Tally := { t with excess := sat32 (t.excess + 1) }

/-- What becomes of a record that has reached a cell (Table 6-2). -/
inductive Sorted where
  | badCheck
  | stray
  | invalid
  | duplicate
  /-- In order after a gap, and then sorted by the later stages. -/
  | excess (gap : Nat)
  | invalidOrigin (gap : Nat)
  | first (gap : Nat)
  | retest (gap : Nat)
  deriving DecidableEq, Repr

/-- R103: the expected sequence of a site for a phase. -/
def Site.expected (x : Site) (retest : Bool) : Nat := if retest then x.expRetest else x.expFirst

/-- R105: a RETEST record's origin cannot be retested. -/
def originRefused (t : Tally) (retest : BitVec 16) (origin : Fin 16) : Bool :=
  !retest.getLsbD origin.val || t.x[origin] == t.c1[origin]

/-- R100 to R105: the acceptance stages of a record that has reached a cell whose current lot holds a tally; the first
stage whose condition it meets decides. -/
def sortRecord (k : Cell) (l : Lot) (t : Tally) (g : Product) (r : BitVec 64) : Sorted :=
  let f := recordFields r
  if !recordChecks r then .badCheck
  else if !k.takesResults || f.tag != l.id % 65536 then .stray
  else
    match k.sites[f.site]?, f.phase with
    | some x, some retest =>
      if f.sequence < x.expected retest then .duplicate
      else
        let gap := f.sequence - x.expected retest
        if retest then if originRefused t g.retest f.origin then .invalidOrigin gap else .retest gap
        else if some t.n1 = (l.stepRec t.step).input then .excess gap
        else .first gap
    | _, _ => .invalid

/-! ## Counting (R107, R108) -/

/-- R103: a record judged in order moves the expected sequence of its site and phase. -/
def advanceSequence (c : CellNo) (site : Nat) (retest : Bool) (sequence : Nat) (s : State) : State :=
  s.modCell c fun k => { k with sites := k.sites.zipIdx.map fun x =>
    if x.2 = site then
      if retest then { x.1 with expRetest := sequence + 1 } else { x.1 with expFirst := sequence + 1 }
    else x.1 }

/-- R107 step 1: a first-pass unit of a class. -/
def Tally.countFirst (t : Tally) (b : Fin 16) : Tally := { t with n1 := t.n1 + 1, c1 := t.c1.set b (t.c1[b] + 1) }

/-- R107 steps 3 and 5: an evaluated unit of a class. -/
def Tally.countEvaluated (t : Tally) (b : Fin 16) : Tally :=
  { t with ne := t.ne + 1, ce := t.ce.set b (t.ce[b] + 1), divider := t.divider + 1 }

/-- R108: a retest. -/
def Tally.countRetest (t : Tally) (origin b : Fin 16) : Tally :=
  { t with x := t.x.set origin (t.x[origin] + 1), c2 := t.c2.set b (t.c2[b] + 1) }

/-- R107 step 4: the run counter of a site after an evaluated unit of a class. -/
def Site.afterRun (x : Site) (b : Fin 16) : Site := { x with run := if b = 0 then 0 else min 255 (x.run + 1) }

/-- A site record is changed. -/
def modSite (c : CellNo) (i : Nat) (f : Site → Site) (s : State) : State :=
  s.modCell c fun k => { k with sites := k.sites.zipIdx.map fun x => if x.2 = i then f x.1 else x.1 }

/-- R116, R126: the site monitor acts on a unit of a cell that has fed its lot (R101) when K is non-zero and the run counter, as
the unit has just left it, equals K. A run that an earlier lot left behind (R113) is no unit's. -/
def monitorDue (s : State) (c : CellNo) (site : Nat) (d : StepDef) : Bool :=
  d.consecutive != 0 && (s.cell? c).any fun k => k.takesResults && (k.sites[site]?).any fun x => x.run == d.consecutive

/-- R107: a FIRST record that has passed every stage is counted; an unblanked unit is handed to the limit evaluator, whose two
parts are judged on the counters as the unit has just left them (R116), and the tally is judged for completeness. -/
def countFirst (c : CellNo) (l : Lot) (site : Nat) (b : Fin 16) (blank : Nat) (d : StepDef) (s : State) : Told :=
  let s := s.modTally l.id (·.countFirst b)
  if 0 < blank then (modSite c site (fun x => { x with blank := x.blank - 1 }) s, [.complete l.id])
  else
    let s := modSite c site (·.afterRun b) (s.modTally l.id (·.countEvaluated b))
    (s, (if monitorDue s c site d then [.monitor c site] else [])
      ++ (if evaluationDue l.id s then [.evaluate c l.id site] else []) ++ [.complete l.id])

/-- R99 to R108: a record that has reached a cell whose current lot holds a tally. -/
def takeSorted (p : Port) (c : CellNo) (k : Cell) (l : Lot) (t : Tally) (g : Product) (d : StepDef) (r : BitVec 64) (s : State) :
    Told :=
  let f := recordFields r
  let inOrder (retest : Bool) (gap : Nat) (s : State) : State :=
    (advanceSequence c f.site retest f.sequence s).modTally l.id (·.addMissing gap)
  match sortRecord k l t g r with
  | .badCheck => (s.modTally l.id Tally.addBad, [])
  | .stray => (countStray p (s.modTally l.id Tally.addStray), [])
  | .invalid => (s.modTally l.id Tally.addInvalid, [])
  | .duplicate => (s.modTally l.id Tally.addDuplicate, [])
  | .excess gap => ((inOrder false gap s).modTally l.id Tally.addExcess, [])
  | .invalidOrigin gap => ((inOrder true gap s).modTally l.id Tally.addInvalid, [])
  | .first gap => countFirst c l f.site f.cls ((k.sites[f.site]?.map (·.blank)).getD 0) d (inOrder false gap s)
  | .retest gap => ((inOrder true gap s).modTally l.id (·.countRetest f.origin f.cls), [.complete l.id])

/-- R99: a result record delivered from a tester port is taken by result intake. -/
def intake (p : Port) (r : BitVec 64) (s : State) : Told :=
  match s.cellOfTester? p with
  | none => (countStray p s, [])
  | some c =>
    match s.cell? c, s.currentLot? c with
    | some k, some l =>
      match s.tally? l.id, s.product? l.product, s.currentStep? c with
      | some t, some g, some d => takeSorted p c k l t g d r s
      | _, _, _ => (countStray p s, [])
    | _, _ => (countStray p s, [])

/-- RESULT_RECORD (R35, R99): a result record arrives on a port's result lane. -/
def execResultRecord (p : Port) (r : BitVec 64) (s : State) : Host.Outcome State Fault Refusal :=
  if !s.ports[p].resultLock then .next s
  else if s.ports[p].state = .checking then settle (upChecker p (.record r) s).2 (upChecker p (.record r) s).1
  else if s.serves p .tester then settle (intake p r s).2 (intake p r s).1
  else settle [] (countDiscarded p s)

/-! ## The limit evaluator's own rows (R117, R120, R126)

A unit's own taking makes its evaluation, its report and its site change. Each row below applies the same mechanism when
its condition stands in the state, and changes nothing otherwise (log entry 9). -/

/-- RUNNING_EVALUATION (R117 to R119). -/
def execRunningEvaluation (c : CellNo) (site : Fin 8) (s : State) : Host.Outcome State Fault Refusal :=
  match s.current? c with
  | none => .next s
  | some id => settle (if evaluationDue id s then [.evaluate c id site.val] else []) s

/-- TALLY (R120). -/
def execTally (c : CellNo) (s : State) : Host.Outcome State Fault Refusal :=
  match s.current? c with
  | none => .next s
  | some id => settle [.tallyReport c id] s

/-- SITE_MONITOR (R126). -/
def execSiteMonitor (c : CellNo) (site : Fin 8) (s : State) : Host.Outcome State Fault Refusal :=
  match s.currentStep? c with
  | none => .next s
  | some d => if monitorDue s c site.val d then settle [.monitor c site.val] s else .next s

/-! ## TALLY_QUERY (R128) -/

/-- R128: the five ratios of a tally: first-pass yield, evaluated yield, final yield, recovery, unreadable share. -/
def Tally.ratios (t : Tally) : List (Option Nat) :=
  [ratio (classCount t.c1 0) t.n1, ratio (classCount t.ce 0) t.ne, ratio (classCount t.final 0) t.n1,
    ratio (classCount t.c2 0) t.retested, ratio t.u (max t.n1 1)]

/-- R128: the reply of a TALLY_QUERY for a lot of the table. -/
def State.tallyReply (s : State) (l : Lot) : Reply :=
  match s.tally? l.id with
  | none => .noTally l.state l.step
  | some t => .tally t (l.stepRec t.step).input t.final t.retested t.ratios

/-- TALLY_QUERY (R128). -/
def execTallyQuery (s : State) : Host.Outcome State Fault Refusal :=
  takeRequest (ofKind Kind.tallyQuery) s fun b =>
    if u32 b 0 = 0 then refuse .malformed s
    else
      match s.lot? (u32 b 0) with
      | none => refuse .notFound s
      | some l => answered (s.tallyReply l) [] s

end Sys2Proof.Machine
end

