-- ==== Sys2Proof/Machine/Loader.lean ====
section
/-! DEFINITION. The program loader (Chapter 5): PROGRAM_PUT, PROGRAM_DROP, TESTER_CLEAR, the T_ messages, the load and swap
timers and the bar. -/

namespace Sys2Proof.Machine

/-! ## The catalog (R80 to R82) -/

/-- R81, R82: a staged slot READY with a program at a revision becomes EMPTY, with a STALE report. The copy that a swap in
flight is making active stands, since R89 makes that revision active at T_SWAPPED (log entry 11). -/
def staleSlot (program : Nat) (s : State) (p : Port) : State :=
  match s.slots[p].staged with
  | .ready g v =>
    if g = program ∧ s.slots[p].swap.isNone then reportLoad p .stale (some (g, v)) (s.modSlot p fun t => { t with staged := .empty }) else s
  | _ => s

/-- The eligibility inputs of every formed cell have changed (R80), told in order of cell number (log entry 40). -/
def allEligibility (s : State) : List Notice := (allCells.filter fun c => (s.cell? c).isSome).map fun c => .eligibility c

/-- R85: the service decision is made for every tester, in order of port number (log entry 40). -/
def serviceAll : List Notice := allPorts.map fun p => .service p

/-- R47: a program is the one the STARTING cell of a tester waits for. -/
def State.startsWith (s : State) (p : Port) (program : Nat) : Bool :=
  (s.cellOfTester? p).any fun c =>
    (s.cell? c).any (·.state == .starting) && (s.currentStep? c).any (·.program == program)

/-- R81: a revision change acts on every slot, the cells of testers whose active program is no longer current are told, and each
tester's request is served afresh, each in order of port number (log entry 40). A STARTING cell that waits for the program is told
as well where the change makes the active revision current again, since PROGRAM then leaves its waiting-for set (R47), whether or
not a load is in flight. -/
def revise (old : Program) (new : Program) (s : State) : Told :=
  let s := { s with catalog := s.catalog.map fun g => if g.id == new.id then new else g }
  let told := allPorts.filter fun p =>
    s.slots[p].active == some (old.id, old.revision)
      || (s.slots[p].active == some (new.id, new.revision) && s.startsWith p new.id)
  let cells := told.filterMap s.cellOfTester?
  (allPorts.foldl (staleSlot old.id) s, cells.map (fun c => .refresh c) ++ serviceAll)

/-- PROGRAM_PUT (R80, R81). -/
def execProgramPut (s : State) : Host.Outcome State Fault Refusal :=
  takeRequest (ofKind Kind.programPut) s fun b =>
    let new : Program := { id := u16 b 0, revision := u8 b 2, checkValue := u32 b 3, loadLimit := u16 b 7 }
    if new.id = 0 ∨ new.revision = 0 ∨ new.loadLimit < 10 ∨ 3600 < new.loadLimit then refuse .malformed s
    else
      match s.program? new.id with
      | none =>
        if s.catalog.length < Config.maxPrograms then
          answered (.plain .ok) (serviceAll ++ allEligibility s) { s with catalog := insertAsc Program.id new s.catalog }
        else refuse .full s
      | some old =>
        if old.revision = new.revision then
          if old.checkValue = new.checkValue then
            answered (.plain .ok) serviceAll { s with catalog := s.catalog.map fun g => if g.id == new.id then new else g }
          else refuse .exists_ s
        else
          let r := revise old new s
          answered (.plain .ok) r.2 r.1

/-- A program is named by a step of a product (R82). -/
def State.programInUse (s : State) (id : Nat) : Bool := s.products.any fun g => g.steps.any (·.program == id)

/-- PROGRAM_DROP (R82). -/
def execProgramDrop (s : State) : Host.Outcome State Fault Refusal :=
  takeRequest (ofKind Kind.programDrop) s fun b =>
    if (s.program? (u16 b 0)).isNone then refuse .notFound s
    else if s.programInUse (u16 b 0) then refuse .inUse s
    else
      answered (.plain .ok) serviceAll
        (allPorts.foldl (staleSlot (u16 b 0)) { s with catalog := s.catalog.filter (·.id != u16 b 0) })

/-- TESTER_CLEAR (R92). -/
def execTesterClear (s : State) : Host.Outcome State Fault Refusal :=
  takeRequest (ofKind Kind.testerClear) s fun b =>
    match portOf (u8 b 0) with
    | none => refuse .malformed s
    | some p =>
      let t := s.slots[p]
      if t.use = .unused then refuse .notFound s
      else
        let u := s.modSlot p fun t =>
          { t with barred := false, failures := 0, staged := if t.staged = .failed then .empty else t.staged }
        answered (.plain .ok) (if t.use = .inUse then [.testerTold p, .service p] else []) (reportLoad p .cleared none u)

/-! ## Tester messages (R86, R89, R93) -/

/-- R33: a T_ message is taken from a port IN_SERVICE with role TESTER. -/
def takeTester (p : Port) (ok : Bool) (s : State) (f : Told) : Host.Outcome State Fault Refusal :=
  takeMessage p (s.serves p .tester && ok) s f

/-- R93, R95: the calibration record is changed, the margin is computed, and a margin that differs is told. -/
def recalibrate (p : Port) (f : Calibration → Calibration) (s : State) : Told :=
  let t := computeMargin p (s.modSlot p fun t => { t with cal := t.cal.map f })
  (t, if marginDiffers p s t then [.testerTold p] else [])

/-- T_HEADTEMP (R93). -/
def execTHeadtemp (p : Port) (temp : BitVec 16) (s : State) : Host.Outcome State Fault Refusal :=
  takeTester p true s (recalibrate p (fun k => { k with headTemp := tempOf temp }) s)

/-- T_CAL (R93). -/
def execTCal (p : Port) (temp : BitVec 16) (s : State) : Host.Outcome State Fault Refusal :=
  takeTester p true s
    (recalibrate p (fun k => { k with calTime := s.floorTime, calTemp := tempOf temp, headTemp := tempOf temp }) s)

/-- R88: the tester is barred, with its report. -/
def barTester (p : Port) (s : State) : State :=
  reportLoad p .barred none (s.modSlot p fun t => { t with barred := true })

/-- R88: one more failure makes three in succession of a tester that is not barred. -/
def Slot.failsOut (t : Slot) : Bool := decide (3 ≤ t.failures + 1) && !t.barred

/-- R88: a load failure is counted, and the third bars the tester. The report of the failure stands before BARRED, and both
show the bar the event has set (R97). -/
def countFailure (p : Port) (o : LoadOutcome) (program : Option (Nat × Nat)) (s : State) : Told :=
  let bars := s.slots[p].failsOut
  let t := reportLoad p o program
    (s.modSlot p fun t => { t with failures := min 3 (t.failures + 1), barred := t.barred || bars })
  if bars then (barTester p t, [.testerTold p]) else (t, [])

/-- R86: the judgement of a T_LOADED that is taken. -/
def judgeLoaded (p : Port) (program revision checkValue : Nat) (ok : Bool) (s : State) : Told :=
  let named := some (program, revision)
  let s := s.modSlot p fun t => { t with staged := .empty }
  match s.program? program with
  | none => (reportLoad p .stale named s, [])
  | some g =>
    if g.revision ≠ revision then (reportLoad p .stale named s, [])
    else if !ok then countFailure p .loadFail named s
    else if checkValue ≠ g.checkValue then countFailure p .badCheck named s
    else (reportLoad p .loaded named (s.modSlot p fun t => { t with staged := .ready program revision, failures := 0 }), [])

/-- R86: the effect of a T_LOADED; one that answers no load in flight is discarded. -/
def takeLoaded (p : Port) (program revision checkValue : Nat) (ok : Bool) (s : State) : Told :=
  match s.slots[p].staged with
  | .loading g _ _ =>
    if g = program then
      let r := judgeLoaded p program revision checkValue ok s
      (r.1, r.2 ++ [.service p])
    else (countIgnored p s, [])
  | _ => (countIgnored p s, [])

/-- R172: ok 1, fail 2. -/
def okFail (b : Byte) : Option Bool := if b = 1 then some true else if b = 2 then some false else none

/-- T_LOADED (R86). -/
def execTLoaded (p : Port) (program : BitVec 16) (revision : Byte) (checkValue : BitVec 32) (indication : Byte) (s : State) :
    Host.Outcome State Fault Refusal :=
  match okFail indication with
  | none => takeTester p false s (s, [])
  | some ok => takeTester p true s (takeLoaded p program.toNat revision.toNat checkValue.toNat ok s)

/-- The program a staged slot holds READY. -/
def Staged.ready? : Staged → Option (Nat × Nat)
  | .ready g v => some (g, v)
  | _ => none

/-- R73: the preemption check of the cell of a tester whose swap has ended. -/
def swapEnded (p : Port) (s : State) : List Notice :=
  match s.cellOfTester? p with
  | some c => [.refresh c, .preemptCheck c]
  | none => []

/-- R89: the effect of a T_SWAPPED. -/
def takeSwapped (p : Port) (s : State) : Told :=
  let t := s.slots[p]
  if t.swap.isNone then (countIgnored p s, [])
  else
    let u := reportLoad p .swapped t.staged.ready?
      (s.modSlot p fun t => { t with active := t.staged.ready?, staged := .empty, swap := none })
    (u, swapEnded p u ++ [.service p])

/-- T_SWAPPED (R89). -/
def execTSwapped (p : Port) (s : State) : Host.Outcome State Fault Refusal := takeTester p true s (takeSwapped p s)

/-! ## Timers and the bar (R87, R88, R90) -/

/-- R87: a load ends at the expiry of its timer; a failure is counted when its revision is still current. -/
def loadTimedOut (p : Port) (program revision : Nat) (s : State) : Told :=
  let named := some (program, revision)
  let s := s.modSlot p fun t => { t with staged := .empty }
  let r := if (s.program? program).any (·.revision == revision) then countFailure p .loadTimeout named s
    else (reportLoad p .loadTimeout named s, [])
  (r.1, r.2 ++ [.service p])

/-- LOAD_TIMER_EXPIRY (R87). -/
def execLoadTimerExpiry (p : Port) (s : State) : Host.Outcome State Fault Refusal :=
  match s.slots[p].staged with
  | .loading g v timer =>
    if timer.due s.elapsed then
      let r := loadTimedOut p g v s
      settle r.2 r.1
    else .next s
  | _ => .next s

/-- R90: a swap ends at the expiry of its timer: the tester is barred, its active program is none and its staged slot
FAILED. -/
def swapTimedOut (p : Port) (s : State) : Told :=
  let named := s.slots[p].staged.ready?
  let u := barTester p
    (reportLoad p .swapTimeout named
      (s.modSlot p fun t => { t with swap := none, active := none, staged := .failed, barred := true }))
  (u, [.testerTold p] ++ swapEnded p u ++ [.service p])

/-- SWAP_TIMER_EXPIRY (R90). -/
def execSwapTimerExpiry (p : Port) (s : State) : Host.Outcome State Fault Refusal :=
  if expired s.slots[p].swap s.elapsed then
    let r := swapTimedOut p s
    settle r.2 r.1
  else .next s

/-- BARRED (R88): a tester whose consecutive failures stand at 3 is barred. A failure bars it within its own taking, so the
command finds the bar set and changes nothing unless the count stands at 3 without it (log entry 9). -/
def execBarred (p : Port) (s : State) : Host.Outcome State Fault Refusal :=
  let t := s.slots[p]
  if t.use = .inUse ∧ 3 ≤ t.failures ∧ !t.barred then settle [.testerTold p] (barTester p s) else .next s

end Sys2Proof.Machine
end

