-- ==== Sys2Proof/Machine/LotTable.lean ====
section
/-! DEFINITION. The lot table (Chapter 1): PRODUCT_PUT, PRODUCT_DROP, LOT_ENTER, LOT_QUERY, LOT_PRIORITY and LOT_DROP. -/

namespace Sys2Proof.Machine

/-- A product is referenced by a lot of the table (R3). -/
def State.productInUse (s : State) (id : Nat) : Bool := s.lots.any (·.product == id)

/-- PRODUCT_PUT (R1 to R3). -/
def execProductPut (s : State) : Host.Outcome State Fault Refusal :=
  takeRequest (ofKind Kind.productPut) s fun b =>
    let r := rawProduct b
    if r.fits && r.steps.all RawStep.fits then
      match s.product? r.id with
      | none =>
        if s.products.length < Config.maxProducts then
          answered (.plain .ok) [] { s with products := insertAsc Product.id r.toProduct s.products }
        else refuse .full s
      | some _ =>
        if s.productInUse r.id then refuse .inUse s
        else answered (.plain .ok) [] { s with products := s.products.map fun x => if x.id == r.id then r.toProduct else x }
    else refuse .malformed s

/-- PRODUCT_DROP (R4). -/
def execProductDrop (s : State) : Host.Outcome State Fault Refusal :=
  takeRequest (ofKind Kind.productDrop) s fun b =>
    if (s.product? (u16 b 0)).isNone then refuse .notFound s
    else if s.productInUse (u16 b 0) then refuse .inUse s
    else answered (.plain .ok) [] { s with products := s.products.filter (·.id != u16 b 0) }

/-- R6: the lot record and its place in the wait list; the report of a new lot. -/
def enterLot (l : Lot) (s : State) : State :=
  place (.lotState l.id none (.state .waiting) 0 l.quantity none none)
    (({ s with lots := insertAsc Lot.id l s.lots, entrySeq := s.entrySeq + 1 } : State).joinWait l.id)

/-- LOT_ENTER (R6, R7). -/
def execLotEnter (s : State) : Host.Outcome State Fault Refusal :=
  takeRequest (ofKind Kind.lotEnter) s fun b =>
    let id := u32 b 0
    let product := u16 b 4
    let quantity := u32 b 6
    match priorityOf (u8 b 10) with
    | none => refuse .malformed s
    | some priority =>
      if id = 0 ∨ quantity = 0 ∨ Config.maxUnits < quantity then refuse .malformed s
      else if (s.lot? id).isSome then refuse .exists_ s
      else if (s.product? product).isNone then refuse .notFound s
      else if Config.maxLots ≤ s.lots.length ∨ Config.top32 < s.entrySeq then refuse .full s
      else
        answered (.entered s.entrySeq) []
          (enterLot { id := id, product := product, entered := quantity, quantity := quantity, priority := priority, seq := s.entrySeq } s)

/-- LOT_QUERY of one lot (R15). -/
def execLotQuery (s : State) : Host.Outcome State Fault Refusal :=
  takeRequest (fun k b => k == Kind.lotQuery && !(b.length == 8 && u32 b 0 == 0)) s fun b =>
    match s.lot? (u32 b 0) with
    | none => refuse .notFound s
    | some l => answered (.lot l (s.routeSteps l)) [] s

/-- R16: a lot's line of a listing. -/
def State.summary (s : State) (l : Lot) : LotSummary :=
  { id := l.id, product := l.product, state := l.state, step := l.step, quantity := l.quantity, priority := l.priority,
    held := l.overflow || s.holds.any (·.lot == l.id) }

/-- LOT_QUERY of lot id 0, the listing (R16). -/
def execLotQueryListing (s : State) : Host.Outcome State Fault Refusal :=
  takeRequest (fun k b => k == Kind.lotQuery && (b.length == 8 && u32 b 0 == 0)) s fun b =>
    let after := s.lots.filter fun l => decide (u32 b 4 < l.id)
    answered (.lots ((after.take 64).map s.summary) (decide (64 < after.length))) [] s

/-- R17: a lot's new key moves it in the wait list or behind entry 0 of its queue. -/
def resort (l : Lot) (s : State) : State :=
  match l.state, l.location with
  | .waiting, _ => { s with waitList := insertAsc s.waitKeyOf l.id (s.waitList.filter (· != l.id)) }
  | .queued, .queue c _ => (s.modQueue c fun q => { q with behind := q.behind.filter (· != l.id) }).insertBehind c l.id
  | _, _ => s

/-- R17: the preemption checks a change of priority owes: a raise in a cell's queue, or a lowering of its current lot. -/
def priorityChecks (l : Lot) (priority : Priority) : List Notice :=
  match l.location with
  | .queue c _ => if (priority = .hot) ∨ l.state = .active then [.preemptCheck c] else []
  | _ => []

/-- R17: the refusal of a lowering while the cell's save context holds a lot. -/
def State.guardsSave (s : State) (l : Lot) : Bool :=
  match l.state, l.location.cell? with
  | .active, some c => s.saves[c].isSome
  | _, _ => false

/-- LOT_PRIORITY (R17). -/
def execLotPriority (s : State) : Host.Outcome State Fault Refusal :=
  takeRequest (ofKind Kind.lotPriority) s fun b =>
    match priorityOf (u8 b 4) with
    | none => refuse .malformed s
    | some priority =>
      match s.lot? (u32 b 0) with
      | none => refuse .notFound s
      | some l =>
        if priority = .normal ∧ s.guardsSave l then refuse .wrongState s
        else if l.priority = priority then answered (.plain .ok) [] s
        else
          answered (.plain .ok) (priorityChecks l priority)
            (resort l (s.modLot l.id fun l => { l with priority := priority })).trigger

/-- LOT_DROP (R18). A WAITING lot leaves the wait list with its record, at the end of the taking, in which nothing reads the
list. -/
def execLotDrop (s : State) : Host.Outcome State Fault Refusal :=
  takeRequest (ofKind Kind.lotDrop) s fun b =>
    match s.lot? (u32 b 0) with
    | none => refuse .notFound s
    | some l =>
      if l.state = .queued ∨ l.state = .active ∨ l.state = .saved then refuse .wrongState s
      else
        let f := dropTally l (leaveGroup l s)
        answered (.plain .ok) (f.2 ++ [.dropRest l.id]) f.1

end Sys2Proof.Machine
end

