-- ==== Sys2Proof/Machine/Release.lean ====
section
/-! DEFINITION. The release unit (Chapter 10): the ship group requests and GROUP_RELEASE. -/

namespace Sys2Proof.Machine

/-- GROUP_OPEN (R154). -/
def execGroupOpen (s : State) : Host.Outcome State Fault Refusal :=
  takeRequest (ofKind Kind.groupOpen) s fun b =>
    match groupOf (u8 b 0), flagOf (u8 b 1) with
    | some g, some extended =>
      if s.groups[g].opened then refuse .exists_ s
      else answered (.plain .ok) [] (s.modGroup g fun _ => { opened := true, allowExtended := extended })
    | _, _ => refuse .malformed s

/-- R154: the group id of each lot of a list is cleared. -/
def clearGroupIds (lots : List Nat) (s : State) : State :=
  lots.foldl (fun s id => s.modLot id fun l => { l with group := none }) s

/-- GROUP_CLOSE (R154). -/
def execGroupClose (s : State) : Host.Outcome State Fault Refusal :=
  takeRequest (ofKind Kind.groupClose) s fun b =>
    match groupOf (u8 b 0) with
    | none => refuse .malformed s
    | some g =>
      if !s.groups[g].opened then refuse .notFound s
      else answered (.plain .ok) [] ((clearGroupIds s.groups[g].lots s).modGroup g fun _ => {})

/-- R155: a lot is added at the end of a group's list. -/
def addToGroup (g : Fin 16) (l : Lot) (s : State) : State :=
  (s.modGroup g fun x => { x with lots := x.lots ++ [l.id], product := x.product.or (some l.product) }).modLot l.id fun l =>
    { l with group := some g }

/-- The number of lots of a group. -/
def State.groupSize (s : State) (g : Fin 16) : Nat := s.groups[g].lots.length

/-- GROUP_ADD (R155). The OK for a lot already in the group carries the present number of lots (log entry 45). -/
def execGroupAdd (s : State) : Host.Outcome State Fault Refusal :=
  takeRequest (ofKind Kind.groupAdd) s fun b =>
    match groupOf (u8 b 0) with
    | none => refuse .malformed s
    | some g =>
      if u32 b 1 = 0 then refuse .malformed s
      else if !s.groups[g].opened then refuse .notFound s
      else
        match s.lot? (u32 b 1) with
        | none => refuse .notFound s
        | some l =>
          if l.group.any (· != g) then refuse .inUse s
          else if l.group = some g then answered (.groupCount (s.groupSize g)) [] s
          else if s.groups[g].product.any (· != l.product) then refuse .mismatch s
          else if Config.maxGroupLots ≤ s.groupSize g then refuse .full s
          else answered (.groupCount (s.groupSize g + 1)) [] (addToGroup g l s)

/-- GROUP_REMOVE (R156). -/
def execGroupRemove (s : State) : Host.Outcome State Fault Refusal :=
  takeRequest (ofKind Kind.groupRemove) s fun b =>
    match groupOf (u8 b 0) with
    | none => refuse .malformed s
    | some g =>
      if u32 b 1 = 0 then refuse .malformed s
      else
        match s.lot? (u32 b 1) with
        | none => refuse .notFound s
        | some l =>
          if s.groups[g].opened ∧ l.group = some g then
            let t := leaveGroup l s
            answered (.groupCount (t.groupSize g)) [] t
          else refuse .notFound s

/-- R157, R158: the lots of a group with their release causes, in list order. -/
def State.groupLines (s : State) (g : Fin 16) : List GroupLine :=
  (s.groups[g].lots.filterMap s.lot?).map fun l =>
    { id := l.id, state := l.state, step := l.step, quantity := l.quantity, cause := s.releaseCause l s.groups[g].allowExtended }

/-- GROUP_QUERY (R158). -/
def execGroupQuery (s : State) : Host.Outcome State Fault Refusal :=
  takeRequest (ofKind Kind.groupQuery) s fun b =>
    match groupOf (u8 b 0) with
    | none => refuse .malformed s
    | some g =>
      if !s.groups[g].opened then answered .groupFree [] s
      else
        answered (.group (g.val + 1) s.groups[g].product s.groups[g].allowExtended (s.groupLines g)) [] s

/-- R159 step 4: the first lot of the list that has a release cause, with the cause. -/
def State.firstUnfit (s : State) (g : Fin 16) : Option (Nat × ReleaseCause) :=
  (s.groupLines g).findSome? fun x => x.cause.map fun cause => (x.id, cause)

/-- R160 step 1: the release record of a group. -/
def State.releaseRecord (s : State) (g : Fin 16) : ReleaseRec :=
  let lots := (s.groups[g].lots.filterMap s.lot?).map fun l => (l.id, l.quantity)
  { group := g.val + 1, product := s.groups[g].product.getD 0, time := s.floorTime, lots := lots, total := total (lots.map (·.2)) }

/-- R160 step 2: a lot is removed with its report. -/
def releaseLot (s : State) (id : Nat) : State :=
  match s.lot? id with
  | none => s
  | some l =>
    place (.lotState id (some l.state) .released l.step l.quantity none none) { s with lots := s.lots.filter (·.id != id) }

/-- R160: the release of a group. -/
def releaseGroup (g : Fin 16) (s : State) : State :=
  place (.released (s.releaseRecord g))
    (resetEntrySeq (((s.groups[g].lots).foldl releaseLot s).modGroup g fun _ => {}))

/-- GROUP_RELEASE (R159, R160). -/
def execGroupRelease (s : State) : Host.Outcome State Fault Refusal :=
  takeRequest (ofKind Kind.groupRelease) s fun b =>
    match groupOf (u8 b 0) with
    | none => refuse .malformed s
    | some g =>
      if !s.groups[g].opened then refuse .notFound s
      else if s.groups[g].lots = [] then answered (.releaseRefused .empty none) [] s
      else
        match s.firstUnfit g with
        | some (id, cause) => answered (.releaseRefused cause (some id)) [] s
        | none => answered (.released (s.releaseRecord g)) [] (releaseGroup g s)

end Sys2Proof.Machine
end

