-- ==== Sys2Proof/Machine/Dispatch.lean ====
section
/-! DEFINITION. The meaning of every command, one arm per row of spec/opcode_table.json. -/

namespace Sys2Proof.Machine

def exec (i : Instr) (s : State) : Host.Outcome State Fault Refusal :=
  match i with
  | .powerOn strict rate presence => Sys2Proof.Machine.execPowerOn strict rate presence s
  | .hostFrame bytes => Sys2Proof.Machine.execHostFrame bytes s
  | .frameTruncated => Sys2Proof.Machine.execFrameTruncated s
  | .frameSent => Sys2Proof.Machine.execFrameSent s
  | .requestUnknownKind => Sys2Proof.Machine.execRequestUnknownKind s
  | .productPut => Sys2Proof.Machine.execProductPut s
  | .productDrop => Sys2Proof.Machine.execProductDrop s
  | .lotEnter => Sys2Proof.Machine.execLotEnter s
  | .lotQuery => Sys2Proof.Machine.execLotQuery s
  | .lotQueryListing => Sys2Proof.Machine.execLotQueryListing s
  | .lotPriority => Sys2Proof.Machine.execLotPriority s
  | .lotDrop => Sys2Proof.Machine.execLotDrop s
  | .portCheck => Sys2Proof.Machine.execPortCheck s
  | .portReset => Sys2Proof.Machine.execPortReset s
  | .cellSet => Sys2Proof.Machine.execCellSet s
  | .siteForce => Sys2Proof.Machine.execSiteForce s
  | .cellQuery => Sys2Proof.Machine.execCellQuery s
  | .programPut => Sys2Proof.Machine.execProgramPut s
  | .programDrop => Sys2Proof.Machine.execProgramDrop s
  | .testerClear => Sys2Proof.Machine.execTesterClear s
  | .tallyQuery => Sys2Proof.Machine.execTallyQuery s
  | .holdPlace => Sys2Proof.Machine.execHoldPlace s
  | .clear => Sys2Proof.Machine.execClear s
  | .retestStep => Sys2Proof.Machine.execRetestStep s
  | .scrap => Sys2Proof.Machine.execScrap s
  | .holdDisposeOverflow => Sys2Proof.Machine.execHoldDisposeOverflow s
  | .holdList => Sys2Proof.Machine.execHoldList s
  | .groupOpen => Sys2Proof.Machine.execGroupOpen s
  | .groupClose => Sys2Proof.Machine.execGroupClose s
  | .groupAdd => Sys2Proof.Machine.execGroupAdd s
  | .groupRemove => Sys2Proof.Machine.execGroupRemove s
  | .groupQuery => Sys2Proof.Machine.execGroupQuery s
  | .groupRelease => Sys2Proof.Machine.execGroupRelease s
  | .clockSet => Sys2Proof.Machine.execClockSet s
  | .paramSet => Sys2Proof.Machine.execParamSet s
  | .status => Sys2Proof.Machine.execStatus s
  | .restartFloor => Sys2Proof.Machine.execRestartFloor s
  | .restartFull strict => Sys2Proof.Machine.execRestartFull strict s
  | .secondAdvance => Sys2Proof.Machine.execSecondAdvance s
  | .hourRollover => Sys2Proof.Machine.execHourRollover s
  | .presenceRise p => Sys2Proof.Machine.execPresenceRise p s
  | .presenceFall p => Sys2Proof.Machine.execPresenceFall p s
  | .lockGained p lane run => Sys2Proof.Machine.execLockGained p lane run s
  | .lockLost p lane loss regained => Sys2Proof.Machine.execLockLost p lane loss regained s
  | .checkArmed p => Sys2Proof.Machine.execCheckArmed p s
  | .checkResult p downErrors => Sys2Proof.Machine.execCheckResult p downErrors s
  | .checkFrame p frame => Sys2Proof.Machine.execCheckFrame p frame s
  | .checkTimerExpiry p => Sys2Proof.Machine.execCheckTimerExpiry p s
  | .announce p msg => Sys2Proof.Machine.execAnnounce p msg s
  | .announceTimerExpiry p => Sys2Proof.Machine.execAnnounceTimerExpiry p s
  | .badFrame p => Sys2Proof.Machine.execBadFrame p s
  | .unknownMessageKind p => Sys2Proof.Machine.execUnknownMessageKind p s
  | .hStatus p mode => Sys2Proof.Machine.execHStatus p mode s
  | .hTemp p temp => Sys2Proof.Machine.execHTemp p temp s
  | .hKit p kit reseat => Sys2Proof.Machine.execHKit p kit reseat s
  | .hDock p tester => Sys2Proof.Machine.execHDock p tester s
  | .hIndex p mask => Sys2Proof.Machine.execHIndex p mask s
  | .hClean p mask => Sys2Proof.Machine.execHClean p mask s
  | .hPhase p phase => Sys2Proof.Machine.execHPhase p phase s
  | .hCounts p counts => Sys2Proof.Machine.execHCounts p counts s
  | .tHeadtemp p temp => Sys2Proof.Machine.execTHeadtemp p temp s
  | .tCal p temp => Sys2Proof.Machine.execTCal p temp s
  | .tLoaded p program revision checkValue indication => Sys2Proof.Machine.execTLoaded p program revision checkValue indication s
  | .tSwapped p => Sys2Proof.Machine.execTSwapped p s
  | .resultRecord p bytes => Sys2Proof.Machine.execResultRecord p bytes s
  | .resultLaneDiscard p frame => Sys2Proof.Machine.execResultLaneDiscard p frame s
  | .soakTimerExpiry c => Sys2Proof.Machine.execSoakTimerExpiry c s
  | .staleTimerExpiry c => Sys2Proof.Machine.execStaleTimerExpiry c s
  | .withdrawTimerExpiry c => Sys2Proof.Machine.execWithdrawTimerExpiry c s
  | .drainTimerExpiry c => Sys2Proof.Machine.execDrainTimerExpiry c s
  | .loadTimerExpiry p => Sys2Proof.Machine.execLoadTimerExpiry p s
  | .swapTimerExpiry p => Sys2Proof.Machine.execSwapTimerExpiry p s
  | .assignmentPass => Sys2Proof.Machine.execAssignmentPass s
  | .barred p => Sys2Proof.Machine.execBarred p s
  | .runningEvaluation c site => Sys2Proof.Machine.execRunningEvaluation c site s
  | .tally c => Sys2Proof.Machine.execTally c s
  | .siteMonitor c site => Sys2Proof.Machine.execSiteMonitor c site s

end Sys2Proof.Machine
end

