-- ==== Sys2Proof/Machine/Wire.lean ====
section
/-! DEFINITION. The bytes on the links (Chapter 12): the frames of the equipment lanes with the commands they spell, the
messages handed to the equipment, and the host's replies and reports. -/

namespace Sys2Proof.Machine

/-! ## Bytes -/

/-- A number in k bytes, most significant byte first (section 0.6.1). -/
def be : Nat → Nat → List Byte
  | 0, _ => []
  | k + 1, n => BitVec.ofNat 8 (n / 256 ^ k) :: be k n

/-- A temperature: a signed 16-bit two's-complement value (Chapter 12). -/
def tempBytes (t : Int) : List Byte := be 2 (BitVec.ofInt 16 t).toNat

/-- The exclusive-or of a list of bytes. -/
def xorBytes (l : List Byte) : Byte := l.foldl (· ^^^ ·) 0

/-! ## The control lane (Table 12-5, R171, R172) -/

/-- The start byte of a control-lane frame. -/
def controlStart : Byte := 0x96

/-- R171: the longest body of a control-lane message. -/
def maxLaneBody : Nat := 60

/-- A control-lane message frame: its check byte makes the exclusive-or of every byte 0xA5. -/
def controlFrame (kind : Byte) (body : List Byte) : List Byte :=
  let head := controlStart :: kind :: BitVec.ofNat 8 body.length :: body
  head ++ [xorBytes head ^^^ 0xA5]

/-- The idle fill frame of a control lane. -/
def idleFill : List Byte := [0x96, 0x00, 0x00, 0x33]

/-- The body of an ANNOUNCE (R172). -/
def announceBody : AnnounceMsg → List Byte
  | .handler id sites lo hi kit dock mode =>
    1 :: be 4 id.toNat ++ [sites] ++ be 2 lo.toNat ++ be 2 hi.toNat ++ be 2 kit.toNat ++ be 4 dock.toNat ++ [mode]
  | .tester id channels temp hours validity base kt kh =>
    2 :: be 4 id.toNat ++ [channels] ++ be 2 temp.toNat ++ be 2 hours.toNat ++ be 2 validity.toNat ++ be 2 base.toNat
      ++ be 2 kt.toNat ++ be 2 kh.toNat
  | .other role => role :: be 4 0 ++ be 4 0 ++ be 4 0 ++ be 4 0

/-- R172: the kind and the body of the message a command stands for, for the commands that are control-lane messages. -/
def messageOf : Instr → Option (Port × Byte × List Byte)
  | .checkArmed p => some (p, 0x02, [])
  | .checkResult p down => some (p, 0x04, be 2 down.toNat)
  | .announce p msg => some (p, 0x05, announceBody msg)
  | .hStatus p mode => some (p, 0x10, [mode])
  | .hTemp p temp => some (p, 0x11, be 2 temp.toNat)
  | .hKit p kit reseat => some (p, 0x12, be 2 kit.toNat ++ [reseat])
  | .hDock p tester => some (p, 0x13, be 4 tester.toNat)
  | .hIndex p mask => some (p, 0x14, [mask])
  | .hClean p mask => some (p, 0x15, [mask])
  | .hPhase p phase => some (p, 0x16, [phase])
  | .hCounts p m =>
    some (p, 0x17, be 4 m.loaded.toNat ++ m.bins.toList.flatMap (fun x => be 4 x.toNat) ++ be 4 m.jammed.toNat ++ [m.flag])
  | .tHeadtemp p temp => some (p, 0x20, be 2 temp.toNat)
  | .tCal p temp => some (p, 0x21, be 2 temp.toNat)
  | .tLoaded p program revision checkValue indication =>
    some (p, 0x22, be 2 program.toNat ++ [revision] ++ be 4 checkValue.toNat ++ [indication])
  | .tSwapped p => some (p, 0x23, [])
  | _ => none

/-- The frame of a command that is a control-lane message. -/
def laneFrame (i : Instr) : Option (List Byte) := (messageOf i).map fun m => controlFrame m.2.1 m.2.2

/-- R172: the length of an ANNOUNCE body fits the role its first byte names; either length passes for another role. -/
def announceFits (body : List Byte) : Bool :=
  if body.getD 0 0 = 1 then body.length == 17
  else if body.getD 0 0 = 2 then body.length == 18
  else body.length == 17 || body.length == 18

/-- R172: whether a body's length is the one fixed for its kind; none for a kind that is not listed. -/
def messageFits (kind : Byte) (body : List Byte) : Option Bool :=
  let n := body.length
  match kind.toNat with
  | 0x01 => some (n == 2)
  | 0x02 => some (n == 0)
  | 0x03 => some (n == 6)
  | 0x04 => some (n == 2)
  | 0x05 => some (announceFits body)
  | 0x10 => some (n == 1)
  | 0x11 => some (n == 2)
  | 0x12 => some (n == 3)
  | 0x13 => some (n == 4)
  | 0x14 => some (n == 1)
  | 0x15 => some (n == 1)
  | 0x16 => some (n == 1)
  | 0x17 => some (n == 41)
  | 0x20 => some (n == 2)
  | 0x21 => some (n == 2)
  | 0x22 => some (n == 8)
  | 0x23 => some (n == 0)
  | 0x30 => some (n == 2)
  | 0x31 => some (n == 24)
  | 0x32 => some (n == 0)
  | 0x33 => some (n == 0)
  | 0x34 => some (n == 0)
  | 0x35 => some (n == 1)
  | 0x38 => some (n == 3)
  | 0x39 => some (n == 0)
  | 0x3A => some (n == 4)
  | _ => none

/-- The byte at an offset of a body. -/
def byteAt (b : List Byte) (i : Nat) : Byte := b.getD i 0

/-- Two bytes of a body, most significant first. -/
def wordAt (b : List Byte) (i : Nat) : BitVec 16 := byteAt b i ++ byteAt b (i + 1)

/-- Four bytes of a body, most significant first. -/
def longAt (b : List Byte) (i : Nat) : BitVec 32 := wordAt b i ++ wordAt b (i + 2)

/-- The ANNOUNCE a body spells. -/
def announceMsg (b : List Byte) : AnnounceMsg :=
  if byteAt b 0 = 1 then .handler (longAt b 1) (byteAt b 5) (wordAt b 6) (wordAt b 8) (wordAt b 10) (longAt b 12) (byteAt b 16)
  else if byteAt b 0 = 2 then
    .tester (longAt b 1) (byteAt b 5) (wordAt b 6) (wordAt b 8) (wordAt b 10) (wordAt b 12) (wordAt b 14) (wordAt b 16)
  else .other (byteAt b 0)

/-- The H_COUNTS a body spells. -/
def countsMsg (b : List Byte) : CountsMsg :=
  { loaded := longAt b 0, bins := Vector.ofFn fun k : Fin 8 => longAt b (4 + 4 * k.val), jammed := longAt b 36, flag := byteAt b 40 }

/-- The command a message of a port spells. A kind that the equipment does not send, or that is not listed, is discarded as
an unknown message is (R33). -/
def messageCommand (p : Port) (kind : Byte) (b : List Byte) : Instr :=
  match kind.toNat with
  | 0x02 => .checkArmed p
  | 0x04 => .checkResult p (wordAt b 0)
  | 0x05 => .announce p (announceMsg b)
  | 0x10 => .hStatus p (byteAt b 0)
  | 0x11 => .hTemp p (wordAt b 0)
  | 0x12 => .hKit p (wordAt b 0) (byteAt b 2)
  | 0x13 => .hDock p (longAt b 0)
  | 0x14 => .hIndex p (byteAt b 0)
  | 0x15 => .hClean p (byteAt b 0)
  | 0x16 => .hPhase p (byteAt b 0)
  | 0x17 => .hCounts p (countsMsg b)
  | 0x20 => .tHeadtemp p (wordAt b 0)
  | 0x21 => .tCal p (wordAt b 0)
  | 0x22 => .tLoaded p (wordAt b 0) (byteAt b 2) (longAt b 3) (byteAt b 7)
  | 0x23 => .tSwapped p
  | _ => .unknownMessageKind p

/-- R33, R171: the command a whole control-lane frame of a port spells: none for idle fill and for bytes that are no
well-formed frame; BAD_FRAME for a check byte that is wrong or a length that does not fit the kind. -/
def controlCommand (p : Port) (frame : List Byte) : Option Instr :=
  match frame with
  | start :: kind :: len :: rest =>
    if start ≠ controlStart ∨ maxLaneBody < len.toNat ∨ rest.length ≠ len.toNat + 1 then none
    else if frame = idleFill then none
    else if xorBytes frame ≠ 0xA5 then some (.badFrame p)
    else
      let body := rest.take len.toNat
      match messageFits kind body with
      | none => some (.unknownMessageKind p)
      | some true => some (messageCommand p kind body)
      | some false => some (.badFrame p)
  | _ => none

/-! ## What the FD32 sends down a control lane (R34, R172) -/

/-- The check pattern of an index in bytes. -/
def patternBytes (index : Nat) : List Byte := (List.range 4).map fun k => BitVec.ofNat 8 (patternByte index k)

/-- R172: the frame of a message handed to a control lane; of the down check frames, the next one to leave. -/
def downFrame : Down → List Byte
  | .checkBegin n => controlFrame 0x01 (be 2 n)
  | .checkFrames next _ => controlFrame 0x03 (be 2 next ++ patternBytes next)
  | .setpoint t => controlFrame 0x30 (tempBytes t)
  | .feed lot step sites bins retest =>
    controlFrame 0x31 (be 4 lot ++ be 1 step ++ [sites] ++ bins.toList.flatMap (be 1) ++ be 2 retest.toNat)
  | .halt => controlFrame 0x32 []
  | .continue_ => controlFrame 0x33 []
  | .stop => controlFrame 0x34 []
  | .mask sites => controlFrame 0x35 [sites]
  | .load program revision => controlFrame 0x38 (be 2 program ++ be 1 revision)
  | .swap => controlFrame 0x39 []
  | .lot tag step channels => controlFrame 0x3A (be 2 tag ++ be 1 step ++ [channels])

/-- R20: the transmitter of a port's control lane runs: a rise of presence starts it, on the way out of ABSENT, and a fall
stops it, on the way into ABSENT. -/
def PortRec.transmits (r : PortRec) : Bool := r.state != .absent

/-- R20, R34: the frame that leaves a port's control lane next: none while the transmitter is stopped, and otherwise the oldest
message handed to the lane, or idle fill. -/
def nextDownFrame (r : PortRec) : Option (List Byte) :=
  if r.transmits then
    match r.out with
    | [] => some idleFill
    | d :: _ => some (downFrame d)
  else none

/-- R20, R34: the next frame leaves a port's control lane, whose transmitter runs. Down check frames leave one at a time, in
index order. -/
def laneSends (r : PortRec) : PortRec :=
  if r.transmits then
    match r.out with
    | [] => r
    | .checkFrames next n :: rest => { r with out := if next + 1 < n then .checkFrames (next + 1) n :: rest else rest }
    | _ :: rest => { r with out := rest }
  else r

/-! ## The result lane (Tables 12-5 and 12-6, R171) -/

/-- The bytes of a result-lane frame. -/
def upBytes : UpFrame → List Byte
  | .record bytes => 0x69 :: be 8 bytes.toNat
  | .check index pattern b => 0x6A :: be 2 index.toNat ++ be 4 pattern.toNat ++ [b]

/-- The idle fill frame of a result lane. -/
def resultIdle : List Byte := [0x6B]

/-- R171: the frame other than idle fill that a whole result-lane frame spells. -/
def upFrameOf : List Byte → Option UpFrame
  | [0x69, a, b, c, d, e, f, g, h] => some (.record (a ++ b ++ c ++ d ++ e ++ f ++ g ++ h))
  | [0x6A, a, b, c, d, e, f, g] => some (.check (a ++ b) (c ++ d ++ e ++ f) g)
  | _ => none

/-- R35: the command of a frame on a port's result lane: a result record, a check frame during a check, and a check frame
outside one. -/
def resultCommand (p : Port) (checking : Bool) : UpFrame → Instr
  | .record bytes => .resultRecord p bytes
  | f => if checking then .checkFrame p f else .resultLaneDiscard p f

/-! ## What a lane receiver reads (R21, R171) -/

/-- What a receiver takes from a lane, one by one. -/
inductive LaneItem where
  /-- A well-formed frame, idle fill included. -/
  | frame (bytes : List Byte)
  /-- One malformed frame: bytes up to the next start byte. -/
  | malformed
  deriving DecidableEq, Repr

/-- The size of the well-formed frame at the head of a lane's bytes, by lane; none where there is none. A size larger than
what has arrived is a frame that is not complete. -/
def frameSize (lane : Lane) (b : List Byte) : Option Nat :=
  match lane with
  | .control =>
    if byteAt b 0 = controlStart then
      if b.length < 3 then some 4 else if (byteAt b 2).toNat ≤ maxLaneBody then some (4 + (byteAt b 2).toNat) else none
    else none
  | .result => if byteAt b 0 = 0x69 then some 9 else if byteAt b 0 = 0x6A then some 8 else if byteAt b 0 = 0x6B then some 1 else none

/-- A start byte of a lane. -/
def isStart (lane : Lane) (b : Byte) : Bool :=
  match lane with
  | .control => b == controlStart
  | .result => b == 0x69 || b == 0x6A || b == 0x6B

/-- R171: the items of a lane's bytes from a frame boundary, with the bytes of the frame that is not complete. `fuel`
bounds the number of items; the number of bytes suffices. A control-lane start byte whose length is above 60 is one malformed
frame, and the next start byte is sought behind it (log entry 47). -/
def laneItems (lane : Lane) : Nat → List Byte → List LaneItem × List Byte
  | 0, b => ([], b)
  | _, [] => ([], [])
  | fuel + 1, x :: rest =>
    match frameSize lane (x :: rest) with
    | none =>
      let r := laneItems lane fuel (rest.dropWhile fun y => !isStart lane y)
      (.malformed :: r.1, r.2)
    | some n =>
      if (x :: rest).length < n then ([], x :: rest)
      else
        let r := laneItems lane fuel ((x :: rest).drop n)
        (.frame ((x :: rest).take n) :: r.1, r.2)

/-! ## Codes of enumerations and sets (R170, Table 12-2) -/

def flagByte (b : Bool) : List Byte := [if b then 1 else 0]

/-- The mask of a list of members: bit k marks the (k+1)th. -/
def maskOf (l : List Bool) : Nat := l.zipIdx.foldl (fun n x => if x.1 then n + 2 ^ x.2 else n) 0

def Status.code : Status → Nat
  | .ok => 0x00
  | .unknownKind => 0x01
  | .malformed => 0x02
  | .notFound => 0x03
  | .exists_ => 0x04
  | .full => 0x05
  | .wrongState => 0x06
  | .inUse => 0x07
  | .mismatch => 0x08
  | .refused => 0x09
  | .busy => 0x0A

def LotState.code : LotState → Nat
  | .waiting => 1
  | .queued => 2
  | .active => 3
  | .saved => 4
  | .held => 5
  | .complete => 6

def LotNow.code : LotNow → Nat
  | .state s => s.code
  | .dropped => 0x80
  | .released => 0x81

def Priority.code : Priority → Nat
  | .normal => 1
  | .hot => 2

def StepStatus.code : StepStatus → Nat
  | .pending => 1
  | .opened => 2
  | .closed => 3

/-- NONE is 0 (Table 12-2's 'None'), and the outcomes stand in the order of R152 (log entry 10). -/
def Recon.code : Recon → Nat
  | .none => 0
  | .pass => 1
  | .mismatch => 2
  | .lost => 3
  | .accepted => 4

def MarginClass.code : MarginClass → Nat
  | .normal => 1
  | .extended => 2

def Reason.code : Reason → Nat
  | .yieldFloor => 1
  | .classCeiling => 2
  | .recoveryCeiling => 3
  | .countMismatch => 4
  | .countLost => 5
  | .resultFault => 6
  | .placed => 7

def Severity.code : Severity → Nat
  | .immediate => 1
  | .atEnd => 2
  | .ship => 3

def Origin.code : Origin → Nat
  | .automatic => 1
  | .requested => 2

/-- A cell's state; FREE is 0. -/
def cellStateCode : Option CellState → Nat
  | none => 0
  | some .idle => 1
  | some .starting => 2
  | some .running => 3
  | some .paused => 4
  | some .draining => 5
  | some .manual => 6

def Purpose.code : Purpose → Nat
  | .ending => 1
  | .withdraw => 2
  | .preempt => 3
  | .hold => 4
  | .disable => 5

def Causes.code (x : Causes) : Nat :=
  maskOf [x.handlerLink, x.testerLink, x.atHandler, x.temp, x.kit, x.cal, x.barred, x.noSites]

def Waiting.code (x : Waiting) : Nat := maskOf [x.temp, x.program, x.tally, x.sites, x.cal]

def Mode.code : Mode → Nat
  | .remote => 1
  | .atHandler => 2

def Soak.code : Soak → Nat
  | .out => 1
  | .settling => 2
  | .soaked => 3

def SiteState.code : SiteState → Nat
  | .on => 1
  | .offMonitor => 2
  | .offForced => 3

/-- Table 3-5's pending change: ON, OFF of kind FORCED, OFF of kind MONITOR. -/
def changeCode : Option SiteState → Nat
  | none => 0
  | some .on => 1
  | some .offForced => 2
  | some .offMonitor => 3

/-- The kind of a change of a site: FORCED 1, MONITOR 2 (R57). A change to ON is SITE_FORCE's. -/
def siteKind : SiteState → Nat
  | .on => 1
  | .offForced => 1
  | .offMonitor => 2

def DissolveCause.code : DissolveCause → Nat
  | .handlerGone => 1
  | .testerGone => 2
  | .dockChanged => 3

def PortState.code : PortState → Nat
  | .absent => 1
  | .training => 2
  | .checking => 3
  | .awaitAnnounce => 4
  | .inService => 5
  | .faulted => 6

def Role.code : Role → Nat
  | .handler => 1
  | .tester => 2

def FaultCause.code : FaultCause → Nat
  | .checkFailed => 1
  | .badAnnounce => 2
  | .duplicateId => 3
  | .timeout => 4

/-- A return state is coded as a port state. -/
def CheckReturn.code : CheckReturn → Nat
  | .training => 2
  | .awaitAnnounce => 4
  | .inService => 5

/-- LATCHED 1, UNLATCHED 2 (Table 2-1). -/
def checkMode (latched : Bool) : Nat := if latched then 1 else 2

def CheckOutcome.code : CheckOutcome → Nat
  | .pass => 1
  | .fail => 2
  | .abandoned => 3

def ClaimStatus.code : ClaimStatus → Nat
  | .formed => 1
  | .waiting => 2
  | .conflict => 3

def SlotUse.code : SlotUse → Nat
  | .unused => 1
  | .inUse => 2
  | .parked => 3

def Staged.code : Staged → Nat
  | .empty => 1
  | .loading _ _ _ => 2
  | .ready _ _ => 3
  | .failed => 4

def LoadOutcome.code : LoadOutcome → Nat
  | .loadIssued => 1
  | .swapIssued => 2
  | .loaded => 3
  | .badCheck => 4
  | .loadFail => 5
  | .stale => 6
  | .loadTimeout => 7
  | .barred => 8
  | .swapped => 9
  | .swapTimeout => 10
  | .abandoned => 11
  | .cleared => 12

def ReleaseCause.code : ReleaseCause → Nat
  | .notComplete => 1
  | .held => 2
  | .unreconciled => 3
  | .extended => 4
  | .zeroQuantity => 5
  | .empty => 6

/-- CLEAR 1, RETEST_STEP 2, SCRAP 3 (Table 12-3), and DROPPED after them (R18). -/
def Disposition.code : Disposition → Nat
  | .clear => 1
  | .retestStep _ => 2
  | .scrap _ => 3
  | .dropped => 4

/-- The baud of the rate straps (Table 11-1). -/
def baud (rate : BitVec 2) : Nat :=
  match rate.toNat with
  | 0 => 115200
  | 1 => 460800
  | 2 => 1000000
  | _ => 3000000

/-! ## Bodies with absent fields (R170) -/

/-- A part of a body: bytes that are always carried, or a field that may be absent, with its size. -/
inductive Part where
  | plain (bytes : List Byte)
  | opt (size : Nat) (value : Option (List Byte))
  deriving DecidableEq, Repr

/-- Whether the optional fields of a body are present, in order. -/
def presence (l : List Part) : List Bool :=
  l.filterMap fun x => match x with
    | .plain _ => none
    | .opt _ v => some v.isSome

/-- The presence byte: bit k marks the (k+1)th field that may be absent as present. A body with more than eight such fields
carries as many presence bytes as they need (log entry 10). -/
def presenceBytes (flags : List Bool) : List Byte :=
  (List.range ((flags.length + 7) / 8)).map fun i => BitVec.ofNat 8 (maskOf ((flags.drop (8 * i)).take 8))

/-- The bytes of one part; an absent field is sent as 0. -/
def Part.bytes : Part → List Byte
  | .plain b => b
  | .opt size v => v.getD (be size 0)

/-- R170: the presence byte stands before the first field of the body that may be absent. -/
def layout (l : List Part) : List Byte :=
  let before := l.takeWhile fun x => match x with
    | .plain _ => true
    | .opt _ _ => false
  before.flatMap Part.bytes ++ presenceBytes (presence l) ++ (l.drop before.length).flatMap Part.bytes

/-- Bytes that are always carried: a number of a size. -/
def num (size n : Nat) : Part := .plain (be size n)

/-- A number that may be absent. -/
def optNum (size : Nat) (n : Option Nat) : Part := .opt size (n.map (be size))

/-- A temperature that may be absent. -/
def optTemp (t : Option Int) : Part := .opt 2 (t.map tempBytes)

/-- R170: an absent lot id, hold id or value of an enumeration is sent as 0. -/
def orZero (size : Nat) (n : Option Nat) : Part := num size (n.getD 0)

/-- An absent cell or port number is sent as 0xFF. -/
def orFF (n : Option Nat) : Part := num 1 (n.getD 0xFF)

/-- The numbers of a field given per class or bin. -/
def each {n : Nat} (size : Nat) (v : Vector Nat n) : Part := .plain (v.toList.flatMap (be size))

/-- A list of varying length is preceded by a 1-byte count. -/
def counted {α : Type} (f : α → List Byte) (l : List α) : Part := .plain (be 1 l.length ++ l.flatMap f)

/-! ## Reports (Tables 12-3 and 12-4, R170) -/

/-- The close section of a LOT_STATE report, 91 bytes. -/
def CloseSection.bytes (x : CloseSection) : List Byte :=
  be 1 x.step ++ be 1 x.recon.code ++ be 1 (maskOf [x.failA, x.failB, x.failC]) ++ be 4 x.loaded
    ++ x.bins.toList.flatMap (be 4) ++ be 4 x.jammed ++ be 4 x.n1 ++ be 4 x.u ++ x.totals.toList.flatMap (be 4)
    ++ be 4 x.goodOut ++ be 4 x.closeTime

/-- A capture as a hold record carries it, 17 bytes (Table 12-4). -/
def Capture.bytes (x : Capture) : List Byte :=
  be 4 x.time ++ be 1 x.cell.val ++ be 1 x.site ++ be 3 x.sequence ++ be 4 x.n1 ++ be 4 x.ne

/-- A capture in a body that Table 12-4 does not lay out (R127, R170): its 24-bit sequence takes 4 bytes. -/
def captureParts (x : Capture) : List Part :=
  [num 4 x.time, num 1 x.cell.val, num 1 x.site, num 4 x.sequence, num 4 x.n1, num 4 x.ne]

/-- Table 12-4: a hold record, 67 bytes; an overflow has hold id 0 and reason 0xFF. -/
def holdBytes (h : Hold) (overflow : Bool) : List Byte :=
  let note := h.note.getD []
  be 2 (if overflow then 0 else h.id) ++ be 4 h.lot ++ be 1 (if overflow then 0xFF else h.reason.code) ++ be 1 h.cls
    ++ be 1 h.step ++ be 1 h.severity.code ++ be 1 h.origin.code ++ be 1 h.occurrences ++ be 4 h.raised
    ++ be 1 (maskOf [h.capture.isSome, h.note.isSome]) ++ (h.capture.map Capture.bytes).getD (be 17 0)
    ++ be 1 note.length ++ note ++ List.replicate (32 - note.length) 0

/-- The ended check of a PORT_STATE report. The up-error count has no width in the spec and is sent in 4 bytes (log entry 37). -/
def lastParts (x : Option LastCheck) : List Part :=
  [orZero 1 (x.map (·.outcome.code)), orZero 1 (x.map fun k => checkMode k.latched), optNum 2 (x.map (·.frames)),
    optNum 4 (x.map (·.upErrors)), optNum 2 (x.map (·.downErrors))]

/-- A program id and revision, absent together; each is a field with a presence bit of its own (log entry 35). -/
def programParts (x : Option (Nat × Nat)) : List Part := [optNum 2 (x.map (·.1)), optNum 1 (x.map (·.2))]

/-- The fields of a staged slot (Table 5-2): its state, and the id and revision of LOADING and READY. -/
def stagedParts (x : Staged) : List Part :=
  num 1 x.code :: (match x with
    | .loading g v _ => programParts (some (g, v))
    | .ready g v => programParts (some (g, v))
    | _ => programParts none)

/-- A lot of a release record: its id and quantity (R160). -/
def releasedLot (x : Nat × Nat) : List Byte := be 4 x.1 ++ be 4 x.2

/-- The fields of a release record up to the release time (R160). -/
def ReleaseRec.head (r : ReleaseRec) : List Byte := be 1 r.group ++ be 2 r.product ++ be 1 r.lots.length ++ be 4 r.time

/-- The release record of a GROUP_RELEASE reply (Table 12-3): the total quantity, then the lots. -/
def ReleaseRec.replyBytes (r : ReleaseRec) : List Byte := r.head ++ be 4 r.total ++ r.lots.flatMap releasedLot

/-- The release record of a RELEASED report, in the order of R160: the list of lots, then the total quantity. The lot count
stands as a field of its own, and R170's count precedes the list as well (log entry 35). -/
def ReleaseRec.reportParts (r : ReleaseRec) : List Part := [.plain r.head, counted releasedLot r.lots, num 4 r.total]

/-- Table 12-2: the kind of a report. -/
def Report.kind : Report → Byte
  | .lotState .. => 0x40
  | .holdRaised .. => 0x41
  | .holdCleared .. => 0x42
  | .cellState .. => 0x43
  | .siteChange .. => 0x44
  | .siteRequested .. => 0x44
  | .loadState .. => 0x45
  | .portState .. => 0x46
  | .tally .. => 0x47
  | .released .. => 0x48
  | .reportsLost .. => 0x49

/-- The operand of a disposition, 0 for one that takes none (log entry 35). -/
def Disposition.operand : Disposition → Nat
  | .retestStep s => s
  | .scrap n => n
  | _ => 0

/-- The body of a report: Table 12-3 and Table 12-4 where they lay it out, and R170's rule over the fields of its own rule
otherwise. The presence bytes of a TALLY report's ratios, the order of a HOLD_RAISED report around its hold record, and the form
of a HOLD_CLEARED report that names no record (R142), its operand, which a disposition without one (CLEAR by R138, DROPPED by
R18) sends as 0 in four bytes with no presence bit, and the DOCK_CONFLICT indication at the end of every PORT_STATE report (R38)
are the model's choice (log entry 35). The equipment id of a LOAD_STATE report is never absent (R97), since only a slot
record in use or parked has load and swap events. -/
def Report.body : Report → List Byte
  | .lotState lot prev now step quantity cell close =>
    be 4 lot ++ be 1 ((prev.map LotState.code).getD 0) ++ be 1 now.code ++ be 1 step ++ be 4 quantity
      ++ be 1 ((cell.map (·.val)).getD 0xFF) ++ flagByte close.isSome ++ (close.map CloseSection.bytes).getD []
  | .holdRaised h overflow merged state time =>
    be 1 state.code ++ holdBytes h overflow ++ flagByte merged ++ be 4 time
  | .holdCleared lot h d state step quantity =>
    layout [orZero 2 (h.map (·.id)), num 4 lot, num 1 ((h.map (·.reason.code)).getD 0xFF), optNum 1 (h.map (·.cls)),
      optNum 1 (h.map (·.step)), orZero 1 (h.map (·.severity.code)), optNum 1 (h.map (·.occurrences)), num 1 d.code,
      num 4 d.operand, num 1 state.code, num 1 step, num 4 quantity]
  | .cellState c prev now handler tester lot purpose causes waiting dissolved =>
    layout [num 1 c.val, num 1 (cellStateCode prev), num 1 (cellStateCode now), num 4 handler, num 4 tester, orZero 4 lot,
      orZero 1 (purpose.map Purpose.code), num 1 causes.code, num 1 waiting.code, orZero 1 (dissolved.map DissolveCause.code)]
  | .siteChange c site old new => layout [num 1 c.val, num 1 site, num 1 old.code, num 1 new.code, num 1 (siteKind new)]
  | .siteRequested c lot site x =>
    layout ([num 1 c.val, num 4 lot, num 1 site, num 1 (siteKind .offMonitor), num 1 1] ++ captureParts x)
  | .loadState p equip o program failures barred active staged =>
    layout ([num 1 p.val, orZero 4 equip, num 1 o.code] ++ programParts program ++ [num 1 failures, .plain (flagByte barred)]
      ++ programParts active ++ [num 1 staged.code])
  | .portState p prev now role equip fault checkFailed ended conflict =>
    layout ([num 1 p.val, num 1 prev.code, num 1 now.code, orZero 1 (role.map Role.code), optNum 4 equip,
      orZero 1 (fault.map FaultCause.code), .plain (flagByte checkFailed)] ++ lastParts ended
      ++ [.plain (flagByte conflict.isSome), optNum 4 (conflict.map (·.1)), orFF (conflict.map (·.2.val))])
  | .tally lot step c n1 ne ce yield ceilings u retested recovered time =>
    layout [num 4 lot, num 1 step, num 1 c.val, num 4 n1, num 4 ne, each 4 ce, optNum 2 yield,
      counted (fun x => layout [num 1 x.1, optNum 2 x.2]) ceilings, num 4 u, num 4 retested, num 4 recovered, num 4 time]
  | .released r => layout r.reportParts
  | .reportsLost n => be 4 n

/-! ## Replies (R170) -/

/-- A step record of a LOT_QUERY reply (R15, Table 1-4), with a presence byte of its own (log entry 35). -/
def StepRec.bytes (r : StepRec) : List Byte :=
  layout [num 1 r.status.code, optNum 4 r.input, num 4 r.loaded, each 4 r.bins, num 4 r.jammed, .plain (flagByte r.countLost),
    optNum 4 r.goodOut, num 1 r.recon.code, num 1 r.margin.code, optNum 4 r.closeTime]

/-- The location field of a lot: absent, a cell and a queue entry, or a cell's save context (Table 1-3). Its kind byte, 0, 1 or
2, and the two fields after it are the model's choice (log entry 35). -/
def locationParts : Location → List Part
  | .absent => [num 1 0, orFF none, optNum 1 none]
  | .queue c n => [num 1 1, orFF (some c.val), optNum 1 (some n)]
  | .save c => [num 1 2, orFF (some c.val), optNum 1 none]

/-- The fields of a lot record and its step records (R15). The hold list and the overflow flag are sent once, behind the step
records, where R15 lists them, and the tally reference is one flag byte (log entry 35). -/
def lotParts (l : Lot) (steps : List StepRec) : List Part :=
  [num 4 l.id, num 2 l.product, num 4 l.entered, num 4 l.quantity, num 1 l.priority.code, num 4 l.seq, num 1 l.state.code,
    num 1 l.step, num 4 l.scrapped, .plain (flagByte l.tally)] ++ locationParts l.location
    ++ [optNum 1 (l.group.map (·.val + 1)), counted StepRec.bytes steps, counted (be 2) l.holds, .plain (flagByte l.overflow)]

/-- A site record (Table 3-5). -/
def Site.bytes (x : Site) : List Byte :=
  be 1 x.state.code ++ be 1 (changeCode x.change) ++ be 1 x.blank ++ be 1 x.run ++ be 4 x.expFirst ++ be 4 x.expRetest

/-- The fields of a formed cell in the order of Table 3-1 and R59 (log entry 35 for the segment, the site table and the queue). -/
def cellParts (enable preempt : Bool) (k : Cell) (t : CellTimers) (director : Bool) (q : DispatchQueue) (saved : Option Nat)
    (hc tc : Option ClaimStatus) : List Part :=
  [num 1 k.handlerPort.val, num 1 k.testerPort.val, num 4 k.handlerId, num 4 k.testerId, num 1 (cellStateCode (some k.state)),
    num 1 k.waiting.code, num 1 k.causes.code, orZero 1 (k.purpose.map Purpose.code), .plain (flagByte enable),
    .plain (flagByte preempt), num 1 k.mode.code, num 2 k.kit, optTemp k.setpoint, optNum 1 k.band, optNum 2 k.soakTime,
    optTemp k.temp, num 1 k.soak.code, optNum 2 t.soak, optNum 1 t.stale, optNum 2 t.withdraw, optNum 2 t.drain,
    .plain (flagByte k.segment.isSome), orZero 4 (k.lastSegment.map (·.lot)), optNum 1 (k.lastSegment.map (·.step)),
    optNum 4 (k.lastSegment.map (·.feedTime)), num 4 k.segLoaded, each 4 k.segBins, num 4 k.segJammed,
    orZero 1 (k.lastPhase.map fun r => if r then 2 else 1), .plain [k.lastMask], num 4 k.indexCount, num 4 k.mismatchCount,
    num 1 (if director then 1 else 2), counted Site.bytes k.sites, orZero 4 q.current, counted (be 4) q.behind, orZero 4 saved,
    orZero 1 (hc.map ClaimStatus.code), orZero 1 (tc.map ClaimStatus.code)]

/-- The announce data of a port record (R30, R31): the role that holds it, or 0 for none, and its fields (log entry 35). -/
def dataBytes : Option AnnounceData → List Byte
  | none => be 1 0
  | some (.handler sites lo hi kit dock mode) =>
    be 1 1 ++ be 1 sites ++ tempBytes lo ++ tempBytes hi ++ be 2 kit ++ be 4 dock ++ be 1 mode.code
  | some (.tester channels temp hours validity base kt kh) =>
    be 1 2 ++ be 1 channels ++ tempBytes temp ++ be 2 hours ++ be 2 validity ++ be 2 base ++ be 2 kt ++ be 2 kh

/-- A port record with its stray count (Table 2-1, R168). That a CHECK_RESULT has been received shows by the presence of its
down-error count alone (log entry 35). -/
def portBytes (x : PortRec × Nat) : List Byte :=
  let r := x.1
  layout ([num 1 r.state.code, .plain (flagByte r.controlLock), .plain (flagByte r.resultLock), orZero 1 (r.role.map Role.code),
    optNum 4 r.equip, .plain (dataBytes r.data), orZero 1 (r.fault.map FaultCause.code), .plain (flagByte r.checkFailed),
    orZero 1 (r.check.map fun k => checkMode k.latched), optNum 2 (r.check.map (·.frames)),
    orZero 1 (r.check.map (·.ret.code)), optNum 1 (r.check.map fun k => if k.armed then 1 else 0),
    optNum 2 (r.check.bind (·.result)), optNum 2 (r.check.map (·.expected)), optNum 4 (r.check.map (·.upErrors))]
    ++ lastParts r.last ++ [optNum 4 (r.announceTimer.map (·.start)), optNum 4 (r.checkTimer.map (·.start)),
    num 4 r.badFrames, num 4 r.ignored, num 4 r.discarded, num 4 x.2])

/-- The load limit and the start of a LOADING slot (Table 5-2). -/
def loadParts : Staged → List Part
  | .loading _ _ timer => [optNum 2 (some timer.limit), optNum 4 (some timer.start)]
  | _ => [optNum 2 none, optNum 4 none]

/-- A slot record with its calibration record and margin values (Tables 5-2 and 5-3). That a swap is in flight shows by the
presence of its start alone (log entry 35). -/
def slotBytes (t : Slot) : List Byte :=
  layout ([num 1 t.use.code, optNum 4 t.equip] ++ programParts t.active ++ stagedParts t.staged
    ++ loadParts t.staged ++ [optNum 4 (t.swap.map (·.start)), optNum 2 t.request, num 1 t.failures, .plain (flagByte t.barred),
      optTemp (t.cal.map (·.calTemp)), optNum 4 (t.cal.map (·.calTime)), optTemp (t.cal.map (·.headTemp)),
      optNum 2 (t.cal.map (·.validity)), optNum 2 (t.cal.map (·.base)), optNum 2 (t.cal.map (·.kt)), optNum 2 (t.cal.map (·.kh)),
      optNum 2 (t.margin.map (·.delta)), optNum 4 (t.margin.map (·.age)), optNum 2 (t.margin.map (·.used)),
      optNum 4 (t.margin.map (·.time))])

/-- The GENERAL section of STATUS (Table 11-5). -/
def General.parts (g : General) : List Part :=
  [.plain (flagByte g.strict), num 4 (baud g.rate), num 4 g.floorTime, num 4 g.elapsed, num 2 g.params.withdraw,
    num 2 g.params.drain, num 1 g.params.stale, num 2 g.params.unreadable, num 4 g.frames.overLength, num 4 g.frames.truncated,
    num 4 g.frames.badCrc, num 4 g.frames.good, num 4 g.frames.overrun, num 1 g.reports, num 4 g.dropped, num 2 g.lots,
    num 1 g.products, num 1 g.programs, num 1 g.freeTallies, num 2 g.holds, num 1 g.groups, num 1 g.pending]

/-- A lot's line of a listing, 14 bytes (Table 12-3). -/
def LotSummary.bytes (x : LotSummary) : List Byte :=
  be 4 x.id ++ be 2 x.product ++ be 1 x.state.code ++ be 1 x.step ++ be 4 x.quantity ++ be 1 x.priority.code ++ flagByte x.held

/-- A lot's line of a GROUP_QUERY reply (R158). -/
def GroupLine.bytes (x : GroupLine) : List Byte :=
  be 4 x.id ++ be 1 x.state.code ++ be 1 x.step ++ be 4 x.quantity ++ be 1 ((x.cause.map ReleaseCause.code).getD 0)

/-- The fields of a tally as TALLY_QUERY gives them (R128). The first four ratios lie in 0..10000; the unreadable share can
exceed that range and is sent in four bytes, its low 32 bits where it exceeds those too (log entry 10). It has a presence bit as
the others have, though its divisor is never 0 (log entry 35). -/
def tallyParts (t : Tally) (input : Option Nat) (final : Vector Nat 16) (retested : Nat) (ratios : List (Option Nat)) : List Part :=
  [num 4 t.lot, num 1 t.step, optNum 4 input, num 4 t.n1, each 4 t.c1, num 4 t.ne, each 4 t.ce, each 4 t.x, each 4 t.c2, num 4 t.u,
    num 4 t.badCheck, num 4 t.invalid, num 4 t.missing, num 4 t.stray, num 4 t.duplicate, num 4 t.excess, num 1 t.divider,
    num 1 t.evaluations, each 4 final, num 4 retested] ++ (ratios.take 4).map (optNum 2) ++ (ratios.drop 4).map (optNum 4)

/-- The fields of an OK reply after its status byte. The byte that shows a TALLY_QUERY's tally absent and the status byte of a
group that is not open, and the one byte that is both the number of lots of an open group and the count of their list, are the
model's choice (log entry 35). -/
def Reply.parts : Reply → List Part
  | .plain _ => []
  | .entered n => [num 4 n]
  | .lot l steps => lotParts l steps
  | .lots l more => [num 1 l.length, .plain (flagByte more), .plain (l.flatMap LotSummary.bytes)]
  | .cellFree enable preempt => [num 1 0, .plain (flagByte enable), .plain (flagByte preempt)]
  | .cell enable preempt k t director q saved hc tc => cellParts enable preempt k t director q saved hc tc
  | .noTally st step => [num 1 st.code, num 1 step, num 1 0]
  | .tally t input final retested ratios => tallyParts t input final retested ratios
  | .placed merged h => [num 1 (if merged then 2 else if h.isSome then 1 else 3), orZero 2 h]
  | .holds l more total_ flagged allLots =>
    [counted (fun h => holdBytes h false) l, .plain (flagByte more), num 2 total_, num (if allLots then 2 else 1) flagged]
  | .groupCount n => [num 1 n]
  | .groupFree => [num 1 1]
  | .group id product extended listed =>
    [num 1 id, optNum 2 product, .plain (flagByte extended), counted GroupLine.bytes listed]
  | .releaseRefused cause unfit => [num 1 cause.code, orZero 4 unfit]
  | .released r => [.plain r.replyBytes]
  | .clock old new => [num 4 old, num 4 new]
  | .param old => [num 2 old]
  | .general g => g.parts
  | .ports l more => [counted portBytes l, .plain (flagByte more)]
  | .claims l more =>
    [counted (fun x => be 1 x.port.val ++ be 4 x.tester ++ be 1 x.status.code) l, .plain (flagByte more)]
  | .testers l more => [counted slotBytes l, .plain (flagByte more)]

/-- The status byte of a reply. -/
def Reply.status : Reply → Status
  | .plain st => st
  | .releaseRefused _ _ => .refused
  | _ => .ok

/-- The body of a reply: the status byte, then the fields its request's rule gives. -/
def Reply.body (r : Reply) : List Byte := be 1 r.status.code ++ layout r.parts

/-! ## The frame being sent (Table 12-1) -/

/-- Table 12-1: a host frame. -/
def hostFrameBytes (kind tag : Byte) (body : List Byte) : List Byte :=
  let checked := be 2 body.length ++ [kind, tag] ++ body
  0xC3 :: checked ++ be 2 (crc16 checked).toNat

/-- The bytes of the frame the transmitter is sending: a reply has its request's kind with 0x80 added and its tag, a report
its own kind and tag 0. The sum of a kind of 0x80 or above is taken modulo 256 (log entry 35). -/
def Sending.bytes : Sending → List Byte
  | .reply kind tag r => hostFrameBytes (kind + 0x80) tag r.body
  | .report r _ => hostFrameBytes r.kind 0 r.body

/-- The frame on the host line, if one is being sent. -/
def State.lineOut (s : State) : Option (List Byte) := s.sending.map Sending.bytes

end Sys2Proof.Machine
end

