-- ==== Sys2Proof/Machine/Step.lean ====
section
/-! DEFINITION. The step of the block: the command at the front of its queue is taken; on an empty queue the control lanes
send. -/

namespace Sys2Proof.Machine

/-- R34: the next frame leaves every control lane (log entry 1). With nothing handed to any lane the lanes send idle fill
and the state stands. -/
def idleLanes (s : State) : State := { s with ports := s.ports.map laneSends }

/-- One step: the command at the front of the queue with the rest of the queue, or the idle step. -/
def step (s : State) : Host.Outcome State Fault Refusal :=
  match s.pending with
  | [] => .next (idleLanes s)
  | c :: rest => exec c { s with pending := rest }

/-- The state with the command a table word spells at the front of its queue; the table gives no row bits. -/
def State.withFetchWord (s : State) (nbits w : Nat) : State :=
  match decodeTableWord nbits w with
  | none => s
  | some c => { s with pending := c :: s.pending }

end Sys2Proof.Machine
end

