-- ==== Sys2Proof/Safety.lean ====
section
/-! DEFINITION. What the claims say of a state: the invariants of the machine, the conditions under which a command has its
own effect, and the parts of a state a command is said to leave alone. -/

namespace Sys2Proof.Machine

/-! ## Invariants -/

/-- The bounds of the host link unit: the report queue holds at most 64 reports, the input buffer and the busy list at
most four entries each, and the dropped counter 32 bits (R163, R165). -/
def State.linkBounded (s : State) : Prop :=
  s.reports.length ≤ Config.maxReports ∧ pendingRequests s.unanswered ≤ Config.maxPending
    ∧ busyReplies s.unanswered ≤ Config.maxPending ∧ s.dropped ≤ Config.top32

/-- Both second counters are 32 bits wide (R166). -/
def State.clockBounded (s : State) : Prop := s.floorTime < Config.wrap32 ∧ s.elapsed < Config.wrap32

/-- The bounds of the tables: 64 products, 256 lots, 128 programs, 48 tallies, 512 hold records. -/
def State.tablesBounded (s : State) : Prop :=
  s.products.length ≤ Config.maxProducts ∧ s.lots.length ≤ Config.maxLots ∧ s.catalog.length ≤ Config.maxPrograms
    ∧ s.tallies.length ≤ Config.maxTallies ∧ s.holds.length ≤ Config.maxHolds

/-- The representable range of a temperature (section 0.6.2). -/
def inRange (t : Int) : Prop := -600 ≤ t ∧ t ≤ 2000

/-- The tables that are kept in ascending order hold each id once: products, lots, programs and hold records, whose ids are not
0. -/
def State.tablesSorted (s : State) : Prop :=
  (s.products.Pairwise fun a b => a.id < b.id) ∧ (s.lots.Pairwise fun a b => a.id < b.id)
    ∧ (s.catalog.Pairwise fun a b => a.id < b.id) ∧ (s.holds.Pairwise fun a b => a.id < b.id) ∧ ∀ h ∈ s.holds, 1 ≤ h.id

/-- Every temperature of an announce lies in the representable range. -/
def AnnounceData.inRange : AnnounceData → Prop
  | .handler _ lo hi _ _ _ => Machine.inRange lo ∧ Machine.inRange hi
  | .tester _ calTemp _ _ _ _ _ => Machine.inRange calTemp

/-- Every temperature the FD32 holds lies in the representable range: the setpoints of routes and cells, the chamber
temperatures, the announced temperatures and the calibration records (0.6.2, R2, R33). -/
def State.temperaturesInRange (s : State) : Prop :=
  (∀ g ∈ s.products, ∀ d ∈ g.steps, Machine.inRange d.setpoint)
    ∧ (∀ c k t, s.cell? c = some k → (k.setpoint = some t ∨ k.temp = some t) → Machine.inRange t)
    ∧ (∀ p : Port, ∀ k, s.slots[p].cal = some k → Machine.inRange k.calTemp ∧ Machine.inRange k.headTemp)
    ∧ (∀ p : Port, ∀ d, s.ports[p].data = some d → d.inRange)

/-- The wait list stands in the order of the wait key (R62). -/
def State.waitSorted (s : State) : Prop := s.waitList.Pairwise fun a b => s.waitKeyOf a ≤ s.waitKeyOf b

/-- R8, Table 1-3: a lot stands in the place its state names, and its location field says so. -/
def State.stands (s : State) (l : Lot) : Prop :=
  match l.state with
  | .waiting => l.location = .absent ∧ l.id ∈ s.waitList
  | .queued => ∃ c n, l.location = .queue c (n + 1) ∧ s.queues[c].behind[n]? = some l.id
  | .active => ∃ c, l.location = .queue c 0 ∧ s.queues[c].current = some l.id
  | .saved => ∃ c, l.location = .save c ∧ s.saves[c] = some l.id
  | .held => l.location = .absent
  | .complete => l.location = .absent

/-- An id of a list or of an entry names a lot of the table that has a state and a location. -/
def State.holdsLot (s : State) (id : Nat) (st : LotState) (loc : Location) : Prop :=
  ∃ l, s.lot? id = some l ∧ l.state = st ∧ l.location = loc

/-- R8, R62, R63: every lot stands in the place its state names, and in no other: the wait list, the dispatch queues and the save
contexts name lots that stand there. The wait list names each lot once. -/
def State.placesAgree (s : State) : Prop :=
  (∀ l ∈ s.lots, s.stands l)
    ∧ s.waitList.Nodup ∧ (∀ id ∈ s.waitList, s.holdsLot id .waiting .absent)
    ∧ (∀ c id, s.queues[c].current = some id → s.holdsLot id .active (.queue c 0))
    ∧ (∀ c n id, s.queues[c].behind[n]? = some id → s.holdsLot id .queued (.queue c (n + 1)))
    ∧ ∀ c id, s.saves[c] = some id → s.holdsLot id .saved (.save c)

/-- R62, R63: the wait list, and the lots behind entry 0 of every dispatch queue, stand in the order of the wait key. -/
def State.inKeyOrder (s : State) : Prop :=
  s.waitSorted ∧ ∀ c : CellNo, s.queues[c].behind.Pairwise fun a b => s.waitKeyOf a ≤ s.waitKeyOf b

/-- R71, R74: while the current lot of a cell is being drained for preemption the cell's save context is empty. -/
def State.savesFree (s : State) : Prop := ∀ c k, s.cell? c = some k → k.purpose = some .preempt → s.saves[c] = none

/-! ## Conditions -/

/-- The oldest request of the input buffer that has not been taken has a kind and a body (R163). -/
def State.asks (s : State) (kind : Byte) (body : List Byte) : Prop := ∃ tag, oldestUntaken s.unanswered = some (kind, tag, body)

/-- The end of a taking that changes nothing more: the reply of the oldest untaken request is formed (R163) and the
transmitter chooses (R164). -/
def State.replied (s : State) (r : Reply) : State := transmit (answer r s)

/-- A port is part of no cell. -/
def State.outside (s : State) (p : Port) : Prop := ∀ c k, s.cell? c = some k → k.handlerPort ≠ p ∧ k.testerPort ≠ p

/-- No cell is formed. -/
def State.noCells (s : State) : Prop := ∀ c, s.cell? c = none

/-- A cell record holds no lot: it is free, or formed and IDLE with an empty dispatch queue. -/
def State.quiet (s : State) (c : CellNo) : Prop :=
  s.queues[c].current = none ∧ s.queues[c].behind = [] ∧ ∀ k, s.cell? c = some k → k.state = .idle

/-- Computing the margin of the tester on a port shows nothing new to tell the cell manager (R95). -/
abbrev State.marginSteady (s : State) (p : Port) : Prop := marginDiffers p s (computeMargin p s) = false

/-- The messages of the handler on a port are taken, and it is in a formed cell (R33). -/
abbrev State.hears (s : State) (p : Port) (c : CellNo) (k : Cell) : Prop :=
  s.serves p .handler = true ∧ s.ports[p].controlLock = true ∧ s.cellOfHandler? p = some c ∧ s.cell? c = some k

/-- No site of a cell has a pending change (R57). -/
abbrev Cell.noChanges (k : Cell) : Prop := ∀ x ∈ k.sites, x.change = none

/-- R45: of the causes that could stop a cell with a lot of a product and a step, none is present but perhaps the chamber's
temperature and the tester's margin. -/
abbrev State.inOrder (s : State) (k : Cell) (l : Lot) (g : Product) (d : StepDef) : Prop :=
  s.inService k.handlerPort = true ∧ s.inService k.testerPort = true ∧ k.mode = .remote ∧ s.product? l.product = some g
    ∧ s.stepDef? l l.step = some d ∧ k.kit = g.kit ∧ s.slots[k.testerPort].barred = false ∧ k.anyOn = true

/-- The same, with a margin that passes the step and is steady: the temperature alone may be wanting. -/
abbrev State.onlyTemp (s : State) (k : Cell) (l : Lot) (g : Product) (d : StepDef) : Prop :=
  s.inOrder k l g d ∧ s.marginPasses k.testerPort d = true ∧ s.marginSteady k.testerPort

/-- The tester on a port is that of a RUNNING cell, with nothing queued, whose fed lot only the tester's margin could stop. -/
abbrev State.runsOn (s : State) (p : Port) (c : CellNo) (k : Cell) (l : Lot) (g : Product) (d : StepDef) : Prop :=
  s.cellOfTester? p = some c ∧ s.cell? c = some k ∧ k.state = .running ∧ s.currentLot? c = some l ∧ s.inOrder k l g d
    ∧ k.soak = .soaked ∧ k.causes = {} ∧ k.waiting = {} ∧ k.noChanges ∧ l.step < 6 ∧ s.queues[c].behind = []
    ∧ k.segment.map (fun g => (g.lot, g.step)) = some (l.id, l.step) ∧ s.slots[p].use = .inUse

/-- R45, R48, R95, R96: what the margin of its tester, computed in `s`, makes of a RUNNING cell and of its lot's step: a margin
that has changed and fails pauses the cell with cause CAL, one that passes leaves it RUNNING, and one that passes by extension
alone makes the step EXTENDED. -/
def State.marginActs (s u : State) (c : CellNo) (k : Cell) (l : Lot) (d : StepDef) : Prop :=
  (¬ s.marginSteady k.testerPort → s.marginPasses k.testerPort d = false →
    u.cell? c = some { k with
        state := .paused, causes := { cal := true }, withdrawTimer := some { start := s.elapsed, limit := s.params.withdraw } }
      ∧ .halt ∈ u.ports[k.handlerPort].out ∧ u.lot? l.id = some l)
  ∧ (s.marginPasses k.testerPort d = true → u.cell? c = some k
      ∧ ∃ l', u.lot? l.id = some l' ∧ l' = { l with steps := l'.steps } ∧ (∀ i, i ≠ l.step → l'.stepRec i = l.stepRec i)
        ∧ l'.stepRec l.step = { l.stepRec l.step with
            margin := if s.marginByExtension k.testerPort d = true then .extended else (l.stepRec l.step).margin })

/-- R129: there is room for a COUNT_LOST hold on a lot for a step, and no record it would be merged into. -/
abbrev State.takesLoss (s : State) (l : Lot) (i : Nat) : Prop :=
  i < 6 ∧ s.tablesSorted ∧ l.holds.length < 8 ∧ s.holds.length < 512
    ∧ ∀ h ∈ s.holds, ¬ (h.lot = l.id ∧ h.reason = .countLost ∧ h.cls = 0 ∧ h.step = i)

/-- R40, R52, R129, R146: the counts of a lot's step are lost: the step's flag is set, a COUNT_LOST hold of severity AT_END stands
on the lot, and the lot is HELD. -/
def State.losesCounts (s u : State) (l : Lot) (i : Nat) : Prop :=
  ∃ n l', s.hold? n = none
    ∧ u.hold? n = some
        { id := n, lot := l.id, reason := .countLost, cls := 0, step := i, severity := .atEnd, origin := .automatic
          occurrences := 1, raised := s.floorTime, capture := none, note := none }
    ∧ u.lot? l.id = some l' ∧ l'.state = .held ∧ l'.location = .absent ∧ l'.holds = l.holds ++ [n]
    ∧ (l'.stepRec i).countLost = true

/-- The commands that take every block back to its power-on state (R169). -/
def clearsAll : Instr → Bool
  | .powerOn _ _ _ => true
  | .restartFull _ => true
  | _ => false

/-- The request rows whose body may have a length that does not fit, each with its kind (R163, Table 12-2). -/
def requestRows : List (Instr × Byte) :=
  [(.productPut, Kind.productPut), (.productDrop, Kind.productDrop), (.lotEnter, Kind.lotEnter), (.lotQuery, Kind.lotQuery),
    (.lotPriority, Kind.lotPriority), (.lotDrop, Kind.lotDrop), (.portCheck, Kind.portCheck), (.portReset, Kind.portReset),
    (.cellSet, Kind.cellSet), (.siteForce, Kind.siteForce), (.cellQuery, Kind.cellQuery), (.programPut, Kind.programPut),
    (.programDrop, Kind.programDrop), (.testerClear, Kind.testerClear), (.tallyQuery, Kind.tallyQuery),
    (.holdPlace, Kind.holdPlace), (.clear, Kind.holdDispose), (.holdList, Kind.holdList), (.groupOpen, Kind.groupOpen),
    (.groupClose, Kind.groupClose), (.groupAdd, Kind.groupAdd), (.groupRemove, Kind.groupRemove),
    (.groupQuery, Kind.groupQuery), (.groupRelease, Kind.groupRelease), (.clockSet, Kind.clockSet),
    (.paramSet, Kind.paramSet), (.status, Kind.status), (.restartFloor, Kind.restart)]

/-- The PORT_STATE report of a change that ends no check and shows no fault or conflict (R24). -/
def portReport (p : Port) (prev now : PortState) (r : PortRec) : Report :=
  .portState p prev now r.role r.equip none r.checkFailed none none

/-- The ports a set of presence levels brings up: each port whose line is high stands in TRAINING, with its report
(R20, R24, R36). -/
def State.withRises (s : State) : State :=
  { s with
    ports := Vector.ofFn fun p : Port => if s.pins.presence.getLsbD p.val then { state := .training } else {}
    reports := (allPorts.filter fun p => s.pins.presence.getLsbD p.val).map fun p => portReport p .absent .training {} }

/-- The margin of every tester in use, computed at the present floor time (R94). -/
def State.remargined (s : State) : State :=
  { s with
    slots := s.slots.map fun t => match t.use, t.cal with
      | .inUse, some k => { t with margin := some (k.margin s.floorTime) }
      | _, _ => t }

end Sys2Proof.Machine
end

