-- ==== Sys2Proof/WellFormed.lean ====
section
/-! DEFINITION. Which commands can occur: the bounds the spec puts on what arrives with a step. A field of a message that
its layout does not define is no ill-formed command, since R33 gives such a message its effect. -/

namespace Sys2Proof

/-- The longest host frame: marker, length, kind, tag, 1024 bytes of body and CRC (Table 12-1). -/
def maxHostFrame : Nat := 1031

/-- R21: a loss of lock is 8 malformed frames in succession, or 32 idle fill times (128 byte times on a control lane, 32 on
a result lane) without a frame boundary. -/
def LockLoss.wf (lane : Lane) : LockLoss → Bool
  | .malformed frames => decide (8 ≤ frames)
  | .silent byteTimes => match lane with
    | .control => decide (128 ≤ byteTimes)
    | .result => decide (32 ≤ byteTimes)

/-- R172: an ANNOUNCE that names neither role has another role byte than HANDLER 1 and TESTER 2. -/
def AnnounceMsg.wf : AnnounceMsg → Bool
  | .other role => role != 1 && role != 2
  | _ => true

/-- A command that can occur. -/
def Instr.wf : Instr → Bool
  | .hostFrame bytes => !bytes.isEmpty && decide (bytes.length ≤ maxHostFrame)
  | .lockGained _ _ count => decide (16 ≤ count)
  | .lockLost _ lane loss _ => loss.wf lane
  | .announce _ msg => msg.wf
  | _ => true

end Sys2Proof
end

