-- ==== Sys2Proof/Certificates/Slice0/Obligations.lean ====
section
/-! DEFINITION. The statements for the provers. A statement names the rules of spec/ it formalises; where a clause rests on a
choice of the model, it names the log entry. -/

open Sys2Proof Sys2Proof.Machine

/-! ## The step -/

/-- The command at the front of the queue is taken with the rest of the queue. -/
def Obligations.StepRunsFrontCommand : Prop :=
  ∀ (c : Instr) (rest : List Instr) (s : State), step { s with pending := c :: rest } = exec c { s with pending := rest }

/-- Log entry 1: on an empty queue the next frame leaves every control lane (R34); down check frames leave one at a time in
index order. The lane of an ABSENT port, whose transmitter is stopped (R20), sends nothing. -/
def Obligations.EmptyQueueSendsLaneFrames : Prop :=
  ∀ s : State, s.pending = [] →
    (∃ t, step s = .next t ∧ t = { s with ports := t.ports } ∧ ∀ p : Port,
      (s.ports[p].out = [] ∨ s.ports[p].state = .absent → t.ports[p] = s.ports[p])
        ∧ (∀ next n rest, s.ports[p].state ≠ .absent → s.ports[p].out = .checkFrames next n :: rest →
            t.ports[p] = { s.ports[p] with out := if next + 1 < n then .checkFrames (next + 1) n :: rest else rest })
        ∧ (∀ d rest, s.ports[p].state ≠ .absent → s.ports[p].out = d :: rest → (∀ next n, d ≠ .checkFrames next n) →
            t.ports[p] = { s.ports[p] with out := rest }))
    ∧ ((∀ p : Port, s.ports[p].out = []) → step s = .next s)

/-! ## Invariants -/

/-- R163, R165, R166: every step keeps the bounds of the host link unit and of the two second counters. -/
def Obligations.LinkAndClockBoundsKept : Prop :=
  ∀ s t : State, s.linkBounded → s.clockBounded → step s = .next t → t.linkBounded ∧ t.clockBounded

/-- R3, R6, R77, R80, R129: every step keeps the sizes of the tables. -/
def Obligations.TableBoundsKept : Prop := ∀ s t : State, s.tablesBounded → step s = .next t → t.tablesBounded

/-- Every step keeps the tables of products, lots, programs and hold records in ascending order, each id once. That an id stands
in a table once is R3, R6 and R80, that hold ids are from 1 upward is R129, and the ascending order is the model's canonical form
of the tables, in which R16 and R139 list them. -/
def Obligations.TablesStaySorted : Prop := ∀ s t : State, s.tablesSorted → step s = .next t → t.tablesSorted

/-- R33, R2: every step keeps every temperature of the state in the representable range. -/
def Obligations.TemperaturesStayInRange : Prop :=
  ∀ s t : State, s.temperaturesInRange → step s = .next t → t.temperaturesInRange

/-- R8, R62, R63, R71, R74: every step keeps every lot in the place its state names and in no other, the wait list and the lots
behind entry 0 of every queue in the order of the wait key, and the save context of a cell empty while its current lot is
drained for preemption. -/
def Obligations.PlacesStayInAgreement : Prop :=
  ∀ s t : State, s.tablesSorted → s.placesAgree → s.inKeyOrder → s.savesFree → step s = .next t →
    t.placesAgree ∧ t.inKeyOrder ∧ t.savesFree

/-- R5, R19, R36, R60, R79, R98, R144, R153, R161, R166, R167: what stands after reset; the invariants hold of it. The levels
of the pins are the model's choice (log entry 3). -/
def Obligations.ResetState : Prop :=
  let s := State.reset
  s.linkBounded ∧ s.clockBounded ∧ s.tablesBounded ∧ s.tablesSorted ∧ s.temperaturesInRange ∧ s.placesAgree ∧ s.inKeyOrder
    ∧ s.savesFree
    ∧ s.products = [] ∧ s.lots = [] ∧ s.entrySeq = 0 ∧ s.catalog = [] ∧ s.tallies = [] ∧ s.holds = [] ∧ s.claims = []
    ∧ s.waitList = [] ∧ s.reports = [] ∧ s.unanswered = [] ∧ s.floorTime = 0 ∧ s.elapsed = 0
    ∧ s.params = { withdraw := 900, drain := 300, stale := 30, unreadable := 50 }
    ∧ (∀ p : Port, s.ports[p] = {} ∧ s.slots[p].use = .unused ∧ s.strays[p] = 0)
    ∧ (∀ c : CellNo, s.cells[c] = { enable := true, preemptEnable := false, formed := none } ∧ s.queues[c] = {} ∧ s.saves[c] = none)
    ∧ ∀ g : Fin 16, s.groups[g] = {}

/-- What a command may change at all, for every command and every next state: the queue never, and each of the rate, the
strap sample, the products, the catalog, the parameters, the counters of seconds and of frames, the stray counts, the pins
and the ship groups by its own commands alone: R161 and R169 (the line rate), R43 and R60 (the sampled STRICT), R3 and R4, R80 and
R82, R167, R166, R162, R99, R101 and R114 (the stray counts of the ports), R20, and R18 and R154 to R160 (the groups). POWER_ON and
RESTART FULL clear every block (R169). -/
def Obligations.OnlyTheirCommandsChange : Prop :=
  ∀ (c : Instr) (s t : State), exec c s = .next t →
    t.pending = s.pending
      ∧ ((∀ a r b, c ≠ .powerOn a r b) → t.rate = s.rate)
      ∧ (clearsAll c = false →
          t.strict = s.strict
            ∧ (c ∉ [.productPut, .productDrop] → t.products = s.products)
            ∧ (c ∉ [.programPut, .programDrop] → t.catalog = s.catalog)
            ∧ (c ≠ .paramSet → t.params = s.params)
            ∧ (c ≠ .secondAdvance → t.elapsed = s.elapsed)
            ∧ (c ∉ [.secondAdvance, .clockSet] → t.floorTime = s.floorTime)
            ∧ ((∀ b, c ≠ .hostFrame b) → c ≠ .frameTruncated → t.rx = s.rx ∧ t.frames = s.frames)
            ∧ ((∀ p r, c ≠ .resultRecord p r) → t.strays = s.strays)
            ∧ ((∀ p, c ≠ .presenceRise p ∧ c ≠ .presenceFall p) → t.pins = s.pins)
            ∧ (c ∉ [.groupOpen, .groupClose, .groupAdd, .groupRemove, .groupRelease, .lotDrop, .restartFloor] →
                t.groups = s.groups))

/-! ## Frames on the links -/

/-- R171, R172, Tables 12-3 to 12-5: the frame of every control-lane message spells the command it stands for, with every field
at every value, and a result-lane frame spells the record or check frame it carries; the records carried in replies and reports
have the sizes of their tables. -/
def Obligations.LaneFramesAndRecordSizes : Prop :=
  (∀ (p : Port) (kind : Byte) (body : List Byte) (i : Instr), i.wf = true → messageOf i = some (p, kind, body) →
      controlCommand p (controlFrame kind body) = some i)
    ∧ (∀ f : UpFrame, upFrameOf (upBytes f) = some f)
    ∧ (∀ (h : Hold) (overflow : Bool), (h.note.getD []).length ≤ 32 → (holdBytes h overflow).length = 67)
    ∧ (∀ x : Capture, x.bytes.length = 17)
    ∧ (∀ x : CloseSection, x.bytes.length = 91)
    ∧ ∀ x : LotSummary, x.bytes.length = 14

/-- R162, R163, Table 12-1: the bytes of a good frame with nothing in reception enter the input buffer; a full buffer is
answered BUSY, and a full buffer with a full busy list counts an overrun. -/
def Obligations.HostFrameEntersBuffer : Prop :=
  ∀ (kind tag : Byte) (body : List Byte) (s : State), body.length ≤ 1024 → s.rx = [] →
    let good : FrameCounters := { s.frames with good := min (s.frames.good + 1) 4294967295 }
    (pendingRequests s.unanswered < 4 →
      exec (.hostFrame (hostFrameBytes kind tag body)) s =
        .next (transmit { s with frames := good, unanswered := s.unanswered ++ [.request kind tag body none] }))
    ∧ (4 ≤ pendingRequests s.unanswered → busyReplies s.unanswered < 4 →
      exec (.hostFrame (hostFrameBytes kind tag body)) s =
        .next (transmit { s with frames := good, unanswered := s.unanswered ++ [.busy kind tag] }))
    ∧ (4 ≤ pendingRequests s.unanswered → 4 ≤ busyReplies s.unanswered →
      exec (.hostFrame (hostFrameBytes kind tag body)) s =
        .next (transmit { s with frames := { good with overrun := min (s.frames.overrun + 1) 4294967295 } }))

/-- R163 to R165: the end of the frame being sent frees a reply's entry or takes the report off the queue, the queue is judged
for REPORTS_LOST, and the oldest reply goes before a report when it has been formed. That a report stands in the queue until it
has been sent is log entry 29, and that a report under way at a RESTART takes none off the queue log entry 27. R162: a frame in
reception that is not complete two advances after its marker is discarded and counted; that the row changes nothing before is
log entry 8, and that hunting resumes behind the marker log entry 30. -/
def Obligations.FrameSentAndTruncated : Prop :=
  (∀ s : State,
    (∀ kind tag r e, s.sending = some (.reply kind tag r) →
      (∀ k t b x rest, s.unanswered = e :: .request k t b (some x) :: rest →
        exec .frameSent s = .next { s with unanswered := .request k t b (some x) :: rest, sending := some (.reply k t x) })
      ∧ (∀ k t rest, s.unanswered = e :: .busy k t :: rest →
        exec .frameSent s = .next { s with unanswered := .busy k t :: rest, sending := some (.reply k t (.plain .busy)) })
      ∧ (∀ k t b rest x more, s.unanswered = e :: .request k t b none :: rest → s.reports = x :: more →
        exec .frameSent s = .next { s with unanswered := .request k t b none :: rest, sending := some (.report x true) })
      ∧ (∀ k t b rest, s.unanswered = e :: .request k t b none :: rest → s.reports = [] →
        exec .frameSent s = .next { s with unanswered := .request k t b none :: rest, sending := none })
      ∧ (∀ x more, s.unanswered = [e] → s.reports = x :: more →
        exec .frameSent s = .next { s with unanswered := [], sending := some (.report x true) })
      ∧ (s.unanswered = [e] → s.reports = [] → exec .frameSent s = .next { s with unanswered := [], sending := none }))
    ∧ (∀ r x rest, s.sending = some (.report r true) → s.reports = x :: rest →
      (s.dropped = 0 ∨ 32 < rest.length → exec .frameSent s = .next (transmit { s with sending := none, reports := rest }))
      ∧ (s.dropped ≠ 0 → rest.length ≤ 32 →
        exec .frameSent s =
          .next (transmit { s with sending := none, reports := rest ++ [.reportsLost s.dropped], dropped := 0 })))
    ∧ (∀ r, s.sending = some (.report r false) → exec .frameSent s = .next (transmit { s with sending := none }))
    ∧ (s.sending = none → exec .frameSent s = .next s))
  ∧ ∀ (s : State) (x : Byte × Nat) (rest : List (Byte × Nat)), s.rx = x :: rest →
    let counted : FrameCounters := { s.frames with truncated := min (s.frames.truncated + 1) 4294967295 }
    (2 ≤ since s.elapsed x.2 →
      exec .frameTruncated s = .next (transmit (receive rest { s with frames := counted }))
        ∧ ((∀ y ∈ rest, y.1 ≠ 0xC3) → exec .frameTruncated s = .next (transmit { s with rx := [], frames := counted })))
    ∧ (since s.elapsed x.2 < 2 → exec .frameTruncated s = .next s)

/-! ## The host's requests (R163, R170) -/

/-- R163, R170: a kind that is no request kind is answered UNKNOWN_KIND, and a body whose length does not fit its kind is
refused MALFORMED, with no other state changed. Which row of HOLD_DISPOSE, LOT_QUERY and RESTART takes such a body, as
`requestRows` names it, is the model's choice (log entry 13). -/
def Obligations.UnknownKindAndMisfitBody : Prop :=
  ∀ (s : State) (k : Byte) (body : List Byte), s.asks k body →
    (isRequestKind k = false → exec .requestUnknownKind s = .next (s.replied (.plain .unknownKind)))
    ∧ ∀ row ∈ requestRows, row.2 = k → bodyFits k body = false → exec row.1 s = .next (s.replied (.plain .malformed))

/-- R15, R16, R59, R128, R139, R158, R168: the queries. Each is answered from the state and changes nothing but the reply. That
the tester's claim status of a CELL_QUERY is that of the handler's claim is log entry 26. -/
def Obligations.QueriesAnswerFromState : Prop :=
  ∀ (s : State) (b : List Byte),
    (s.asks Kind.lotQuery b → b.length = 8 →
      (u32 b 0 ≠ 0 → s.lot? (u32 b 0) = none → exec .lotQuery s = .next (s.replied (.plain .notFound)))
      ∧ (∀ l, u32 b 0 ≠ 0 → s.lot? (u32 b 0) = some l →
        exec .lotQuery s = .next (s.replied (.lot l (l.steps.toList.take (s.routeLength l)))))
      ∧ (u32 b 0 = 0 →
        exec .lotQueryListing s =
          .next (s.replied (.lots (((s.lots.filter fun l => decide (u32 b 4 < l.id)).take 64).map s.summary)
            (decide (64 < (s.lots.filter fun l => decide (u32 b 4 < l.id)).length))))))
    ∧ (s.asks Kind.tallyQuery b → b.length = 4 →
      (u32 b 0 = 0 → exec .tallyQuery s = .next (s.replied (.plain .malformed)))
      ∧ (u32 b 0 ≠ 0 → s.lot? (u32 b 0) = none → exec .tallyQuery s = .next (s.replied (.plain .notFound)))
      ∧ (∀ l, u32 b 0 ≠ 0 → s.lot? (u32 b 0) = some l → s.tally? l.id = none →
        exec .tallyQuery s = .next (s.replied (.noTally l.state l.step)))
      ∧ (∀ l t, u32 b 0 ≠ 0 → s.lot? (u32 b 0) = some l → s.tally? l.id = some t →
        exec .tallyQuery s = .next (s.replied (.tally t (l.stepRec t.step).input t.final t.retested t.ratios))))
    ∧ (s.asks Kind.holdList b → b.length = 6 →
      (u32 b 0 ≠ 0 → s.lot? (u32 b 0) = none → exec .holdList s = .next (s.replied (.plain .notFound)))
      ∧ ((u32 b 0 = 0 ∨ (s.lot? (u32 b 0)).isSome) → exec .holdList s = .next (s.replied (s.holdReply (u32 b 0) (u16 b 4)))))
    ∧ (s.asks Kind.cellQuery b → b.length = 1 →
      (16 ≤ u8 b 0 → exec .cellQuery s = .next (s.replied (.plain .malformed)))
      ∧ (∀ c : CellNo, u8 b 0 = c.val →
        (s.cell? c = none → exec .cellQuery s = .next (s.replied (.cellFree s.cells[c].enable s.cells[c].preemptEnable)))
        ∧ (∀ k, s.cell? c = some k →
          exec .cellQuery s =
            .next (s.replied (.cell s.cells[c].enable s.cells[c].preemptEnable k (k.timers s.elapsed) (s.director c) s.queues[c]
              s.saves[c] (s.claimStatus k.handlerPort) (s.claimStatus k.handlerPort))))))
    ∧ (s.asks Kind.groupQuery b → b.length = 1 →
      (u8 b 0 = 0 ∨ 16 < u8 b 0 → exec .groupQuery s = .next (s.replied (.plain .malformed)))
      ∧ (∀ g : Fin 16, u8 b 0 = g.val + 1 →
        exec .groupQuery s =
          .next (s.replied (if s.groups[g].opened then
              .group (g.val + 1) s.groups[g].product s.groups[g].allowExtended (s.groupLines g)
            else .groupFree))))
    ∧ (s.asks Kind.status b → b.length = 2 →
      (u8 b 0 = 1 → u8 b 1 = 0 → exec .status s = .next (s.replied (.general s.general)))
      ∧ (u8 b 0 = 2 → u8 b 1 ≤ 31 →
        exec .status s =
          .next (s.replied (.ports (((s.ports.toList.zip s.strays.toList).drop (u8 b 1)).take 8) (decide (u8 b 1 + 8 < 32)))))
      ∧ (u8 b 0 = 3 → u8 b 1 ≤ 31 →
        exec .status s =
          .next (s.replied (.claims ((s.claims.drop (u8 b 1)).take 32) (decide (u8 b 1 + 32 < s.claims.length)))))
      ∧ (u8 b 0 = 4 → u8 b 1 ≤ 31 →
        exec .status s = .next (s.replied (.testers ((s.slots.toList.drop (u8 b 1)).take 8) (decide (u8 b 1 + 8 < 32)))))
      ∧ (u8 b 0 = 0 ∨ 4 < u8 b 0 ∨ 31 < u8 b 1 ∨ (u8 b 0 = 1 ∧ u8 b 1 ≠ 0) → exec .status s = .next (s.replied (.plain .malformed))))

/-! ## The floor clock and the resets (Chapter 11) -/

/-- R167: PARAM_SET, for each parameter of Table 11-4. R166, R95: both second counters count one, round their width; CLOCK_SET
writes the floor time alone; an hour rollover computes the margin of every tester in use, and no cell formed is told of it. R45,
R48, R96: with a tester in a RUNNING cell, whose new margin is the only one that differs, the cell pauses with cause CAL, or goes
on and its step may become EXTENDED; the lot is named by the open segment of no other cell (R8, R63). The row HOUR_ROLLOVER makes the loader's part on its own (log entry 9). -/
def Obligations.ParamSetAndClock : Prop :=
  (∀ (s : State) (b : List Byte), s.asks Kind.paramSet b → b.length = 3 →
    let code := u8 b 0
    let v := u16 b 1
    let refused := exec .paramSet s = .next (s.replied (.plain .malformed))
    (code = 1 → if 60 ≤ v ∧ v ≤ 7200 then
        exec .paramSet s = .next (({ s with params := { s.params with withdraw := v } } : State).replied (.param s.params.withdraw))
      else refused)
    ∧ (code = 2 → if 30 ≤ v ∧ v ≤ 3600 then
        exec .paramSet s = .next (({ s with params := { s.params with drain := v } } : State).replied (.param s.params.drain))
      else refused)
    ∧ (code = 3 → if 5 ≤ v ∧ v ≤ 120 then
        exec .paramSet s = .next (({ s with params := { s.params with stale := v } } : State).replied (.param s.params.stale))
      else refused)
    ∧ (code = 4 → if v ≤ 10000 then
        exec .paramSet s = .next (({ s with params := { s.params with unreadable := v } } : State).replied (.param s.params.unreadable))
      else refused)
    ∧ (code = 0 ∨ 5 ≤ code → refused))
  ∧ ∀ s : State,
    let later : State := { s with floorTime := (s.floorTime + 1) % 4294967296, elapsed := (s.elapsed + 1) % 4294967296 }
    let acts (v : State) (ends : State → Prop) : Prop := ∀ p c k l g d, v.runsOn p c k l g d →
      (∀ q : Port, q ≠ p → v.marginSteady q) →
      (∀ e x y, e ≠ c → v.cell? e = some x → x.segment = some y → y.lot ≠ l.id) → ∃ u, ends u ∧ v.marginActs u c k l d
    (later.floorTime % 3600 ≠ 0 → exec .secondAdvance s = .next (transmit later))
    ∧ (later.floorTime % 3600 = 0 → acts later fun u => exec .secondAdvance s = .next (transmit u))
    ∧ acts s (fun u => exec .hourRollover s = .next (transmit u))
    ∧ (s.noCells → later.floorTime % 3600 = 0 → exec .secondAdvance s = .next (transmit later.remargined))
    ∧ (s.noCells → exec .hourRollover s = .next (transmit s.remargined))
    ∧ (∀ b, s.asks Kind.clockSet b → b.length = 4 →
        let set : State := { s with floorTime := u32 b 0 }
        (u32 b 0 / 3600 = s.floorTime / 3600 → exec .clockSet s = .next (set.replied (.clock s.floorTime (u32 b 0))))
        ∧ (u32 b 0 / 3600 ≠ s.floorTime / 3600 →
            acts set fun u => exec .clockSet s = .next (u.replied (.clock s.floorTime (u32 b 0))))
        ∧ (s.noCells → u32 b 0 / 3600 ≠ s.floorTime / 3600 →
            exec .clockSet s = .next (set.remargined.replied (.clock s.floorTime (u32 b 0)))))

/-- R94: the margin of a tester in use, in its three stages, and what an expired calibration passes. -/
def Obligations.MarginComputation : Prop :=
  ∀ (p : Port) (s : State) (k : Calibration), s.slots[p].use = .inUse → s.slots[p].cal = some k →
    ∃ m : Margin, (computeMargin p s).slots[p] = { s.slots[p] with margin := some m } ∧ m.time = s.floorTime
      ∧ (k.headTemp - k.calTemp).natAbs ≤ 10 * m.delta ∧ 10 * m.delta < (k.headTemp - k.calTemp).natAbs + 10
      ∧ (Machine.inRange k.headTemp → Machine.inRange k.calTemp → m.delta ≤ 260)
      ∧ m.age = (if k.calTime ≤ s.floorTime then (s.floorTime - k.calTime) / 3600 else 0)
      ∧ (k.validity ≤ m.age → m.used = 65535 ∧ ∀ d : StepDef, d.ceiling ≤ 65534 → (∀ x, d.extCeiling = some x → x ≤ 65534) →
          k.passes s.floorTime d = false)
      ∧ (m.age < k.validity → m.used =
          if 65535 < k.base + k.kt * m.delta + k.kh * m.age then 65535 else k.base + k.kt * m.delta + k.kh * m.age)
      ∧ ∀ q : Port, q ≠ p → (computeMargin p s).slots[q] = s.slots[q]

/-- R169 and the power-on rules of the chapters, with R20, R24 and R36 for the ports whose lines are high: POWER_ON sets every
block to its power-on state. The queue of commands and the count of free values stand (the model's own fields). RESTART FULL does
as power-on, with the line rate kept, STRICT sampled and the receiver, the requests and the frame being sent not disturbed. That
the bytes in reception keep their ages on an elapsed-seconds counter of 0, and that a report under way no longer counts in the
queue, is log entry 27; that an unused slot record has neither calibration record nor margin values is log entry 41; that the ports
whose lines are high report in order of port number is log entry 46. -/
def Obligations.PowerOnAndRestartFull : Prop :=
  (∀ (strict : Bool) (rate : BitVec 2) (presence : BitVec 32) (s : State),
    exec (.powerOn strict rate presence) s =
      .next (transmit
        { (State.fresh { strict := strict, rate := rate, presence := presence } rate).withRises with
          pending := s.pending, freeCount := s.freeCount }))
  ∧ ∀ (strict : Bool) (s : State) (b : List Byte), s.asks Kind.restart b → b.length = 1 → u8 b 0 = 2 →
    exec (.restartFull strict) s =
      .next (({ (State.fresh { s.pins with strict := strict } s.rate).withRises with
          pending := s.pending
          freeCount := s.freeCount
          rx := rebase s.elapsed s.rx
          unanswered := s.unanswered
          sending := s.sending.map Sending.unqueued } : State).replied (.plain .ok))
    ∧ ∀ x ∈ s.rx, ∃ y ∈ rebase s.elapsed s.rx, y.1 = x.1 ∧ since 0 y.2 = since s.elapsed x.2

/-- R169, scope FLOOR, with R19, R61, R79, R98, R144, R153, R161 and R165: what is emptied, what every cell becomes with its
report, where D_STOP goes, and what stands: every port keeps its record and what its lane still had to send, and one D_STOP follows for
each fed cell of its handler that is not MANUAL, while the port is IN_SERVICE (R34, R36). The frame being sent is log entry 27's, and that the segment totals and the last
segment go is log entry 28's; that the last index mask is kept is log entry 39, and the order of the cells' reports log entry 43. -/
def Obligations.RestartFloor : Prop :=
  ∀ (s : State) (b : List Byte), s.asks Kind.restart b → b.length = 1 → u8 b 0 = 1 →
    ∃ t : State, exec .restartFloor s = .next (t.replied (.plain .ok))
      ∧ t = { s with
          lots := [], entrySeq := 0, tallies := [], holds := [], waitList := [], tallyWait := [], pass := {}, dropped := 0
          groups := Vector.replicate 16 {}, queues := Vector.replicate 16 {}, saves := Vector.replicate 16 none
          sending := s.sending.map Sending.unqueued
          slots := s.slots.map fun x => { x with request := none }
          ports := t.ports, cells := t.cells, reports := t.reports }
      ∧ t.reports = allCells.filterMap (fun c => (s.cell? c).bind fun k =>
          if k.state = .idle then none
          else some (.cellState c (some k.state) (some .idle) k.handlerId k.testerId none none {} {} none))
      ∧ (∀ c : CellNo, t.cells[c] = { s.cells[c] with formed := s.cells[c].formed.map Cell.floorReset })
      ∧ ∀ p : Port,
          let fed (c : CellNo) : Bool := (s.cell? c).any fun k => k.handlerPort == p && k.segment.isSome && k.state != .manual
          t.ports[p] = { s.ports[p] with
            out := s.ports[p].out ++ if s.inService p then (allCells.filter fed).map fun _ => .stop else [] }

/-! ## The lot table (Chapter 1) -/

/-- R1 to R4: PRODUCT_PUT and PRODUCT_DROP. The checks of R1 on the product as a whole, and those of R2 on a step and on its
limit records, are given field by field. -/
def Obligations.ProductPutAndDrop : Prop :=
  ∀ (s : State) (b : List Byte),
    let limitSound (m : RawLimit) : Prop :=
      1 ≤ m.kind ∧ m.kind ≤ 3 ∧ 1 ≤ m.phase ∧ m.phase ≤ 3 ∧ m.value ≤ 10000 ∧ (m.kind = 2 → 1 ≤ m.cls ∧ m.cls ≤ 15)
        ∧ (m.kind ≠ 2 → m.cls = 0) ∧ (m.kind = 3 → m.phase = 2)
    let stepSound (x : RawStep) : Prop :=
      -600 ≤ x.setpoint ∧ x.setpoint ≤ 2000 ∧ 1 ≤ x.band ∧ x.band ≤ 100 ∧ x.soak ≤ 3600 ∧ x.program ≠ 0
        ∧ 1 ≤ x.ceiling ∧ x.ceiling ≤ 65534
        ∧ (x.presence.getLsbD 0 = true → x.ceiling < x.extCeiling ∧ x.extCeiling ≤ 65534 ∧ x.presence.getLsbD 1 = true)
        ∧ (x.presence.getLsbD 0 = false → x.presence.getLsbD 1 = false)
        ∧ x.edges.toNat < 32 ∧ 1 ≤ x.divider ∧ x.divider ≤ 16 ∧ 1 ≤ x.smin ∧ x.limitCount ≤ 8
        ∧ (∀ m ∈ x.limits, limitSound m)
        ∧ x.limits.Pairwise fun m n =>
            ¬ (m.kind = n.kind ∧ m.cls = n.cls ∧ (m.phase = n.phase ∨ m.phase = 3 ∨ n.phase = 3))
    (s.asks Kind.productPut b → 24 ≤ b.length → b.length = 24 + 61 * u8 b 23 →
      let r := rawProduct b
      let sound := r.id ≠ 0 ∧ (∀ k : Fin 16, r.bins[k] ≤ 7) ∧ r.bins[0] = 0 ∧ (∀ k : Fin 16, k ≠ 0 → r.bins[k] ≠ 0)
        ∧ r.retest.getLsbD 0 = false ∧ 1 ≤ r.steps.length ∧ r.steps.length ≤ 6 ∧ ∀ x ∈ r.steps, stepSound x
      (¬ sound → exec .productPut s = .next (s.replied (.plain .malformed)))
      ∧ (sound → s.product? r.id = none → 64 ≤ s.products.length → exec .productPut s = .next (s.replied (.plain .full)))
      ∧ (sound → (s.product? r.id).isSome → (∃ l ∈ s.lots, l.product = r.id) →
          exec .productPut s = .next (s.replied (.plain .inUse)))
      ∧ (sound → (s.product? r.id = none ∧ s.products.length < 64) ∨ ((s.product? r.id).isSome ∧ ∀ l ∈ s.lots, l.product ≠ r.id) →
          ∃ t : State, exec .productPut s = .next (t.replied (.plain .ok)) ∧ t = { s with products := t.products }
            ∧ t.product? r.id = some r.toProduct ∧ ∀ n, n ≠ r.id → t.product? n = s.product? n))
    ∧ (s.asks Kind.productDrop b → b.length = 2 →
      let id := u16 b 0
      (s.product? id = none → exec .productDrop s = .next (s.replied (.plain .notFound)))
      ∧ ((s.product? id).isSome → (∃ l ∈ s.lots, l.product = id) → exec .productDrop s = .next (s.replied (.plain .inUse)))
      ∧ ((s.product? id).isSome → (∀ l ∈ s.lots, l.product ≠ id) →
          ∃ t : State, exec .productDrop s = .next (t.replied (.plain .ok)) ∧ t = { s with products := t.products }
            ∧ t.product? id = none ∧ ∀ n, n ≠ id → t.product? n = s.product? n))

/-- R6, R7, R62: LOT_ENTER, its checks in their order, and the lot it creates in the wait list at the position of its key. -/
def Obligations.LotEnter : Prop :=
  ∀ (s : State) (b : List Byte), s.asks Kind.lotEnter b → b.length = 11 →
    let id := u32 b 0
    let quantity := u32 b 6
    let inRange := id ≠ 0 ∧ quantity ≠ 0 ∧ quantity ≤ 4000000 ∧ (u8 b 10 = 1 ∨ u8 b 10 = 2)
    (¬ inRange → exec .lotEnter s = .next (s.replied (.plain .malformed)))
    ∧ (inRange → (s.lot? id).isSome → exec .lotEnter s = .next (s.replied (.plain .exists_)))
    ∧ (inRange → s.lot? id = none → s.product? (u16 b 4) = none → exec .lotEnter s = .next (s.replied (.plain .notFound)))
    ∧ (inRange → s.lot? id = none → (s.product? (u16 b 4)).isSome → 256 ≤ s.lots.length ∨ 4294967296 ≤ s.entrySeq →
        exec .lotEnter s = .next (s.replied (.plain .full)))
    ∧ (inRange → s.lot? id = none → (s.product? (u16 b 4)).isSome → s.lots.length < 256 → s.entrySeq < 4294967296 →
        ∃ t : State, exec .lotEnter s = .next (t.replied (.entered s.entrySeq))
          ∧ t = { s with
              lots := t.lots, waitList := t.waitList, entrySeq := s.entrySeq + 1, reports := t.reports, dropped := t.dropped
              pass := { s.pass with pending := true, remaining := s.pass.remaining.filter (· != id) } }
          ∧ t.lot? id = some
              { id := id, product := u16 b 4, entered := quantity, quantity := quantity, seq := s.entrySeq
                priority := if u8 b 10 = 2 then .hot else .normal }
          ∧ (∀ n, n ≠ id → t.lot? n = s.lot? n)
          ∧ (∀ n, n ∈ t.waitList ↔ n = id ∨ n ∈ s.waitList)
          ∧ (s.waitSorted → t.waitSorted)
          ∧ (s.reports.length < 64 →
              t.reports = s.reports ++ [.lotState id none (.state .waiting) 0 quantity none none] ∧ t.dropped = s.dropped))

/-- R17: LOT_PRIORITY: its refusals in their order, and a change, which the engine is told of and which re-sorts a WAITING lot in
the wait list and a QUEUED lot behind entry 0. A lot whose present priority is named stays as it is. The changes of a QUEUED
lot, and of a current lot to NORMAL, are stated where the cell may not be preempted; `PreemptionAndSaveContext` states them
where it is. -/
def Obligations.LotPriority : Prop :=
  ∀ (s : State) (b : List Byte), s.asks Kind.lotPriority b → b.length = 5 →
    let id := u32 b 0
    (u8 b 4 ≠ 1 → u8 b 4 ≠ 2 → exec .lotPriority s = .next (s.replied (.plain .malformed)))
    ∧ (∀ priority, priorityOf (u8 b 4) = some priority →
        (s.lot? id = none → exec .lotPriority s = .next (s.replied (.plain .notFound)))
        ∧ ∀ l, s.lot? id = some l →
          (∀ c n, priority = .normal → l.state = .active → l.location = .queue c n → s.saves[c].isSome →
            exec .lotPriority s = .next (s.replied (.plain .wrongState)))
          ∧ (l.priority = priority → (priority = .normal → s.guardsSave l = false) →
            exec .lotPriority s = .next (s.replied (.plain .ok)))
          ∧ (l.priority ≠ priority → l.location = .absent → l.state = .waiting ∨ l.state = .held ∨ l.state = .complete →
            ∃ t : State, exec .lotPriority s = .next (t.replied (.plain .ok))
              ∧ t = { s with lots := t.lots, waitList := t.waitList, pass := { s.pass with pending := true } }
              ∧ t.lot? id = some { l with priority := priority } ∧ (∀ n, n ≠ id → t.lot? n = s.lot? n)
              ∧ (l.state ≠ .waiting → t.waitList = s.waitList)
              ∧ (l.state = .waiting → (∀ n, n ∈ t.waitList ↔ n = id ∨ n ∈ s.waitList) ∧ (s.waitSorted → t.waitSorted)))
          ∧ (∀ c, l.priority ≠ priority →
              (l.state = .saved ∧ l.location = .save c)
                ∨ (l.state = .active ∧ l.location = .queue c 0 ∧ s.queues[c].current = some id
                    ∧ (priority = .normal → s.saves[c] = none ∧ s.cells[c].preemptEnable = false)) →
            ∃ t : State, exec .lotPriority s = .next (t.replied (.plain .ok))
              ∧ t = { s with lots := t.lots, pass := { s.pass with pending := true } }
              ∧ t.lot? id = some { l with priority := priority } ∧ ∀ n, n ≠ id → t.lot? n = s.lot? n)
          ∧ (∀ c n, l.priority ≠ priority → l.state = .queued → l.location = .queue c n → id ∈ s.queues[c].behind →
              s.queues[c].behind.Nodup → s.cells[c].preemptEnable = false →
            ∃ t : State, exec .lotPriority s = .next (t.replied (.plain .ok))
              ∧ t = { s with lots := t.lots, queues := t.queues, pass := { s.pass with pending := true } }
              ∧ (∀ e : CellNo, e ≠ c → t.queues[e] = s.queues[e]) ∧ t.queues[c].current = s.queues[c].current
              ∧ (∀ m, m ∈ t.queues[c].behind ↔ m ∈ s.queues[c].behind)
              ∧ ((s.queues[c].behind.Pairwise fun a b => s.waitKeyOf a ≤ s.waitKeyOf b) →
                  t.queues[c].behind.Pairwise fun a b => t.waitKeyOf a ≤ t.waitKeyOf b)
              ∧ ∃ i, t.queues[c].behind[i]? = some id
                ∧ t.lot? id = some { l with priority := priority, location := .queue c (i + 1) }))

/-- R18: LOT_DROP: its refusals, and everything that goes with the lot. Stated with no cell in the tally wait order, which a
freed tally would serve (R77). -/
def Obligations.LotDrop : Prop :=
  ∀ (s : State) (b : List Byte), s.asks Kind.lotDrop b → b.length = 4 →
    let id := u32 b 0
    (s.lot? id = none → exec .lotDrop s = .next (s.replied (.plain .notFound)))
    ∧ ∀ l, s.lot? id = some l →
      (l.state = .queued ∨ l.state = .active ∨ l.state = .saved → exec .lotDrop s = .next (s.replied (.plain .wrongState)))
      ∧ (l.state = .waiting ∨ l.state = .held ∨ l.state = .complete → s.tallyWait = [] →
        ∃ t : State, exec .lotDrop s = .next (t.replied (.plain .ok))
          ∧ t = { s with
              lots := t.lots, entrySeq := t.entrySeq, waitList := s.waitList.filter (· != id), tallies := t.tallies
              holds := s.holds.filter (fun h => !l.holds.contains h.id), groups := t.groups, reports := t.reports
              dropped := t.dropped }
          ∧ t.lot? id = none ∧ (∀ n, n ≠ id → t.lot? n = s.lot? n)
          ∧ t.entrySeq = (if t.lots = [] then 0 else s.entrySeq)
          ∧ t.tallies = (if l.tally then s.tallies.filter (·.lot != id) else s.tallies)
          ∧ ∀ g : Fin 16, t.groups[g] =
              if l.group = some g then
                { s.groups[g] with
                  lots := s.groups[g].lots.filter (· != id)
                  product := if s.groups[g].lots.filter (· != id) = [] then none else s.groups[g].product }
              else s.groups[g])

/-! ## Equipment ports (Chapter 2) -/

/-- R20, R24, R32, R37, R91: a rise of the presence line outside ABSENT moves nothing but the pin, and in ABSENT brings the port
to TRAINING; a fall clears the port's record but its counters, ends a check ABANDONED, and a tester's slot record is parked
while a handler's claim leaves the claim list. Stated for a port of no cell. The down-error count of a check abandoned before
a CHECK_RESULT is free (log entry 6), that a fall empties what the lane still had to send is log entry 22, and that a parked
record keeps its margin values log entry 44. `DissolutionAndRetry` states the fall of a port of a cell. -/
def Obligations.PresenceChanges : Prop :=
  ∀ (p : Port) (s : State),
    let r := s.ports[p]
    (r.state ≠ .absent → exec (.presenceRise p) s = .next (transmit { s with pins := s.pins.setPresence p true }))
    ∧ (r.state = .absent → (r.controlLock && r.resultLock) = false →
        exec (.presenceRise p) s =
          .next (transmit (place (portReport p .absent .training r)
            (({ s with pins := s.pins.setPresence p true } : State).modPort p fun r => { r with state := .training }))))
    ∧ (r.state = .absent → exec (.presenceFall p) s = .next (transmit { s with pins := s.pins.setPresence p false }))
    ∧ (r.state ≠ .absent → s.outside p →
        ∃ t : State, exec (.presenceFall p) s = .next (transmit t)
          ∧ t = { s with
              pins := s.pins.setPresence p false, ports := t.ports, slots := t.slots, claims := t.claims
              reports := t.reports, dropped := t.dropped, freeCount := t.freeCount }
          ∧ t.ports[p] = { last := t.ports[p].last, badFrames := r.badFrames, ignored := r.ignored, discarded := r.discarded }
          ∧ (∀ q : Port, q ≠ p → t.ports[q] = s.ports[q] ∧ t.slots[q] = s.slots[q])
          ∧ (r.check = none → t.ports[p].last = r.last)
          ∧ (∀ k, r.check = some k → ∃ n, t.ports[p].last = some (k.last .abandoned n) ∧ ∀ m, k.result = some m → n = m)
          ∧ (r.role ≠ some .tester → t.slots[p] = s.slots[p])
          ∧ (r.role = some .tester → t.slots[p] =
              { s.slots[p] with use := .parked, active := none, staged := .empty, swap := none, request := none })
          ∧ t.claims =
              match r.role with
              | none => s.claims
              | some .handler => s.claims.filter (·.port != p)
              | some .tester => s.claims.map fun x => if some x.tester = r.equip then { x with status := .waiting } else x)

/-- R21, R22: a gained lock is recorded, and with both lanes locked a port in TRAINING begins the automatic check of 1024
frames (R25); a lost lock takes CHECKING, AWAIT_ANNOUNCE and IN_SERVICE to TRAINING with the role, the id and the announce
data kept and the check ABANDONED, and changes no more than the flag in TRAINING and FAULTED. A loss is stated for a lock not yet
regained, first for a port of no cell. R42, R45, R47, R48, R50, R52: then for a port of a formed cell with nothing queued, whose
link cause enters the cause set: a RUNNING cell pauses, the lot of a STARTING cell goes WAITING, and a drain ends with its counts
lost when the link is the handler's. A STARTING cell has no open segment (R53). That the unsent frames of an abandoned check are removed is log entry 22; its down-error count
before a CHECK_RESULT is free (log entry 6). -/
def Obligations.LockChanges : Prop :=
  ∀ (p : Port) (lane : Lane) (s : State),
    let r := s.ports[p]
    let locked : Bool := match lane with
      | .control => r.controlLock
      | .result => r.resultLock
    let other : Bool := match lane with
      | .control => r.resultLock
      | .result => r.controlLock
    (∀ count, 16 ≤ count →
      (r.state = .training → other = true →
        exec (.lockGained p lane count) s =
          .next (transmit (place (portReport p .training .checking r) (s.modPort p fun r =>
            { r with
              controlLock := true, resultLock := true, state := .checking
              check := some { latched := true, frames := 1024, ret := .training }
              announceTimer := none, checkTimer := some { start := s.elapsed, limit := 10 }
              out := r.out ++ [.checkBegin 1024] }))))
      ∧ (r.state ≠ .absent → r.state ≠ .training ∨ other = false →
        exec (.lockGained p lane count) s = .next (transmit (setLock p lane true s))))
    ∧ (∀ loss, loss.wf lane = true → locked = true →
      (r.state = .training ∨ r.state = .faulted →
        exec (.lockLost p lane loss false) s = .next (transmit (setLock p lane false s)))
      ∧ (r.state = .checking ∨ r.state = .awaitAnnounce ∨ r.state = .inService → s.outside p →
        ∃ t : State, exec (.lockLost p lane loss false) s = .next (transmit t)
          ∧ t = { s with ports := t.ports, reports := t.reports, dropped := t.dropped, freeCount := t.freeCount }
          ∧ (∀ q : Port, q ≠ p → t.ports[q] = s.ports[q])
          ∧ t.ports[p] =
              { (setLock p lane false s).ports[p] with
                state := .training, check := none, last := t.ports[p].last, announceTimer := none, checkTimer := none
                out := r.out.filter fun d => !d.ofCheck }
          ∧ (r.check = none → t.ports[p].last = r.last)
          ∧ (∀ k, r.check = some k → ∃ n, t.ports[p].last = some (k.last .abandoned n) ∧ ∀ m, k.result = some m → n = m))
      ∧ (∀ c k, r.state = .inService → s.cellOfPort? p = some c → s.cell? c = some k → k.handlerPort ≠ k.testerPort →
        s.queues[c].behind = [] → s.saves[c] = none → k.causes.handlerLink = false → k.noChanges → s.marginSteady k.testerPort →
        let link (x : Causes) : Prop := (k.handlerPort = p → x.handlerLink = true) ∧ (k.testerPort = p → x.testerLink = true)
        let up := s.inService k.handlerPort = true ∧ k.testerPort = p
        ∃ u : State, exec (.lockLost p lane loss false) s = .next (transmit u)
          ∧ u.ports[p] = { (setLock p lane false s).ports[p] with
              state := .training, check := none, last := u.ports[p].last, announceTimer := none, checkTimer := none
              out := r.out.filter fun d => !d.ofCheck }
          ∧ (k.state = .idle → s.queues[c].current = none →
              u.cell? c = some { k with causes := {}, waiting := {} } ∧ u.pass.pending = true)
          ∧ ∀ l, s.currentLot? c = some l →
            (k.state = .running → (up → .halt ∈ u.ports[k.handlerPort].out) ∧ ∃ k', u.cell? c = some k' ∧ link k'.causes ∧ k' = { k with
                state := .paused, causes := k'.causes, waiting := {}
                withdrawTimer := some { start := s.elapsed, limit := s.params.withdraw } })
            ∧ (k.state = .paused ∨ k.state = .manual ∨ (k.state = .draining ∧ up) →
                ∃ k', u.cell? c = some k' ∧ link k'.causes ∧ k' = { k with causes := k'.causes, waiting := {} })
            ∧ (k.state = .starting → k.segment = none → s.cellOfTester? k.testerPort = some c → s.stopped l = false →
                u.lot? l.id = some { l with state := .waiting, location := .absent } ∧ l.id ∈ u.waitList ∧ u.queues[c] = {}
                  ∧ u.slots[k.testerPort].request = none ∧ ∃ k', u.cell? c = some k' ∧ k'.state = .idle)
            ∧ (∀ i now, k.state = .draining → k.handlerPort = p → k.segment = some { lot := l.id, step := i, feedTime := now } →
                l.state = .active → l.location = .queue c 0 → s.takesLoss l i →
                s.losesCounts u l i ∧ u.queues[c] = {} ∧ ∃ k', u.cell? c = some k' ∧ k'.state = .idle ∧ k'.segment = none)))

/-- R26: what the up-checker does with each frame, and when it is complete. That the up-error count has no top value is the
model's choice (log entry 37). -/
def Obligations.UpCheckerTable : Prop :=
  ∀ k : CheckRec,
    (∀ bytes, k.take (.record bytes) = { k with upErrors := k.upErrors + 1 })
    ∧ (∀ index pattern b, checkFrameChecks index pattern b = false →
        k.take (.check index pattern b) = { k with upErrors := k.upErrors + 1 })
    ∧ (∀ index pattern b, checkFrameChecks index pattern b = true →
        let i := index.toNat
        (i = k.expected → i < k.frames → pattern = checkPattern i → k.take (.check index pattern b) = { k with expected := i + 1 })
        ∧ (i = k.expected → i < k.frames → pattern ≠ checkPattern i →
            k.take (.check index pattern b) = { k with expected := i + 1, upErrors := k.upErrors + 1 })
        ∧ (k.expected < i → i < k.frames → pattern = checkPattern i →
            k.take (.check index pattern b) = { k with expected := i + 1, upErrors := k.upErrors + (i - k.expected) })
        ∧ (k.expected < i → i < k.frames → pattern ≠ checkPattern i →
            k.take (.check index pattern b) = { k with expected := i + 1, upErrors := k.upErrors + (i - k.expected) + 1 })
        ∧ (i < k.expected ∨ k.frames ≤ i → k.take (.check index pattern b) = { k with upErrors := k.upErrors + 1 }))
    ∧ (k.complete = true ↔ k.frames ≤ k.expected)

/-- R25, R26, R35: during a check CHECK_ARMED sends the check frames down, a frame of the result lane goes to the up-checker
alone, and a CHECK_RESULT that does not end the check leaves its mark. R25, R27, R23: how a check of a port without a role ends.
With no error on either lane it passes and goes on to AWAIT_ANNOUNCE; a latched check with errors, one whose CHECK_RESULT comes
before CHECK_ARMED, and one whose timer expires go to FAULTED with cause CHECK_FAILED, each with its counts in the last check
field. A check may end by its CHECK_RESULT or by its last up frame. That an end by the counts too removes the frames of the check
not yet sent is log entry 22, that a timer not due expires nothing log entry 8, and that the up-error count has no top value log
entry 37. R27, R28, R32, R91: then how a check ends, automatic or begun by PORT_CHECK, latched or not, with a role kept or none: in
AWAIT_ANNOUNCE, back in IN_SERVICE, or in FAULTED, by a latched failure or by the kept id on another port IN_SERVICE, which is the
departure of a port with a role. The returns to IN_SERVICE are stated for a tester whose program is not asked for, with its claims
FORMED, on a port of no cell, of an IDLE cell and of a MANUAL one; FAULTED for a port of no cell. That the parked slot record of a
tester keeps its margin values is the model's choice (log entry 44). -/
def Obligations.CheckFramesAndEnds : Prop :=
  (∀ (p : Port) (s : State) (k : CheckRec), s.ports[p].state = .checking → s.ports[p].check = some k →
    (s.ports[p].controlLock = true →
      (k.armed = false → exec (.checkArmed p) s = .next (transmit (s.modPort p fun r =>
        { r with check := some { k with armed := true }, out := r.out ++ [.checkFrames 0 k.frames] })))
      ∧ (k.armed = true → exec (.checkArmed p) s = .next (transmit (countIgnored p s)))
      ∧ (∀ down, k.armed = true → k.result = none → k.expected < k.frames →
        exec (.checkResult p down) s = .next (transmit (s.modPort p fun r =>
          { r with check := some { k with result := some down.toNat } })))
      ∧ (∀ down, k.result.isSome → exec (.checkResult p down) s = .next (transmit (countIgnored p s))))
    ∧ (s.ports[p].resultLock = true →
      (∀ f, k.result = none ∨ (k.take f).expected < k.frames →
        exec (.checkFrame p f) s = .next (transmit (s.modPort p fun r => { r with check := some (k.take f) })))
      ∧ (∀ bytes, k.result = none ∨ k.expected < k.frames →
        exec (.resultRecord p bytes) s = .next (transmit (s.modPort p fun r => { r with check := some (k.take (.record bytes)) })))))
  ∧ (∀ (p : Port) (s : State) (k : CheckRec), s.ports[p].state = .checking → s.ports[p].check = some k → s.ports[p].role = none →
    k.ret = .training → k.latched = true →
    let r := s.ports[p]
    let passed : LastCheck := { outcome := .pass, latched := true, frames := k.frames, upErrors := 0, downErrors := 0 }
    let went : Host.Outcome State Fault Refusal :=
      .next (transmit (place (.portState p .checking .awaitAnnounce none r.equip none false (some passed) none)
        (s.modPort p fun r =>
          { r with
            state := .awaitAnnounce, check := none, last := some passed, checkFailed := false, checkTimer := none
            announceTimer := some { start := s.elapsed, limit := 10 }, out := r.out.filter fun d => !d.ofCheck })))
    let failed (up down : Nat) : Host.Outcome State Fault Refusal :=
      let x : LastCheck := { outcome := .fail, latched := true, frames := k.frames, upErrors := up, downErrors := down }
      .next (transmit (place (.portState p .checking .faulted none r.equip (some .checkFailed) true (some x) none) (s.modPort p fun r =>
        { r with
          state := .faulted, fault := some .checkFailed, check := none, last := some x, announceTimer := none
          checkTimer := none, checkFailed := true, equip := none, data := none, out := r.out.filter fun d => !d.ofCheck })))
    (∀ down, r.controlLock = true → k.result = none →
      (k.armed = true → k.frames ≤ k.expected → k.upErrors = 0 → down = 0 →
        exec (.checkResult p down) s = went)
      ∧ (k.armed = true → k.frames ≤ k.expected → k.upErrors ≠ 0 ∨ down ≠ 0 →
        exec (.checkResult p down) s = failed k.upErrors down.toNat)
      ∧ (k.armed = false → exec (.checkResult p down) s = failed k.upErrors k.frames))
    ∧ (∀ f down, r.resultLock = true → k.result = some down → k.frames ≤ (k.take f).expected →
      ((k.take f).upErrors = 0 → down = 0 →
        exec (.checkFrame p f) s = went)
      ∧ ((k.take f).upErrors ≠ 0 ∨ down ≠ 0 → exec (.checkFrame p f) s = failed (k.take f).upErrors down))
    ∧ (expired r.checkTimer s.elapsed = true →
        exec (.checkTimerExpiry p) s = failed (k.upErrors + (k.frames - k.expected)) (k.result.getD k.frames))
    ∧ (expired r.checkTimer s.elapsed = false → exec (.checkTimerExpiry p) s = .next s))
  ∧ ∀ (p : Port) (s : State) (k : CheckRec) (i : Instr) (pass : Bool) (up down : Nat),
    s.ports[p].state = .checking → s.ports[p].check = some k →
    let r := s.ports[p]
    (∃ d : BitVec 16, i = .checkResult p d ∧ r.controlLock = true ∧ k.result = none ∧ up = k.upErrors
        ∧ if k.armed then k.frames ≤ k.expected ∧ down = d.toNat ∧ pass = (up == 0 && down == 0) else down = k.frames ∧ pass = false)
      ∨ (∃ f, i = .checkFrame p f ∧ r.resultLock = true ∧ k.result = some down ∧ k.frames ≤ (k.take f).expected
        ∧ up = (k.take f).upErrors ∧ pass = (up == 0 && down == 0))
      ∨ (i = .checkTimerExpiry p ∧ expired r.checkTimer s.elapsed = true ∧ up = k.upErrors + (k.frames - k.expected)
        ∧ down = k.result.getD k.frames ∧ pass = false) →
    let x : LastCheck :=
      { outcome := if pass then .pass else .fail, latched := k.latched, frames := k.frames, upErrors := up, downErrors := down }
    let flag := if k.latched then !pass else r.checkFailed
    let report (now : PortState) (fault : Option FaultCause) : Report :=
      .portState p .checking now r.role r.equip fault flag (some x) none
    let ended : PortRec :=
      { r with check := none, last := some x, checkTimer := none, checkFailed := flag, out := r.out.filter fun d => !d.ofCheck }
    let back : State := place (report .inService none) (s.modPort p fun _ => { ended with state := .inService })
    let twin := ∃ q : Port, q ≠ p ∧ s.ports[q].state = .inService ∧ r.equip.isSome ∧ s.ports[q].equip = r.equip
    let faulted (cause : FaultCause) : Host.Outcome State Fault Refusal :=
      .next (transmit (place (report .faulted (some cause)) { s with
        ports := s.ports.set p
          { ended with
            state := .faulted, fault := some cause, announceTimer := none, role := none, equip := none, data := none }
        slots := if r.role = some .tester then
            s.slots.set p { s.slots[p] with use := .parked, active := none, staged := .empty, swap := none, request := none }
          else s.slots
        claims := match r.role with
          | none => s.claims
          | some .handler => s.claims.filter (·.port != p)
          | some .tester => s.claims.map fun y => if some y.tester = r.equip then { y with status := .waiting } else y }))
    (k.latched = true → pass = false → s.outside p → s.slots[p].inFlight = false → exec i s = faulted .checkFailed)
    ∧ (k.latched = false ∨ pass = true →
      (k.ret ≠ .inService → exec i s = .next (transmit (place (report .awaitAnnounce none) (s.modPort p fun _ =>
        { ended with state := .awaitAnnounce, announceTimer := some { start := s.elapsed, limit := 10 } }))))
      ∧ (k.ret = .inService → twin → s.outside p → s.slots[p].inFlight = false → exec i s = faulted .duplicateId)
      ∧ (k.ret = .inService → ¬ twin → r.role.isSome → s.slots[p].request = none →
          (∀ y ∈ s.claims, y.port = p ∨ y.tester = r.equip.getD 0 → y.status = .formed) →
        (s.outside p → exec i s = .next (transmit back))
        ∧ ∀ c m, s.cellOfPort? p = some c → s.cell? c = some m → s.queues[c].behind = [] →
          (m.state = .idle → s.queues[c].current = none →
            exec i s = .next (transmit { back.modCell c fun m => { m with causes := {}, waiting := {} } with
              pass := { s.pass with pending := true } }))
          ∧ (∀ l, m.state = .manual → s.currentLot? c = some l → s.marginSteady m.testerPort →
            ∃ (t : State) (m' : Cell), exec i s = .next (transmit t) ∧ t.ports = back.ports ∧ t.cell? c = some m'
              ∧ m' = { m with causes := m'.causes, waiting := {} } ∧ (m.handlerPort = p → m'.causes.handlerLink = false)
              ∧ (m.testerPort = p → m'.causes.testerLink = false))))

/-- R29, R30, R33, R37, R38: the ANNOUNCE of a handler with every field in range is taken in AWAIT_ANNOUNCE; the port goes
IN_SERVICE with the data, its temperatures clamped, and a dock claim enters the claim list. Stated for a handler that was in
no cell, holds no claim and docks with no tester IN_SERVICE; H_DOCK forms a cell in another statement. R29, R31, R83, R93, R94:
so is the ANNOUNCE of a tester; its slot record is set up IN_USE with the calibration announced, and its margin is computed.
Stated for a tester that was in no cell, that no claim names and that no slot record holds. R42, R48, R49: the fresh ANNOUNCE of a
port of a formed cell with nothing queued, whose claim is the one it announces. The handler's kit, mode and sites are taken over;
a PAUSED cell of it is sent D_SETPOINT and D_MASK, and then D_HALT while a cause is left, or D_CONTINUE. The tester's slot record
is set up with its failures and bar kept (R83), its link cause goes, and the cell resumes when none is left. The order of
effect of a handler's changes is log entry 38, which these clauses do not reach. -/
def Obligations.AnnounceAdmits : Prop :=
  (∀ (p : Port) (s : State) (id : BitVec 32) (sites : Byte) (lo hi kit : BitVec 16) (dock : BitVec 32) (mode : Byte) (m : Mode),
    s.ports[p].state = .awaitAnnounce → s.ports[p].controlLock = true →
    (s.ports[p].role = none ∨ (s.ports[p].role = some .handler ∧ s.ports[p].equip = some id.toNat)) →
    id ≠ 0 → 1 ≤ sites.toNat → sites.toNat ≤ 8 → tempOf lo ≤ tempOf hi → dock ≠ id → modeOf mode = some m →
    (∀ q : Port, q ≠ p → s.ports[q].state = .inService → s.ports[q].equip ≠ some id.toNat) →
    s.outside p → (∀ x ∈ s.claims, x.port ≠ p) → s.testerPort? dock.toNat = none →
    exec (.announce p (.handler id sites lo hi kit dock mode)) s =
      .next (transmit
        { (place (.portState p .awaitAnnounce .inService (some .handler) (some id.toNat) none s.ports[p].checkFailed none none)
            (s.modPort p fun r =>
              { r with
                state := .inService, announceTimer := none, role := some .handler, equip := some id.toNat
                data := some (.handler sites.toNat (tempOf lo) (tempOf hi) kit.toNat dock.toNat m) })) with
          claims := s.claims ++ if dock = 0 then [] else [{ port := p, tester := dock.toNat, status := .waiting }] }))
  ∧ (∀ (p : Port) (s : State) (id : BitVec 32) (channels : Byte) (temp hours validity base kt kh : BitVec 16),
    s.ports[p].state = .awaitAnnounce → s.ports[p].controlLock = true → s.ports[p].role = none →
    id ≠ 0 → 1 ≤ channels.toNat → channels.toNat ≤ 8 → 1 ≤ validity.toNat → validity.toNat ≤ 8760 →
    (∀ q : Port, q ≠ p → s.ports[q].state = .inService → s.ports[q].equip ≠ some id.toNat) →
    s.outside p → (∀ x ∈ s.claims, x.tester ≠ id.toNat) → (∀ q : Port, s.slots[q].equip ≠ some id.toNat) →
    s.slots[p].swap = none → (∀ g v t, s.slots[p].staged ≠ .loading g v t) →
    let cal : Calibration :=
      { calTemp := tempOf temp, calTime := s.floorTime - 3600 * hours.toNat, headTemp := tempOf temp
        validity := validity.toNat, base := base.toNat, kt := kt.toNat, kh := kh.toNat }
    exec (.announce p (.tester id channels temp hours validity base kt kh)) s =
      .next (transmit
        ((place (.portState p .awaitAnnounce .inService (some .tester) (some id.toNat) none s.ports[p].checkFailed none none)
          (s.modPort p fun r =>
            { r with
              state := .inService, announceTimer := none, role := some .tester, equip := some id.toNat
              data := some (.tester channels.toNat (tempOf temp) hours.toNat validity.toNat base.toNat kt.toNat kh.toNat) })).modSlot p
          fun _ => { use := .inUse, equip := some id.toNat, cal := some cal, margin := some (cal.margin s.floorTime) })))
  ∧ (∀ (c : CellNo) (k : Cell) (s : State) (id : BitVec 32) (sites : Byte) (lo hi kit : BitVec 16) (dock : BitVec 32) (mode : Byte)
      (m : Mode) (x : Claim),
    let p := k.handlerPort
    let k1 : Cell := { k with
      kit := kit.toNat, mode := m, sites := k.sites.take sites.toNat ++ List.replicate (sites.toNat - k.sites.length) {} }
    let fresh : PortRec := { s.ports[p] with
      state := .inService, announceTimer := none, data := some (.handler sites.toNat (tempOf lo) (tempOf hi) kit.toNat dock.toNat m) }
    s.cell? c = some k → s.cellOfHandler? p = some c → p ≠ k.testerPort → s.ports[p].state = .awaitAnnounce →
    s.ports[p].controlLock = true → s.ports[p].role = some .handler → s.ports[p].equip = some id.toNat → modeOf mode = some m →
    (announceData (.handler id sites lo hi kit dock mode)).isSome → s.duplicate p (some id.toNat) = false →
    dock.toNat = k.testerId → s.claims.find? (·.port == p) = some x → x.tester = k.testerId → x.status = .formed →
    s.queues[c].behind = [] →
    let comes (u : State) : Prop :=
      exec (.announce p (.handler id sites lo hi kit dock mode)) s = .next (transmit u) ∧ u.claims = s.claims
    (k.state = .idle → s.queues[c].current = none →
      ∃ u, comes u ∧ u.ports[p] = fresh ∧ u.pass.pending = true ∧ u.cell? c = some { k1 with causes := {}, waiting := {} })
    ∧ ∀ l d, k.state = .paused → k.causes.handlerLink = true → m = .remote → s.currentLot? c = some l → s.stepDef? l l.step = some d →
        s.marginSteady k.testerPort →
        let sends (u : State) (last : Down) : Prop :=
          u.ports[p] = { fresh with out := fresh.out ++ [.setpoint d.setpoint, .mask k1.targetMask, last] }
        (k.setpoint ≠ some d.setpoint → ∃ u k', comes u ∧ sends u .halt ∧ u.cell? c = some k' ∧ k'.causes.handlerLink = false
          ∧ k' = { k1 with
              setpoint := some d.setpoint, band := some d.band, soakTime := some d.soak, soak := .out, soakTimer := none
              causes := k'.causes, waiting := {} })
        ∧ ∀ g t, k.setpoint = some d.setpoint → k.soak = .soaked → s.inService k.testerPort = true → s.product? l.product = some g →
            k1.kit = g.kit → s.marginPasses k.testerPort d = true → s.slots[k.testerPort].barred = false → k1.anyOn = true →
            s.cells[c].preemptEnable = false → k.segment.isSome → s.tally? l.id = some t → t.step = l.step →
          ∃ u k', comes u ∧ sends u .continue_ ∧ u.cell? c = some k' ∧ u.tally? l.id = some { t with divider := 0 }
            ∧ k' = { k1 with
                state := .running, withdrawTimer := none, band := some d.band, soakTime := some d.soak, soakTimer := none
                causes := {}, waiting := {}
                sites := k1.sites.map fun x => if x.state = .on ∧ d.edges.getLsbD 1 = true then { x with blank := d.blank } else x })
  ∧ ∀ (c : CellNo) (k : Cell) (l : Lot) (g : Product) (d : StepDef) (s : State) (id : BitVec 32) (channels : Byte)
      (temp hours validity base kt kh : BitVec 16),
    let p := k.testerPort
    let cal : Calibration :=
      { calTemp := tempOf temp, calTime := s.floorTime - 3600 * hours.toNat, headTemp := tempOf temp
        validity := validity.toNat, base := base.toNat, kt := kt.toNat, kh := kh.toNat }
    s.cell? c = some k → s.cellOfTester? p = some c → k.handlerPort ≠ p → s.ports[p].state = .awaitAnnounce →
    s.ports[p].controlLock = true → s.ports[p].role = some .tester → s.ports[p].equip = some id.toNat →
    (announceData (.tester id channels temp hours validity base kt kh)).isSome → s.duplicate p (some id.toNat) = false →
    s.slots[p].equip = some id.toNat → (∀ x ∈ s.claims, x.tester = id.toNat → x.status = .formed) →
    k.state = .paused → k.causes.handlerLink = false → s.currentLot? c = some l → s.queues[c].behind = [] →
    s.product? l.product = some g → s.stepDef? l l.step = some d →
    ∃ u k', exec (.announce p (.tester id channels temp hours validity base kt kh)) s = .next (transmit u)
      ∧ u.slots[p] =
          { use := .inUse, equip := some id.toNat, failures := s.slots[p].failures, barred := s.slots[p].barred, cal := some cal
            margin := some (cal.margin s.floorTime) }
      ∧ u.cell? c = some k' ∧ k'.causes.testerLink = false
      ∧ (k.soak ≠ .soaked → k' = { k with causes := k'.causes, waiting := {} })
      ∧ (∀ t, k.soak = .soaked → s.inService k.handlerPort = true → k.mode = .remote → k.kit = g.kit →
          cal.passes s.floorTime d = true → s.slots[p].barred = false → k.anyOn = true → s.cells[c].preemptEnable = false →
          k.segment.isSome → s.tally? l.id = some t → t.step = l.step →
          .continue_ ∈ u.ports[k.handlerPort].out ∧ k' = { k with
            state := .running, withdrawTimer := none, causes := {}, waiting := {}
            sites := k.sites.map fun x => if x.state = .on ∧ d.edges.getLsbD 1 = true then { x with blank := d.blank } else x })

/-- R29, R23, R24: an ANNOUNCE out of range and one whose id is IN_SERVICE on another port send the port to FAULTED, as the
announce timer's expiry does; in every other state an ANNOUNCE is discarded. R29, R32, R37, R91: a port that kept a role goes to
FAULTED by the same three, and by an ANNOUNCE of another role or another id; its departure takes a handler's claims off, and parks
the slot record of a tester, whose margin values are kept by the model's choice (log entry 44), with its claims WAITING. A port
with a kept role is stated in no cell, with no load or swap in flight. -/
def Obligations.AnnounceFaults : Prop :=
  ∀ (p : Port) (s : State),
    let r := s.ports[p]
    let faulted (cause : FaultCause) : Host.Outcome State Fault Refusal :=
      .next (transmit (place (.portState p .awaitAnnounce .faulted r.role r.equip (some cause) r.checkFailed none none) { s with
        ports := s.ports.set p
          { r with
            state := .faulted, fault := some cause, announceTimer := none, checkTimer := none, role := none, equip := none
            data := none }
        slots := if r.role = some .tester then
            s.slots.set p { s.slots[p] with use := .parked, active := none, staged := .empty, swap := none, request := none }
          else s.slots
        claims := match r.role with
          | none => s.claims
          | some .handler => s.claims.filter (·.port != p)
          | some .tester => s.claims.map fun y => if some y.tester = r.equip then { y with status := .waiting } else y }))
    (∀ msg, r.controlLock = true → r.state ≠ .awaitAnnounce → exec (.announce p msg) s = .next (transmit (countIgnored p s)))
    ∧ (r.state = .awaitAnnounce → (r.role.isSome → s.outside p ∧ s.slots[p].inFlight = false) →
      (r.controlLock = true →
        (∀ msg, announceData msg = none → exec (.announce p msg) s = faulted .badAnnounce)
        ∧ ∀ msg role id d, announceData msg = some (role, id, d) →
          let kept := r.role = some role ∧ r.equip = some id
          (r.role.isSome → ¬ kept → exec (.announce p msg) s = faulted .badAnnounce)
          ∧ ∀ q : Port, r.role = none ∨ kept → q ≠ p → s.ports[q].state = .inService → s.ports[q].equip = some id →
              exec (.announce p msg) s = faulted .duplicateId)
      ∧ (expired r.announceTimer s.elapsed = true → exec (.announceTimerExpiry p) s = faulted .timeout))

/-- R33, R35: the frames that are discarded, each into its counter, which stops at its top value; on a lane that is not locked
nothing is taken. -/
def Obligations.DiscardedFrames : Prop :=
  ∀ (p : Port) (s : State) (f : UpFrame),
    let r := s.ports[p]
    let discarded := transmit (s.modPort p fun r => { r with discarded := min (r.discarded + 1) 4294967295 })
    (r.controlLock = true →
      exec (.badFrame p) s = .next (transmit (s.modPort p fun r => { r with badFrames := min (r.badFrames + 1) 4294967295 }))
        ∧ exec (.unknownMessageKind p) s =
            .next (transmit (s.modPort p fun r => { r with ignored := min (r.ignored + 1) 4294967295 })))
    ∧ (r.controlLock = false → exec (.badFrame p) s = .next s ∧ exec (.unknownMessageKind p) s = .next s)
    ∧ (r.resultLock = true →
      (r.state = .training ∨ r.state = .awaitAnnounce ∨ r.state = .faulted ∨ (r.state = .inService ∧ r.role = some .handler) →
        exec (.resultLaneDiscard p f) s = .next discarded ∧ ∀ bytes, exec (.resultRecord p bytes) s = .next discarded)
      ∧ (∀ index pattern b, r.state = .inService → r.role = some .tester →
        exec (.resultLaneDiscard p (.check index pattern b)) s = .next discarded))
    ∧ (r.resultLock = false → exec (.resultLaneDiscard p f) s = .next s ∧ exec (.checkFrame p f) s = .next s
        ∧ ∀ bytes, exec (.resultRecord p bytes) s = .next s)

/-- R33: for every control-lane message: on a lane that is not locked it is not taken; in TRAINING and FAULTED it is discarded
into the ignored-message counter, and so is in CHECKING every message but CHECK_ARMED and CHECK_RESULT, in AWAIT_ANNOUNCE every
message but ANNOUNCE, and IN_SERVICE those three, an H_ message of a tester's port, a T_ message of a handler's, and a message
with a value its layout does not define. -/
def Obligations.OutOfPlaceMessagesOnlyCount : Prop :=
  ∀ (i : Instr) (p : Port) (kind : Byte) (body : List Byte) (s : State), messageOf i = some (p, kind, body) →
    (s.ports[p].controlLock = false → exec i s = .next s)
    ∧ (s.ports[p].controlLock = true →
      (s.ports[p].state = .training ∨ s.ports[p].state = .faulted → exec i s = .next (transmit (countIgnored p s)))
      ∧ (s.ports[p].state = .checking → 0x05 ≤ kind.toNat → exec i s = .next (transmit (countIgnored p s)))
      ∧ (s.ports[p].state = .awaitAnnounce → kind ≠ 0x05 → exec i s = .next (transmit (countIgnored p s)))
      ∧ (s.ports[p].state = .inService → kind.toNat ≤ 0x05 → exec i s = .next (transmit (countIgnored p s)))
      ∧ (s.ports[p].state = .inService → s.ports[p].role = some .tester → 0x10 ≤ kind.toNat → kind.toNat ≤ 0x17 →
          exec i s = .next (transmit (countIgnored p s)))
      ∧ (s.ports[p].state = .inService → s.ports[p].role = some .handler → 0x20 ≤ kind.toNat →
          exec i s = .next (transmit (countIgnored p s)))
      ∧ (s.ports[p].state = .inService →
          (∃ mode : Byte, i = .hStatus p mode ∧ mode ≠ 1 ∧ mode ≠ 2) ∨ (∃ phase : Byte, i = .hPhase p phase ∧ phase ≠ 1 ∧ phase ≠ 2)
            ∨ (∃ (kit : BitVec 16) (flag : Byte), i = .hKit p kit flag ∧ flag ≠ 0 ∧ flag ≠ 1)
            ∨ (∃ (g : BitVec 16) (v : Byte) (x : BitVec 32) (ok : Byte), i = .tLoaded p g v x ok ∧ ok ≠ 1 ∧ ok ≠ 2)
            ∨ (∃ m : CountsMsg, i = .hCounts p m ∧ m.flag ≠ 1 ∧ m.flag ≠ 2) →
          exec i s = .next (transmit (countIgnored p s))))

/-- R23, R28, R22: PORT_RESET and PORT_CHECK, their refusals and what they start. The check of a port of an IDLE cell, and of a
MANUAL one, which shows the link cause, are stated with nothing queued in the cell. -/
def Obligations.PortResetAndCheck : Prop :=
  (∀ (s : State) (b : List Byte), 32 ≤ u8 b 0 →
    (s.asks Kind.portReset b → b.length = 1 → exec .portReset s = .next (s.replied (.plain .malformed)))
      ∧ (s.asks Kind.portCheck b → b.length = 4 → exec .portCheck s = .next (s.replied (.plain .malformed))))
  ∧ ∀ (p : Port) (s : State) (b : List Byte), u8 b 0 = p.val →
    let r := s.ports[p]
    let reset := place (portReport p .faulted .training r) (s.modPort p fun r => { r with state := .training, fault := none })
    let check (ret : CheckReturn) (latched : Bool) (n : Nat) (r : PortRec) : PortRec :=
      { r with
        state := .checking, check := some { latched := latched, frames := n, ret := ret }, announceTimer := none
        checkTimer := some { start := s.elapsed, limit := 10 }, out := r.out ++ [.checkBegin n] }
    (s.asks Kind.portReset b → b.length = 1 →
      (r.state ≠ .faulted → exec .portReset s = .next (s.replied (.plain .wrongState)))
      ∧ (r.state = .faulted → (r.controlLock && r.resultLock) = false → exec .portReset s = .next (reset.replied (.plain .ok)))
      ∧ (r.state = .faulted → (r.controlLock && r.resultLock) = true →
          exec .portReset s =
            .next ((place (portReport p .training .checking r) (reset.modPort p (check .training true 1024))).replied (.plain .ok))))
    ∧ (s.asks Kind.portCheck b → b.length = 4 →
      (u16 b 1 = 0 ∨ 1 < u8 b 3 → exec .portCheck s = .next (s.replied (.plain .malformed)))
      ∧ (u16 b 1 ≠ 0 → u8 b 3 ≤ 1 →
        (r.state ≠ .awaitAnnounce → r.state ≠ .inService → exec .portCheck s = .next (s.replied (.plain .wrongState)))
        ∧ (r.role = some .tester → s.slots[p].inFlight = true → exec .portCheck s = .next (s.replied (.plain .wrongState)))
        ∧ (s.cellBusy p = true → exec .portCheck s = .next (s.replied (.plain .wrongState)))
        ∧ (∀ ret, (r.state = .awaitAnnounce ∧ ret = .awaitAnnounce) ∨ (r.state = .inService ∧ ret = .inService) → s.outside p →
            ¬ (r.role = some .tester ∧ s.slots[p].inFlight = true) →
            exec .portCheck s =
              .next ((place (portReport p r.state .checking r)
                (s.modPort p (check ret (decide (u8 b 3 = 1)) (u16 b 1)))).replied (.plain .ok)))
        ∧ (∀ c k, r.state = .inService → s.cellOfPort? p = some c → s.cell? c = some k → s.queues[c].behind = [] →
            ¬ (r.role = some .tester ∧ s.slots[p].inFlight = true) →
            let started := place (portReport p .inService .checking r)
              (s.modPort p (check .inService (decide (u8 b 3 = 1)) (u16 b 1)))
            (k.state = .idle → s.queues[c].current = none →
              exec .portCheck s =
                .next (({ started.modCell c fun k => { k with causes := {}, waiting := {} } with
                  pass := { s.pass with pending := true } } : State).replied (.plain .ok)))
            ∧ (∀ l, k.state = .manual → s.currentLot? c = some l → s.marginSteady k.testerPort →
              ∃ (t : State) (k' : Cell), exec .portCheck s = .next (t.replied (.plain .ok))
                ∧ t.ports = started.ports ∧ t.cell? c = some k' ∧ k' = { k with causes := k'.causes, waiting := {} }
                ∧ (k.handlerPort = p → k'.causes.handlerLink = true) ∧ (k.testerPort = p → k'.causes.testerLink = true)))))

/-! ## Handlers and cells (Chapter 3) -/

/-- R37, R56: what the H_ messages of a handler in no cell do: mode and kit are kept in the port's announce data, and the
messages for a cell are discarded. -/
def Obligations.HandlerFactsOutsideCell : Prop :=
  ∀ (p : Port) (s : State), s.serves p .handler = true → s.ports[p].controlLock = true → s.outside p →
    (∀ sites lo hi kit dock mode, s.ports[p].data = some (.handler sites lo hi kit dock mode) →
      (∀ b m, modeOf b = some m → exec (.hStatus p b) s =
        .next (transmit (s.modPort p fun r => { r with data := some (.handler sites lo hi kit dock m) })))
      ∧ (∀ (x : BitVec 16) (flag : Byte), flag = 0 ∨ flag = 1 → exec (.hKit p x flag) s =
        .next (transmit (s.modPort p fun r => { r with data := some (.handler sites lo hi x.toNat dock mode) }))))
    ∧ (∀ temp, exec (.hTemp p temp) s = .next (transmit (countIgnored p s)))
    ∧ (∀ mask, exec (.hIndex p mask) s = .next (transmit (countIgnored p s)))
    ∧ (∀ mask, exec (.hClean p mask) s = .next (transmit (countIgnored p s)))
    ∧ (∀ phase, exec (.hPhase p phase) s = .next (transmit (countIgnored p s)))
    ∧ (∀ m, exec (.hCounts p m) s = .next (transmit (countIgnored p s)))

/-- R37, R38, R65: an H_DOCK that names a tester IN_SERVICE and in no cell forms a cell on the first free record, IDLE, with
one ON site for each announced site; the claim is FORMED and the engine is told. A tester that is not IN_SERVICE, or no free
record, leaves the claim WAITING; a tester in a cell makes it a CONFLICT, with the PORT_STATE report that names both. An H_DOCK
of 0 from a handler without a claim changes nothing. -/
def Obligations.DockFormsCell : Prop :=
  ∀ (p q : Port) (c : CellNo) (s : State) (tester : BitVec 32) (sites : Nat) (lo hi : Int) (kit dock : Nat) (mode : Mode),
    s.serves p .handler = true → s.ports[p].controlLock = true → s.ports[p].data = some (.handler sites lo hi kit dock mode) →
    s.outside p → (∀ x ∈ s.claims, x.port ≠ p) →
    let claims (st : ClaimStatus) : List Claim := s.claims ++ [{ port := p, tester := tester.toNat, status := st }]
    (tester = 0 → exec (.hDock p tester) s = .next (transmit s))
    ∧ (tester ≠ 0 → s.testerPort? tester.toNat = none ∨ (s.testerPort? tester.toNat = some q ∧ s.outside q ∧ ∀ e, (s.cell? e).isSome) →
        exec (.hDock p tester) s = .next (transmit { s with claims := claims .waiting }))
    ∧ (∀ e, tester ≠ 0 → s.testerPort? tester.toNat = some q → s.cellOfTester? q = some e →
        let r := s.ports[p]
        exec (.hDock p tester) s = .next (transmit
          (place (.portState p r.state r.state r.role r.equip none r.checkFailed none (some (tester.toNat, e)))
            { s with claims := claims .conflict })))
    ∧ (tester ≠ 0 → s.testerPort? tester.toNat = some q → s.outside q → s.cell? c = none →
        (∀ d : CellNo, d < c → (s.cell? d).isSome) → s.queues[c] = {} →
        ∃ t : State, exec (.hDock p tester) s = .next (transmit t)
          ∧ t = { s with
              claims := claims .formed
              cells := t.cells, reports := t.reports, dropped := t.dropped, pass := { s.pass with pending := true } }
          ∧ t.cells[c] =
              { s.cells[c] with
                formed := some
                  { handlerPort := p, testerPort := q, handlerId := s.ports[p].equip.getD 0, testerId := s.ports[q].equip.getD 0
                    mode := mode, kit := kit, sites := List.replicate sites {} } }
          ∧ (∀ d : CellNo, d ≠ c → t.cells[d] = s.cells[d])
          ∧ (s.reports.length < 64 → t.reports = s.reports ++
              [.cellState c none (some .idle) (s.ports[p].equip.getD 0) (s.ports[q].equip.getD 0) none none {} {} none]))

/-- R46, R33: a reading of the chamber of a cell without a current lot: the clamped temperature, the stale timer, and the move
of the soak state by the band and the soak time. R46, R49, R50: the soak and stale timers of such a cell, and the withdraw timer
of a PAUSED cell, which is drained. A timer that is not due expires nothing (log entry 8). -/
def Obligations.ChamberAndCellTimers : Prop :=
  (∀ (p : Port) (c : CellNo) (k : Cell) (s : State) (temp : BitVec 16),
    s.serves p .handler = true → s.ports[p].controlLock = true → s.cellOfHandler? p = some c → s.cell? c = some k →
    s.queues[c].current = none →
    let v := tempOf temp
    let read : Cell :=
      { k with temp := some v, staleTimer := some { start := s.elapsed, limit := s.params.stale }, causes := {}, waiting := {} }
    let becomes (x : Cell) : Prop := exec (.hTemp p temp) s = .next (transmit (s.modCell c fun _ => x))
    (Machine.inRange v ∧ (Machine.inRange temp.toInt → v = temp.toInt))
    ∧ (k.setpoint = none → becomes read)
    ∧ (∀ sp band soak, k.setpoint = some sp → k.band = some band → k.soakTime = some soak →
      (band < (v - sp).natAbs → becomes { read with soak := .out, soakTimer := none })
      ∧ ((v - sp).natAbs ≤ band → k.soak = .out → soak = 0 → becomes { read with soak := .soaked })
      ∧ ((v - sp).natAbs ≤ band → k.soak = .out → soak ≠ 0 →
          becomes { read with soak := .settling, soakTimer := some { start := s.elapsed, limit := soak } })
      ∧ ((v - sp).natAbs ≤ band → k.soak ≠ .out → becomes read)))
  ∧ ∀ (c : CellNo) (k : Cell) (s : State), s.cell? c = some k →
    (s.queues[c].current = none →
      (expired k.soakTimer s.elapsed = true → exec (.soakTimerExpiry c) s = .next (transmit (s.modCell c fun k =>
        { k with soak := if k.soak = .settling then .soaked else k.soak, soakTimer := none, causes := {}, waiting := {} })))
      ∧ (expired k.staleTimer s.elapsed = true → exec (.staleTimerExpiry c) s = .next (transmit (s.modCell c fun k =>
        { k with temp := none, staleTimer := none, soak := .out, soakTimer := none, causes := {}, waiting := {} }))))
    ∧ (expired k.soakTimer s.elapsed = false → exec (.soakTimerExpiry c) s = .next s)
    ∧ (expired k.staleTimer s.elapsed = false → exec (.staleTimerExpiry c) s = .next s)
    ∧ (k.state ≠ .paused ∨ expired k.withdrawTimer s.elapsed = false → exec (.withdrawTimerExpiry c) s = .next s)
    ∧ (k.state ≠ .draining ∨ expired k.drainTimer s.elapsed = false → exec (.drainTimerExpiry c) s = .next s)
    ∧ (k.state = .paused → expired k.withdrawTimer s.elapsed = true → k.segment.isSome → k.causes.handlerLink = false →
        (∀ x ∈ k.sites, x.change = none) →
        exec (.withdrawTimerExpiry c) s = .next (transmit
          (place (.cellState c (some .paused) (some .draining) k.handlerId k.testerId s.queues[c].current (some .withdraw) k.causes
              k.waiting none)
            (send k.handlerPort .stop (s.modCell c fun k =>
              { k with
                state := .draining, purpose := some .withdraw, withdrawTimer := none
                drainTimer := some { start := s.elapsed, limit := s.params.drain } })))))

/-- R56, R58, R112: H_INDEX records its mask and counts mismatches, H_PHASE records the phase, and H_CLEAN sets the blanking
counters of the sites it names in a fed cell that is RUNNING, PAUSED or MANUAL. An H_INDEX makes the pending changes of all sites
of a RUNNING cell first, each ON with its SITE_ON edge, and counts its mismatches after them; its clause is stated for a cell
that stays RUNNING, with a site ON after the changes and nothing queued. R30, R45, R48, R49, R56, R112: H_KIT: the kit held reseated
fires the KIT edge when it is the product's; another kit is taken over, pauses a RUNNING cell by the KIT cause, and lets a PAUSED
one resume when it is the product's and no other cause is left, with the RESUME edge and no KIT edge. -/
def Obligations.IndexPhaseCleanKit : Prop :=
  ∀ (p : Port) (c : CellNo) (k : Cell) (s : State),
    s.serves p .handler = true → s.ports[p].controlLock = true → s.cellOfHandler? p = some c → s.cell? c = some k →
    (∀ mask, k.state ≠ .running ∨ (∀ x ∈ k.sites, x.change = none) →
      exec (.hIndex p mask) s = .next (transmit (s.modCell c fun k =>
        { k with
          lastMask := mask
          indexCount := min (k.indexCount + 1) 4294967295
          mismatchCount := min (k.mismatchCount + k.mismatches mask) 4294967295 })))
    ∧ (∀ mask l g d t, k.state = .running → s.currentLot? c = some l → k.sites.length ≤ 8 →
        s.onlyTemp { k with sites := k.sites.map fun x => { x with state := x.target, change := none } } l g d →
        k.soak = .soaked → k.causes = {} → k.waiting = {} → k.segment.isSome → s.tally? l.id = some t → t.step = l.step →
        s.queues[c].behind = [] →
        ∃ (u : State) (k' : Cell), exec (.hIndex p mask) s = .next (transmit u)
          ∧ u = { s with
              cells := s.cells.set c { s.cells[c] with formed := some k' }, lots := u.lots, slots := u.slots, reports := u.reports
              dropped := u.dropped, pass := u.pass }
          ∧ k' = { k with
              sites := k'.sites, lastMask := mask, indexCount := min (k.indexCount + 1) 4294967295
              mismatchCount := min (k.mismatchCount + k'.mismatches mask) 4294967295 }
          ∧ k'.sites.length = k.sites.length
          ∧ ∀ (i : Nat) (x : Site), k.sites[i]? = some x → k'.sites[i]? = some
              { x with
                state := x.target, change := none
                blank := if x.change = some .on ∧ d.edges.getLsbD 3 = true then d.blank else x.blank })
    ∧ (∀ (x : BitVec 16) (flag : Byte) sites lo hi kit dock mode, flag = 0 ∨ flag = 1 →
        s.ports[p].data = some (.handler sites lo hi kit dock mode) → s.queues[c].behind = [] →
        let kept := s.modPort p fun r => { r with data := some (.handler sites lo hi x.toNat dock mode) }
        let held := k.state = .running ∨ k.state = .paused ∨ k.state = .manual
        (k.kit = x.toNat →
          (flag = 0 ∨ ¬ held → exec (.hKit p x flag) s = .next (transmit kept))
          ∧ ∀ l g, flag = 1 → held → s.currentLot? c = some l → s.product? l.product = some g →
            (g.kit ≠ x.toNat → exec (.hKit p x flag) s = .next (transmit kept))
            ∧ ∀ t d, g.kit = x.toNat → k.segment.isSome → s.tally? l.id = some t → s.stepDef? l t.step = some d →
              exec (.hKit p x flag) s = .next (transmit (kept.modCell c fun k => { k with
                sites := k.sites.map fun y => if y.state = .on ∧ d.edges.getLsbD 2 = true then { y with blank := d.blank } else y })))
        ∧ (k.kit ≠ x.toNat →
          (s.queues[c].current = none → exec (.hKit p x flag) s = .next (transmit
            { (kept.modCell c fun k => { k with kit := x.toNat, causes := {}, waiting := {} }) with
              pass := { s.pass with pending := true } }))
          ∧ ∀ l g, s.currentLot? c = some l → s.product? l.product = some g → s.marginSteady k.testerPort →
            (g.kit ≠ x.toNat → k.state = .running → k.noChanges →
              ∃ u k', exec (.hKit p x flag) s = .next (transmit u) ∧ u.cell? c = some k' ∧ k'.causes.kit = true
                ∧ .halt ∈ u.ports[p].out ∧ u.pass.pending = true
                ∧ k' = { k with
                    kit := x.toNat, state := .paused, causes := k'.causes, waiting := {}
                    withdrawTimer := some { start := s.elapsed, limit := s.params.withdraw } })
            ∧ ∀ t d, k.state = .paused → k.soak = .soaked → k.causes.handlerLink = false → s.onlyTemp { k with kit := x.toNat } l g d →
                s.cells[c].preemptEnable = false → k.segment.isSome → s.tally? l.id = some t → t.step = l.step →
              ∃ u, exec (.hKit p x flag) s = .next (transmit u) ∧ .continue_ ∈ u.ports[p].out
                ∧ u.cell? c = some { k with
                    kit := x.toNat, state := .running, withdrawTimer := none, causes := {}, waiting := {}
                    sites := k.sites.map fun y =>
                      if y.state = .on ∧ d.edges.getLsbD 1 = true then { y with blank := d.blank } else y }))
    ∧ exec (.hPhase p 1) s = .next (transmit (s.modCell c fun k => { k with lastPhase := some false }))
    ∧ exec (.hPhase p 2) s = .next (transmit (s.modCell c fun k => { k with lastPhase := some true }))
    ∧ (∀ mask, k.state ≠ .running → k.state ≠ .paused → k.state ≠ .manual → exec (.hClean p mask) s = .next (transmit s))
    ∧ (∀ mask l t d, k.state = .running ∨ k.state = .paused ∨ k.state = .manual → k.segment.isSome →
        s.currentLot? c = some l → s.tally? l.id = some t → s.stepDef? l t.step = some d → d.edges.getLsbD 4 = true →
        exec (.hClean p mask) s = .next (transmit (s.modCell c fun k =>
          { k with sites := k.sites.zipIdx.map fun x => if mask.getLsbD x.2 then { x.1 with blank := d.blank } else x.1 })))

/-- R44, R57, R58: CELL_SET and SITE_FORCE of a cell: the refusals; a record that holds no lot; what the current lot meets when
the enable is cleared; the pending change of a RUNNING cell, which one that returns the site to its present state takes back, with
the D_MASK of the new targets; the change that is made at once in another state, with its SITE_CHANGE report, the SITE_ON edge of
a fed cell, and SITES and NO_SITES by the sites left ON; and a force that changes nothing. That FORCED OFF over an OFF of kind
MONITOR changes the kind alone is log entry 20. The lots and the sites of a cell are stated with nothing queued behind entry 0; a
STARTING cell keeps its unfed lot and still waits for its temperature, and a PAUSED one does not resume for want of it. -/
def Obligations.CellSetAndSiteForce : Prop :=
  (∀ (s : State) (b : List Byte), 16 ≤ u8 b 0 → b.length = 3 →
    (s.asks Kind.cellSet b → exec .cellSet s = .next (s.replied (.plain .malformed)))
      ∧ (s.asks Kind.siteForce b → exec .siteForce s = .next (s.replied (.plain .malformed))))
  ∧ ∀ (c : CellNo) (s : State) (b : List Byte), u8 b 0 = c.val → b.length = 3 →
    (s.asks Kind.cellSet b →
      (1 < u8 b 1 ∨ 1 < u8 b 2 → exec .cellSet s = .next (s.replied (.plain .malformed)))
      ∧ (s.quiet c → u8 b 1 ≤ 1 → u8 b 2 ≤ 1 →
        exec .cellSet s =
          .next ((({ s.modCellRec c fun r =>
              { enable := decide (u8 b 1 = 1), preemptEnable := decide (u8 b 2 = 1)
                formed := r.formed.map fun k => { k with causes := {}, waiting := {} } } with
            pass := { s.pass with pending := true } } : State)).replied (.plain .ok)))
      ∧ (∀ k l, u8 b 1 = 0 → u8 b 2 ≤ 1 → s.cells[c].enable = true → s.cell? c = some k → s.currentLot? c = some l →
          s.queues[c].behind = [] → k.noChanges → s.marginSteady k.testerPort →
        ∃ t : State, exec .cellSet s = .next (t.replied (.plain .ok))
          ∧ t.cells[c].enable = false ∧ t.cells[c].preemptEnable = decide (u8 b 2 = 1)
          ∧ (k.state = .running ∨ k.state = .paused → k.segment.isSome → s.inService k.handlerPort = true →
              k.causes.handlerLink = false → t.queues[c] = s.queues[c] ∧ .stop ∈ t.ports[k.handlerPort].out
              ∧ ∃ k', t.cell? c = some k' ∧ k' = { k with
                  state := .draining, purpose := some .disable, withdrawTimer := none, causes := k'.causes, waiting := {}
                  drainTimer := some { start := s.elapsed, limit := s.params.drain } })
          ∧ (k.state = .starting → s.saves[c] = none → s.stopped l = false →
              t.lot? l.id = some { l with state := .waiting, location := .absent } ∧ l.id ∈ t.waitList ∧ t.queues[c] = {}
              ∧ t.tallyWait = s.tallyWait.filter (· != c) ∧ t.slots[k.testerPort].request = none
              ∧ ∃ k', t.cell? c = some k' ∧ k'.state = .idle ∧ k'.waiting = {} ∧ k'.causes = {})
          ∧ (k.state = .manual ∨ (k.state = .draining ∧ s.inService k.handlerPort = true) →
              t.queues[c] = s.queues[c] ∧ ∃ k', t.cell? c = some k' ∧ k' = { k with causes := k'.causes, waiting := {} })))
    ∧ (s.asks Kind.siteForce b →
      (7 < u8 b 1 ∨ (u8 b 2 ≠ 1 ∧ u8 b 2 ≠ 2) → exec .siteForce s = .next (s.replied (.plain .malformed)))
      ∧ (u8 b 1 ≤ 7 → u8 b 2 = 1 ∨ u8 b 2 = 2 →
        (s.cell? c = none → exec .siteForce s = .next (s.replied (.plain .wrongState)))
        ∧ ∀ k, s.cell? c = some k →
          (k.sites.length ≤ u8 b 1 → exec .siteForce s = .next (s.replied (.plain .notFound)))
          ∧ ∀ x, k.sites[u8 b 1]? = some x →
            let with_ (y : Site) : Cell := { k with sites := k.sites.set (u8 b 1) y }
            let changed (change : Option SiteState) : Cell := with_ { x with change := change }
            let sends (k' : Cell) : Prop :=
              exec .siteForce s = .next ((send k.handlerPort (.mask k'.targetMask) (s.modCell c fun _ => k')).replied (.plain .ok))
            let made : SiteState := if u8 b 2 = 1 then .on else .offForced
            (u8 b 2 = 1 → x.target = .on → exec .siteForce s = .next (s.replied (.plain .ok)))
            ∧ (u8 b 2 = 2 → x.target = .offForced → exec .siteForce s = .next (s.replied (.plain .ok)))
            ∧ (u8 b 2 = 2 → x.target = .offMonitor →
                let y : Site := match x.change with
                  | none => { x with state := .offForced }
                  | some _ => { x with change := some .offForced }
                exec .siteForce s = .next ((s.modCell c fun _ => with_ y).replied (.plain .ok)))
            ∧ (k.state = .running → u8 b 2 = 2 → x.target = .on →
                sends (changed (if x.state = .offForced then none else some .offForced)))
            ∧ (k.state = .running → u8 b 2 = 1 → x.target ≠ .on → sends (changed (if x.state = .on then none else some .on)))
            ∧ (s.quiet c → x.change = none → (x.state = .on ↔ u8 b 2 = 2) →
                let k' : Cell := { with_ { x with state := made } with causes := {}, waiting := {} }
                exec .siteForce s = .next ((({ place (.siteChange c (u8 b 1) x.state made)
                    (send k.handlerPort (.mask k'.targetMask) (s.modCell c fun _ => k')) with
                  pass := { s.pass with pending := true } } : State)).replied (.plain .ok)))
            ∧ (∀ l, s.currentLot? c = some l → s.queues[c].behind = [] → s.marginSteady k.testerPort → s.inService k.handlerPort = true →
                x.change = none → (x.state = .on ↔ u8 b 2 = 2) →
                k.state = .manual ∨ k.state = .draining ∨ (k.state = .paused ∧ k.causes.handlerLink = false ∧ k.soak ≠ .soaked)
                  ∨ (k.state = .starting ∧ k.soak ≠ .soaked ∧ s.director c = true ∧ s.inService k.testerPort = true
                    ∧ s.slots[k.testerPort].barred = false ∧ s.stopped l = false
                    ∧ (∀ g, s.product? l.product = some g → k.kit = g.kit)
                    ∧ ∀ d, s.stepDef? l l.step = some d → s.inChamber k.handlerPort d = true) →
                ∃ (t : State) (k' : Cell) (blank : Nat), exec .siteForce s = .next (t.replied (.plain .ok))
                  ∧ t.cell? c = some k'
                  ∧ k' = { with_ { x with state := made, blank := blank } with causes := k'.causes, waiting := k'.waiting }
                  ∧ (u8 b 2 = 2 ∨ k.segment = none → blank = x.blank)
                  ∧ (∀ y d, u8 b 2 = 1 → k.segment.isSome → s.tally? l.id = some y → s.stepDef? l y.step = some d →
                      blank = if d.edges.getLsbD 3 = true then d.blank else x.blank)
                  ∧ k'.causes.noSites = !k'.anyOn ∧ (k.state = .starting → k'.waiting.sites = !k'.anyOn)
                  ∧ (k.state ≠ .starting → k'.waiting = {})
                  ∧ (k.state = .manual → t.ports = s.ports)
                  ∧ (k.state ≠ .manual → .mask k'.targetMask ∈ t.ports[k.handlerPort].out)
                  ∧ (s.reports.length < 64 → .siteChange c (u8 b 1) x.state made ∈ t.reports))))

/-- R46, R47, R78, R11, R84, R95, R96, R112, R113: the first feed. The soak of a STARTING cell that waits for its temperature
alone ends, and the lot is fed: D_LOT to the tester and D_FEED to the handler, the step open, a segment open with its totals and
its sites afresh, the START edge, the cell RUNNING, and the tester asked for no program. Stated where the lot's tally is not yet
complete and no lot may preempt it. -/
def Obligations.FirstFeed : Prop :=
  ∀ (c : CellNo) (k : Cell) (l : Lot) (g : Product) (d : StepDef) (t : Tally) (channels : Nat) (s : State),
    s.cell? c = some k → k.state = .starting → k.soak = .settling → expired k.soakTimer s.elapsed = true →
    s.currentLot? c = some l → s.onlyTemp k l g d → s.director c = true → s.stopped l = false → l.tally = true →
    s.activeCurrent k.testerPort d.program = true → s.slots[k.testerPort].swap = none → l.step < 6 →
    s.cells[c].preemptEnable = false → s.tally? l.id = some t → t.step = l.step →
    (∃ x a v b y z, s.ports[k.testerPort].data = some (.tester channels x a v b y z)) →
    let r := l.stepRec l.step
    let n := if r.status = .pending then l.quantity else r.input.getD 0
    t.n1 < n →
    ∃ u : State, exec (.soakTimerExpiry c) s = .next (transmit u)
      ∧ u.cell? c = some { k with
          state := .running, soak := .soaked, soakTimer := none, causes := {}, waiting := {}
          segment := some { lot := l.id, step := l.step, feedTime := s.floorTime }
          lastSegment := some { lot := l.id, step := l.step, feedTime := s.floorTime }
          segLoaded := 0, segBins := Vector.replicate 8 0, segJammed := 0
          sites := k.sites.map fun x => { x with
            expFirst := 1, expRetest := 1, run := 0, blank := if x.state = .on ∧ d.edges.getLsbD 0 = true then d.blank else 0 } }
      ∧ u.queues = s.queues ∧ u.slots[k.testerPort].request = none
      ∧ .feed l.id l.step k.onMask g.bins g.retest ∈ u.ports[k.handlerPort].out
      ∧ .lot (l.id % 65536) l.step (siteMask (·.state == .on) (k.sites.take channels)) ∈ u.ports[k.testerPort].out
      ∧ ∃ l', u.lot? l.id = some l' ∧ l' = { l with steps := l'.steps } ∧ (l'.stepRec l.step).input = (if r.status = .pending then some n else r.input)
          ∧ (l'.stepRec l.step).status = (if r.status = .pending then .opened else r.status)
          ∧ (s.marginByExtension k.testerPort d = true → (l'.stepRec l.step).margin = .extended)

/-- R45, R46, R48, R49, R112, R114: a RUNNING cell whose chamber reading grows stale pauses, with D_HALT and its withdraw timer;
a PAUSED cell whose one cause, the temperature, ends by its soak resumes, with D_CONTINUE, the RESUME edge and the divider
counter at 0. Stated where no lot may preempt the one that resumes. -/
def Obligations.PauseAndResume : Prop :=
  ∀ (c : CellNo) (k : Cell) (l : Lot) (s : State), s.cell? c = some k → s.currentLot? c = some l →
    (k.state = .running → expired k.staleTimer s.elapsed = true → s.inService k.handlerPort = true → k.noChanges →
        s.marginSteady k.testerPort →
      ∃ (u : State) (k' : Cell), exec (.staleTimerExpiry c) s = .next (transmit u) ∧ u.cell? c = some k'
        ∧ k' = { k with
            state := .paused, temp := none, staleTimer := none, soak := .out, soakTimer := none, causes := k'.causes, waiting := {}
            withdrawTimer := some { start := s.elapsed, limit := s.params.withdraw } }
        ∧ k'.causes.temp = true ∧ .halt ∈ u.ports[k.handlerPort].out ∧ u.queues = s.queues
        ∧ (s.reports.length < 64 → u.reports = s.reports ++
            [.cellState c (some .running) (some .paused) k.handlerId k.testerId (some l.id) k.purpose k'.causes {} none]))
    ∧ ∀ g d t, k.state = .paused → k.soak = .settling → expired k.soakTimer s.elapsed = true → k.causes.handlerLink = false →
        s.onlyTemp k l g d → s.cells[c].preemptEnable = false → k.segment.isSome → s.tally? l.id = some t → t.step = l.step →
      ∃ u : State, exec (.soakTimerExpiry c) s = .next (transmit u)
        ∧ u.cell? c = some { k with
            state := .running, soak := .soaked, soakTimer := none, withdrawTimer := none, causes := {}, waiting := {}
            sites := k.sites.map fun x => if x.state = .on ∧ d.edges.getLsbD 1 = true then { x with blank := d.blank } else x }
        ∧ u.tally? l.id = some { t with divider := 0 } ∧ .continue_ ∈ u.ports[k.handlerPort].out ∧ u.queues = s.queues

/-- R43, R54 to R56: with STRICT 0, a handler whose mode turns LOCAL takes its fed cell to MANUAL and the unfed lot of a
STARTING one back to the wait list; a MANUAL cell whose handler turns REMOTE again resumes, pauses, or drains, by the first of
its lot's hold, its enable and its cause set. Stated with nothing queued in the cell, nothing saved for it and no tally
complete. -/
def Obligations.ManualEntryAndReturn : Prop :=
  ∀ (p : Port) (c : CellNo) (k : Cell) (l : Lot) (s : State) (sites : Nat) (lo hi : Int) (kit dock : Nat),
    s.hears p c k → s.currentLot? c = some l → s.queues[c] = { current := some l.id, behind := [] } → s.saves[c] = none →
    k.noChanges → s.strict = false → s.marginSteady k.testerPort →
    (s.cells[c].enable = true → k.mode = .remote → s.ports[p].data = some (.handler sites lo hi kit dock .remote) →
      (k.state = .running ∨ k.state = .paused →
        ∃ (u : State) (k' : Cell), exec (.hStatus p 2) s = .next (transmit u) ∧ u.cell? c = some k'
          ∧ k' = { k with mode := .atHandler, state := .manual, withdrawTimer := none, causes := k'.causes, waiting := {} }
          ∧ u.ports = s.ports.set p { s.ports[p] with data := some (.handler sites lo hi kit dock .atHandler) }
          ∧ u.queues = s.queues ∧ u.director c = false ∧ u.pass.pending = true)
      ∧ (k.state = .starting → s.stopped l = false →
        ∃ (u : State) (k' : Cell), exec (.hStatus p 2) s = .next (transmit u) ∧ u.cell? c = some k' ∧ k'.state = .idle
          ∧ k'.mode = .atHandler ∧ u.queues[c] = {} ∧ u.slots[k.testerPort].request = none
          ∧ u.lot? l.id = some { l with state := .waiting, location := .absent } ∧ l.id ∈ u.waitList))
    ∧ ∀ g d t n, k.state = .manual → k.mode = .atHandler → s.onlyTemp { k with mode := .remote } l g d → l.step < 6 →
        s.tally? l.id = some t → t.step = l.step → (l.stepRec l.step).input = some n → t.n1 < n →
      ∃ (u : State) (k' : Cell), exec (.hStatus p 1) s = .next (transmit u) ∧ u.cell? c = some k'
        ∧ k' = { k with
            mode := .remote, state := k'.state, purpose := k'.purpose, setpoint := some d.setpoint, band := some d.band
            soakTime := some d.soak, soak := k'.soak, soakTimer := k'.soakTimer, withdrawTimer := k'.withdrawTimer
            drainTimer := k'.drainTimer, causes := k'.causes, waiting := {}, sites := k'.sites }
        ∧ .setpoint d.setpoint ∈ u.ports[p].out ∧ .mask k.onMask ∈ u.ports[p].out ∧ u.queues = s.queues
        ∧ (s.stopsNow l = true → k'.state = .draining ∧ k'.purpose = some .hold ∧ .stop ∈ u.ports[p].out)
        ∧ (s.stopsNow l = false → s.cells[c].enable = false →
            k'.state = .draining ∧ k'.purpose = some .disable ∧ .stop ∈ u.ports[p].out)
        ∧ (s.stopsNow l = false → s.cells[c].enable = true → k.setpoint ≠ some d.setpoint →
            k'.state = .paused ∧ k'.causes = { temp := true } ∧ k'.soak = .out ∧ .halt ∈ u.ports[p].out
            ∧ k'.withdrawTimer = some { start := s.elapsed, limit := s.params.withdraw })
        ∧ (s.stopsNow l = false → s.cells[c].enable = true → k.setpoint = some d.setpoint → k.soak = .soaked →
            k'.state = .running ∧ k'.causes = {} ∧ .continue_ ∈ u.ports[p].out)

/-- R20, R29, R32, R37 to R42, R62, R146: a cell is dissolved by an H_DOCK of 0 of its handler, by the handler's ANNOUNCE with no
tester, and by a fall of presence of either port. Its lots leave: those unfed, saved and queued go WAITING, and the counts of a
fed lot are lost, with a COUNT_LOST hold, and the lot goes HELD. The record is free, the tester is asked for nothing, and a claim
that stood in conflict for the tester forms its cell. -/
def Obligations.DissolutionAndRetry : Prop :=
  ∀ (c : CellNo) (k : Cell) (l : Lot) (s : State), s.cell? c = some k → s.cellOfHandler? k.handlerPort = some c →
    s.cellOfTester? k.testerPort = some c → s.currentLot? c = some l → s.stopped l = false →
    let p := k.handlerPort
    let q := k.testerPort
    let others := s.claims.filter fun x => x.port != p
    let alone : Prop := ∀ x ∈ others, x.tester ≠ k.testerId
    let heard : Prop := s.serves p .handler = true ∧ s.ports[p].controlLock = true ∧ s.inService q = true
      ∧ ∀ x ∈ s.claims, x.port = p → x.tester ≠ 0
    let rest := s.saves[c].toList ++ s.queues[c].behind
    let frees (u : State) : Prop :=
      u.queues[c] = {} ∧ u.saves[c] = none ∧ u.slots[q].request = none
        ∧ u.tallyWait = s.tallyWait.filter (· != c) ∧ u.pass.pending = true
        ∧ ∀ n o, n ∈ rest → s.lot? n = some o → n ≠ l.id → s.stopped o = false → n ∈ u.waitList ∧ u.holdsLot n .waiting .absent
    let dissolves (i : Instr) (claims : List Claim) : Prop :=
      (k.segment = none →
        ∃ u : State, exec i s = .next (transmit u) ∧ frees u ∧ u.cell? c = none ∧ u.claims = claims
          ∧ u.lot? l.id = some { l with state := .waiting, location := .absent } ∧ l.id ∈ u.waitList)
      ∧ (∀ i' now, k.segment = some { lot := l.id, step := i', feedTime := now } → k.state ≠ .starting → k.state ≠ .idle →
          l.state = .active → l.location = .queue c 0 → l.id ∉ rest → s.takesLoss l i' →
        ∃ u : State, exec i s = .next (transmit u) ∧ frees u ∧ u.cell? c = none ∧ u.claims = claims ∧ s.losesCounts u l i')
    (heard → alone → dissolves (.hDock p 0) others)
    ∧ (∀ id sites lo hi kit mode, s.ports[p].state = .awaitAnnounce → s.ports[p].controlLock = true →
        s.ports[p].role = some .handler → s.ports[p].equip = some id.toNat → (announceData (.handler id sites lo hi kit 0 mode)).isSome →
        s.duplicate p (some id.toNat) = false → (∀ x ∈ s.claims, x.port = p → x.tester ≠ 0) → k.testerId ≠ 0 → alone →
        dissolves (.announce p (.handler id sites lo hi kit 0 mode)) others)
    ∧ (s.ports[p].state ≠ .absent → s.ports[p].role = some .handler → alone → dissolves (.presenceFall p) others)
    ∧ (s.ports[q].state ≠ .absent → s.ports[q].role = some .tester →
        dissolves (.presenceFall q)
          (s.claims.map fun x => if some x.tester = s.ports[q].equip then { x with status := .waiting } else x))
    ∧ ∀ y sites lo hi kit dock mode, heard → others.filter (fun x => x.tester == k.testerId && x.status != .formed) = [y] →
        others.find? (·.port == y.port) = some y → s.inService y.port = true → s.testerPort? k.testerId = some q →
        s.ports[y.port].data = some (.handler sites lo hi kit dock mode) → (∀ e : CellNo, e < c → (s.cell? e).isSome) →
        (∀ e x, e ≠ c → s.cell? e = some x → x.handlerPort ≠ y.port ∧ x.testerPort ≠ q) → k.segment = none →
        ∃ u : State, exec (.hDock p 0) s = .next (transmit u) ∧ frees u
          ∧ u.claims = others.map (fun x => if x.port = y.port then { x with status := .formed } else x)
          ∧ u.cell? c = some
              { handlerPort := y.port, testerPort := q, handlerId := s.ports[y.port].equip.getD 0
                testerId := s.ports[q].equip.getD 0, mode := mode, kit := kit, sites := List.replicate sites {} }

/-! ## Counts and the close (Chapters 3 and 9) -/

/-- R146: PARTIAL counts of a cell that is not DRAINING are added to the segment's totals and to the step's, and counts of a
handler whose cell has no segment are discarded. R146, R51, R129, R130: PARTIAL counts that carry a total of the step past
4,000,000 leave it there; the step is marked count-lost, an ACCEPTED reconciliation returns to NONE, and a COUNT_LOST hold of
severity AT_END is stored. In a RUNNING, PAUSED or MANUAL cell the segment stays open by the model's reading (log entry 24); in a
DRAINING one the drain ends and the lot is HELD, stated with nothing queued or saved. -/
def Obligations.InterimCounts : Prop :=
  ∀ (p : Port) (c : CellNo) (k : Cell) (s : State) (m : CountsMsg),
    s.serves p .handler = true → s.ports[p].controlLock = true → s.cellOfHandler? p = some c → s.cell? c = some k →
    m.loaded.toNat ≤ 4000000 → m.jammed.toNat ≤ 4000000 → (∀ i : Fin 8, m.bins[i].toNat ≤ 4000000) →
    (m.flag = 1 ∨ m.flag = 2 → k.segment = none → exec (.hCounts p m) s = .next (transmit (countIgnored p s)))
    ∧ (∀ g l, m.flag = 2 → k.state ≠ .draining → k.segment = some g → s.lot? g.lot = some l → g.step < 6 →
        let r := l.stepRec g.step
        r.loaded + m.loaded.toNat ≤ 4000000 → r.jammed + m.jammed.toNat ≤ 4000000 →
        (∀ i : Fin 8, r.bins[i] + m.bins[i].toNat ≤ 4000000) →
        ∃ t : State, exec (.hCounts p m) s = .next (transmit t) ∧ t = { s with lots := t.lots, cells := t.cells }
          ∧ (∃ l', t.lot? g.lot = some l' ∧ l' = { l with steps := l'.steps } ∧ (∀ i, i ≠ g.step → l'.stepRec i = l.stepRec i)
              ∧ l'.stepRec g.step = { r with
                  loaded := r.loaded + m.loaded.toNat, jammed := r.jammed + m.jammed.toNat
                  bins := Vector.ofFn fun i : Fin 8 => r.bins[i] + m.bins[i].toNat })
          ∧ t.cell? c = some { k with
              segLoaded := min (k.segLoaded + m.loaded.toNat) 4000000, segJammed := min (k.segJammed + m.jammed.toNat) 4000000
              segBins := Vector.ofFn fun i : Fin 8 => min (k.segBins[i] + m.bins[i].toNat) 4000000 })
    ∧ (∀ g l, m.flag = 2 → k.segment = some g → s.lot? g.lot = some l → l.state = .active → l.location = .queue c 0 →
        s.takesLoss l g.step →
        let r := l.stepRec g.step
        4000000 < r.loaded + m.loaded.toNat ∨ 4000000 < r.jammed + m.jammed.toNat
          ∨ (∃ i : Fin 8, 4000000 < r.bins[i] + m.bins[i].toNat) →
        let counted (l' : Lot) : Prop := (∀ i, i ≠ g.step → l'.stepRec i = l.stepRec i) ∧ l'.stepRec g.step = { r with
          loaded := min (r.loaded + m.loaded.toNat) 4000000, jammed := min (r.jammed + m.jammed.toNat) 4000000
          bins := Vector.ofFn fun i : Fin 8 => min (r.bins[i] + m.bins[i].toNat) 4000000
          countLost := true, recon := if r.recon = .accepted then .none else r.recon }
        (k.state = .running ∨ k.state = .paused ∨ k.state = .manual →
          ∃ (t : State) (n : Nat) (l' : Lot), exec (.hCounts p m) s = .next (transmit t)
            ∧ t = { s with lots := t.lots, cells := t.cells, holds := t.holds, reports := t.reports, dropped := t.dropped }
            ∧ s.hold? n = none ∧ t.hold? n = some
                { id := n, lot := l.id, reason := .countLost, cls := 0, step := g.step, severity := .atEnd, origin := .automatic
                  occurrences := 1, raised := s.floorTime, capture := none, note := none }
            ∧ t.lot? g.lot = some l' ∧ l' = { l with steps := l'.steps, holds := l.holds ++ [n] } ∧ counted l'
            ∧ t.cell? c = some { k with
                segLoaded := min (k.segLoaded + m.loaded.toNat) 4000000, segJammed := min (k.segJammed + m.jammed.toNat) 4000000
                segBins := Vector.ofFn fun i : Fin 8 => min (k.segBins[i] + m.bins[i].toNat) 4000000 })
        ∧ (k.state = .draining → s.queues[c] = { current := some l.id, behind := [] } → s.saves[c] = none →
          ∃ (t : State) (k' : Cell), exec (.hCounts p m) s = .next (transmit t) ∧ s.losesCounts t l g.step
            ∧ (∀ l', t.lot? l.id = some l' → counted l')
            ∧ t.queues[c] = {} ∧ t.cell? c = some k' ∧ k'.state = .idle ∧ k'.segment = none))

/-- R147 to R150, R152, R53: END counts that raise nothing close the step of a cell's current lot: the reconciliation passes,
the quantity, good out and close time are recorded, the tally is freed, the index advances, the lot goes COMPLETE or WAITING and
the cell, with nothing queued, goes IDLE. -/
def Obligations.EndCountsCloseStep : Prop :=
  ∀ (p : Port) (c : CellNo) (k : Cell) (l : Lot) (t : Tally) (g : Product) (d : StepDef) (x : Counts) (s : State) (m : CountsMsg)
      (feedTime : Nat),
    s.serves p .handler = true → s.ports[p].controlLock = true → s.cellOfHandler? p = some c → s.cell? c = some k →
    k.segment = some { lot := l.id, step := l.step, feedTime := feedTime } → s.queues[c] = { current := some l.id, behind := [] } →
    s.saves[c] = none → s.tallyWait = [] → s.lot? l.id = some l → l.step < 6 → s.product? l.product = some g →
    s.stepDef? l l.step = some d → s.tally? l.id = some t → l.tally = true → countsOf m = some x → x.last = true →
    totalsOverflow (l.stepRec l.step) x = false → (l.stepRec l.step).countLost = false → s.stopped l = false →
    closeBreaches t d = [] → unreadableBreach t s.params.unreadable = false →
    let r := addToStep x (l.stepRec l.step)
    checkA r = true → checkB r t g.tolerance = true → checkC r t g = true →
    let q := min r.bins[0] (r.input.getD 0)
    ∃ u : State, exec (.hCounts p m) s = .next (transmit u)
      ∧ (∃ l', u.lot? l.id = some l' ∧ l'.step = l.step + 1 ∧ l'.quantity = q ∧ l'.tally = false ∧ l'.location = .absent
          ∧ l'.state = (if l.step + 1 = s.routeLength l then .complete else .waiting)
          ∧ l'.stepRec l.step = { r with status := .closed, recon := .pass, goodOut := some q, closeTime := some s.floorTime }
          ∧ ∀ i, i ≠ l.step → l'.stepRec i = l.stepRec i)
      ∧ u.tally? l.id = none ∧ u.queues[c] = {} ∧ u.slots[k.testerPort].request = none
      ∧ ∃ k', u.cell? c = some k' ∧ k'.state = .idle ∧ k'.segment = none ∧ k'.purpose = none ∧ k'.drainTimer = none

/-- R52, R53, R129: the drain timer of a DRAINING cell ends the segment with its counts lost: the step's count-lost flag is set,
a COUNT_LOST hold of severity AT_END is stored on the lot, the lot goes HELD and the cell, with nothing queued, goes IDLE. -/
def Obligations.DrainExpiryLosesCounts : Prop :=
  ∀ (c : CellNo) (k : Cell) (l : Lot) (g : Segment) (s : State),
    s.cell? c = some k → k.state = .draining → expired k.drainTimer s.elapsed = true → k.segment = some g → g.lot = l.id →
    g.step < 6 → s.lot? l.id = some l → l.state = .active → l.location = .queue c 0 →
    s.queues[c] = { current := some l.id, behind := [] } → s.saves[c] = none → s.tablesSorted →
    l.holds.length < 8 → s.holds.length < 512 →
    (∀ h ∈ s.holds, ¬ (h.lot = l.id ∧ h.reason = .countLost ∧ h.cls = 0 ∧ h.step = g.step)) →
    ∃ (t : State) (n : Nat), exec (.drainTimerExpiry c) s = .next (transmit t)
      ∧ s.hold? n = none
      ∧ t.hold? n = some
          { id := n, lot := l.id, reason := .countLost, cls := 0, step := g.step, severity := .atEnd, origin := .automatic
            occurrences := 1, raised := s.floorTime, capture := none, note := none }
      ∧ (∃ l', t.lot? l.id = some l' ∧ l'.state = .held ∧ l'.location = .absent ∧ l'.holds = l.holds ++ [n]
          ∧ (l'.stepRec g.step).countLost = true)
      ∧ t.queues[c] = {} ∧ ∃ k', t.cell? c = some k' ∧ k'.state = .idle ∧ k'.segment = none ∧ k'.drainTimer = none

/-! ## Assignment (Chapter 4) -/

/-- R66: a pass is made only when a trigger waits, judges one lot of its reading a taking, and ends with the last of them.
Stated with no cell formed, where every lot stays in the wait list. -/
def Obligations.AssignmentPass : Prop :=
  ∀ s : State,
    (s.pass.making = false → s.pass.pending = false → exec .assignmentPass s = .next s)
    ∧ (s.noCells → s.pass.making = false → s.pass.pending = true →
        exec .assignmentPass s = .next (transmit { s with
          pass := match s.waitList with
            | [] => {}
            | [_] => {}
            | _ :: rest => { making := true, remaining := rest } }))
    ∧ (s.noCells → s.pass.making = true → s.pass.changed.length ≤ 16 →
        exec .assignmentPass s = .next (transmit { s with
          pass := match s.pass.remaining with
            | [] => { s.pass with making := false, changed := [] }
            | [_] => { s.pass with making := false, remaining := [], changed := [] }
            | _ :: rest => { s.pass with remaining := rest } }))

/-- R66, R67, R76, R77, R46, R84: a pass that finds one eligible cell, IDLE and empty, places the waiting lot at its entry 0 and
starts it: the lot is ACTIVE with a fresh tally, the cell STARTING with the step's setpoint sent to its handler, and the tester
is asked for the step's program. Stated where no other cell is formed and the chamber must still come to the setpoint.
The cell's record has no open segment, as R53 has it of every IDLE cell. -/
def Obligations.PlacementStartsLot : Prop :=
  ∀ (c : CellNo) (k : Cell) (l : Lot) (d : StepDef) (s : State),
    s.pass.making = false → s.pass.pending = true → s.waitList = [l.id] → s.lot? l.id = some l → l.state = .waiting →
    s.stopped l = false → l.tally = false → s.tally? l.id = none → s.tallies.length < 48 → s.tallyWait = [] →
    s.stepDef? l l.step = some d → s.eligible c l = true → s.cell? c = some k → k.state = .idle → (∀ x ∈ k.sites, x.change = none) →
    s.queues[c] = {} → (∀ e : CellNo, e ≠ c → s.cell? e = none) → k.setpoint ≠ some d.setpoint → k.segment = none →
    ∃ t : State, exec .assignmentPass s = .next (transmit t)
      ∧ t.lot? l.id = some { l with state := .active, location := .queue c 0, tally := true }
      ∧ t.waitList = [] ∧ t.queues[c] = { current := some l.id, behind := [] }
      ∧ t.tally? l.id = some { lot := l.id, step := l.step }
      ∧ t.slots[k.testerPort].request = some d.program
      ∧ .setpoint d.setpoint ∈ t.ports[k.handlerPort].out
      ∧ t.pass.making = false
      ∧ ∃ k', t.cell? c = some k' ∧ k'.state = .starting ∧ k'.setpoint = some d.setpoint ∧ k'.band = some d.band
          ∧ k'.soakTime = some d.soak ∧ k'.soak = .out ∧ k'.waiting.temp = true ∧ k'.segment = none

/-- R77, R106: the lot of a cell that starts with no tally free takes none, and the cell joins the tally wait order; a tally that a
LOT_DROP frees goes to the first cell of the order. Stated for one formed cell that starts, and for a served one that must still
come to its temperature. -/
def Obligations.TallyWaitOrder : Prop :=
  (∀ (c : CellNo) (k : Cell) (l : Lot) (d : StepDef) (s : State),
    s.pass.making = false → s.pass.pending = true → s.waitList = [l.id] → s.lot? l.id = some l → l.state = .waiting →
    s.stopped l = false → l.tally = false → 48 ≤ s.tallies.length → c ∉ s.tallyWait → s.stepDef? l l.step = some d →
    s.eligible c l = true → s.cell? c = some k → k.state = .idle → k.noChanges → s.queues[c] = {} →
    (∀ e : CellNo, e ≠ c → s.cell? e = none) → k.setpoint ≠ some d.setpoint → k.segment = none →
    ∃ u : State, exec .assignmentPass s = .next (transmit u)
      ∧ u.lot? l.id = some { l with state := .active, location := .queue c 0 } ∧ u.tallies = s.tallies
      ∧ u.tallyWait = s.tallyWait ++ [c] ∧ ∃ k', u.cell? c = some k' ∧ k'.state = .starting ∧ k'.waiting.tally = true)
  ∧ ∀ (c : CellNo) (k : Cell) (m l : Lot) (g : Product) (d : StepDef) (order : List CellNo) (s : State) (b : List Byte),
    s.asks Kind.lotDrop b → b.length = 4 → s.lot? (u32 b 0) = some m →
    m.state = .waiting ∨ m.state = .held ∨ m.state = .complete → m.tally = true → m.id ≠ l.id → s.tallyWait = c :: order →
    (s.tallies.filter (·.lot != m.id)).length < 48 → s.cell? c = some k → k.state = .starting → k.segment = none →
    s.currentLot? c = some l → l.tally = false → s.tally? l.id = none → s.onlyTemp k l g d → s.director c = true →
    s.stopped l = false → k.soak ≠ .soaked →
    ∃ u : State, exec .lotDrop s = .next (u.replied (.plain .ok))
      ∧ u.lot? m.id = none ∧ u.tally? m.id = none ∧ u.tallyWait = order
      ∧ (∃ l', u.lot? l.id = some l' ∧ l' = { l with tally := true, steps := l'.steps })
      ∧ u.tally? l.id = some { lot := l.id, step := l.step }
      ∧ ∃ k', u.cell? c = some k' ∧ k'.state = .starting ∧ k'.waiting.tally = false ∧ k'.waiting.temp = true

/-- R62, R63, R65, R67, R68: what stands behind entry 0 of a dispatch queue. A lot placed on a cell with a current lot stands
behind entry 0 in the order of the wait key; with all four entries filled a HOT lot takes the place of the last NORMAL one, which
returns to the wait list, and a NORMAL lot stays where it is; and a cell that is disabled loses every lot behind entry 0 to the
wait list. Stated for a pass over one lot, with one cell formed and preemption disabled. -/
def Obligations.QueueBehindEntryZero : Prop :=
  (∀ (c : CellNo) (k : Cell) (m : Nat) (l : Lot) (s : State),
    s.pass.making = false → s.pass.pending = true → s.waitList = [l.id] → s.lot? l.id = some l → l.state = .waiting →
    s.cell? c = some k → (∀ e : CellNo, e ≠ c → s.cell? e = none) → s.queues[c].current = some m → m ≠ l.id →
    s.queues[c].behind.Nodup → l.id ∉ s.queues[c].behind → m ∉ s.queues[c].behind → s.cells[c].preemptEnable = false →
    s.marginSteady k.testerPort → s.eligible c l = true → (∀ g, k.segment = some g → g.lot ≠ l.id) →
    let behind := s.queues[c].behind
    let sorted (u : State) : Prop := u.queues[c].behind.Pairwise fun a b => u.waitKeyOf a ≤ u.waitKeyOf b
    let stands (u : State) : Prop := u.queues[c].current = some m ∧ (sorted s → sorted u)
      ∧ ∃ i, u.queues[c].behind[i]? = some l.id ∧ u.lot? l.id = some { l with state := .queued, location := .queue c (i + 1) }
    (behind.length ≤ 2 →
      ∃ u : State, exec .assignmentPass s = .next (transmit u) ∧ u.waitList = [] ∧ stands u ∧ u.cells = s.cells
        ∧ u.pass.making = false ∧ ∀ n, n ∈ u.queues[c].behind ↔ n = l.id ∨ n ∈ behind)
    ∧ (behind.length = 3 → l.priority = .normal →
      ∃ u : State, exec .assignmentPass s = .next (transmit u) ∧ u.waitList = [l.id] ∧ u.queues = s.queues ∧ u.lot? l.id = some l
        ∧ u.pass.making = false)
    ∧ (∀ before old after o, behind.length = 3 → l.priority = .hot → behind = before ++ old :: after → s.lot? old = some o →
        o.priority = .normal → (∀ n ∈ after, s.isHot n = true) → s.stopped o = false →
      ∃ u : State, exec .assignmentPass s = .next (transmit u) ∧ u.waitList = [old] ∧ stands u ∧ u.holdsLot old .waiting .absent
        ∧ u.pass.making = false ∧ u.pass.pending = true
        ∧ ∀ n, n ∈ u.queues[c].behind ↔ n = l.id ∨ (n ∈ behind ∧ n ≠ old)))
  ∧ ∀ (c : CellNo) (k : Cell) (m : Lot) (s : State) (b : List Byte),
    s.asks Kind.cellSet b → b.length = 3 → u8 b 0 = c.val → u8 b 1 = 0 → u8 b 2 ≤ 1 → s.cell? c = some k →
    k.state = .manual ∨ (k.state = .draining ∧ s.inService k.handlerPort = true) → s.currentLot? c = some m →
    s.marginSteady k.testerPort → m.id ∉ s.queues[c].behind → (∀ n ∈ s.queues[c].behind, (s.lot? n).isSome) →
    ∃ u : State, exec .cellSet s = .next (u.replied (.plain .ok)) ∧ u.pass.pending = true
      ∧ u.queues[c] = { current := some m.id, behind := [] }
      ∧ ∀ n o, n ∈ s.queues[c].behind → s.lot? n = some o →
          (s.stopped o = false → n ∈ u.waitList ∧ u.holdsLot n .waiting .absent) ∧ (s.stopped o = true → u.holdsLot n .held .absent)

/-- R17, R50, R51, R70 to R76: preemption, the save context and the restore. A lot at entry 1 that becomes HOT drains a RUNNING cell
with purpose PREEMPT, and sends the unfed lot of a STARTING one to the save context at once; PARTIAL counts that end such a drain
send the lot there. The HOT lot then comes to entry 0 and is started. When entry 0 is free again and nothing is queued, the
saved lot comes back to it and is started, or, when it is stopped or the cell no longer eligible for it, leaves the save
context and the cell goes IDLE. The start is stated for a chamber that must still come to the setpoint. -/
def Obligations.PreemptionAndSaveContext : Prop :=
  ∀ (c : CellNo) (k : Cell) (m l : Lot) (d : StepDef) (s : State),
    s.cell? c = some k → s.currentLot? c = some m → s.lot? l.id = some l → m.id ≠ l.id → s.stepDef? l l.step = some d →
    k.noChanges → k.setpoint ≠ some d.setpoint → s.marginSteady k.testerPort →
    let starts (u : State) : Prop := u.queues[c] = { current := some l.id, behind := [] } ∧ u.holdsLot l.id .active (.queue c 0)
      ∧ u.slots[k.testerPort].request = some d.program ∧ .setpoint d.setpoint ∈ u.ports[k.handlerPort].out
      ∧ ∃ k', u.cell? c = some k' ∧ k'.state = .starting ∧ k'.setpoint = some d.setpoint ∧ k'.segment = none ∧ k'.purpose = none
    (∀ b, s.asks Kind.lotPriority b → b.length = 5 → u32 b 0 = l.id → u8 b 4 = 2 → l.priority = .normal → m.priority = .normal →
        l.state = .queued → l.location = .queue c 1 → s.queues[c] = { current := some m.id, behind := [l.id] } →
        s.cells[c].preemptEnable = true → s.saves[c] = none →
      (k.state = .running → k.segment.isSome → s.inService k.handlerPort = true → k.causes.handlerLink = false →
        ∃ u : State, exec .lotPriority s = .next (u.replied (.plain .ok)) ∧ u.queues = s.queues ∧ u.saves = s.saves
          ∧ u.lot? l.id = some { l with priority := .hot } ∧ .stop ∈ u.ports[k.handlerPort].out
          ∧ u.cell? c = some { k with
              state := .draining, purpose := some .preempt, withdrawTimer := none
              drainTimer := some { start := s.elapsed, limit := s.params.drain } })
      ∧ (k.state = .starting → s.slots[k.testerPort].swap = none → s.eligible c l = true → s.stopped l = false →
        ∃ u : State, exec .lotPriority s = .next (u.replied (.plain .ok)) ∧ starts u ∧ u.saves[c] = some m.id
          ∧ u.holdsLot m.id .saved (.save c)))
    ∧ ∀ p msg x i now, s.hears p c k → countsOf msg = some x → x.last = false → k.state = .draining →
        k.segment = some { lot := m.id, step := i, feedTime := now } → totalsOverflow (m.stepRec i) x = false →
        s.stopped m = false →
      (s.queues[c].behind = [l.id] → k.purpose = some .preempt → s.saves[c] = none → l.priority = .hot → s.eligible c l = true →
          s.stopped l = false →
        ∃ u : State, exec (.hCounts p msg) s = .next (transmit u) ∧ starts u ∧ u.saves[c] = some m.id
          ∧ u.holdsLot m.id .saved (.save c))
      ∧ (s.queues[c].behind = [] → s.saves[c] = some l.id →
        (s.eligible c l = true → s.stopped l = false →
          ∃ u : State, exec (.hCounts p msg) s = .next (transmit u) ∧ starts u ∧ u.saves[c] = none
            ∧ u.holdsLot m.id .waiting .absent ∧ m.id ∈ u.waitList)
        ∧ (s.eligible c l = false ∨ s.stopped l = true →
          ∃ u : State, exec (.hCounts p msg) s = .next (transmit u) ∧ u.saves[c] = none ∧ u.queues[c] = {}
            ∧ u.holdsLot m.id .waiting .absent ∧ u.holdsLot l.id (if s.stopped l = true then .held else .waiting) .absent
            ∧ (s.stopped l = false → l.id ∈ u.waitList) ∧ ∃ k', u.cell? c = some k' ∧ k'.state = .idle))


/-! ## Programs and testers (Chapter 5) -/

/-- R80 to R82: PROGRAM_PUT and PROGRAM_DROP: their refusals, the catalog they leave, and the staged copies of the program that
a new revision or a drop empties; the copy that a swap in flight makes active stands (log entry 11). Stated with no cell formed
and no tester asking for a program. -/
def Obligations.ProgramPutAndDrop : Prop :=
  ∀ (s : State) (b : List Byte), s.noCells → (∀ p : Port, s.slots[p].request = none) →
    let stale (id : Nat) (t : State) : Prop := t = { s with
        catalog := t.catalog, slots := t.slots, reports := t.reports, dropped := t.dropped }
      ∧ ∀ p : Port, ((∃ v, s.slots[p].staged = .ready id v) → s.slots[p].swap = none →
            t.slots[p] = { s.slots[p] with staged := .empty })
          ∧ ((∀ v, s.slots[p].staged ≠ .ready id v) ∨ s.slots[p].swap ≠ none → t.slots[p] = s.slots[p])
    (s.asks Kind.programPut b → b.length = 9 →
      let new : Program := { id := u16 b 0, revision := u8 b 2, checkValue := u32 b 3, loadLimit := u16 b 7 }
      let sound := new.id ≠ 0 ∧ new.revision ≠ 0 ∧ 10 ≤ new.loadLimit ∧ new.loadLimit ≤ 3600
      (¬ sound → exec .programPut s = .next (s.replied (.plain .malformed)))
      ∧ (sound → s.program? new.id = none → 128 ≤ s.catalog.length → exec .programPut s = .next (s.replied (.plain .full)))
      ∧ (sound → s.program? new.id = none → s.catalog.length < 128 →
          ∃ t : State, exec .programPut s = .next (t.replied (.plain .ok)) ∧ t = { s with catalog := t.catalog }
            ∧ t.program? new.id = some new ∧ ∀ n, n ≠ new.id → t.program? n = s.program? n)
      ∧ (∀ old, sound → s.program? new.id = some old → old.revision = new.revision → old.checkValue ≠ new.checkValue →
          exec .programPut s = .next (s.replied (.plain .exists_)))
      ∧ (∀ old, sound → s.program? new.id = some old → old.revision = new.revision → old.checkValue = new.checkValue →
          ∃ t : State, exec .programPut s = .next (t.replied (.plain .ok)) ∧ t = { s with catalog := t.catalog }
            ∧ t.program? new.id = some new ∧ ∀ n, n ≠ new.id → t.program? n = s.program? n)
      ∧ (∀ old, sound → s.program? new.id = some old → old.revision ≠ new.revision →
          ∃ t : State, exec .programPut s = .next (t.replied (.plain .ok)) ∧ stale new.id t
            ∧ t.program? new.id = some new ∧ ∀ n, n ≠ new.id → t.program? n = s.program? n))
    ∧ (s.asks Kind.programDrop b → b.length = 2 →
      let id := u16 b 0
      (s.program? id = none → exec .programDrop s = .next (s.replied (.plain .notFound)))
      ∧ ((s.program? id).isSome → (∃ g ∈ s.products, ∃ d ∈ g.steps, d.program = id) →
          exec .programDrop s = .next (s.replied (.plain .inUse)))
      ∧ ((s.program? id).isSome → (∀ g ∈ s.products, ∀ d ∈ g.steps, d.program ≠ id) →
          ∃ t : State, exec .programDrop s = .next (t.replied (.plain .ok)) ∧ stale id t
            ∧ t.program? id = none ∧ ∀ n, n ≠ id → t.program? n = s.program? n))

/-- R93, R94: a T_HEADTEMP and a T_CAL of a tester in no cell change its calibration record, with the temperature clamped, and
the margin is computed at once. R45, R48, R95, R96: so they do of a tester in a RUNNING cell, which pauses with cause CAL or goes
on, and whose step may become EXTENDED. R92, R88: TESTER_CLEAR, whole, for a tester in no cell whose program is no longer asked for; and
the row BARRED, which bars a tester in use whose failures stand at 3 and otherwise finds the bar set (log entry 9). That the
CLEARED and BARRED reports name no program is log entry 31. -/
def Obligations.CalibrationAndTesterClear : Prop :=
  (∀ (p : Port) (s : State) (k : Calibration) (temp : BitVec 16), s.serves p .tester = true → s.ports[p].controlLock = true →
    s.outside p → s.slots[p].use = .inUse → s.slots[p].cal = some k →
    let head : Calibration := { k with headTemp := tempOf temp }
    let fresh : Calibration := { k with calTime := s.floorTime, calTemp := tempOf temp, headTemp := tempOf temp }
    exec (.tHeadtemp p temp) s =
        .next (transmit (s.modSlot p fun t => { t with cal := some head, margin := some (head.margin s.floorTime) }))
      ∧ exec (.tCal p temp) s =
        .next (transmit (s.modSlot p fun t => { t with cal := some fresh, margin := some (fresh.margin s.floorTime) }))
      ∧ (fresh.margin s.floorTime).delta = 0 ∧ (fresh.margin s.floorTime).age = 0)
  ∧ (∀ (p : Port) (s : State) (x : Calibration) (temp : BitVec 16) c k l g d, s.serves p .tester = true →
    s.ports[p].controlLock = true → s.slots[p].cal = some x → s.runsOn p c k l g d →
    let becomes (i : Instr) (y : Calibration) : Prop := ∃ u, exec i s = .next (transmit u)
      ∧ u.slots[p] = { s.slots[p] with cal := some y, margin := some (y.margin s.floorTime) }
      ∧ (s.modSlot p fun t => { t with cal := some y }).marginActs u c k l d
    becomes (.tHeadtemp p temp) { x with headTemp := tempOf temp }
      ∧ becomes (.tCal p temp) { x with calTime := s.floorTime, calTemp := tempOf temp, headTemp := tempOf temp })
  ∧ (∀ (s : State) (b : List Byte), s.asks Kind.testerClear b → b.length = 1 →
    (32 ≤ u8 b 0 → exec .testerClear s = .next (s.replied (.plain .malformed)))
    ∧ ∀ p : Port, u8 b 0 = p.val →
      (s.slots[p].use = .unused → exec .testerClear s = .next (s.replied (.plain .notFound)))
      ∧ (s.slots[p].use ≠ .unused → s.outside p → s.slots[p].request = none →
          exec .testerClear s = .next ((reportLoad p .cleared none (s.modSlot p fun t =>
            { t with
              barred := false, failures := 0
              staged := match t.staged with
                | .failed => .empty
                | x => x })).replied (.plain .ok))))
  ∧ ∀ (p : Port) (s : State),
    (s.slots[p].use ≠ .inUse ∨ s.slots[p].failures < 3 ∨ s.slots[p].barred = true → exec (.barred p) s = .next s)
    ∧ (s.slots[p].use = .inUse → 3 ≤ s.slots[p].failures → s.slots[p].barred = false → s.outside p →
        exec (.barred p) s = .next (transmit (reportLoad p .barred none (s.modSlot p fun t => { t with barred := true }))))

/-- R85 to R90: how a load and a swap end, each with its LOAD_STATE report: T_LOADED by the program's revision, indication and
check value, T_SWAPPED, and the expiries of both timers; the third failure in succession bars the tester. Stated for a tester
in no cell whose program is no longer asked for, where no next operation is served. R85: with a program asked for, the service
decision that follows each ending issues D_LOAD for its current revision, or D_SWAP when the staged copy is just that, each with
its timer and its report; and a T_SWAPPED that makes it active takes PROGRAM off the waiting-for set of the STARTING cell, which consults the margin at the
present floor time (R94, R95). That BARRED follows the report of the
failure, as a report of its own that names no program, is log entry 31, and that a timer not due expires nothing log entry 8. -/
def Obligations.LoadAndSwapService : Prop :=
  (∀ (p : Port) (s : State), s.outside p → s.slots[p].request = none →
    let x := s.slots[p]
    let failed (o : LoadOutcome) (id revision : Nat) : State :=
      let bars := 2 ≤ x.failures ∧ x.barred = false
      let t := reportLoad p o (some (id, revision)) (s.modSlot p fun t =>
        { t with staged := .empty, failures := min 3 (x.failures + 1), barred := x.barred || decide bars })
      if bars then reportLoad p .barred none t else t
    (∀ (id : BitVec 16) (rev : Byte) (check : BitVec 32) (ok : Byte) (v : Nat) (timer : Timer),
      s.serves p .tester = true → s.ports[p].controlLock = true → ok = 1 ∨ ok = 2 → x.staged = .loading id.toNat v timer →
      let named := some (id.toNat, rev.toNat)
      (s.program? id.toNat = none →
        exec (.tLoaded p id rev check ok) s =
          .next (transmit (reportLoad p .stale named (s.modSlot p fun t => { t with staged := .empty }))))
      ∧ ∀ g, s.program? id.toNat = some g →
        (g.revision ≠ rev.toNat → exec (.tLoaded p id rev check ok) s =
          .next (transmit (reportLoad p .stale named (s.modSlot p fun t => { t with staged := .empty }))))
        ∧ (g.revision = rev.toNat → ok = 2 →
          exec (.tLoaded p id rev check ok) s = .next (transmit (failed .loadFail id.toNat rev.toNat)))
        ∧ (g.revision = rev.toNat → ok = 1 → check.toNat ≠ g.checkValue →
          exec (.tLoaded p id rev check ok) s = .next (transmit (failed .badCheck id.toNat rev.toNat)))
        ∧ (g.revision = rev.toNat → ok = 1 → check.toNat = g.checkValue → exec (.tLoaded p id rev check ok) s =
          .next (transmit (reportLoad p .loaded named
            (s.modSlot p fun t => { t with staged := .ready id.toNat rev.toNat, failures := 0 })))))
    ∧ (s.serves p .tester = true → s.ports[p].controlLock = true →
        (∀ (id : BitVec 16) (rev : Byte) (check : BitVec 32) (ok : Byte), (∀ v t, x.staged ≠ .loading id.toNat v t) →
          exec (.tLoaded p id rev check ok) s = .next (transmit (countIgnored p s)))
        ∧ (x.swap = none → exec (.tSwapped p) s = .next (transmit (countIgnored p s)))
        ∧ (∀ id v, x.swap.isSome → x.staged = .ready id v → exec (.tSwapped p) s =
            .next (transmit (reportLoad p .swapped (some (id, v))
              (s.modSlot p fun t => { t with active := some (id, v), staged := .empty, swap := none })))))
    ∧ (∀ id v timer, x.staged = .loading id v timer →
        (timer.due s.elapsed = false → exec (.loadTimerExpiry p) s = .next s)
        ∧ (timer.due s.elapsed = true → (∃ g, s.program? id = some g ∧ g.revision = v) →
            exec (.loadTimerExpiry p) s = .next (transmit (failed .loadTimeout id v)))
        ∧ (timer.due s.elapsed = true → (∀ g, s.program? id = some g → g.revision ≠ v) → exec (.loadTimerExpiry p) s =
            .next (transmit (reportLoad p .loadTimeout (some (id, v)) (s.modSlot p fun t => { t with staged := .empty })))))
    ∧ (expired x.swap s.elapsed = false → exec (.swapTimerExpiry p) s = .next s)
    ∧ (∀ id v, expired x.swap s.elapsed = true → x.staged = .ready id v → exec (.swapTimerExpiry p) s =
        .next (transmit (reportLoad p .barred none (reportLoad p .swapTimeout (some (id, v))
          (s.modSlot p fun t => { t with swap := none, active := none, staged := .failed, barred := true }))))))
  ∧ ∀ (p : Port) (s : State) (g : Program), s.slots[p].request = some g.id → s.program? g.id = some g →
    s.inService p = true → s.slots[p].barred = false →
    let x := s.slots[p]
    let current := some (g.id, g.revision)
    let loads (t : State) : Host.Outcome State Fault Refusal :=
      .next (transmit (reportLoad p .loadIssued current (send p (.load g.id g.revision) (t.modSlot p fun t =>
        { t with staged := .loading g.id g.revision { start := s.elapsed, limit := g.loadLimit } }))))
    let emptied (n : Nat) : State := s.modSlot p fun t => { t with staged := .empty, failures := n }
    (x.active ≠ current → x.swap = none →
      (∀ (id : BitVec 16) (rev : Byte) (check : BitVec 32) (ok : Byte) v timer, s.serves p .tester = true →
        s.ports[p].controlLock = true → ok = 1 ∨ ok = 2 → x.staged = .loading id.toNat v timer →
        let named := some (id.toNat, rev.toNat)
        ((∀ h, s.program? id.toNat = some h → h.revision ≠ rev.toNat) →
          exec (.tLoaded p id rev check ok) s = loads (reportLoad p .stale named (emptied x.failures)))
        ∧ ∀ h, s.program? id.toNat = some h → h.revision = rev.toNat →
          (ok = 2 → x.failures < 2 →
            exec (.tLoaded p id rev check ok) s = loads (reportLoad p .loadFail named (emptied (x.failures + 1))))
          ∧ (ok = 1 → check.toNat ≠ h.checkValue → x.failures < 2 →
            exec (.tLoaded p id rev check ok) s = loads (reportLoad p .badCheck named (emptied (x.failures + 1))))
          ∧ (ok = 1 → check.toNat = h.checkValue → id.toNat ≠ g.id →
            exec (.tLoaded p id rev check ok) s = loads (reportLoad p .loaded named (s.modSlot p fun t =>
              { t with staged := .ready id.toNat rev.toNat, failures := 0 })))
          ∧ (ok = 1 → check.toNat = h.checkValue → id.toNat = g.id →
            exec (.tLoaded p id rev check ok) s = .next (transmit (reportLoad p .swapIssued current (send p .swap
              ((reportLoad p .loaded named (s.modSlot p fun t =>
                { t with staged := .ready id.toNat rev.toNat, failures := 0 })).modSlot p fun t =>
                { t with swap := some { start := s.elapsed, limit := 30 } }))))))
      ∧ (∀ id v timer h, x.staged = .loading id v timer → timer.due s.elapsed = true → s.program? id = some h →
        (h.revision = v → x.failures < 2 →
          exec (.loadTimerExpiry p) s = loads (reportLoad p .loadTimeout (some (id, v)) (emptied (x.failures + 1))))
        ∧ (h.revision ≠ v →
          exec (.loadTimerExpiry p) s = loads (reportLoad p .loadTimeout (some (id, v)) (emptied x.failures)))))
    ∧ ∀ c k l m d, s.serves p .tester = true → s.ports[p].controlLock = true → x.swap.isSome → x.staged = .ready g.id g.revision →
        s.cellOfTester? p = some c → s.cell? c = some k → k.state = .starting → s.currentLot? c = some l → s.onlyTemp k l m d →
        d.program = g.id → s.director c = true → s.stopped l = false → k.soak ≠ .soaked →
        s.cells[c].preemptEnable = false →
      ∃ u k', exec (.tSwapped p) s = .next (transmit u) ∧ u.slots[p] =
            { x with active := current, staged := .empty, swap := none, margin := s.remargined.slots[p].margin }
        ∧ u.cell? c = some k' ∧ k'.waiting.program = false ∧ k'.waiting.temp = true
        ∧ k' = { k with causes := k'.causes, waiting := k'.waiting }

/-! ## Results and limits (Chapters 6 and 7) -/

/-- R99 to R105, R111: the records that are not counted: stray ones of a tester in no cell or of a cell that counts none, and,
against the tally of the cell's current lot, bad checks, invalid sites and phases, duplicates, excess and impossible origins. -/
def Obligations.ResultDiscards : Prop :=
  ∀ (p : Port) (s : State) (r : BitVec 64), s.ports[p].resultLock = true → s.serves p .tester = true →
    let f := recordFields r
    let stray (t : State) : State := { t with strays := t.strays.set p (min (t.strays[p] + 1) 4294967295) }
    let gone (t : State) : Prop := exec (.resultRecord p r) s = .next (transmit t)
    (s.cellOfTester? p = none → gone (stray s))
    ∧ ∀ c, s.cellOfTester? p = some c →
      (s.currentLot? c = none → gone (stray s))
      ∧ (∀ l, s.currentLot? c = some l → s.tally? l.id = none → gone (stray s))
      ∧ ∀ k l t g d, s.cell? c = some k → s.currentLot? c = some l → s.tally? l.id = some t → s.product? l.product = some g →
          s.currentStep? c = some d →
        let unread (t : Tally) (n : Nat) : Tally := { t with u := min (t.u + n) 4000000 }
        (recordChecks r = false →
          gone (s.modTally l.id fun t => { unread t 1 with badCheck := min (t.badCheck + 1) 4000000 }))
        ∧ (recordChecks r = true →
          (k.state = .idle ∨ k.state = .starting ∨ f.tag ≠ l.id % 65536 →
            gone (stray (s.modTally l.id fun t => { t with stray := min (t.stray + 1) 4294967295 })))
          ∧ (k.state ≠ .idle → k.state ≠ .starting → f.tag = l.id % 65536 →
            (k.sites[f.site]? = none ∨ f.phase = none →
              gone (s.modTally l.id fun t => { unread t 1 with invalid := min (t.invalid + 1) 4000000 }))
            ∧ ∀ x, k.sites[f.site]? = some x →
              (f.phase = some false → f.sequence < x.expFirst →
                gone (s.modTally l.id fun t => { t with duplicate := min (t.duplicate + 1) 4294967295 }))
              ∧ (f.phase = some true → f.sequence < x.expRetest →
                gone (s.modTally l.id fun t => { t with duplicate := min (t.duplicate + 1) 4294967295 }))
              ∧ (f.phase = some false → f.sequence = x.expFirst → (l.stepRec t.step).input = some t.n1 → t.u ≤ 4000000 →
                  t.missing ≤ 4000000 → t.excess ≤ 4294967295 →
                ∃ u : State, gone u ∧ u = { s with tallies := u.tallies, cells := u.cells }
                  ∧ u.tally? l.id = some { t with excess := min (t.excess + 1) 4294967295 }
                  ∧ ∃ k', u.cell? c = some k' ∧ k'.sites[f.site]? = some { x with expFirst := f.sequence + 1 })
              ∧ (f.phase = some true → f.sequence = x.expRetest →
                  g.retest.getLsbD f.origin.val = false ∨ t.x[f.origin] = t.c1[f.origin] → t.u < 4000000 → t.invalid < 4000000 →
                  t.missing ≤ 4000000 →
                ∃ u : State, gone u ∧ u = { s with tallies := u.tallies, cells := u.cells }
                  ∧ u.tally? l.id = some { t with u := t.u + 1, invalid := t.invalid + 1 }
                  ∧ ∃ k', u.cell? c = some k' ∧ k'.sites[f.site]? = some { x with expRetest := f.sequence + 1 })))

/-- R103, R107, R108, R111: the records that are counted, in a tally that is not complete by them: a FIRST record of a blanked
site, one of an unblanked site, and a RETEST record, each after a gap of results that never arrived. The unblanked clause is
stated where the divider is not reached and the site monitor is off. -/
def Obligations.ResultCounts : Prop :=
  ∀ (p : Port) (c : CellNo) (k : Cell) (l : Lot) (t : Tally) (g : Product) (d : StepDef) (x : Site) (s : State) (r : BitVec 64)
      (gap n : Nat),
    s.ports[p].resultLock = true → s.serves p .tester = true → s.cellOfTester? p = some c → s.cell? c = some k →
    s.currentLot? c = some l → s.tally? l.id = some t → s.product? l.product = some g → s.currentStep? c = some d → t.step = l.step →
    recordChecks r = true → k.state ≠ .idle → k.state ≠ .starting →
    let f := recordFields r
    f.tag = l.id % 65536 → k.sites[f.site]? = some x → (l.stepRec t.step).input = some n → t.n1 + 1 < n →
    let counts (u : State) (t' : Tally) (x' : Site) : Prop :=
      exec (.resultRecord p r) s = .next (transmit u) ∧ u = { s with tallies := u.tallies, cells := u.cells }
        ∧ u.tally? l.id = some { t' with u := min (t.u + gap) 4000000, missing := min (t.missing + gap) 4000000 }
        ∧ ∃ k', u.cell? c = some k' ∧ k' = { k with sites := k'.sites } ∧ k'.sites = k.sites.set f.site x'
    (f.phase = some false → f.sequence = x.expFirst + gap →
      (0 < x.blank → ∃ u, counts u { t with n1 := t.n1 + 1, c1 := t.c1.set f.cls (t.c1[f.cls] + 1) }
        { x with expFirst := f.sequence + 1, blank := x.blank - 1 })
      ∧ (x.blank = 0 → t.divider + 1 ≠ d.divider → d.consecutive = 0 →
        ∃ u, counts u
          { t with
            n1 := t.n1 + 1, c1 := t.c1.set f.cls (t.c1[f.cls] + 1), ne := t.ne + 1
            ce := t.ce.set f.cls (t.ce[f.cls] + 1), divider := t.divider + 1 }
          { x with expFirst := f.sequence + 1, run := if f.cls = 0 then 0 else min 255 (x.run + 1) }))
    ∧ (f.phase = some true → f.sequence = x.expRetest + gap → g.retest.getLsbD f.origin.val = true →
        t.x[f.origin] ≠ t.c1[f.origin] →
        ∃ u, counts u { t with x := t.x.set f.origin (t.x[f.origin] + 1), c2 := t.c2.set f.cls (t.c2[f.cls] + 1) }
          { x with expRetest := f.sequence + 1 })

/-- R117, R120, R126: the evaluator's own rows where nothing breaches (log entry 9): the divider counter, the evaluation counter
and the TALLY report; and the site monitor, which in a cell that has fed its lot (R101) clears the run counter, and asks for a
change of kind MONITOR on a site of a RUNNING cell whose target is ON. -/
def Obligations.EvaluatorRows : Prop :=
  ∀ (c : CellNo) (site : Fin 8) (s : State),
    (s.current? c = none → exec (.runningEvaluation c site) s = .next s ∧ exec (.tally c) s = .next s
        ∧ exec (.siteMonitor c site) s = .next s)
    ∧ ∀ k l t d, s.cell? c = some k → s.currentLot? c = some l → s.tally? l.id = some t → t.step = l.step →
        s.stepDef? l l.step = some d →
      (t.divider ≠ d.divider → exec (.runningEvaluation c site) s = .next (transmit s))
      ∧ (t.divider = d.divider → t.ne < d.smin →
          exec (.runningEvaluation c site) s = .next (transmit (s.modTally l.id fun t => { t with divider := 0 })))
      ∧ (t.divider = d.divider → d.smin ≤ t.ne → runningBreaches t d = [] → d.reportDivider = 0 →
          exec (.runningEvaluation c site) s = .next (transmit (s.modTally l.id fun t => { t with divider := 0 })))
      ∧ (d.reportDivider = 0 ∨ t.evaluations ≠ d.reportDivider → exec (.tally c) s = .next (transmit s))
      ∧ (d.reportDivider ≠ 0 → t.evaluations = d.reportDivider →
          exec (.tally c) s = .next (transmit (place (tallyReportOf c t d s.floorTime)
            (s.modTally l.id fun t => { t with evaluations := 0 }))))
      ∧ ∀ x, k.sites[site.val]? = some x →
        (d.consecutive = 0 ∨ x.run ≠ d.consecutive ∨ k.takesResults = false → exec (.siteMonitor c site) s = .next s)
        ∧ (d.consecutive ≠ 0 → x.run = d.consecutive → k.takesResults = true → x.target ≠ .on → exec (.siteMonitor c site) s =
            .next (transmit (s.modCell c fun k => { k with sites := k.sites.set site.val { x with run := 0 } })))
        ∧ (d.consecutive ≠ 0 → x.run = d.consecutive → x.state = .on → x.change = none → k.state = .running →
            let k' : Cell := { k with sites := k.sites.set site.val { x with run := 0, change := some .offMonitor } }
            exec (.siteMonitor c site) s = .next (transmit
              (place (.siteRequested c l.id site.val
                  { time := s.floorTime, cell := c, site := site.val, sequence := x.expFirst - 1, n1 := t.n1, ne := t.ne })
                (send k.handlerPort (.mask k'.targetMask) (s.modCell c fun _ => k')))))

/-- R117, R119, R127, R129, R133 to R135, R50: a running evaluation that breaches one limit stores an IMMEDIATE hold with a
capture of the unit on the lot, and the RUNNING cell drains with purpose HOLD and a D_STOP to its handler. The row
RUNNING_EVALUATION makes the evaluator's part on its own (log entry 9). -/
def Obligations.BreachDrainsCell : Prop :=
  ∀ (c : CellNo) (site : Fin 8) (k : Cell) (l : Lot) (t : Tally) (d : StepDef) (m : LimitRec) (s : State),
    s.cell? c = some k → k.state = .running → k.segment.isSome → k.causes.handlerLink = false → s.inService k.handlerPort = true →
    (∀ x ∈ k.sites, x.change = none) → s.current? c = some l.id → s.lot? l.id = some l → l.state = .active →
    l.location = .queue c 0 → s.tally? l.id = some t → t.step = l.step → s.stepDef? l l.step = some d → t.divider = d.divider →
    d.smin ≤ t.ne → runningBreaches t d = [m] → d.reportDivider = 0 → s.tablesSorted → l.holds.length < 8 → s.holds.length < 512 →
    (∀ h ∈ s.holds, ¬ (h.lot = l.id ∧ h.reason = m.reason ∧ h.cls = m.cls ∧ h.step = t.step)) →
    ∃ (u : State) (n : Nat) (x : Capture), exec (.runningEvaluation c site) s = .next (transmit u)
      ∧ s.hold? n = none
      ∧ u.hold? n = some
          { id := n, lot := l.id, reason := m.reason, cls := m.cls, step := t.step, severity := .immediate, origin := .automatic
            occurrences := 1, raised := s.floorTime, capture := some x, note := none }
      ∧ x.time = s.floorTime ∧ x.cell = c ∧ x.site = site.val ∧ x.n1 = t.n1 ∧ x.ne = t.ne
      ∧ u.lot? l.id = some { l with holds := l.holds ++ [n] }
      ∧ u.tally? l.id = some { t with divider := 0 }
      ∧ .stop ∈ u.ports[k.handlerPort].out
      ∧ u.cell? c = some
          { k with
            state := .draining, purpose := some .hold, withdrawTimer := none
            drainTimer := some { start := s.elapsed, limit := s.params.drain } }

/-- R118, R121, R123 to R125, R150: the tests of limits and the checks of reconciliation on exact integers, and the ratios shown
to the host. -/
def Obligations.LimitAndReconciliationTests : Prop :=
  (∀ (t : Tally) (m : LimitRec),
    (m.kind = .yieldFloor →
      (breachesRunning t m = true ↔ classCount t.ce 0 * 10000 < m.value * t.ne)
      ∧ (breachesClose t m = true ↔ (t.c1[0] + t.c2[0] - t.x[0]) * 10000 < m.value * t.n1))
    ∧ (∀ b : Fin 16, m.kind = .classCeiling → m.cls = b.val →
      (breachesRunning t m = true ↔ m.value * t.ne < t.ce[b] * 10000)
      ∧ (breachesClose t m = true ↔ m.value * t.n1 < (t.c1[b] + t.c2[b] - t.x[b]) * 10000))
    ∧ (m.kind = .recoveryCeiling →
      breachesRunning t m = false ∧ (breachesClose t m = true ↔ 1 ≤ t.retested ∧ m.value * t.retested < t.c2[0] * 10000)))
  ∧ (∀ (t : Tally) (ceiling : Nat), unreadableBreach t ceiling = true ↔ ceiling * max t.n1 1 < t.u * 10000)
  ∧ (∀ (t : Tally) (d : StepDef), t.n1 < d.smin → closeBreaches t d = [])
  ∧ (∀ a n : Nat, (n = 0 → ratio a n = none) ∧ (n ≠ 0 → ∃ q, ratio a n = some q ∧ q * n ≤ a * 10000 ∧ a * 10000 < (q + 1) * n))
  ∧ ∀ (r : StepRec) (t : Tally) (g : Product),
    (checkA r = true ↔
      r.bins[0] + r.bins[1] + r.bins[2] + r.bins[3] + r.bins[4] + r.bins[5] + r.bins[6] + r.bins[7] + r.jammed = r.loaded
        ∧ r.loaded ≤ r.input.getD 0)
    ∧ (checkB r t g.tolerance = true ↔ t.n1 ≤ r.loaded ∧ r.loaded ≤ t.n1 + g.tolerance + t.u)
    ∧ (checkC r t g = true ↔ ∀ p : Fin 8,
        r.bins[p] ≤ (binTotals t g.bins)[p] + g.tolerance + t.u ∧ (binTotals t g.bins)[p] ≤ r.bins[p] + g.tolerance + t.u)

/-! ## Holds (Chapter 8) -/

/-- R129, R131, R133 to R135, R137: HOLD_PLACE: its refusals, the three outcomes of its request, and the effect on the lot by its
state. A lot that a SHIP hold, or its state, leaves where it is stays; a WAITING or QUEUED lot, and the lot of a STARTING cell,
goes HELD under an IMMEDIATE or AT_END hold; and an IMMEDIATE hold drains a fed cell that is RUNNING or PAUSED. The effects that
move a lot are stated where the request agrees with no record; an overflow acts as an IMMEDIATE hold does. -/
def Obligations.HoldPlace : Prop :=
  ∀ (s : State) (b : List Byte), s.asks Kind.holdPlace b → 6 ≤ b.length → b.length = 6 + u8 b 5 →
    (u32 b 0 = 0 ∨ 32 < u8 b 5 ∨ severityOf (u8 b 4) = none → exec .holdPlace s = .next (s.replied (.plain .malformed)))
    ∧ ∀ severity, u32 b 0 ≠ 0 → u8 b 5 ≤ 32 → severityOf (u8 b 4) = some severity →
      (s.lot? (u32 b 0) = none → exec .holdPlace s = .next (s.replied (.plain .notFound)))
      ∧ ∀ l, s.lot? (u32 b 0) = some l →
        let step := if l.step < s.routeLength l then l.step else s.routeLength l - 1
        let note := if u8 b 5 = 0 then none else some (b.drop 6)
        let same (h : Hold) : Prop := h.lot = l.id ∧ h.reason = .placed ∧ h.cls = 0 ∧ h.step = step
        let stays (acts : Severity) : Prop := acts = .ship ∨ l.state = .held ∨ l.state = .complete ∨ l.state = .saved
          ∨ (l.state = .active ∧ ∃ c k, l.location = .queue c 0 ∧ s.cell? c = some k
              ∧ (k.state = .draining ∨ k.state = .manual ∨ (acts = .atEnd ∧ (k.state = .running ∨ k.state = .paused))))
        let moves (c : CellNo) (k : Cell) : Prop := l.state = .active ∧ l.location = .queue c 0 ∧ s.cell? c = some k
          ∧ s.queues[c] = { current := some l.id, behind := [] } ∧ s.saves[c] = none
        (stays severity → s.tablesSorted → (∀ h ∈ s.holds, ¬ same h) → l.holds.length < 8 → s.holds.length < 512 →
          ∃ (t : State) (n : Nat), exec .holdPlace s = .next (t.replied (.placed false (some n)))
            ∧ t = { s with lots := t.lots, holds := t.holds, reports := t.reports, dropped := t.dropped }
            ∧ 1 ≤ n ∧ s.hold? n = none ∧ (∀ i, i ≠ n → t.hold? i = s.hold? i)
            ∧ t.hold? n = some
                { id := n, lot := l.id, reason := .placed, cls := 0, step := step, severity := severity, origin := .requested
                  occurrences := 1, raised := s.floorTime, capture := none, note := note }
            ∧ t.lot? l.id = some { l with holds := l.holds ++ [n] } ∧ ∀ i, i ≠ l.id → t.lot? i = s.lot? i)
        ∧ (∀ h, s.holds.find? (fun h => h.lot == l.id && h.reason == .placed && h.cls == 0 && h.step == step) = some h →
            stays (h.severity.max severity) → s.tablesSorted →
          ∃ t : State, exec .holdPlace s = .next (t.replied (.placed true (some h.id)))
            ∧ t = { s with holds := t.holds, reports := t.reports, dropped := t.dropped }
            ∧ (∀ i, i ≠ h.id → t.hold? i = s.hold? i)
            ∧ t.hold? h.id = some
                { h with
                  occurrences := min 255 (h.occurrences + 1), severity := h.severity.max severity, note := note.or h.note })
        ∧ (stays .immediate → (∀ h ∈ s.holds, ¬ same h) → 8 ≤ l.holds.length ∨ 512 ≤ s.holds.length →
          ∃ t : State, exec .holdPlace s = .next (t.replied (.placed false none))
            ∧ t = { s with lots := t.lots, reports := t.reports, dropped := t.dropped }
            ∧ t.lot? l.id = some { l with overflow := true } ∧ ∀ i, i ≠ l.id → t.lot? i = s.lot? i)
        ∧ (severity ≠ .ship → (∀ h ∈ s.holds, ¬ same h) →
          (l.state = .waiting →
            ∃ (t : State) (r : Reply), exec .holdPlace s = .next (t.replied r) ∧ t.holdsLot l.id .held .absent
              ∧ l.id ∉ t.waitList ∧ (∀ i, i ≠ l.id → (i ∈ t.waitList ↔ i ∈ s.waitList)))
          ∧ (∀ c n, l.state = .queued → l.location = .queue c n → s.queues[c].current ≠ some l.id →
            ∃ (t : State) (r : Reply), exec .holdPlace s = .next (t.replied r) ∧ t.holdsLot l.id .held .absent
              ∧ t.queues[c].behind = s.queues[c].behind.filter (· != l.id) ∧ t.queues[c].current = s.queues[c].current
              ∧ t.pass.pending = true)
          ∧ (∀ c k, moves c k → k.state = .starting →
            ∃ (t : State) (r : Reply), exec .holdPlace s = .next (t.replied r) ∧ t.holdsLot l.id .held .absent
              ∧ t.queues[c] = {} ∧ t.slots[k.testerPort].request = none ∧ ∃ k', t.cell? c = some k' ∧ k'.state = .idle)
          ∧ (∀ c k, moves c k → severity = .immediate ∨ 8 ≤ l.holds.length ∨ 512 ≤ s.holds.length →
              k.state = .running ∨ k.state = .paused → k.segment.isSome → s.inService k.handlerPort = true →
              k.causes.handlerLink = false → k.noChanges →
            ∃ (t : State) (r : Reply), exec .holdPlace s = .next (t.replied r) ∧ t.holdsLot l.id .active (.queue c 0)
              ∧ t.queues[c] = s.queues[c] ∧ .stop ∈ t.ports[k.handlerPort].out
              ∧ t.cell? c = some { k with
                  state := .draining, purpose := some .hold, withdrawTimer := none
                  drainTimer := some { start := s.elapsed, limit := s.params.drain } }))

/-- R138, R140 to R143: the dispositions of a hold and the clearing of the overflow flag. The refusals by the body and of an unknown
hold, where it is the model's choice that the row CLEAR takes a body whose disposition is undefined (log entry 13); CLEAR of the last stopping hold of a HELD lot sends it back to WAITING, or on to COMPLETE with no step left; SCRAP takes
units; RETEST_STEP returns steps to PENDING, and sends a COMPLETE lot on to WAITING or HELD. In every other state the lot stays
where it is, and in QUEUED, ACTIVE and SAVED the last two are refused. A scrapped total past 4,000,000 is a free value (log entry
5) and is not stated. What a CLEAR leaves of a PENDING step, and of a CLOSED one with PASS or NONE, is log entry 25. RETEST_STEP
is stated with no cell in the tally wait order. -/
def Obligations.Dispositions : Prop :=
  (∀ (s : State) (b : List Byte), s.asks Kind.holdDispose b →
    (b.length = 7 →
      (u8 b 2 ≠ 2 → u8 b 2 ≠ 3 → u16 b 0 = 0 ∨ u8 b 2 ≠ 1 → exec .clear s = .next (s.replied (.plain .malformed)))
      ∧ (u8 b 2 = 2 → u16 b 0 = 0 ∨ 5 < u32 b 3 → exec .retestStep s = .next (s.replied (.plain .malformed)))
      ∧ (u8 b 2 = 3 → u16 b 0 = 0 ∨ u32 b 3 = 0 → exec .scrap s = .next (s.replied (.plain .malformed)))
      ∧ (u16 b 0 ≠ 0 → s.hold? (u16 b 0) = none →
        (u8 b 2 = 1 → exec .clear s = .next (s.replied (.plain .notFound)))
        ∧ (u8 b 2 = 2 → u32 b 3 ≤ 5 → exec .retestStep s = .next (s.replied (.plain .notFound)))
        ∧ (u8 b 2 = 3 → u32 b 3 ≠ 0 → exec .scrap s = .next (s.replied (.plain .notFound)))))
    ∧ (b.length = 8 →
      (u16 b 0 ≠ 0 ∨ u8 b 7 ≠ 0xFF ∨ u32 b 3 = 0 ∨ u8 b 2 ≠ 1 →
        exec .holdDisposeOverflow s = .next (s.replied (.plain .malformed)))
      ∧ (u16 b 0 = 0 → u8 b 7 = 0xFF → u32 b 3 ≠ 0 → u8 b 2 = 1 → s.lot? (u32 b 3) = none →
        exec .holdDisposeOverflow s = .next (s.replied (.plain .notFound)))))
  ∧ ∀ (s : State) (b : List Byte) (h : Hold) (l : Lot), s.lot? h.lot = some l →
    let rest := s.holds.filter (·.id != h.id)
    let free : Prop := l.overflow = false ∧ ∀ x ∈ rest, x.lot = l.id → x.severity = .ship
    let inPlace (u : State) : Prop :=
      (∀ i, i ≠ l.id → (i ∈ u.waitList ↔ i ∈ s.waitList)) ∧ (l.id ∈ s.waitList → l.id ∈ u.waitList)
    let goes (u : State) (step : Nat) : Prop := ∃ l', u.lot? l.id = some l' ∧ l'.step = step
      ∧ l'.holds = l.holds.filter (· != h.id)
      ∧ (l.state = .held → l'.location = (if free then .absent else l.location)
        ∧ (free → step < s.routeLength l → l'.state = .waiting ∧ l.id ∈ u.waitList)
        ∧ (free → s.routeLength l ≤ step → l'.state = .complete)
        ∧ (¬ free → l'.state = .held))
      ∧ (l.state = .complete → step < s.routeLength l → l'.location = .absent
        ∧ (free → l'.state = .waiting ∧ l.id ∈ u.waitList) ∧ (¬ free → l'.state = .held))
      ∧ (l.state ≠ .held → (l.state = .complete → s.routeLength l ≤ step) →
          l'.state = l.state ∧ l'.location = l.location ∧ inPlace u)
    let inCell : Prop := l.state = .queued ∨ l.state = .active ∨ l.state = .saved
    (s.asks Kind.holdDispose b → b.length = 7 → u16 b 0 ≠ 0 → s.hold? (u16 b 0) = some h → h.lot = l.id →
      (u8 b 2 = 1 → ∃ u : State, exec .clear s = .next (u.replied (.plain .ok)) ∧ u.holds = rest ∧ goes u l.step
          ∧ ∃ l', u.lot? l.id = some l' ∧ l'.quantity = l.quantity
            ∧ ∀ i, l'.stepRec i =
                if i = h.step ∧ i < 6 ∧ (h.reason = .countMismatch ∨ h.reason = .countLost) then acceptStep (l.stepRec i) else l.stepRec i)
      ∧ (inCell → (u8 b 2 = 2 → u32 b 3 ≤ 5 → exec .retestStep s = .next (s.replied (.plain .wrongState)))
          ∧ (u8 b 2 = 3 → u32 b 3 ≠ 0 → exec .scrap s = .next (s.replied (.plain .wrongState))))
      ∧ (¬ inCell → u8 b 2 = 3 → u32 b 3 ≠ 0 → l.quantity < u32 b 3 → exec .scrap s = .next (s.replied (.plain .mismatch)))
      ∧ (¬ inCell → u8 b 2 = 3 → u32 b 3 ≠ 0 → u32 b 3 ≤ l.quantity → l.scrapped + u32 b 3 ≤ 4000000 →
          ∃ u : State, exec .scrap s = .next (u.replied (.plain .ok)) ∧ u.holds = rest ∧ goes u l.step
            ∧ ∃ l', u.lot? l.id = some l' ∧ l'.quantity = l.quantity - u32 b 3 ∧ l'.scrapped = l.scrapped + u32 b 3
              ∧ l'.steps = l.steps)
      ∧ (¬ inCell → u8 b 2 = 2 → u32 b 3 ≤ 5 → l.mayRetest (u32 b 3) = false → exec .retestStep s = .next (s.replied (.plain .mismatch)))
      ∧ (¬ inCell → u8 b 2 = 2 → u32 b 3 ≤ 5 → l.mayRetest (u32 b 3) = true → s.tallyWait = [] →
          ∃ u : State, exec .retestStep s = .next (u.replied (.plain .ok)) ∧ u.holds = rest ∧ goes u (u32 b 3)
            ∧ ∃ l', u.lot? l.id = some l' ∧ l'.quantity = (l.stepRec (u32 b 3)).input.getD l.quantity ∧ l'.tally = false
              ∧ l'.scrapped = l.scrapped ∧ ∀ i, i < 6 → l'.stepRec i = if u32 b 3 ≤ i then {} else l.stepRec i))
    ∧ (s.asks Kind.holdDispose b → b.length = 8 → u16 b 0 = 0 → u8 b 7 = 0xFF → u8 b 2 = 1 → u32 b 3 ≠ 0 → s.lot? (u32 b 3) = some l →
      (l.overflow = false → exec .holdDisposeOverflow s = .next (s.replied (.plain .notFound)))
      ∧ (l.overflow = true → 8 ≤ l.holds.length → exec .holdDisposeOverflow s = .next (s.replied (.plain .full)))
      ∧ (l.overflow = true → l.holds.length < 8 →
          ∃ u : State, exec .holdDisposeOverflow s = .next (u.replied (.plain .ok)) ∧ u.holds = s.holds
            ∧ ∃ l', u.lot? l.id = some l' ∧ l'.overflow = false ∧ l'.holds = l.holds
              ∧ (l.state = .held →
                ((∀ x ∈ s.holds, x.lot = l.id → x.severity = .ship) → l.step < s.routeLength l →
                  l'.state = .waiting ∧ l.id ∈ u.waitList)
                ∧ ((∃ x ∈ s.holds, x.lot = l.id ∧ x.severity ≠ .ship) → l'.state = .held))
              ∧ (l.state ≠ .held → (l.state = .complete → s.routeLength l ≤ l.step) →
                  l' = { l with overflow := false } ∧ u.waitList = s.waitList)))

/-! ## Ship groups (Chapter 10) -/

/-- R154 to R156: GROUP_OPEN, GROUP_CLOSE, GROUP_ADD and GROUP_REMOVE, each check in its order. That the OK of a GROUP_ADD for a
lot already in the group carries the number of lots is log entry 45. -/
def Obligations.GroupRequests : Prop :=
  (∀ (s : State) (b : List Byte), u8 b 0 = 0 ∨ 16 < u8 b 0 →
    (s.asks Kind.groupOpen b → b.length = 2 → exec .groupOpen s = .next (s.replied (.plain .malformed)))
      ∧ (s.asks Kind.groupClose b → b.length = 1 → exec .groupClose s = .next (s.replied (.plain .malformed)))
      ∧ (s.asks Kind.groupAdd b → b.length = 5 → exec .groupAdd s = .next (s.replied (.plain .malformed)))
      ∧ (s.asks Kind.groupRemove b → b.length = 5 → exec .groupRemove s = .next (s.replied (.plain .malformed))))
  ∧ ∀ (s : State) (b : List Byte) (g : Fin 16), u8 b 0 = g.val + 1 →
    let x := s.groups[g]
    (s.asks Kind.groupOpen b → b.length = 2 →
      (1 < u8 b 1 → exec .groupOpen s = .next (s.replied (.plain .malformed)))
      ∧ (u8 b 1 ≤ 1 → x.opened = true → exec .groupOpen s = .next (s.replied (.plain .exists_)))
      ∧ (u8 b 1 ≤ 1 → x.opened = false → exec .groupOpen s =
          .next ((s.modGroup g fun _ =>
            { opened := true, product := none, allowExtended := decide (u8 b 1 = 1), lots := [] }).replied (.plain .ok))))
    ∧ (s.asks Kind.groupClose b → b.length = 1 →
      (x.opened = false → exec .groupClose s = .next (s.replied (.plain .notFound)))
      ∧ (x.opened = true → ∃ t : State, exec .groupClose s = .next (t.replied (.plain .ok))
          ∧ t = { s with lots := t.lots, groups := s.groups.set g {} }
          ∧ ∀ n, t.lot? n = (s.lot? n).map fun l => if n ∈ x.lots then { l with group := none } else l))
    ∧ (s.asks Kind.groupAdd b → b.length = 5 →
      (u32 b 1 = 0 → exec .groupAdd s = .next (s.replied (.plain .malformed)))
      ∧ (u32 b 1 ≠ 0 → x.opened = false ∨ s.lot? (u32 b 1) = none → exec .groupAdd s = .next (s.replied (.plain .notFound)))
      ∧ ∀ l, u32 b 1 ≠ 0 → x.opened = true → s.lot? (u32 b 1) = some l →
        (∀ g', l.group = some g' → g' ≠ g → exec .groupAdd s = .next (s.replied (.plain .inUse)))
        ∧ (l.group = some g → exec .groupAdd s = .next (s.replied (.groupCount x.lots.length)))
        ∧ (l.group = none →
          (∀ q, x.product = some q → q ≠ l.product → exec .groupAdd s = .next (s.replied (.plain .mismatch)))
          ∧ (x.product = none ∨ x.product = some l.product →
            (32 ≤ x.lots.length → exec .groupAdd s = .next (s.replied (.plain .full)))
            ∧ (x.lots.length < 32 → exec .groupAdd s =
                .next ((((s.modGroup g fun x => { x with lots := x.lots ++ [l.id], product := some l.product }).modLot l.id fun l =>
                  { l with group := some g })).replied (.groupCount (x.lots.length + 1)))))))
    ∧ (s.asks Kind.groupRemove b → b.length = 5 →
      (u32 b 1 = 0 → exec .groupRemove s = .next (s.replied (.plain .malformed)))
      ∧ (u32 b 1 ≠ 0 → s.lot? (u32 b 1) = none → exec .groupRemove s = .next (s.replied (.plain .notFound)))
      ∧ ∀ l, u32 b 1 ≠ 0 → s.lot? (u32 b 1) = some l →
        (x.opened = false ∨ l.group ≠ some g → exec .groupRemove s = .next (s.replied (.plain .notFound)))
        ∧ (x.opened = true → l.group = some g →
          let left := x.lots.filter (· != l.id)
          exec .groupRemove s =
            .next ((((s.modGroup g fun x => { x with lots := left, product := if left = [] then none else x.product }).modLot l.id
              fun l => { l with group := none })).replied (.groupCount left.length))))

/-- R157, R159, R160: GROUP_RELEASE releases every lot of the list or none: refused, it changes nothing and names the first lot
that is not fit to ship with its cause; made, every lot has left the table, with its LOT_STATE report before the RELEASED one, and
the group is free. -/
def Obligations.GroupRelease : Prop :=
  (∀ (s : State) (b : List Byte), s.asks Kind.groupRelease b → b.length = 1 → u8 b 0 = 0 ∨ 16 < u8 b 0 →
    exec .groupRelease s = .next (s.replied (.plain .malformed)))
  ∧ ∀ (s : State) (b : List Byte) (g : Fin 16), s.asks Kind.groupRelease b → b.length = 1 → u8 b 0 = g.val + 1 →
    let x := s.groups[g]
    (x.opened = false → exec .groupRelease s = .next (s.replied (.plain .notFound)))
    ∧ (x.opened = true → x.lots = [] → exec .groupRelease s = .next (s.replied (.releaseRefused .empty none)))
    ∧ (∀ before n after l cause, x.opened = true → x.lots = before ++ n :: after →
        (∀ m ∈ before, ∃ l, s.lot? m = some l ∧ s.releaseCause l x.allowExtended = none) → s.lot? n = some l →
        s.releaseCause l x.allowExtended = some cause →
        exec .groupRelease s = .next (s.replied (.releaseRefused cause (some n))))
    ∧ (x.opened = true → x.lots ≠ [] → (∀ m ∈ x.lots, ∃ l, s.lot? m = some l ∧ s.releaseCause l x.allowExtended = none) →
        ∃ (t : State) (r : ReleaseRec), exec .groupRelease s = .next (t.replied (.released r))
          ∧ r.group = g.val + 1 ∧ (∀ q, x.product = some q → r.product = q) ∧ r.time = s.floorTime ∧ r.lots.map (·.1) = x.lots
          ∧ (∀ y ∈ r.lots, ∃ l, s.lot? y.1 = some l ∧ y.2 = l.quantity) ∧ r.total = (r.lots.map (·.2)).sum
          ∧ t = { s with
              lots := t.lots, entrySeq := t.entrySeq, groups := s.groups.set g {}, reports := t.reports, dropped := t.dropped }
          ∧ (∀ n, t.lot? n = if n ∈ x.lots then none else s.lot? n)
          ∧ t.entrySeq = (if t.lots = [] then 0 else s.entrySeq)
          ∧ (x.lots.Nodup → s.reports.length + x.lots.length < 64 → t.dropped = s.dropped ∧ t.reports = s.reports
              ++ (x.lots.filterMap s.lot?).map (fun l => .lotState l.id (some .complete) .released l.step l.quantity none none)
              ++ [.released r]))
    ∧ ∀ (l : Lot) (extended : Bool),
        let route := l.steps.toList.take (s.routeLength l)
        let complete := l.state = .complete
        let clear := l.overflow = false ∧ ∀ h ∈ s.holds, h.lot ≠ l.id
        let reconciled := ∀ r ∈ route, r.status = .closed ∧ (r.recon = .pass ∨ r.recon = .accepted)
        let allowed := extended = true ∨ ∀ r ∈ route, r.margin ≠ .extended
        (¬ complete → s.releaseCause l extended = some .notComplete)
          ∧ (complete → ¬ clear → s.releaseCause l extended = some .held)
          ∧ (complete → clear → ¬ reconciled → s.releaseCause l extended = some .unreconciled)
          ∧ (complete → clear → reconciled → ¬ allowed → s.releaseCause l extended = some .extended)
          ∧ (complete → clear → reconciled → allowed → l.quantity = 0 → s.releaseCause l extended = some .zeroQuantity)
          ∧ (complete → clear → reconciled → allowed → l.quantity ≠ 0 → s.releaseCause l extended = none)
end

