-- ==== Sys2Proof/Laws/State.lean ====
section
/-! SUPPORT. One lemma per field per update of the state: what the updates of Machine/Access.lean, and the operations every
taking ends with, leave as it was. -/

namespace Sys2Proof.Machine

variable (s : State)

/-- The transmitter changes the frame being sent alone. -/
theorem transmit_eq : transmit s = { s with sending := (transmit s).sending } := by
  unfold transmit
  split
  · rfl
  · split
    · rfl
    · rfl
    · split <;> rfl

/-! ### `modPort` -/

section modPort_fields
variable (p : Port) (f : PortRec → PortRec)

@[simp] theorem modPort_pending : (s.modPort p f).pending = s.pending := rfl
@[simp] theorem modPort_pins : (s.modPort p f).pins = s.pins := rfl
@[simp] theorem modPort_strict : (s.modPort p f).strict = s.strict := rfl
@[simp] theorem modPort_rate : (s.modPort p f).rate = s.rate := rfl
@[simp] theorem modPort_rx : (s.modPort p f).rx = s.rx := rfl
@[simp] theorem modPort_frames : (s.modPort p f).frames = s.frames := rfl
@[simp] theorem modPort_unanswered : (s.modPort p f).unanswered = s.unanswered := rfl
@[simp] theorem modPort_sending : (s.modPort p f).sending = s.sending := rfl
@[simp] theorem modPort_reports : (s.modPort p f).reports = s.reports := rfl
@[simp] theorem modPort_dropped : (s.modPort p f).dropped = s.dropped := rfl
@[simp] theorem modPort_floorTime : (s.modPort p f).floorTime = s.floorTime := rfl
@[simp] theorem modPort_elapsed : (s.modPort p f).elapsed = s.elapsed := rfl
@[simp] theorem modPort_params : (s.modPort p f).params = s.params := rfl
@[simp] theorem modPort_products : (s.modPort p f).products = s.products := rfl
@[simp] theorem modPort_lots : (s.modPort p f).lots = s.lots := rfl
@[simp] theorem modPort_entrySeq : (s.modPort p f).entrySeq = s.entrySeq := rfl
@[simp] theorem modPort_claims : (s.modPort p f).claims = s.claims := rfl
@[simp] theorem modPort_cells : (s.modPort p f).cells = s.cells := rfl
@[simp] theorem modPort_queues : (s.modPort p f).queues = s.queues := rfl
@[simp] theorem modPort_saves : (s.modPort p f).saves = s.saves := rfl
@[simp] theorem modPort_waitList : (s.modPort p f).waitList = s.waitList := rfl
@[simp] theorem modPort_tallyWait : (s.modPort p f).tallyWait = s.tallyWait := rfl
@[simp] theorem modPort_pass : (s.modPort p f).pass = s.pass := rfl
@[simp] theorem modPort_catalog : (s.modPort p f).catalog = s.catalog := rfl
@[simp] theorem modPort_slots : (s.modPort p f).slots = s.slots := rfl
@[simp] theorem modPort_strays : (s.modPort p f).strays = s.strays := rfl
@[simp] theorem modPort_tallies : (s.modPort p f).tallies = s.tallies := rfl
@[simp] theorem modPort_holds : (s.modPort p f).holds = s.holds := rfl
@[simp] theorem modPort_groups : (s.modPort p f).groups = s.groups := rfl
@[simp] theorem modPort_freeCount : (s.modPort p f).freeCount = s.freeCount := rfl

end modPort_fields

/-! ### `modSlot` -/

section modSlot_fields
variable (p : Port) (f : Slot → Slot)

@[simp] theorem modSlot_pending : (s.modSlot p f).pending = s.pending := rfl
@[simp] theorem modSlot_pins : (s.modSlot p f).pins = s.pins := rfl
@[simp] theorem modSlot_strict : (s.modSlot p f).strict = s.strict := rfl
@[simp] theorem modSlot_rate : (s.modSlot p f).rate = s.rate := rfl
@[simp] theorem modSlot_rx : (s.modSlot p f).rx = s.rx := rfl
@[simp] theorem modSlot_frames : (s.modSlot p f).frames = s.frames := rfl
@[simp] theorem modSlot_unanswered : (s.modSlot p f).unanswered = s.unanswered := rfl
@[simp] theorem modSlot_sending : (s.modSlot p f).sending = s.sending := rfl
@[simp] theorem modSlot_reports : (s.modSlot p f).reports = s.reports := rfl
@[simp] theorem modSlot_dropped : (s.modSlot p f).dropped = s.dropped := rfl
@[simp] theorem modSlot_floorTime : (s.modSlot p f).floorTime = s.floorTime := rfl
@[simp] theorem modSlot_elapsed : (s.modSlot p f).elapsed = s.elapsed := rfl
@[simp] theorem modSlot_params : (s.modSlot p f).params = s.params := rfl
@[simp] theorem modSlot_products : (s.modSlot p f).products = s.products := rfl
@[simp] theorem modSlot_lots : (s.modSlot p f).lots = s.lots := rfl
@[simp] theorem modSlot_entrySeq : (s.modSlot p f).entrySeq = s.entrySeq := rfl
@[simp] theorem modSlot_ports : (s.modSlot p f).ports = s.ports := rfl
@[simp] theorem modSlot_claims : (s.modSlot p f).claims = s.claims := rfl
@[simp] theorem modSlot_cells : (s.modSlot p f).cells = s.cells := rfl
@[simp] theorem modSlot_queues : (s.modSlot p f).queues = s.queues := rfl
@[simp] theorem modSlot_saves : (s.modSlot p f).saves = s.saves := rfl
@[simp] theorem modSlot_waitList : (s.modSlot p f).waitList = s.waitList := rfl
@[simp] theorem modSlot_tallyWait : (s.modSlot p f).tallyWait = s.tallyWait := rfl
@[simp] theorem modSlot_pass : (s.modSlot p f).pass = s.pass := rfl
@[simp] theorem modSlot_catalog : (s.modSlot p f).catalog = s.catalog := rfl
@[simp] theorem modSlot_strays : (s.modSlot p f).strays = s.strays := rfl
@[simp] theorem modSlot_tallies : (s.modSlot p f).tallies = s.tallies := rfl
@[simp] theorem modSlot_holds : (s.modSlot p f).holds = s.holds := rfl
@[simp] theorem modSlot_groups : (s.modSlot p f).groups = s.groups := rfl
@[simp] theorem modSlot_freeCount : (s.modSlot p f).freeCount = s.freeCount := rfl

end modSlot_fields

/-! ### `modCellRec` -/

section modCellRec_fields
variable (c : CellNo) (f : CellRec → CellRec)

@[simp] theorem modCellRec_pending : (s.modCellRec c f).pending = s.pending := rfl
@[simp] theorem modCellRec_pins : (s.modCellRec c f).pins = s.pins := rfl
@[simp] theorem modCellRec_strict : (s.modCellRec c f).strict = s.strict := rfl
@[simp] theorem modCellRec_rate : (s.modCellRec c f).rate = s.rate := rfl
@[simp] theorem modCellRec_rx : (s.modCellRec c f).rx = s.rx := rfl
@[simp] theorem modCellRec_frames : (s.modCellRec c f).frames = s.frames := rfl
@[simp] theorem modCellRec_unanswered : (s.modCellRec c f).unanswered = s.unanswered := rfl
@[simp] theorem modCellRec_sending : (s.modCellRec c f).sending = s.sending := rfl
@[simp] theorem modCellRec_reports : (s.modCellRec c f).reports = s.reports := rfl
@[simp] theorem modCellRec_dropped : (s.modCellRec c f).dropped = s.dropped := rfl
@[simp] theorem modCellRec_floorTime : (s.modCellRec c f).floorTime = s.floorTime := rfl
@[simp] theorem modCellRec_elapsed : (s.modCellRec c f).elapsed = s.elapsed := rfl
@[simp] theorem modCellRec_params : (s.modCellRec c f).params = s.params := rfl
@[simp] theorem modCellRec_products : (s.modCellRec c f).products = s.products := rfl
@[simp] theorem modCellRec_lots : (s.modCellRec c f).lots = s.lots := rfl
@[simp] theorem modCellRec_entrySeq : (s.modCellRec c f).entrySeq = s.entrySeq := rfl
@[simp] theorem modCellRec_ports : (s.modCellRec c f).ports = s.ports := rfl
@[simp] theorem modCellRec_claims : (s.modCellRec c f).claims = s.claims := rfl
@[simp] theorem modCellRec_queues : (s.modCellRec c f).queues = s.queues := rfl
@[simp] theorem modCellRec_saves : (s.modCellRec c f).saves = s.saves := rfl
@[simp] theorem modCellRec_waitList : (s.modCellRec c f).waitList = s.waitList := rfl
@[simp] theorem modCellRec_tallyWait : (s.modCellRec c f).tallyWait = s.tallyWait := rfl
@[simp] theorem modCellRec_pass : (s.modCellRec c f).pass = s.pass := rfl
@[simp] theorem modCellRec_catalog : (s.modCellRec c f).catalog = s.catalog := rfl
@[simp] theorem modCellRec_slots : (s.modCellRec c f).slots = s.slots := rfl
@[simp] theorem modCellRec_strays : (s.modCellRec c f).strays = s.strays := rfl
@[simp] theorem modCellRec_tallies : (s.modCellRec c f).tallies = s.tallies := rfl
@[simp] theorem modCellRec_holds : (s.modCellRec c f).holds = s.holds := rfl
@[simp] theorem modCellRec_groups : (s.modCellRec c f).groups = s.groups := rfl
@[simp] theorem modCellRec_freeCount : (s.modCellRec c f).freeCount = s.freeCount := rfl

end modCellRec_fields

/-! ### `modCell` -/

section modCell_fields
variable (c : CellNo) (f : Cell → Cell)

@[simp] theorem modCell_pending : (s.modCell c f).pending = s.pending := rfl
@[simp] theorem modCell_pins : (s.modCell c f).pins = s.pins := rfl
@[simp] theorem modCell_strict : (s.modCell c f).strict = s.strict := rfl
@[simp] theorem modCell_rate : (s.modCell c f).rate = s.rate := rfl
@[simp] theorem modCell_rx : (s.modCell c f).rx = s.rx := rfl
@[simp] theorem modCell_frames : (s.modCell c f).frames = s.frames := rfl
@[simp] theorem modCell_unanswered : (s.modCell c f).unanswered = s.unanswered := rfl
@[simp] theorem modCell_sending : (s.modCell c f).sending = s.sending := rfl
@[simp] theorem modCell_reports : (s.modCell c f).reports = s.reports := rfl
@[simp] theorem modCell_dropped : (s.modCell c f).dropped = s.dropped := rfl
@[simp] theorem modCell_floorTime : (s.modCell c f).floorTime = s.floorTime := rfl
@[simp] theorem modCell_elapsed : (s.modCell c f).elapsed = s.elapsed := rfl
@[simp] theorem modCell_params : (s.modCell c f).params = s.params := rfl
@[simp] theorem modCell_products : (s.modCell c f).products = s.products := rfl
@[simp] theorem modCell_lots : (s.modCell c f).lots = s.lots := rfl
@[simp] theorem modCell_entrySeq : (s.modCell c f).entrySeq = s.entrySeq := rfl
@[simp] theorem modCell_ports : (s.modCell c f).ports = s.ports := rfl
@[simp] theorem modCell_claims : (s.modCell c f).claims = s.claims := rfl
@[simp] theorem modCell_queues : (s.modCell c f).queues = s.queues := rfl
@[simp] theorem modCell_saves : (s.modCell c f).saves = s.saves := rfl
@[simp] theorem modCell_waitList : (s.modCell c f).waitList = s.waitList := rfl
@[simp] theorem modCell_tallyWait : (s.modCell c f).tallyWait = s.tallyWait := rfl
@[simp] theorem modCell_pass : (s.modCell c f).pass = s.pass := rfl
@[simp] theorem modCell_catalog : (s.modCell c f).catalog = s.catalog := rfl
@[simp] theorem modCell_slots : (s.modCell c f).slots = s.slots := rfl
@[simp] theorem modCell_strays : (s.modCell c f).strays = s.strays := rfl
@[simp] theorem modCell_tallies : (s.modCell c f).tallies = s.tallies := rfl
@[simp] theorem modCell_holds : (s.modCell c f).holds = s.holds := rfl
@[simp] theorem modCell_groups : (s.modCell c f).groups = s.groups := rfl
@[simp] theorem modCell_freeCount : (s.modCell c f).freeCount = s.freeCount := rfl

end modCell_fields

/-! ### `modQueue` -/

section modQueue_fields
variable (c : CellNo) (f : DispatchQueue → DispatchQueue)

@[simp] theorem modQueue_pending : (s.modQueue c f).pending = s.pending := rfl
@[simp] theorem modQueue_pins : (s.modQueue c f).pins = s.pins := rfl
@[simp] theorem modQueue_strict : (s.modQueue c f).strict = s.strict := rfl
@[simp] theorem modQueue_rate : (s.modQueue c f).rate = s.rate := rfl
@[simp] theorem modQueue_rx : (s.modQueue c f).rx = s.rx := rfl
@[simp] theorem modQueue_frames : (s.modQueue c f).frames = s.frames := rfl
@[simp] theorem modQueue_unanswered : (s.modQueue c f).unanswered = s.unanswered := rfl
@[simp] theorem modQueue_sending : (s.modQueue c f).sending = s.sending := rfl
@[simp] theorem modQueue_reports : (s.modQueue c f).reports = s.reports := rfl
@[simp] theorem modQueue_dropped : (s.modQueue c f).dropped = s.dropped := rfl
@[simp] theorem modQueue_floorTime : (s.modQueue c f).floorTime = s.floorTime := rfl
@[simp] theorem modQueue_elapsed : (s.modQueue c f).elapsed = s.elapsed := rfl
@[simp] theorem modQueue_params : (s.modQueue c f).params = s.params := rfl
@[simp] theorem modQueue_products : (s.modQueue c f).products = s.products := rfl
@[simp] theorem modQueue_lots : (s.modQueue c f).lots = s.lots := rfl
@[simp] theorem modQueue_entrySeq : (s.modQueue c f).entrySeq = s.entrySeq := rfl
@[simp] theorem modQueue_ports : (s.modQueue c f).ports = s.ports := rfl
@[simp] theorem modQueue_claims : (s.modQueue c f).claims = s.claims := rfl
@[simp] theorem modQueue_cells : (s.modQueue c f).cells = s.cells := rfl
@[simp] theorem modQueue_saves : (s.modQueue c f).saves = s.saves := rfl
@[simp] theorem modQueue_waitList : (s.modQueue c f).waitList = s.waitList := rfl
@[simp] theorem modQueue_tallyWait : (s.modQueue c f).tallyWait = s.tallyWait := rfl
@[simp] theorem modQueue_pass : (s.modQueue c f).pass = s.pass := rfl
@[simp] theorem modQueue_catalog : (s.modQueue c f).catalog = s.catalog := rfl
@[simp] theorem modQueue_slots : (s.modQueue c f).slots = s.slots := rfl
@[simp] theorem modQueue_strays : (s.modQueue c f).strays = s.strays := rfl
@[simp] theorem modQueue_tallies : (s.modQueue c f).tallies = s.tallies := rfl
@[simp] theorem modQueue_holds : (s.modQueue c f).holds = s.holds := rfl
@[simp] theorem modQueue_groups : (s.modQueue c f).groups = s.groups := rfl
@[simp] theorem modQueue_freeCount : (s.modQueue c f).freeCount = s.freeCount := rfl

end modQueue_fields

/-! ### `setSave` -/

section setSave_fields
variable (c : CellNo) (x : Option Nat)

@[simp] theorem setSave_pending : (s.setSave c x).pending = s.pending := rfl
@[simp] theorem setSave_pins : (s.setSave c x).pins = s.pins := rfl
@[simp] theorem setSave_strict : (s.setSave c x).strict = s.strict := rfl
@[simp] theorem setSave_rate : (s.setSave c x).rate = s.rate := rfl
@[simp] theorem setSave_rx : (s.setSave c x).rx = s.rx := rfl
@[simp] theorem setSave_frames : (s.setSave c x).frames = s.frames := rfl
@[simp] theorem setSave_unanswered : (s.setSave c x).unanswered = s.unanswered := rfl
@[simp] theorem setSave_sending : (s.setSave c x).sending = s.sending := rfl
@[simp] theorem setSave_reports : (s.setSave c x).reports = s.reports := rfl
@[simp] theorem setSave_dropped : (s.setSave c x).dropped = s.dropped := rfl
@[simp] theorem setSave_floorTime : (s.setSave c x).floorTime = s.floorTime := rfl
@[simp] theorem setSave_elapsed : (s.setSave c x).elapsed = s.elapsed := rfl
@[simp] theorem setSave_params : (s.setSave c x).params = s.params := rfl
@[simp] theorem setSave_products : (s.setSave c x).products = s.products := rfl
@[simp] theorem setSave_lots : (s.setSave c x).lots = s.lots := rfl
@[simp] theorem setSave_entrySeq : (s.setSave c x).entrySeq = s.entrySeq := rfl
@[simp] theorem setSave_ports : (s.setSave c x).ports = s.ports := rfl
@[simp] theorem setSave_claims : (s.setSave c x).claims = s.claims := rfl
@[simp] theorem setSave_cells : (s.setSave c x).cells = s.cells := rfl
@[simp] theorem setSave_queues : (s.setSave c x).queues = s.queues := rfl
@[simp] theorem setSave_waitList : (s.setSave c x).waitList = s.waitList := rfl
@[simp] theorem setSave_tallyWait : (s.setSave c x).tallyWait = s.tallyWait := rfl
@[simp] theorem setSave_pass : (s.setSave c x).pass = s.pass := rfl
@[simp] theorem setSave_catalog : (s.setSave c x).catalog = s.catalog := rfl
@[simp] theorem setSave_slots : (s.setSave c x).slots = s.slots := rfl
@[simp] theorem setSave_strays : (s.setSave c x).strays = s.strays := rfl
@[simp] theorem setSave_tallies : (s.setSave c x).tallies = s.tallies := rfl
@[simp] theorem setSave_holds : (s.setSave c x).holds = s.holds := rfl
@[simp] theorem setSave_groups : (s.setSave c x).groups = s.groups := rfl
@[simp] theorem setSave_freeCount : (s.setSave c x).freeCount = s.freeCount := rfl

end setSave_fields

/-! ### `modGroup` -/

section modGroup_fields
variable (g : Fin 16) (f : Group → Group)

@[simp] theorem modGroup_pending : (s.modGroup g f).pending = s.pending := rfl
@[simp] theorem modGroup_pins : (s.modGroup g f).pins = s.pins := rfl
@[simp] theorem modGroup_strict : (s.modGroup g f).strict = s.strict := rfl
@[simp] theorem modGroup_rate : (s.modGroup g f).rate = s.rate := rfl
@[simp] theorem modGroup_rx : (s.modGroup g f).rx = s.rx := rfl
@[simp] theorem modGroup_frames : (s.modGroup g f).frames = s.frames := rfl
@[simp] theorem modGroup_unanswered : (s.modGroup g f).unanswered = s.unanswered := rfl
@[simp] theorem modGroup_sending : (s.modGroup g f).sending = s.sending := rfl
@[simp] theorem modGroup_reports : (s.modGroup g f).reports = s.reports := rfl
@[simp] theorem modGroup_dropped : (s.modGroup g f).dropped = s.dropped := rfl
@[simp] theorem modGroup_floorTime : (s.modGroup g f).floorTime = s.floorTime := rfl
@[simp] theorem modGroup_elapsed : (s.modGroup g f).elapsed = s.elapsed := rfl
@[simp] theorem modGroup_params : (s.modGroup g f).params = s.params := rfl
@[simp] theorem modGroup_products : (s.modGroup g f).products = s.products := rfl
@[simp] theorem modGroup_lots : (s.modGroup g f).lots = s.lots := rfl
@[simp] theorem modGroup_entrySeq : (s.modGroup g f).entrySeq = s.entrySeq := rfl
@[simp] theorem modGroup_ports : (s.modGroup g f).ports = s.ports := rfl
@[simp] theorem modGroup_claims : (s.modGroup g f).claims = s.claims := rfl
@[simp] theorem modGroup_cells : (s.modGroup g f).cells = s.cells := rfl
@[simp] theorem modGroup_queues : (s.modGroup g f).queues = s.queues := rfl
@[simp] theorem modGroup_saves : (s.modGroup g f).saves = s.saves := rfl
@[simp] theorem modGroup_waitList : (s.modGroup g f).waitList = s.waitList := rfl
@[simp] theorem modGroup_tallyWait : (s.modGroup g f).tallyWait = s.tallyWait := rfl
@[simp] theorem modGroup_pass : (s.modGroup g f).pass = s.pass := rfl
@[simp] theorem modGroup_catalog : (s.modGroup g f).catalog = s.catalog := rfl
@[simp] theorem modGroup_slots : (s.modGroup g f).slots = s.slots := rfl
@[simp] theorem modGroup_strays : (s.modGroup g f).strays = s.strays := rfl
@[simp] theorem modGroup_tallies : (s.modGroup g f).tallies = s.tallies := rfl
@[simp] theorem modGroup_holds : (s.modGroup g f).holds = s.holds := rfl
@[simp] theorem modGroup_freeCount : (s.modGroup g f).freeCount = s.freeCount := rfl

end modGroup_fields

/-! ### `modLot` -/

section modLot_fields
variable (n : Nat) (f : Lot → Lot)

@[simp] theorem modLot_pending : (s.modLot n f).pending = s.pending := rfl
@[simp] theorem modLot_pins : (s.modLot n f).pins = s.pins := rfl
@[simp] theorem modLot_strict : (s.modLot n f).strict = s.strict := rfl
@[simp] theorem modLot_rate : (s.modLot n f).rate = s.rate := rfl
@[simp] theorem modLot_rx : (s.modLot n f).rx = s.rx := rfl
@[simp] theorem modLot_frames : (s.modLot n f).frames = s.frames := rfl
@[simp] theorem modLot_unanswered : (s.modLot n f).unanswered = s.unanswered := rfl
@[simp] theorem modLot_sending : (s.modLot n f).sending = s.sending := rfl
@[simp] theorem modLot_reports : (s.modLot n f).reports = s.reports := rfl
@[simp] theorem modLot_dropped : (s.modLot n f).dropped = s.dropped := rfl
@[simp] theorem modLot_floorTime : (s.modLot n f).floorTime = s.floorTime := rfl
@[simp] theorem modLot_elapsed : (s.modLot n f).elapsed = s.elapsed := rfl
@[simp] theorem modLot_params : (s.modLot n f).params = s.params := rfl
@[simp] theorem modLot_products : (s.modLot n f).products = s.products := rfl
@[simp] theorem modLot_entrySeq : (s.modLot n f).entrySeq = s.entrySeq := rfl
@[simp] theorem modLot_ports : (s.modLot n f).ports = s.ports := rfl
@[simp] theorem modLot_claims : (s.modLot n f).claims = s.claims := rfl
@[simp] theorem modLot_cells : (s.modLot n f).cells = s.cells := rfl
@[simp] theorem modLot_queues : (s.modLot n f).queues = s.queues := rfl
@[simp] theorem modLot_saves : (s.modLot n f).saves = s.saves := rfl
@[simp] theorem modLot_waitList : (s.modLot n f).waitList = s.waitList := rfl
@[simp] theorem modLot_tallyWait : (s.modLot n f).tallyWait = s.tallyWait := rfl
@[simp] theorem modLot_pass : (s.modLot n f).pass = s.pass := rfl
@[simp] theorem modLot_catalog : (s.modLot n f).catalog = s.catalog := rfl
@[simp] theorem modLot_slots : (s.modLot n f).slots = s.slots := rfl
@[simp] theorem modLot_strays : (s.modLot n f).strays = s.strays := rfl
@[simp] theorem modLot_tallies : (s.modLot n f).tallies = s.tallies := rfl
@[simp] theorem modLot_holds : (s.modLot n f).holds = s.holds := rfl
@[simp] theorem modLot_groups : (s.modLot n f).groups = s.groups := rfl
@[simp] theorem modLot_freeCount : (s.modLot n f).freeCount = s.freeCount := rfl

end modLot_fields

/-! ### `modStep` -/

section modStep_fields
variable (n i : Nat) (f : StepRec → StepRec)

@[simp] theorem modStep_pending : (s.modStep n i f).pending = s.pending := rfl
@[simp] theorem modStep_pins : (s.modStep n i f).pins = s.pins := rfl
@[simp] theorem modStep_strict : (s.modStep n i f).strict = s.strict := rfl
@[simp] theorem modStep_rate : (s.modStep n i f).rate = s.rate := rfl
@[simp] theorem modStep_rx : (s.modStep n i f).rx = s.rx := rfl
@[simp] theorem modStep_frames : (s.modStep n i f).frames = s.frames := rfl
@[simp] theorem modStep_unanswered : (s.modStep n i f).unanswered = s.unanswered := rfl
@[simp] theorem modStep_sending : (s.modStep n i f).sending = s.sending := rfl
@[simp] theorem modStep_reports : (s.modStep n i f).reports = s.reports := rfl
@[simp] theorem modStep_dropped : (s.modStep n i f).dropped = s.dropped := rfl
@[simp] theorem modStep_floorTime : (s.modStep n i f).floorTime = s.floorTime := rfl
@[simp] theorem modStep_elapsed : (s.modStep n i f).elapsed = s.elapsed := rfl
@[simp] theorem modStep_params : (s.modStep n i f).params = s.params := rfl
@[simp] theorem modStep_products : (s.modStep n i f).products = s.products := rfl
@[simp] theorem modStep_entrySeq : (s.modStep n i f).entrySeq = s.entrySeq := rfl
@[simp] theorem modStep_ports : (s.modStep n i f).ports = s.ports := rfl
@[simp] theorem modStep_claims : (s.modStep n i f).claims = s.claims := rfl
@[simp] theorem modStep_cells : (s.modStep n i f).cells = s.cells := rfl
@[simp] theorem modStep_queues : (s.modStep n i f).queues = s.queues := rfl
@[simp] theorem modStep_saves : (s.modStep n i f).saves = s.saves := rfl
@[simp] theorem modStep_waitList : (s.modStep n i f).waitList = s.waitList := rfl
@[simp] theorem modStep_tallyWait : (s.modStep n i f).tallyWait = s.tallyWait := rfl
@[simp] theorem modStep_pass : (s.modStep n i f).pass = s.pass := rfl
@[simp] theorem modStep_catalog : (s.modStep n i f).catalog = s.catalog := rfl
@[simp] theorem modStep_slots : (s.modStep n i f).slots = s.slots := rfl
@[simp] theorem modStep_strays : (s.modStep n i f).strays = s.strays := rfl
@[simp] theorem modStep_tallies : (s.modStep n i f).tallies = s.tallies := rfl
@[simp] theorem modStep_holds : (s.modStep n i f).holds = s.holds := rfl
@[simp] theorem modStep_groups : (s.modStep n i f).groups = s.groups := rfl
@[simp] theorem modStep_freeCount : (s.modStep n i f).freeCount = s.freeCount := rfl

end modStep_fields

/-! ### `modTally` -/

section modTally_fields
variable (n : Nat) (f : Tally → Tally)

@[simp] theorem modTally_pending : (s.modTally n f).pending = s.pending := rfl
@[simp] theorem modTally_pins : (s.modTally n f).pins = s.pins := rfl
@[simp] theorem modTally_strict : (s.modTally n f).strict = s.strict := rfl
@[simp] theorem modTally_rate : (s.modTally n f).rate = s.rate := rfl
@[simp] theorem modTally_rx : (s.modTally n f).rx = s.rx := rfl
@[simp] theorem modTally_frames : (s.modTally n f).frames = s.frames := rfl
@[simp] theorem modTally_unanswered : (s.modTally n f).unanswered = s.unanswered := rfl
@[simp] theorem modTally_sending : (s.modTally n f).sending = s.sending := rfl
@[simp] theorem modTally_reports : (s.modTally n f).reports = s.reports := rfl
@[simp] theorem modTally_dropped : (s.modTally n f).dropped = s.dropped := rfl
@[simp] theorem modTally_floorTime : (s.modTally n f).floorTime = s.floorTime := rfl
@[simp] theorem modTally_elapsed : (s.modTally n f).elapsed = s.elapsed := rfl
@[simp] theorem modTally_params : (s.modTally n f).params = s.params := rfl
@[simp] theorem modTally_products : (s.modTally n f).products = s.products := rfl
@[simp] theorem modTally_lots : (s.modTally n f).lots = s.lots := rfl
@[simp] theorem modTally_entrySeq : (s.modTally n f).entrySeq = s.entrySeq := rfl
@[simp] theorem modTally_ports : (s.modTally n f).ports = s.ports := rfl
@[simp] theorem modTally_claims : (s.modTally n f).claims = s.claims := rfl
@[simp] theorem modTally_cells : (s.modTally n f).cells = s.cells := rfl
@[simp] theorem modTally_queues : (s.modTally n f).queues = s.queues := rfl
@[simp] theorem modTally_saves : (s.modTally n f).saves = s.saves := rfl
@[simp] theorem modTally_waitList : (s.modTally n f).waitList = s.waitList := rfl
@[simp] theorem modTally_tallyWait : (s.modTally n f).tallyWait = s.tallyWait := rfl
@[simp] theorem modTally_pass : (s.modTally n f).pass = s.pass := rfl
@[simp] theorem modTally_catalog : (s.modTally n f).catalog = s.catalog := rfl
@[simp] theorem modTally_slots : (s.modTally n f).slots = s.slots := rfl
@[simp] theorem modTally_strays : (s.modTally n f).strays = s.strays := rfl
@[simp] theorem modTally_holds : (s.modTally n f).holds = s.holds := rfl
@[simp] theorem modTally_groups : (s.modTally n f).groups = s.groups := rfl
@[simp] theorem modTally_freeCount : (s.modTally n f).freeCount = s.freeCount := rfl

end modTally_fields

/-! ### `trigger` -/

section trigger_fields

@[simp] theorem trigger_pending : (s.trigger).pending = s.pending := rfl
@[simp] theorem trigger_pins : (s.trigger).pins = s.pins := rfl
@[simp] theorem trigger_strict : (s.trigger).strict = s.strict := rfl
@[simp] theorem trigger_rate : (s.trigger).rate = s.rate := rfl
@[simp] theorem trigger_rx : (s.trigger).rx = s.rx := rfl
@[simp] theorem trigger_frames : (s.trigger).frames = s.frames := rfl
@[simp] theorem trigger_unanswered : (s.trigger).unanswered = s.unanswered := rfl
@[simp] theorem trigger_sending : (s.trigger).sending = s.sending := rfl
@[simp] theorem trigger_reports : (s.trigger).reports = s.reports := rfl
@[simp] theorem trigger_dropped : (s.trigger).dropped = s.dropped := rfl
@[simp] theorem trigger_floorTime : (s.trigger).floorTime = s.floorTime := rfl
@[simp] theorem trigger_elapsed : (s.trigger).elapsed = s.elapsed := rfl
@[simp] theorem trigger_params : (s.trigger).params = s.params := rfl
@[simp] theorem trigger_products : (s.trigger).products = s.products := rfl
@[simp] theorem trigger_lots : (s.trigger).lots = s.lots := rfl
@[simp] theorem trigger_entrySeq : (s.trigger).entrySeq = s.entrySeq := rfl
@[simp] theorem trigger_ports : (s.trigger).ports = s.ports := rfl
@[simp] theorem trigger_claims : (s.trigger).claims = s.claims := rfl
@[simp] theorem trigger_cells : (s.trigger).cells = s.cells := rfl
@[simp] theorem trigger_queues : (s.trigger).queues = s.queues := rfl
@[simp] theorem trigger_saves : (s.trigger).saves = s.saves := rfl
@[simp] theorem trigger_waitList : (s.trigger).waitList = s.waitList := rfl
@[simp] theorem trigger_tallyWait : (s.trigger).tallyWait = s.tallyWait := rfl
@[simp] theorem trigger_catalog : (s.trigger).catalog = s.catalog := rfl
@[simp] theorem trigger_slots : (s.trigger).slots = s.slots := rfl
@[simp] theorem trigger_strays : (s.trigger).strays = s.strays := rfl
@[simp] theorem trigger_tallies : (s.trigger).tallies = s.tallies := rfl
@[simp] theorem trigger_holds : (s.trigger).holds = s.holds := rfl
@[simp] theorem trigger_groups : (s.trigger).groups = s.groups := rfl
@[simp] theorem trigger_freeCount : (s.trigger).freeCount = s.freeCount := rfl

end trigger_fields

/-! ### `leaveWait` -/

section leaveWait_fields
variable (n : Nat)

@[simp] theorem leaveWait_pending : (s.leaveWait n).pending = s.pending := rfl
@[simp] theorem leaveWait_pins : (s.leaveWait n).pins = s.pins := rfl
@[simp] theorem leaveWait_strict : (s.leaveWait n).strict = s.strict := rfl
@[simp] theorem leaveWait_rate : (s.leaveWait n).rate = s.rate := rfl
@[simp] theorem leaveWait_rx : (s.leaveWait n).rx = s.rx := rfl
@[simp] theorem leaveWait_frames : (s.leaveWait n).frames = s.frames := rfl
@[simp] theorem leaveWait_unanswered : (s.leaveWait n).unanswered = s.unanswered := rfl
@[simp] theorem leaveWait_sending : (s.leaveWait n).sending = s.sending := rfl
@[simp] theorem leaveWait_reports : (s.leaveWait n).reports = s.reports := rfl
@[simp] theorem leaveWait_dropped : (s.leaveWait n).dropped = s.dropped := rfl
@[simp] theorem leaveWait_floorTime : (s.leaveWait n).floorTime = s.floorTime := rfl
@[simp] theorem leaveWait_elapsed : (s.leaveWait n).elapsed = s.elapsed := rfl
@[simp] theorem leaveWait_params : (s.leaveWait n).params = s.params := rfl
@[simp] theorem leaveWait_products : (s.leaveWait n).products = s.products := rfl
@[simp] theorem leaveWait_lots : (s.leaveWait n).lots = s.lots := rfl
@[simp] theorem leaveWait_entrySeq : (s.leaveWait n).entrySeq = s.entrySeq := rfl
@[simp] theorem leaveWait_ports : (s.leaveWait n).ports = s.ports := rfl
@[simp] theorem leaveWait_claims : (s.leaveWait n).claims = s.claims := rfl
@[simp] theorem leaveWait_cells : (s.leaveWait n).cells = s.cells := rfl
@[simp] theorem leaveWait_queues : (s.leaveWait n).queues = s.queues := rfl
@[simp] theorem leaveWait_saves : (s.leaveWait n).saves = s.saves := rfl
@[simp] theorem leaveWait_tallyWait : (s.leaveWait n).tallyWait = s.tallyWait := rfl
@[simp] theorem leaveWait_pass : (s.leaveWait n).pass = s.pass := rfl
@[simp] theorem leaveWait_catalog : (s.leaveWait n).catalog = s.catalog := rfl
@[simp] theorem leaveWait_slots : (s.leaveWait n).slots = s.slots := rfl
@[simp] theorem leaveWait_strays : (s.leaveWait n).strays = s.strays := rfl
@[simp] theorem leaveWait_tallies : (s.leaveWait n).tallies = s.tallies := rfl
@[simp] theorem leaveWait_holds : (s.leaveWait n).holds = s.holds := rfl
@[simp] theorem leaveWait_groups : (s.leaveWait n).groups = s.groups := rfl
@[simp] theorem leaveWait_freeCount : (s.leaveWait n).freeCount = s.freeCount := rfl

end leaveWait_fields

/-! ### `joinWait` -/

section joinWait_fields
variable (n : Nat)

@[simp] theorem joinWait_pending : (s.joinWait n).pending = s.pending := rfl
@[simp] theorem joinWait_pins : (s.joinWait n).pins = s.pins := rfl
@[simp] theorem joinWait_strict : (s.joinWait n).strict = s.strict := rfl
@[simp] theorem joinWait_rate : (s.joinWait n).rate = s.rate := rfl
@[simp] theorem joinWait_rx : (s.joinWait n).rx = s.rx := rfl
@[simp] theorem joinWait_frames : (s.joinWait n).frames = s.frames := rfl
@[simp] theorem joinWait_unanswered : (s.joinWait n).unanswered = s.unanswered := rfl
@[simp] theorem joinWait_sending : (s.joinWait n).sending = s.sending := rfl
@[simp] theorem joinWait_reports : (s.joinWait n).reports = s.reports := rfl
@[simp] theorem joinWait_dropped : (s.joinWait n).dropped = s.dropped := rfl
@[simp] theorem joinWait_floorTime : (s.joinWait n).floorTime = s.floorTime := rfl
@[simp] theorem joinWait_elapsed : (s.joinWait n).elapsed = s.elapsed := rfl
@[simp] theorem joinWait_params : (s.joinWait n).params = s.params := rfl
@[simp] theorem joinWait_products : (s.joinWait n).products = s.products := rfl
@[simp] theorem joinWait_lots : (s.joinWait n).lots = s.lots := rfl
@[simp] theorem joinWait_entrySeq : (s.joinWait n).entrySeq = s.entrySeq := rfl
@[simp] theorem joinWait_ports : (s.joinWait n).ports = s.ports := rfl
@[simp] theorem joinWait_claims : (s.joinWait n).claims = s.claims := rfl
@[simp] theorem joinWait_cells : (s.joinWait n).cells = s.cells := rfl
@[simp] theorem joinWait_queues : (s.joinWait n).queues = s.queues := rfl
@[simp] theorem joinWait_saves : (s.joinWait n).saves = s.saves := rfl
@[simp] theorem joinWait_tallyWait : (s.joinWait n).tallyWait = s.tallyWait := rfl
@[simp] theorem joinWait_catalog : (s.joinWait n).catalog = s.catalog := rfl
@[simp] theorem joinWait_slots : (s.joinWait n).slots = s.slots := rfl
@[simp] theorem joinWait_strays : (s.joinWait n).strays = s.strays := rfl
@[simp] theorem joinWait_tallies : (s.joinWait n).tallies = s.tallies := rfl
@[simp] theorem joinWait_holds : (s.joinWait n).holds = s.holds := rfl
@[simp] theorem joinWait_groups : (s.joinWait n).groups = s.groups := rfl
@[simp] theorem joinWait_freeCount : (s.joinWait n).freeCount = s.freeCount := rfl

end joinWait_fields

/-! ### `answer` -/

section answer_fields
variable (r : Reply)

@[simp] theorem answer_pending : (answer r s).pending = s.pending := rfl
@[simp] theorem answer_pins : (answer r s).pins = s.pins := rfl
@[simp] theorem answer_strict : (answer r s).strict = s.strict := rfl
@[simp] theorem answer_rate : (answer r s).rate = s.rate := rfl
@[simp] theorem answer_rx : (answer r s).rx = s.rx := rfl
@[simp] theorem answer_frames : (answer r s).frames = s.frames := rfl
@[simp] theorem answer_sending : (answer r s).sending = s.sending := rfl
@[simp] theorem answer_reports : (answer r s).reports = s.reports := rfl
@[simp] theorem answer_dropped : (answer r s).dropped = s.dropped := rfl
@[simp] theorem answer_floorTime : (answer r s).floorTime = s.floorTime := rfl
@[simp] theorem answer_elapsed : (answer r s).elapsed = s.elapsed := rfl
@[simp] theorem answer_params : (answer r s).params = s.params := rfl
@[simp] theorem answer_products : (answer r s).products = s.products := rfl
@[simp] theorem answer_lots : (answer r s).lots = s.lots := rfl
@[simp] theorem answer_entrySeq : (answer r s).entrySeq = s.entrySeq := rfl
@[simp] theorem answer_ports : (answer r s).ports = s.ports := rfl
@[simp] theorem answer_claims : (answer r s).claims = s.claims := rfl
@[simp] theorem answer_cells : (answer r s).cells = s.cells := rfl
@[simp] theorem answer_queues : (answer r s).queues = s.queues := rfl
@[simp] theorem answer_saves : (answer r s).saves = s.saves := rfl
@[simp] theorem answer_waitList : (answer r s).waitList = s.waitList := rfl
@[simp] theorem answer_tallyWait : (answer r s).tallyWait = s.tallyWait := rfl
@[simp] theorem answer_pass : (answer r s).pass = s.pass := rfl
@[simp] theorem answer_catalog : (answer r s).catalog = s.catalog := rfl
@[simp] theorem answer_slots : (answer r s).slots = s.slots := rfl
@[simp] theorem answer_strays : (answer r s).strays = s.strays := rfl
@[simp] theorem answer_tallies : (answer r s).tallies = s.tallies := rfl
@[simp] theorem answer_holds : (answer r s).holds = s.holds := rfl
@[simp] theorem answer_groups : (answer r s).groups = s.groups := rfl
@[simp] theorem answer_freeCount : (answer r s).freeCount = s.freeCount := rfl

end answer_fields

/-! ### `countIgnored` -/

section countIgnored_fields
variable (p : Port)

@[simp] theorem countIgnored_pending : (countIgnored p s).pending = s.pending := rfl
@[simp] theorem countIgnored_pins : (countIgnored p s).pins = s.pins := rfl
@[simp] theorem countIgnored_strict : (countIgnored p s).strict = s.strict := rfl
@[simp] theorem countIgnored_rate : (countIgnored p s).rate = s.rate := rfl
@[simp] theorem countIgnored_rx : (countIgnored p s).rx = s.rx := rfl
@[simp] theorem countIgnored_frames : (countIgnored p s).frames = s.frames := rfl
@[simp] theorem countIgnored_unanswered : (countIgnored p s).unanswered = s.unanswered := rfl
@[simp] theorem countIgnored_sending : (countIgnored p s).sending = s.sending := rfl
@[simp] theorem countIgnored_reports : (countIgnored p s).reports = s.reports := rfl
@[simp] theorem countIgnored_dropped : (countIgnored p s).dropped = s.dropped := rfl
@[simp] theorem countIgnored_floorTime : (countIgnored p s).floorTime = s.floorTime := rfl
@[simp] theorem countIgnored_elapsed : (countIgnored p s).elapsed = s.elapsed := rfl
@[simp] theorem countIgnored_params : (countIgnored p s).params = s.params := rfl
@[simp] theorem countIgnored_products : (countIgnored p s).products = s.products := rfl
@[simp] theorem countIgnored_lots : (countIgnored p s).lots = s.lots := rfl
@[simp] theorem countIgnored_entrySeq : (countIgnored p s).entrySeq = s.entrySeq := rfl
@[simp] theorem countIgnored_claims : (countIgnored p s).claims = s.claims := rfl
@[simp] theorem countIgnored_cells : (countIgnored p s).cells = s.cells := rfl
@[simp] theorem countIgnored_queues : (countIgnored p s).queues = s.queues := rfl
@[simp] theorem countIgnored_saves : (countIgnored p s).saves = s.saves := rfl
@[simp] theorem countIgnored_waitList : (countIgnored p s).waitList = s.waitList := rfl
@[simp] theorem countIgnored_tallyWait : (countIgnored p s).tallyWait = s.tallyWait := rfl
@[simp] theorem countIgnored_pass : (countIgnored p s).pass = s.pass := rfl
@[simp] theorem countIgnored_catalog : (countIgnored p s).catalog = s.catalog := rfl
@[simp] theorem countIgnored_slots : (countIgnored p s).slots = s.slots := rfl
@[simp] theorem countIgnored_strays : (countIgnored p s).strays = s.strays := rfl
@[simp] theorem countIgnored_tallies : (countIgnored p s).tallies = s.tallies := rfl
@[simp] theorem countIgnored_holds : (countIgnored p s).holds = s.holds := rfl
@[simp] theorem countIgnored_groups : (countIgnored p s).groups = s.groups := rfl
@[simp] theorem countIgnored_freeCount : (countIgnored p s).freeCount = s.freeCount := rfl

end countIgnored_fields

/-! ### `place` -/

section place_fields
variable (r : Report)

@[simp] theorem place_pending : (place r s).pending = s.pending := by unfold place; split <;> rfl
@[simp] theorem place_pins : (place r s).pins = s.pins := by unfold place; split <;> rfl
@[simp] theorem place_strict : (place r s).strict = s.strict := by unfold place; split <;> rfl
@[simp] theorem place_rate : (place r s).rate = s.rate := by unfold place; split <;> rfl
@[simp] theorem place_rx : (place r s).rx = s.rx := by unfold place; split <;> rfl
@[simp] theorem place_frames : (place r s).frames = s.frames := by unfold place; split <;> rfl
@[simp] theorem place_unanswered : (place r s).unanswered = s.unanswered := by unfold place; split <;> rfl
@[simp] theorem place_sending : (place r s).sending = s.sending := by unfold place; split <;> rfl
@[simp] theorem place_floorTime : (place r s).floorTime = s.floorTime := by unfold place; split <;> rfl
@[simp] theorem place_elapsed : (place r s).elapsed = s.elapsed := by unfold place; split <;> rfl
@[simp] theorem place_params : (place r s).params = s.params := by unfold place; split <;> rfl
@[simp] theorem place_products : (place r s).products = s.products := by unfold place; split <;> rfl
@[simp] theorem place_lots : (place r s).lots = s.lots := by unfold place; split <;> rfl
@[simp] theorem place_entrySeq : (place r s).entrySeq = s.entrySeq := by unfold place; split <;> rfl
@[simp] theorem place_ports : (place r s).ports = s.ports := by unfold place; split <;> rfl
@[simp] theorem place_claims : (place r s).claims = s.claims := by unfold place; split <;> rfl
@[simp] theorem place_cells : (place r s).cells = s.cells := by unfold place; split <;> rfl
@[simp] theorem place_queues : (place r s).queues = s.queues := by unfold place; split <;> rfl
@[simp] theorem place_saves : (place r s).saves = s.saves := by unfold place; split <;> rfl
@[simp] theorem place_waitList : (place r s).waitList = s.waitList := by unfold place; split <;> rfl
@[simp] theorem place_tallyWait : (place r s).tallyWait = s.tallyWait := by unfold place; split <;> rfl
@[simp] theorem place_pass : (place r s).pass = s.pass := by unfold place; split <;> rfl
@[simp] theorem place_catalog : (place r s).catalog = s.catalog := by unfold place; split <;> rfl
@[simp] theorem place_slots : (place r s).slots = s.slots := by unfold place; split <;> rfl
@[simp] theorem place_strays : (place r s).strays = s.strays := by unfold place; split <;> rfl
@[simp] theorem place_tallies : (place r s).tallies = s.tallies := by unfold place; split <;> rfl
@[simp] theorem place_holds : (place r s).holds = s.holds := by unfold place; split <;> rfl
@[simp] theorem place_groups : (place r s).groups = s.groups := by unfold place; split <;> rfl
@[simp] theorem place_freeCount : (place r s).freeCount = s.freeCount := by unfold place; split <;> rfl

end place_fields

/-! ### `send` -/

section send_fields
variable (p : Port) (d : Down)

@[simp] theorem send_pending : (send p d s).pending = s.pending := by unfold send; split <;> rfl
@[simp] theorem send_pins : (send p d s).pins = s.pins := by unfold send; split <;> rfl
@[simp] theorem send_strict : (send p d s).strict = s.strict := by unfold send; split <;> rfl
@[simp] theorem send_rate : (send p d s).rate = s.rate := by unfold send; split <;> rfl
@[simp] theorem send_rx : (send p d s).rx = s.rx := by unfold send; split <;> rfl
@[simp] theorem send_frames : (send p d s).frames = s.frames := by unfold send; split <;> rfl
@[simp] theorem send_unanswered : (send p d s).unanswered = s.unanswered := by unfold send; split <;> rfl
@[simp] theorem send_sending : (send p d s).sending = s.sending := by unfold send; split <;> rfl
@[simp] theorem send_reports : (send p d s).reports = s.reports := by unfold send; split <;> rfl
@[simp] theorem send_dropped : (send p d s).dropped = s.dropped := by unfold send; split <;> rfl
@[simp] theorem send_floorTime : (send p d s).floorTime = s.floorTime := by unfold send; split <;> rfl
@[simp] theorem send_elapsed : (send p d s).elapsed = s.elapsed := by unfold send; split <;> rfl
@[simp] theorem send_params : (send p d s).params = s.params := by unfold send; split <;> rfl
@[simp] theorem send_products : (send p d s).products = s.products := by unfold send; split <;> rfl
@[simp] theorem send_lots : (send p d s).lots = s.lots := by unfold send; split <;> rfl
@[simp] theorem send_entrySeq : (send p d s).entrySeq = s.entrySeq := by unfold send; split <;> rfl
@[simp] theorem send_claims : (send p d s).claims = s.claims := by unfold send; split <;> rfl
@[simp] theorem send_cells : (send p d s).cells = s.cells := by unfold send; split <;> rfl
@[simp] theorem send_queues : (send p d s).queues = s.queues := by unfold send; split <;> rfl
@[simp] theorem send_saves : (send p d s).saves = s.saves := by unfold send; split <;> rfl
@[simp] theorem send_waitList : (send p d s).waitList = s.waitList := by unfold send; split <;> rfl
@[simp] theorem send_tallyWait : (send p d s).tallyWait = s.tallyWait := by unfold send; split <;> rfl
@[simp] theorem send_pass : (send p d s).pass = s.pass := by unfold send; split <;> rfl
@[simp] theorem send_catalog : (send p d s).catalog = s.catalog := by unfold send; split <;> rfl
@[simp] theorem send_slots : (send p d s).slots = s.slots := by unfold send; split <;> rfl
@[simp] theorem send_strays : (send p d s).strays = s.strays := by unfold send; split <;> rfl
@[simp] theorem send_tallies : (send p d s).tallies = s.tallies := by unfold send; split <;> rfl
@[simp] theorem send_holds : (send p d s).holds = s.holds := by unfold send; split <;> rfl
@[simp] theorem send_groups : (send p d s).groups = s.groups := by unfold send; split <;> rfl
@[simp] theorem send_freeCount : (send p d s).freeCount = s.freeCount := by unfold send; split <;> rfl

end send_fields

/-! ### `transmit` -/

section transmit_fields

@[simp] theorem transmit_pending : (transmit s).pending = s.pending := by rw [transmit_eq]
@[simp] theorem transmit_pins : (transmit s).pins = s.pins := by rw [transmit_eq]
@[simp] theorem transmit_strict : (transmit s).strict = s.strict := by rw [transmit_eq]
@[simp] theorem transmit_rate : (transmit s).rate = s.rate := by rw [transmit_eq]
@[simp] theorem transmit_rx : (transmit s).rx = s.rx := by rw [transmit_eq]
@[simp] theorem transmit_frames : (transmit s).frames = s.frames := by rw [transmit_eq]
@[simp] theorem transmit_unanswered : (transmit s).unanswered = s.unanswered := by rw [transmit_eq]
@[simp] theorem transmit_reports : (transmit s).reports = s.reports := by rw [transmit_eq]
@[simp] theorem transmit_dropped : (transmit s).dropped = s.dropped := by rw [transmit_eq]
@[simp] theorem transmit_floorTime : (transmit s).floorTime = s.floorTime := by rw [transmit_eq]
@[simp] theorem transmit_elapsed : (transmit s).elapsed = s.elapsed := by rw [transmit_eq]
@[simp] theorem transmit_params : (transmit s).params = s.params := by rw [transmit_eq]
@[simp] theorem transmit_products : (transmit s).products = s.products := by rw [transmit_eq]
@[simp] theorem transmit_lots : (transmit s).lots = s.lots := by rw [transmit_eq]
@[simp] theorem transmit_entrySeq : (transmit s).entrySeq = s.entrySeq := by rw [transmit_eq]
@[simp] theorem transmit_ports : (transmit s).ports = s.ports := by rw [transmit_eq]
@[simp] theorem transmit_claims : (transmit s).claims = s.claims := by rw [transmit_eq]
@[simp] theorem transmit_cells : (transmit s).cells = s.cells := by rw [transmit_eq]
@[simp] theorem transmit_queues : (transmit s).queues = s.queues := by rw [transmit_eq]
@[simp] theorem transmit_saves : (transmit s).saves = s.saves := by rw [transmit_eq]
@[simp] theorem transmit_waitList : (transmit s).waitList = s.waitList := by rw [transmit_eq]
@[simp] theorem transmit_tallyWait : (transmit s).tallyWait = s.tallyWait := by rw [transmit_eq]
@[simp] theorem transmit_pass : (transmit s).pass = s.pass := by rw [transmit_eq]
@[simp] theorem transmit_catalog : (transmit s).catalog = s.catalog := by rw [transmit_eq]
@[simp] theorem transmit_slots : (transmit s).slots = s.slots := by rw [transmit_eq]
@[simp] theorem transmit_strays : (transmit s).strays = s.strays := by rw [transmit_eq]
@[simp] theorem transmit_tallies : (transmit s).tallies = s.tallies := by rw [transmit_eq]
@[simp] theorem transmit_holds : (transmit s).holds = s.holds := by rw [transmit_eq]
@[simp] theorem transmit_groups : (transmit s).groups = s.groups := by rw [transmit_eq]
@[simp] theorem transmit_freeCount : (transmit s).freeCount = s.freeCount := by rw [transmit_eq]

end transmit_fields

end Sys2Proof.Machine
end

