-- ==== Sys2Proof/Laws/Frame.lean ====
section
/-! SUPPORT. What no notice changes: the host line's receiver and buffers, the clocks, the parameters, the products, the
catalog, the groups, the stray counts, the pins and the model's own fields. -/

namespace Sys2Proof.Machine

/-- A state with every part that a notice can change blanked. -/
def State.outer (s : State) : State :=
  { s with
    lots := [], entrySeq := 0, ports := Vector.replicate 32 {}, claims := [], cells := Vector.replicate 16 {}
    queues := Vector.replicate 16 {}, saves := Vector.replicate 16 none, waitList := [], tallyWait := [], pass := {}
    slots := Vector.replicate 32 {}, tallies := [], holds := [], reports := [], dropped := 0 }

variable {s t : State}

theorem outer_pending (h : t.outer = s.outer) : t.pending = s.pending := by
  simpa [State.outer] using congrArg State.pending h
theorem outer_pins (h : t.outer = s.outer) : t.pins = s.pins := by
  simpa [State.outer] using congrArg State.pins h
theorem outer_strict (h : t.outer = s.outer) : t.strict = s.strict := by
  simpa [State.outer] using congrArg State.strict h
theorem outer_rate (h : t.outer = s.outer) : t.rate = s.rate := by
  simpa [State.outer] using congrArg State.rate h
theorem outer_rx (h : t.outer = s.outer) : t.rx = s.rx := by
  simpa [State.outer] using congrArg State.rx h
theorem outer_frames (h : t.outer = s.outer) : t.frames = s.frames := by
  simpa [State.outer] using congrArg State.frames h
theorem outer_unanswered (h : t.outer = s.outer) : t.unanswered = s.unanswered := by
  simpa [State.outer] using congrArg State.unanswered h
theorem outer_sending (h : t.outer = s.outer) : t.sending = s.sending := by
  simpa [State.outer] using congrArg State.sending h
theorem outer_floorTime (h : t.outer = s.outer) : t.floorTime = s.floorTime := by
  simpa [State.outer] using congrArg State.floorTime h
theorem outer_elapsed (h : t.outer = s.outer) : t.elapsed = s.elapsed := by
  simpa [State.outer] using congrArg State.elapsed h
theorem outer_params (h : t.outer = s.outer) : t.params = s.params := by
  simpa [State.outer] using congrArg State.params h
theorem outer_products (h : t.outer = s.outer) : t.products = s.products := by
  simpa [State.outer] using congrArg State.products h
theorem outer_catalog (h : t.outer = s.outer) : t.catalog = s.catalog := by
  simpa [State.outer] using congrArg State.catalog h
theorem outer_strays (h : t.outer = s.outer) : t.strays = s.strays := by
  simpa [State.outer] using congrArg State.strays h
theorem outer_groups (h : t.outer = s.outer) : t.groups = s.groups := by
  simpa [State.outer] using congrArg State.groups h
theorem outer_freeCount (h : t.outer = s.outer) : t.freeCount = s.freeCount := by
  simpa [State.outer] using congrArg State.freeCount h

/-! ## The updates -/

variable (s)

@[simp] theorem outer_modPort (p : Port) (f : PortRec → PortRec) : (s.modPort p f).outer = s.outer := rfl
@[simp] theorem outer_modSlot (p : Port) (f : Slot → Slot) : (s.modSlot p f).outer = s.outer := rfl
@[simp] theorem outer_modCellRec (c : CellNo) (f : CellRec → CellRec) : (s.modCellRec c f).outer = s.outer := rfl
@[simp] theorem outer_modCell (c : CellNo) (f : Cell → Cell) : (s.modCell c f).outer = s.outer := rfl
@[simp] theorem outer_modQueue (c : CellNo) (f : DispatchQueue → DispatchQueue) : (s.modQueue c f).outer = s.outer := rfl
@[simp] theorem outer_setSave (c : CellNo) (x : Option Nat) : (s.setSave c x).outer = s.outer := rfl
@[simp] theorem outer_modLot (n : Nat) (f : Lot → Lot) : (s.modLot n f).outer = s.outer := rfl
@[simp] theorem outer_modStep (n i : Nat) (f : StepRec → StepRec) : (s.modStep n i f).outer = s.outer := rfl
@[simp] theorem outer_modTally (n : Nat) (f : Tally → Tally) : (s.modTally n f).outer = s.outer := rfl
@[simp] theorem outer_trigger : s.trigger.outer = s.outer := rfl
@[simp] theorem outer_leaveWait (n : Nat) : (s.leaveWait n).outer = s.outer := rfl
@[simp] theorem outer_joinWait (n : Nat) : (s.joinWait n).outer = s.outer := rfl
@[simp] theorem outer_countIgnored (p : Port) : (countIgnored p s).outer = s.outer := rfl
@[simp] theorem outer_lots (x : List Lot) : ({ s with lots := x } : State).outer = s.outer := rfl
@[simp] theorem outer_holds (x : List Hold) : ({ s with holds := x } : State).outer = s.outer := rfl
@[simp] theorem outer_tallies (x : List Tally) : ({ s with tallies := x } : State).outer = s.outer := rfl
@[simp] theorem outer_claims (x : List Claim) : ({ s with claims := x } : State).outer = s.outer := rfl
@[simp] theorem outer_tallyWait (x : List CellNo) : ({ s with tallyWait := x } : State).outer = s.outer := rfl
@[simp] theorem outer_pass (x : Pass) : ({ s with pass := x } : State).outer = s.outer := rfl
@[simp] theorem outer_entrySeq (n : Nat) : ({ s with entrySeq := n } : State).outer = s.outer := rfl
@[simp] theorem outer_place (r : Report) : (place r s).outer = s.outer := by unfold place; split <;> rfl
@[simp] theorem outer_send (p : Port) (d : Down) : (send p d s).outer = s.outer := by unfold send; split <;> rfl

/-- A fold keeps what each of its steps keeps. -/
theorem outer_foldl {α : Type} (f : State → α → State) (h : ∀ s x, (f s x).outer = s.outer) (l : List α) :
    (l.foldl f s).outer = s.outer := by
  induction l generalizing s with
  | nil => rfl
  | cons x l ih => rw [List.foldl_cons, ih, h]

/-! ## The shared operations -/

@[simp] theorem outer_moveLot (n : Nat) (d : LotState) (l : Location) (x : Option CloseSection) :
    (s.moveLot n d l x).outer = s.outer := by unfold State.moveLot; split <;> simp
@[simp] theorem outer_toWaiting (n : Nat) (x : Option CloseSection) : (s.toWaiting n x).outer = s.outer := by
  unfold State.toWaiting; dsimp only; repeat' split
  all_goals simp
@[simp] theorem outer_renumber (c : CellNo) : (s.renumber c).outer = s.outer := by
  unfold State.renumber; exact outer_foldl s _ (fun (s : State) (e : Nat × Nat) => outer_modLot s e.1 _) _
@[simp] theorem outer_insertBehind (c : CellNo) (n : Nat) : (s.insertBehind c n).outer = s.outer := by simp [State.insertBehind]
@[simp] theorem outer_removeBehind (c : CellNo) (n : Nat) : (s.removeBehind c n).outer = s.outer := by simp [State.removeBehind]
@[simp] theorem outer_reportCell (c : CellNo) (x : Option CellState) : (reportCell c x s).outer = s.outer := by
  unfold reportCell; split <;> simp
@[simp] theorem outer_fireEdge (e : Edge) (c : CellNo) (f : Nat → Site → Bool) : (fireEdge e c f s).outer = s.outer := by
  unfold fireEdge; repeat' split
  all_goals simp
@[simp] theorem outer_makeChange (c : CellNo) (i : Nat) : (makeChange c s i).outer = s.outer := by
  unfold makeChange; dsimp only; repeat' split
  all_goals simp
@[simp] theorem outer_makeChanges (c : CellNo) : (makeChanges c s).outer = s.outer :=
  outer_foldl _ _ (fun s x => outer_makeChange s c x) _
@[simp] theorem outer_leaveRunning (c : CellNo) : (leaveRunning c s).1.outer = s.outer := by simp [leaveRunning]
@[simp] theorem outer_writeSetpoint (c : CellNo) (d : StepDef) : (writeSetpoint c d s).outer = s.outer := by
  unfold writeSetpoint; split <;> simp
@[simp] theorem outer_sendSetpoint (c : CellNo) : (sendSetpoint c s).outer = s.outer := by unfold sendSetpoint; split <;> simp
@[simp] theorem outer_reportLoad (p : Port) (o : LoadOutcome) (x : Option (Nat × Nat)) : (reportLoad p o x s).outer = s.outer := by
  simp [reportLoad]
@[simp] theorem outer_serve (p : Port) : (serve p s).outer = s.outer := by
  unfold serve; dsimp only; repeat' split
  all_goals simp
@[simp] theorem outer_setRequest (p : Port) (x : Option Nat) : (setRequest p x s).outer = s.outer := rfl
@[simp] theorem outer_markExtended (p : Port) : (markExtended p s).outer = s.outer := by
  unfold markExtended; repeat' split
  all_goals simp
@[simp] theorem outer_computeMargin (p : Port) : (computeMargin p s).outer = s.outer := by
  unfold computeMargin; split <;> simp
@[simp] theorem outer_consultMargin (p : Port) : (consultMargin p s).1.outer = s.outer := outer_computeMargin s p
@[simp] theorem outer_giveTally (n : Nat) : (giveTally n s).outer = s.outer := by unfold giveTally; split <;> simp
@[simp] theorem outer_askTally (c : CellNo) (n : Nat) : (askTally c n s).outer = s.outer := by
  unfold askTally; repeat' split
  all_goals simp
@[simp] theorem outer_freeTally (n : Nat) : (freeTally n s).outer = s.outer := by simp [freeTally]
@[simp] theorem outer_enterDrain (c : CellNo) (x : Purpose) : (enterDrain c x s).1.outer = s.outer := by
  unfold enterDrain; split <;> simp
@[simp] theorem outer_enterPaused (c : CellNo) : (enterPaused c s).1.outer = s.outer := by
  unfold enterPaused; dsimp only; repeat' split
  all_goals simp
@[simp] theorem outer_resumeRunning (c : CellNo) : (resumeRunning c s).1.outer = s.outer := by
  unfold resumeRunning; dsimp only; repeat' split
  all_goals simp
@[simp] theorem outer_enterManual (c : CellNo) : (enterManual c s).1.outer = s.outer := by unfold enterManual; split <;> simp
@[simp] theorem outer_holdEffect (n : Nat) (b : Bool) : (holdEffect n b s).1.outer = s.outer := by
  unfold holdEffect; repeat' split
  all_goals simp
@[simp] theorem outer_storeHold (q : HoldReq) (l : Lot) : (storeHold q l s).outer = s.outer := by
  unfold storeHold; split <;> simp
@[simp] theorem outer_withdrawAcceptance (q : HoldReq) : (withdrawAcceptance q s).outer = s.outer := by
  unfold withdrawAcceptance; split <;> simp
@[simp] theorem outer_raiseHold (q : HoldReq) : (raiseHold q s).1.outer = s.outer := by
  unfold raiseHold; dsimp only; repeat' split
  all_goals simp

/-! ## What a notice does -/

@[simp] theorem outer_writeSets (c : CellNo) (x : Causes) (w : Waiting) : (writeSets c x w s).outer = s.outer := rfl
@[simp] theorem outer_refreshStarting (c : CellNo) (k : Cell) (l : Lot) : (refreshStarting c k l s).1.outer = s.outer := by
  unfold refreshStarting; dsimp only; repeat' split
  all_goals simp
@[simp] theorem outer_refreshRunning (c : CellNo) (k : Cell) : (refreshRunning c k s).1.outer = s.outer := by
  unfold refreshRunning; dsimp only; split <;> simp
@[simp] theorem outer_sendReturn (c : CellNo) (k : Cell) : (sendReturn c k s).outer = s.outer := by simp [sendReturn]
@[simp] theorem outer_refreshPaused (c : CellNo) (k : Cell) : (refreshPaused c k s).1.outer = s.outer := by
  unfold refreshPaused; dsimp only; repeat' split
  all_goals simp
@[simp] theorem outer_refreshDraining (c : CellNo) (k : Cell) : (refreshDraining c k s).1.outer = s.outer := by
  simp [refreshDraining]
@[simp] theorem outer_refreshCell (c : CellNo) : (refreshCell c s).1.outer = s.outer := by
  unfold refreshCell; dsimp only; repeat' split
  all_goals simp
@[simp] theorem outer_returnQueued (c : CellNo) (n : Nat) : (returnQueued c s n).outer = s.outer := by simp [returnQueued]
@[simp] theorem outer_consultForQueue (c : CellNo) : (consultForQueue c s).1.outer = s.outer := by
  unfold consultForQueue; repeat' split
  all_goals simp
@[simp] theorem outer_eligibilityChanged (c : CellNo) : (eligibilityChanged c s).1.outer = s.outer := by
  unfold eligibilityChanged; dsimp only; split
  · rw [outer_trigger, outer_foldl _ _ (fun s n => outer_returnQueued s c n)]; simp
  · simp
@[simp] theorem outer_clearCurrent (c : CellNo) : (clearCurrent c s).outer = s.outer := rfl
@[simp] theorem outer_moveOut (c : CellNo) (n : Nat) (d : LotState) (x : Option CloseSection) :
    (moveOut c n d x s).outer = s.outer := by unfold moveOut; split <;> simp
@[simp] theorem outer_leaveCell (c : CellNo) (d : LotState) (x : Option CloseSection) : (leaveCell c d x s).1.outer = s.outer := by
  unfold leaveCell; split <;> simp
@[simp] theorem outer_goIdle (c : CellNo) : (goIdle c s).1.outer = s.outer := by unfold goIdle; split <;> simp
@[simp] theorem outer_toEntry0 (c : CellNo) (n : Nat) (l : List Nat) : (toEntry0 c n l s).outer = s.outer := by simp [toEntry0]
@[simp] theorem outer_moveUp (c : CellNo) : (moveUp c s).1.outer = s.outer := by unfold moveUp; split <;> simp
@[simp] theorem outer_restoreLot (c : CellNo) (k : Cell) (n : Nat) : (restoreLot c k n s).1.outer = s.outer := by
  unfold restoreLot; dsimp only; repeat' split
  all_goals simp
@[simp] theorem outer_emptySave (c : CellNo) : (emptySave c s).outer = s.outer := by
  unfold emptySave; repeat' split
  all_goals simp
@[simp] theorem outer_fillEntry (c : CellNo) (b : Bool) : (fillEntry c b s).1.outer = s.outer := by
  unfold fillEntry; repeat' split
  all_goals simp
@[simp] theorem outer_startLot (c : CellNo) : (startLot c s).1.outer = s.outer := by
  unfold startLot; dsimp only; split <;> simp
@[simp] theorem outer_openStep (l : Lot) : (openStep l s).outer = s.outer := rfl
@[simp] theorem outer_openSegment (c : CellNo) (l : Lot) : (openSegment c l s).outer = s.outer := rfl
@[simp] theorem outer_feedCell (c : CellNo) : (feedCell c s).1.outer = s.outer := by
  unfold feedCell; dsimp only; repeat' split
  all_goals simp
@[simp] theorem outer_drainCell (c : CellNo) (x : Purpose) : (drainCell c x s).1.outer = s.outer := by
  unfold drainCell; repeat' split
  all_goals simp
@[simp] theorem outer_loseSegment (c : CellNo) (g : Segment) : (loseSegment c g s).outer = s.outer := by simp [loseSegment]
@[simp] theorem outer_loseCounts (c : CellNo) : (loseCounts c s).1.outer = s.outer := by
  unfold loseCounts; repeat' split
  all_goals simp
@[simp] theorem outer_checkPreempt (c : CellNo) : (checkPreempt c s).1.outer = s.outer := by
  unfold checkPreempt; repeat' split
  all_goals rfl
@[simp] theorem outer_returnFromManual (c : CellNo) : (returnFromManual c s).1.outer = s.outer := by
  unfold returnFromManual; dsimp only; repeat' split
  all_goals simp
@[simp] theorem outer_changeMode (c : CellNo) (m : Mode) : (changeMode c m s).1.outer = s.outer := by
  unfold changeMode; dsimp only; repeat' split
  all_goals simp
@[simp] theorem outer_setTarget (c : CellNo) (i : Nat) (x : SiteState) : (setTarget c i x s).outer = s.outer := by
  unfold setTarget; dsimp only; repeat' split
  all_goals simp
@[simp] theorem outer_settleSite (c : CellNo) (i : Nat) : (settleSite c i s).1.outer = s.outer := by
  unfold settleSite; repeat' split
  all_goals simp
@[simp] theorem outer_monitorSite (c : CellNo) (i : Nat) : (monitorSite c i s).1.outer = s.outer := by
  unfold monitorSite; dsimp only; repeat' split
  all_goals simp
@[simp] theorem outer_setClaim (p : Port) (x : ClaimStatus) : (setClaim p x s).outer = s.outer := rfl
@[simp] theorem outer_reportConflict (p : Port) (n : Nat) (c : CellNo) : (reportConflict p n c s).outer = s.outer := by
  simp [reportConflict]
@[simp] theorem outer_judgeClaim (p : Port) : (judgeClaim p s).1.outer = s.outer := by
  unfold judgeClaim; repeat' split
  all_goals simp
@[simp] theorem outer_dissolveCell (c : CellNo) (x : DissolveCause) : (dissolveCell c x s).1.outer = s.outer := by
  unfold dissolveCell; repeat' split
  all_goals simp
@[simp] theorem outer_dissolveLots (c : CellNo) (b : Bool) : (dissolveLots c b s).outer = s.outer := by
  unfold dissolveLots; dsimp only; rw [outer_foldl _ _ (fun s n => outer_toWaiting s n none)]
  repeat' split
  all_goals simp
@[simp] theorem outer_dissolveRest (c : CellNo) (x : DissolveCause) (b : Bool) : (dissolveRest c x b s).1.outer = s.outer := by
  unfold dissolveRest; dsimp only; split
  · rfl
  · rw [outer_trigger, outer_place, outer_tallyWait, outer_modCellRec, outer_setRequest, outer_dissolveLots]
@[simp] theorem outer_judgeComplete (n : Nat) : (judgeComplete n s).1.outer = s.outer := by
  unfold judgeComplete; repeat' split
  all_goals rfl
@[simp] theorem outer_tallyFreed : (tallyFreed s).1.outer = s.outer := by
  unfold tallyFreed; repeat' split
  all_goals simp
@[simp] theorem outer_dropTally (l : Lot) : (dropTally l s).1.outer = s.outer := by unfold dropTally; split <;> simp
@[simp] theorem outer_evaluateRunning (c : CellNo) (n i : Nat) : (evaluateRunning c n i s).1.outer = s.outer := by
  unfold evaluateRunning; dsimp only; repeat' split
  all_goals simp
@[simp] theorem outer_countEvaluation (c : CellNo) (n : Nat) : (countEvaluation c n s).1.outer = s.outer := by
  unfold countEvaluation; repeat' split
  all_goals simp
@[simp] theorem outer_reportTally (c : CellNo) (n : Nat) : (reportTally c n s).1.outer = s.outer := by
  unfold reportTally; repeat' split
  all_goals simp
@[simp] theorem outer_closeStep (c : CellNo) : (closeStep c s).1.outer = s.outer := by
  unfold closeStep; dsimp only; repeat' split
  all_goals simp
@[simp] theorem outer_reconcileStep (c : CellNo) : (reconcileStep c s).1.outer = s.outer := by
  unfold reconcileStep; dsimp only; repeat' split
  all_goals simp
@[simp] theorem outer_closeRecord (c : CellNo) : (closeRecord c s).1.outer = s.outer := by
  unfold closeRecord; dsimp only; repeat' split
  all_goals simp
@[simp] theorem outer_closeMove (c : CellNo) (x : CloseSection) : (closeMove c x s).1.outer = s.outer := by
  unfold closeMove; split <;> simp
@[simp] theorem outer_endPass : (endPass s).1.outer = s.outer := by unfold endPass; split <;> simp
@[simp] theorem outer_resetEntrySeq : (resetEntrySeq s).outer = s.outer := by unfold resetEntrySeq; split <;> simp
@[simp] theorem outer_dropRest (n : Nat) : (dropRest n s).1.outer = s.outer := by
  unfold dropRest; dsimp only; split
  · rfl
  · rw [outer_resetEntrySeq, outer_place, outer_leaveWait, outer_lots, outer_foldl]
    intro s x; split <;> simp
@[simp] theorem outer_returnLot (n : Nat) : (returnLot n s).outer = s.outer := by
  unfold returnLot; repeat' split
  all_goals simp
@[simp] theorem outer_reportCleared (n : Nat) (h : Option Hold) (d : Disposition) : (reportCleared n h d s).outer = s.outer := by
  unfold reportCleared; split <;> simp
@[simp] theorem outer_reportDisposed (h : Hold) (d : Disposition) : (reportDisposed h d s).1.outer = s.outer := by
  simp [reportDisposed]

/-- A notice changes no part of the state outside the ones `State.outer` blanks. -/
@[simp] theorem outer_deliver (n : Notice) : (deliver n s).1.outer = s.outer := by
  cases n <;> simp [deliver, retryClaims]

/-- So does the delivery of notices until none is left. -/
theorem outer_run {fuel : Nat} {ns : List Notice} {s t : State} (h : run fuel ns s = some t) : t.outer = s.outer := by
  induction fuel generalizing ns s with
  | zero => cases ns <;> simp_all [run]
  | succ fuel ih =>
    cases ns with
    | nil => simp_all [run]
    | cons n ns => rw [run] at h; rw [ih h, outer_deliver]

end Sys2Proof.Machine
end

