-- ==== Sys2Proof/Laws/Ops.lean ====
section
/-! SUPPORT. What the shared operations do, said once: the looking up of a record after an update, the ascending tables, the
delivery of notices, and the taking of a request. -/

namespace Sys2Proof.Machine

variable (s : State)

/-! ## Records after an update -/

@[simp] theorem modPort_self (p : Port) (f : PortRec → PortRec) : (s.modPort p f).ports[p] = f s.ports[p] := by
  simp [State.modPort]

theorem modPort_other {p q : Port} (h : q ≠ p) (f : PortRec → PortRec) : (s.modPort p f).ports[q] = s.ports[q] := by
  have : p.val ≠ q.val := fun e => h (Fin.ext e.symm)
  simp [State.modPort, this]

@[simp] theorem modSlot_self (p : Port) (f : Slot → Slot) : (s.modSlot p f).slots[p] = f s.slots[p] := by simp [State.modSlot]

theorem modSlot_other {p q : Port} (h : q ≠ p) (f : Slot → Slot) : (s.modSlot p f).slots[q] = s.slots[q] := by
  have : p.val ≠ q.val := fun e => h (Fin.ext e.symm)
  simp [State.modSlot, this]

@[simp] theorem modQueue_self (c : CellNo) (f : DispatchQueue → DispatchQueue) : (s.modQueue c f).queues[c] = f s.queues[c] := by
  simp [State.modQueue]

@[simp] theorem setSave_self (c : CellNo) (x : Option Nat) : (s.setSave c x).saves[c] = x := by simp [State.setSave]

@[simp] theorem modGroup_self (g : Fin 16) (f : Group → Group) : (s.modGroup g f).groups[g] = f s.groups[g] := by
  simp [State.modGroup]

@[simp] theorem modCell_cell (c : CellNo) (f : Cell → Cell) : (s.modCell c f).cell? c = (s.cell? c).map f := by
  simp [State.modCell, State.modCellRec, State.cell?]

theorem modCell_other {c d : CellNo} (h : d ≠ c) (f : Cell → Cell) : (s.modCell c f).cell? d = s.cell? d := by
  have : c.val ≠ d.val := fun e => h (Fin.ext e.symm)
  simp [State.modCell, State.modCellRec, State.cell?, this]

/-- A record of the lot table after a change that keeps the id. -/
theorem modLot_lot {n : Nat} {f : Lot → Lot} (h : ∀ l, (f l).id = l.id) (m : Nat) :
    (s.modLot n f).lot? m = (s.lot? m).map fun l => if m = n then f l else l := by
  unfold State.modLot State.lot?
  simp only
  induction s.lots with
  | nil => rfl
  | cons x xs ih =>
    simp only [List.map_cons, List.find?_cons]
    have hid : (if (x.id == n) = true then f x else x).id = x.id := by split <;> simp [h]
    rw [hid]
    by_cases hm : x.id = m
    · subst hm; simp
    · simp only [beq_eq_false_iff_ne.mpr hm]; exact ih

/-- The tally of a lot after a change that keeps whose it is. -/
theorem modTally_tally {n : Nat} {f : Tally → Tally} (h : ∀ t, (f t).lot = t.lot) (m : Nat) :
    (s.modTally n f).tally? m = (s.tally? m).map fun t => if m = n then f t else t := by
  unfold State.modTally State.tally?
  simp only
  induction s.tallies with
  | nil => rfl
  | cons x xs ih =>
    simp only [List.map_cons, List.find?_cons]
    have hid : (if (x.lot == n) = true then f x else x).lot = x.lot := by split <;> simp [h]
    rw [hid]
    by_cases hm : x.lot = m
    · subst hm; simp
    · simp only [beq_eq_false_iff_ne.mpr hm]; exact ih

/-! ## Ascending tables -/

theorem mem_insertAsc {α : Type} (key : α → Nat) (x y : α) (l : List α) : y ∈ insertAsc key x l ↔ y = x ∨ y ∈ l := by
  induction l with
  | nil => simp [insertAsc]
  | cons z zs ih =>
    unfold insertAsc; split
    · simp
    · simp [ih]; tauto

theorem length_insertAsc {α : Type} (key : α → Nat) (x : α) (l : List α) : (insertAsc key x l).length = l.length + 1 := by
  induction l with
  | nil => rfl
  | cons z zs ih => unfold insertAsc; split <;> simp [ih]

/-- An ascending list stays ascending. -/
theorem sorted_insertAsc {α : Type} (key : α → Nat) (x : α) (l : List α) (h : l.Pairwise fun a b => key a ≤ key b) :
    (insertAsc key x l).Pairwise fun a b => key a ≤ key b := by
  induction l with
  | nil => simp [insertAsc]
  | cons z zs ih =>
    rw [List.pairwise_cons] at h
    unfold insertAsc; split
    · rename_i hlt
      refine List.pairwise_cons.mpr ⟨fun y hy => ?_, List.pairwise_cons.mpr h⟩
      rcases List.mem_cons.mp hy with rfl | hy
      · omega
      · have := h.1 y hy; omega
    · rename_i hge
      refine List.pairwise_cons.mpr ⟨fun y hy => ?_, ih h.2⟩
      rcases (mem_insertAsc key x y zs).mp hy with rfl | hy
      · omega
      · exact h.1 y hy

/-- Looking a key up in an ascending list after the insertion of a new key. -/
theorem find_insertAsc {α : Type} (key : α → Nat) (x : α) (l : List α) (n : Nat) (h : ∀ y ∈ l, key y ≠ key x) :
    (insertAsc key x l).find? (fun y => key y == n) = if key x = n then some x else l.find? fun y => key y == n := by
  induction l with
  | nil => by_cases hx : key x = n <;> simp [insertAsc, hx]
  | cons z zs ih =>
    have hz := h z List.mem_cons_self
    have ih := ih fun y hy => h y (List.mem_cons_of_mem _ hy)
    unfold insertAsc; split
    · by_cases hx : key x = n <;> simp [hx]
    · rw [List.find?_cons, ih, List.find?_cons]
      by_cases hx : key x = n
      · have : (key z == n) = false := by simp [← hx, hz]
        simp [this, hx]
      · simp [hx]

/-! ## Ports of no cell -/

variable {s}

theorem outside_tester {p : Port} (h : s.outside p) : s.cellOfTester? p = none := by
  refine List.find?_eq_none.mpr fun c _ => ?_
  rcases hc : s.cell? c with _ | k
  · simp
  · simpa using (h c k hc).2

theorem outside_handler {p : Port} (h : s.outside p) : s.cellOfHandler? p = none := by
  refine List.find?_eq_none.mpr fun c _ => ?_
  rcases hc : s.cell? c with _ | k
  · simp
  · simpa using (h c k hc).1

theorem outside_port {p : Port} (h : s.outside p) : s.cellOfPort? p = none := by
  refine List.find?_eq_none.mpr fun c _ => ?_
  rcases hc : s.cell? c with _ | k
  · simp
  · simpa using h c k hc

/-! ## Takings -/

@[simp] theorem run_nil (fuel : Nat) (s : State) : run fuel [] s = some s := by cases fuel <;> rfl

/-- A notice that owes nothing. -/
theorem run_quiet {fuel : Nat} {n : Notice} {ns : List Notice} {s t : State} (h : deliver n s = (t, [])) :
    run (fuel + 1) (n :: ns) s = run fuel ns t := by rw [run, h]; rfl

/-- A longer bound gives the same outcome. -/
theorem run_more {fuel : Nat} {ns : List Notice} {s t : State} (h : run fuel ns s = some t) (extra : Nat) :
    run (fuel + extra) ns s = some t := by
  induction fuel generalizing ns s with
  | zero => cases ns <;> simp_all [run]
  | succ fuel ih =>
    cases ns with
    | nil => simpa using h
    | cons n ns => rw [Nat.add_right_comm, run]; rw [run] at h; exact ih h

/-- A taking whose notices come to rest within a bound no longer than the model's own. -/
theorem settle_of_run {fuel : Nat} {ns : List Notice} {s t : State} (hf : fuel ≤ Config.noticeBound)
    (h : run fuel ns s = some t) : settle ns s = .next (transmit t) := by
  obtain ⟨n, hn⟩ := Nat.exists_eq_add_of_le hf
  rw [settle, hn, run_more h]

/-- The same for the taking of a request. -/
theorem answered_of_run {fuel : Nat} {r : Reply} {ns : List Notice} {s t : State} (hf : fuel ≤ Config.noticeBound)
    (h : run fuel ns s = some t) : answered r ns s = .next (t.replied r) := by
  obtain ⟨n, hn⟩ := Nat.exists_eq_add_of_le hf
  rw [answered, hn, run_more h]; rfl

@[simp] theorem settle_nil (s : State) : settle [] s = .next (transmit s) := by simp [settle]

@[simp] theorem answered_nil (r : Reply) (s : State) : answered r [] s = .next (s.replied r) := by simp [answered, State.replied]

@[simp] theorem refuse_eq (st : Status) (s : State) : refuse st s = .next (s.replied (.plain st)) := answered_nil _ s

/-- R163: the oldest untaken request is taken by its row when its body fits. -/
theorem takeRequest_fits {mine : Byte → List Byte → Bool} {k : Byte} {b : List Byte} {f : List Byte → Host.Outcome State Fault Refusal}
    (h : s.asks k b) (hm : mine k b = true) (hb : bodyFits k b = true) : takeRequest mine s f = f b := by
  obtain ⟨tag, h⟩ := h
  simp [takeRequest, h, hm, hb]

/-- R163, R170: a body that does not fit is refused MALFORMED. -/
theorem takeRequest_misfit {mine : Byte → List Byte → Bool} {k : Byte} {b : List Byte}
    {f : List Byte → Host.Outcome State Fault Refusal} (h : s.asks k b) (hm : mine k b = true) (hb : bodyFits k b = false) :
    takeRequest mine s f = .next (s.replied (.plain .malformed)) := by
  obtain ⟨tag, h⟩ := h
  simp [takeRequest, h, hm, hb]

/-! ## The limit records of a product (R2) -/

theorem RawLimit.fits_iff (m : RawLimit) : m.fits = true ↔
    1 ≤ m.kind ∧ m.kind ≤ 3 ∧ 1 ≤ m.phase ∧ m.phase ≤ 3 ∧ m.value ≤ 10000 ∧ (m.kind = 2 → 1 ≤ m.cls ∧ m.cls ≤ 15)
      ∧ (m.kind ≠ 2 → m.cls = 0) ∧ (m.kind = 3 → m.phase = 2) := by
  have phase : (limitPhaseOf m.phase).isSome = true ↔ 1 ≤ m.phase ∧ m.phase ≤ 3 := by
    unfold limitPhaseOf; split_ifs <;> simp <;> omega
  simp only [RawLimit.fits, Bool.and_eq_true, phase, decide_eq_true_eq]
  unfold limitKindOf
  split_ifs <;> simp <;> omega

theorem limitsApart_iff (l : List RawLimit) : limitsApart l = true ↔
    l.Pairwise fun m n => ¬ (m.kind = n.kind ∧ m.cls = n.cls ∧ (m.phase = n.phase ∨ m.phase = 3 ∨ n.phase = 3)) := by
  induction l with
  | nil => simp [limitsApart]
  | cons m l ih =>
    rw [limitsApart, Bool.and_eq_true, List.all_eq_true, List.pairwise_cons, ih]
    refine and_congr_left' (forall₂_congr fun n _ => ?_)
    simp [phasesOverlap, or_assoc, imp_iff_not_or, and_assoc]

theorem RawStep.fits_iff (x : RawStep) : x.fits = true ↔
    (-600 ≤ x.setpoint ∧ x.setpoint ≤ 2000) ∧ (1 ≤ x.band ∧ x.band ≤ 100) ∧ x.soak ≤ 3600 ∧ x.program ≠ 0
      ∧ (1 ≤ x.ceiling ∧ x.ceiling ≤ 65534)
      ∧ (x.presence.getLsbD 0 = true → x.ceiling < x.extCeiling ∧ x.extCeiling ≤ 65534 ∧ x.presence.getLsbD 1 = true)
      ∧ (x.presence.getLsbD 0 = false → x.presence.getLsbD 1 = false)
      ∧ x.edges.toNat < 32 ∧ (1 ≤ x.divider ∧ x.divider ≤ 16) ∧ 1 ≤ x.smin ∧ x.limitCount ≤ 8
      ∧ (∀ m ∈ x.limits, m.fits = true) ∧ limitsApart x.limits = true := by
  cases h : x.presence.getLsbD 0 <;> simp at h <;> simp [RawStep.fits, RawStep.hasCeiling, RawStep.hasDelta, h, and_assoc]

@[simp] theorem ofKind_self (k : Byte) (b : List Byte) : ofKind k k b = true := by simp [ofKind]

end Sys2Proof.Machine
end

