-- ==== Sys2Proof/Tests/Slice0.lean ====
section
/-! SUPPORT. Tests: what a command that cannot occur is refused by, the spec's worked values, and for each statement a state
that meets its hypotheses. Expected values are those of the spec's text named beside each test. -/

namespace Sys2Proof.Tests

open Sys2Proof.Machine

/-! ## WellFormed refuses -/

theorem test_wf_empty_frame : (Instr.hostFrame []).wf = false := by decide
theorem test_wf_long_frame : (Instr.hostFrame (List.replicate 1032 0)).wf = false := by decide +kernel
theorem test_wf_short_run : (Instr.lockGained 0 .control 15).wf = false := by decide
theorem test_wf_few_malformed : (Instr.lockLost 0 .control (.malformed 7) false).wf = false := by decide
theorem test_wf_short_silence_control : (Instr.lockLost 0 .control (.silent 127) false).wf = false := by decide
theorem test_wf_short_silence_result : (Instr.lockLost 0 .result (.silent 31) false).wf = false := by decide
theorem test_wf_other_handler : (Instr.announce 0 (.other 1)).wf = false := by decide
theorem test_wf_other_tester : (Instr.announce 0 (.other 2)).wf = false := by decide
theorem test_wf_least : (Instr.lockLost 0 .result (.silent 32) true).wf = true ∧ (Instr.lockGained 0 .result 16).wf = true := by
  decide

/-! ## Worked values of the spec -/

/-- Section 12.1: the CRC of the nine characters. -/
theorem test_crc : crc16 [0x31, 0x32, 0x33, 0x34, 0x35, 0x36, 0x37, 0x38, 0x39] = 0x29B1 := by decide +kernel

/-- Chapter 12's record of lot 7705: site 1, FIRST, sequence 3, class 7, origin 0, check byte 0x3F. -/
theorem test_record : recordChecks 0x1E1911000003703F = true
    ∧ recordFields 0x1E1911000003703F = { tag := 7705, site := 1, phase := some false, sequence := 3, cls := 7, origin := 0 } := by
  decide +kernel

/-- R172: the check pattern of index 0x0102. -/
theorem test_pattern : checkPattern 0x0102 = 0x3C79B2EF := by decide +kernel

/-- Table 12-5: the idle fill frame is a control-lane frame of kind 0 and no body. -/
theorem test_idle_fill : controlFrame 0 [] = idleFill := by decide +kernel

/-- H_TEMP of 25.0 degrees, written out by Table 12-5 and R172: start, kind, length, temperature, check byte. -/
theorem test_decode_temp : controlCommand 4 [0x96, 0x11, 0x02, 0x00, 0xFA, 0xDA] = some (.hTemp 4 250) := by decide +kernel

/-- T_LOADED of program 0x0102 revision 3 with check value 0x04050607, ok. -/
theorem test_decode_loaded :
    controlCommand 1 [0x96, 0x22, 0x08, 0x01, 0x02, 0x03, 0x04, 0x05, 0x06, 0x07, 0x01, 0x18] = some (.tLoaded 1 0x0102 3 0x04050607 1) := by
  decide +kernel

/-- A frame whose check byte is wrong is a bad frame (R33). -/
theorem test_decode_bad : controlCommand 4 [0x96, 0x11, 0x02, 0x00, 0xFA, 0xDB] = some (.badFrame 4) := by decide +kernel

/-- Section 5.9's tester 5127 and the three later computations of Table 5-4. -/
def cal5127 (head : Int) : Calibration :=
  { calTemp := 235, calTime := 1000000, headTemp := head, validity := 168, base := 1200, kt := 35, kh := 4 }

theorem test_margin : (cal5127 339).used 1101000 = 1697 ∧ (cal5127 318).used 1105200 = 1631 ∧ (cal5127 318).used 1303200 = 1851
    ∧ (cal5127 339).delta = 11 ∧ (cal5127 318).age 1303200 = 84 := by decide +kernel

/-- R121: a displayed yield of 6666 against floors of 6667 and 6666. -/
theorem test_floor_boundary :
    let t : Tally := { lot := 1, step := 0, ne := 3, ce := (Vector.replicate 16 0).set 0 2 }
    ratio 2 3 = some 6666 ∧ breachesRunning t { kind := .yieldFloor, cls := 0, value := 6667, phase := .running } = true
      ∧ breachesRunning t { kind := .yieldFloor, cls := 0, value := 6666, phase := .running } = false := by decide +kernel

/-! ## States -/

/-- A state whose oldest request has a kind and a body. -/
def req (k : Byte) (b : List Byte) (s : State) : State := { s with unanswered := [.request k 1 b none] }

theorem req_asks (k : Byte) (b : List Byte) (s : State) : (req k b s).asks k b := ⟨1, rfl⟩

def step1 : StepDef :=
  { setpoint := 250, band := 20, soak := 60, program := 5, ceiling := 1500, extCeiling := some 1800, extDelta := some 10, blank := 2
    edges := 0x1F, divider := 2, smin := 3, consecutive := 0, reportDivider := 0
    limits := [{ kind := .yieldFloor, cls := 0, value := 9000, phase := .running }] }

def product1 : Product :=
  { id := 1, kit := 7, bins := (Vector.replicate 16 1).set 0 0, retest := 2, tolerance := 0, steps := [step1] }

def lot1 : Lot := { id := 7705, product := 1, entered := 100, quantity := 100, priority := .normal, seq := 0 }

/-- One product, one waiting lot and one program. -/
def tables : State :=
  { State.reset with
    products := [product1], lots := [lot1], entrySeq := 1, waitList := [7705]
    catalog := [{ id := 5, revision := 1, checkValue := 9, loadLimit := 100 }] }

/-- The tables with their lot changed. -/
def withLot (l : Lot) (s : State) : State := { s with lots := [l], waitList := if l.state = .waiting then [l.id] else [] }

def held1 : Hold :=
  { id := 1, lot := 7705, reason := .placed, cls := 0, step := 0, severity := .immediate, origin := .requested, occurrences := 1
    raised := 0, capture := none, note := none }

/-- The lot held by one hold. -/
def heldLot : State := { withLot { lot1 with state := .held, holds := [1] } tables with holds := [held1] }

def handlerPort : PortRec :=
  { state := .inService, controlLock := true, resultLock := true, role := some .handler, equip := some 4100
    data := some (.handler 4 (-400) 1500 7 5127 .remote) }

def testerPort : PortRec :=
  { state := .inService, controlLock := true, resultLock := true, role := some .tester, equip := some 5127
    data := some (.tester 4 235 0 168 1200 35 4) }

def slot1 : Slot := { use := .inUse, equip := some 5127, active := some (5, 1), cal := some { cal5127 235 with calTime := 0 } }

/-- A handler on P0 and a tester on P1, both IN_SERVICE and in no cell. -/
def floor : State := ((tables.modPort 0 fun _ => handlerPort).modPort 1 fun _ => testerPort).modSlot 1 fun _ => slot1

def cell1 : Cell :=
  { handlerPort := 0, testerPort := 1, handlerId := 4100, testerId := 5127, mode := .remote, kit := 7
    sites := List.replicate 4 (Site.mk .on none 0 0 1 1) }

/-- The cell formed on C0. -/
def formed (k : Cell) : State := floor.modCellRec 0 fun r => { r with formed := some k }

def opened1 : StepRec := { status := .opened, input := some 100 }

def active1 : Lot :=
  { lot1 with state := .active, location := .queue 0 0, tally := true, steps := (Vector.replicate 6 {}).set 0 opened1 }

def tally1 : Tally := { lot := 7705, step := 0 }

/-- The cell fed with the lot, in a state. -/
def fed (st : CellState) (l : Lot) (t : Tally) : State :=
  { withLot l ((formed { cell1 with
      state := st, segment := some { lot := 7705, step := 0, feedTime := 0 }, soak := .soaked, setpoint := some 250
      band := some 20, soakTime := some 60 }).modQueue 0 fun _ => { current := some 7705 }) with tallies := [t] }

/-- A port in a check. -/
def checking (k : CheckRec) : State := State.reset.modPort 2 fun _ =>
  { state := .checking, controlLock := true, resultLock := true, check := some k, checkTimer := some { start := 0, limit := 10 } }

def check3 : CheckRec := { latched := true, frames := 3, ret := .training }

theorem noCells_outside {s : State} (h : s.noCells) (p : Port) : s.outside p := by
  intro c k hk; rw [h c] at hk; cases hk

theorem reset_noCells : State.reset.noCells := by show ∀ c, _; decide +kernel
theorem floor_noCells : floor.noCells := by show ∀ c, _; decide +kernel

/-! ## One step -/

/-- R20: a rise takes the port to TRAINING. -/
theorem test_presence_rise : (match exec (.presenceRise 3) State.reset with
    | .next t => t.ports[(3 : Port)].state == .training
    | _ => false) = true := by decide +kernel

/-- R6: the first lot entered receives entry sequence 0, and is WAITING. -/
theorem test_lot_enter : (match exec .lotEnter (req Kind.lotEnter (be 4 8 ++ be 2 1 ++ be 4 100 ++ be 1 2) { tables with entrySeq := 0 }) with
    | .next t => (t.lot? 8).any fun l => l.seq == 0 && l.priority == .hot && l.state == .waiting
    | _ => false) = true := by decide +kernel

/-- R19, R5, R61: RESTART FLOOR empties the lot table, keeps the products and stops the fed handler. -/
theorem test_restart_floor : (match exec .restartFloor (req Kind.restart [1] (fed .running active1 tally1)) with
    | .next t => t.lots.isEmpty && t.products.length == 1 && (t.cell? 0).any (·.state == .idle) && t.ports[(0 : Port)].out == [.stop]
    | _ => false) = true := by decide +kernel

/-- R117 to R119, R50: a breach of a yield floor drains the cell. -/
theorem test_breach : (match exec (.runningEvaluation 0 1) (fed .running active1 { tally1 with ne := 3, divider := 2 }) with
    | .next t => t.holds.length == 1 && (t.cell? 0).any (·.purpose == some .hold)
    | _ => false) = true := by decide +kernel

/-! ## Witnesses: a state that meets the hypotheses of each statement, clause by clause -/

/-- A request of the input buffer, taken or not. -/
def entry (r : Option Reply) : HostEntry := .request 0x1B 1 [1, 0] r

theorem reset_slots : ∀ p : Port, State.reset.slots[p].cal = none ∧ State.reset.ports[p].data = none := by decide +kernel

theorem witness_step : State.reset.pending = [] ∧ (checking check3).pending = []
    ∧ ({ check3 with armed := true } : CheckRec).armed = true := by decide +kernel

theorem witness_lane_out :
    let s := ((State.reset.modPort 0 fun r => { r with state := .checking, out := [.checkFrames 2 3, .halt] }).modPort 1 fun r =>
      { r with state := .inService, out := [.stop] })
    s.pending = [] ∧ s.ports[(0 : Port)].state ≠ .absent ∧ s.ports[(1 : Port)].state ≠ .absent ∧ s.ports[(3 : Port)].state = .absent
      ∧ s.ports[(0 : Port)].out = .checkFrames 2 3 :: [.halt] ∧ s.ports[(1 : Port)].out = .stop :: []
      ∧ s.ports[(2 : Port)].out = [] := by decide +kernel

/-- The invariants, at a state whose next command is taken. -/
theorem witness_invariants :
    let s : State := { State.reset with pending := [.tally 0] }
    s.linkBounded ∧ s.clockBounded ∧ s.tablesBounded ∧ s.tablesSorted ∧ s.temperaturesInRange
      ∧ step s = .next State.reset := by
  refine ⟨?_, ?_, ?_, ?_, ⟨?_, ?_, ?_, ?_⟩, rfl⟩
  · show _ ≤ _ ∧ _; decide
  · show _ < _ ∧ _; decide
  · show _ ≤ _ ∧ _; decide
  · exact ⟨.nil, .nil, .nil, .nil, fun _ h => absurd h List.not_mem_nil⟩
  · intro g h; cases h
  · intro c k t h; exact absurd ((reset_noCells c).symm.trans h) nofun
  · intro p k h; exact absurd ((reset_slots p).1.symm.trans h) nofun
  · intro p k h; exact absurd ((reset_slots p).2.symm.trans h) nofun

/-- The invariants of the places, at a state with a lot in a cell. -/
theorem witness_places :
    let s : State := { fed .running active1 tally1 with pending := [.tally 0] }
    s.tablesSorted ∧ s.placesAgree ∧ s.inKeyOrder ∧ s.savesFree ∧ ∃ t, step s = .next t := by
  intro s
  have hw : s.waitList = [] := by decide +kernel
  have hc : ∀ c : CellNo, ∀ id ∈ s.queues[c].current, id = 7705 ∧ c = 0 := by decide +kernel
  have hb : ∀ c : CellNo, s.queues[c].behind = [] := by decide +kernel
  have hs : ∀ c : CellNo, s.saves[c] = none := by decide +kernel
  have hl : s.lot? 7705 = some active1 := by decide +kernel
  refine ⟨by unfold State.tablesSorted; decide +kernel, ⟨fun l h => ?_, ?_, fun id h => ?_, fun c id h => ?_, fun c n id h => ?_,
    fun c id h => ?_⟩, ⟨?_, fun c => ?_⟩, fun c _ _ _ => hs c, _, rfl⟩
  · cases List.mem_singleton.1 h
    exact ⟨0, rfl, by decide +kernel⟩
  · rw [hw]; exact .nil
  · rw [hw] at h; cases h
  · obtain ⟨rfl, rfl⟩ := hc c id h
    exact ⟨active1, hl, rfl, rfl⟩
  · rw [hb c] at h; cases h
  · rw [hs c] at h; cases h
  · show s.waitList.Pairwise _
    rw [hw]; exact .nil
  · rw [hb c]; exact .nil

theorem witness_only_their_commands : exec (.tally 0) State.reset = .next State.reset ∧ clearsAll (.tally 0) = false
    ∧ Instr.tally 0 ∉ [Instr.productPut, .productDrop] := ⟨rfl, rfl, by decide⟩

theorem witness_lane_frames : (Instr.hDock 0 5127).wf = true ∧ messageOf (.hDock 0 5127) = some (0, 0x13, be 4 5127)
    ∧ (Instr.announce 0 (.other 3)).wf = true := by decide +kernel

theorem witness_host_frame : (List.replicate 1024 (0 : Byte)).length ≤ 1024 ∧ State.reset.rx = []
    ∧ pendingRequests (List.replicate 3 (entry none)) < 4
    ∧ (4 ≤ pendingRequests (List.replicate 4 (entry none) ++ List.replicate 3 (.busy 1 1))
        ∧ busyReplies (List.replicate 4 (entry none) ++ List.replicate 3 (.busy 1 1)) < 4)
    ∧ 4 ≤ busyReplies (List.replicate 4 (entry none) ++ List.replicate 4 (.busy 1 1)) := by decide +kernel

theorem witness_sizes : (({ held1 with note := some (List.replicate 32 0) } : Hold).note.getD []).length ≤ 32 := by decide

theorem witness_frame_sent :
    let r : Sending := .reply 1 1 (.plain .ok)
    (({ State.reset with sending := some r, unanswered := [entry (some (.plain .ok)), entry (some (.plain .busy))] } : State).sending = some r)
      ∧ ({ State.reset with unanswered := [entry (some (.plain .ok)), .busy 1 1] } : State).unanswered =
          entry (some (.plain .ok)) :: .busy 1 1 :: []
      ∧ ({ State.reset with unanswered := [entry none, entry none], reports := [.reportsLost 1] } : State).reports = [.reportsLost 1]
      ∧ ({ State.reset with sending := some (.report (.reportsLost 1) true), dropped := 5, reports := List.replicate 33 (.reportsLost 1) } : State).reports = .reportsLost 1 :: List.replicate 32 (.reportsLost 1)
      ∧ (List.replicate 32 (Report.reportsLost 1)).length ≤ 32 ∧ 32 < (List.replicate 33 (Report.reportsLost 1)).length
      ∧ ({ State.reset with sending := some (.report (.reportsLost 1) false) } : State).sending = some (.report (.reportsLost 1) false)
      ∧ State.reset.sending = none := by decide +kernel

theorem witness_truncated : 2 ≤ since 0 4294967294 ∧ since 0 4294967295 < 2
    ∧ ({ State.reset with rx := [(0xC3, 4294967294), (0, 4294967294)] } : State).rx = (0xC3, 4294967294) :: [(0, 4294967294)]
    ∧ ∀ y ∈ [((0 : Byte), 4294967294)], y.1 ≠ 0xC3 := by decide +kernel

theorem witness_unknown_kind : (req 0x1D [] State.reset).asks 0x1D [] ∧ isRequestKind 0x1D = false ∧ isRequestKind 0 = false :=
  ⟨req_asks _ _ _, by decide, by decide⟩

theorem witness_misfit : (req Kind.holdDispose (be 6 0) State.reset).asks Kind.holdDispose (be 6 0)
    ∧ (.clear, Kind.holdDispose) ∈ requestRows ∧ bodyFits Kind.holdDispose (be 6 0) = false := ⟨req_asks _ _ _, by decide, by decide +kernel⟩

theorem witness_param_set : (req Kind.paramSet [1, 0, 60] State.reset).asks Kind.paramSet [1, 0, 60] ∧ u8 [1, 0, 60] 0 = 1
    ∧ u16 [1, 0, 60] 1 = 60 ∧ u16 [1, 0x1C, 0x21] 1 = 7201 ∧ u16 [2, 0, 30] 1 = 30 ∧ u16 [3, 0, 121] 1 = 121
    ∧ u16 [4, 0x27, 0x10] 1 = 10000 ∧ u8 [5, 0, 0] 0 = 5 := ⟨req_asks _ _ _, by decide +kernel⟩

/-- The queries, each with the record it finds. -/
theorem witness_queries :
    (∀ b, (req Kind.lotQuery b tables).asks Kind.lotQuery b) ∧ (be 4 7705 ++ be 4 0).length = 8 ∧ tables.lot? 7705 = some lot1
      ∧ tables.lot? 7706 = none ∧ u32 (be 4 7705 ++ be 4 0) 0 = 7705 ∧ u32 (be 8 0) 0 = 0 ∧ tables.tally? 7705 = none
      ∧ (fed .running active1 tally1).tally? 7705 = some tally1 ∧ (formed cell1).cell? 0 = some cell1 ∧ tables.cell? 0 = none
      ∧ u8 [16] 0 = 16 ∧ u8 [15] 0 = (15 : CellNo).val ∧ u8 [17] 0 = 17 ∧ u8 [16] 0 = (15 : Fin 16).val + 1
      ∧ u8 [3, 31] 1 ≤ 31 ∧ 31 < u8 [4, 32] 1 := ⟨fun _ => req_asks _ _ _, by decide +kernel⟩

theorem witness_clock : State.reset.noCells ∧ ((3599 + 1) % 4294967296) % 3600 = 0 ∧ ((3600 + 1) % 4294967296) % 3600 ≠ 0
    ∧ (req Kind.clockSet (be 4 3600) State.reset).asks Kind.clockSet (be 4 3600) ∧ u32 (be 4 3600) 0 / 3600 ≠ State.reset.floorTime / 3600
    ∧ u32 (be 4 3599) 0 / 3600 = State.reset.floorTime / 3600 :=
  ⟨reset_noCells, by decide, by decide, req_asks _ _ _, by decide +kernel, by decide +kernel⟩

theorem witness_margin : floor.slots[(1 : Port)].use = .inUse ∧ floor.slots[(1 : Port)].cal = some { cal5127 235 with calTime := 0 }
    ∧ Machine.inRange 235 ∧ (cal5127 235).validity ≤ (cal5127 235).age (1000000 + 3600 * 168)
    ∧ (cal5127 235).age (1000000 + 3600 * 168 - 1) < (cal5127 235).validity := by
  refine ⟨by decide +kernel, by decide +kernel, ?_, by decide +kernel, by decide +kernel⟩
  exact ⟨by decide, by decide⟩

theorem witness_restart : (req Kind.restart [2] (fed .running active1 tally1)).asks Kind.restart [2] ∧ u8 [2] 0 = 2
    ∧ (req Kind.restart [1] (fed .running active1 tally1)).asks Kind.restart [1] ∧ u8 [1] 0 = 1
    ∧ (fed .running active1 tally1).inService 0 = true
    ∧ ((fed .running active1 tally1).cell? 0).any (fun k => k.handlerPort == 0 && k.segment.isSome && k.state != .manual) = true :=
  ⟨req_asks _ _ _, by decide, req_asks _ _ _, by decide, by decide +kernel⟩

/-- A PRODUCT_PUT of one step, and the same of product id 0. -/
def putBody (id : Nat) : List Byte :=
  be 2 id ++ be 2 7 ++ [0] ++ List.replicate 15 1 ++ be 2 2 ++ [0, 1] ++ be 2 250 ++ [20] ++ be 2 60 ++ be 2 5 ++ be 2 1500 ++ [0]
    ++ be 2 0 ++ [0, 2, 0x1F, 1] ++ be 2 3 ++ [0, 0, 0] ++ List.replicate 40 0

theorem witness_product : (∀ n s, (req Kind.productPut (putBody n) s).asks Kind.productPut (putBody n))
    ∧ (∀ b s, (req Kind.productDrop b s).asks Kind.productDrop b) ∧ (putBody 1).length = 24 + 61 * u8 (putBody 1) 23
    ∧ (rawProduct (putBody 1)).fits = true ∧ (rawProduct (putBody 1)).steps.all RawStep.fits = true ∧ (rawProduct (putBody 1)).steps.length = 1 ∧ (rawProduct (putBody 0)).id = 0
    ∧ State.reset.product? 1 = none ∧ tables.product? 1 = some product1 ∧ (∃ l ∈ tables.lots, l.product = 1)
    ∧ (∀ l ∈ ({ tables with lots := [] } : State).lots, l.product ≠ 1) ∧ tables.product? 2 = none
    ∧ 64 ≤ ({ tables with products := List.replicate 64 product1 } : State).products.length
    ∧ ({ tables with products := List.replicate 63 product1 } : State).product? 2 = none
    ∧ u16 (be 2 1) 0 = 1 := ⟨fun _ _ => req_asks _ _ _, fun _ _ => req_asks _ _ _, by decide +kernel⟩

/-- A LOT_ENTER body. -/
def enterBody (id quantity priority : Nat) : List Byte := be 4 id ++ be 2 1 ++ be 4 quantity ++ be 1 priority

theorem witness_lot_enter : (∀ b s, (req Kind.lotEnter b s).asks Kind.lotEnter b) ∧ tables.waitSorted ∧ (enterBody 8 4000000 1).length = 11
    ∧ u32 (enterBody 8 4000001 1) 6 = 4000001 ∧ u32 (enterBody 8 4000000 1) 6 = 4000000 ∧ u8 (enterBody 8 1 2) 10 = 2
    ∧ (tables.lot? 7705).isSome ∧ tables.lot? 8 = none ∧ State.reset.product? 1 = none ∧ (tables.product? 1).isSome
    ∧ 256 ≤ ({ tables with lots := List.replicate 256 lot1 } : State).lots.length
    ∧ ({ tables with lots := List.replicate 255 lot1, entrySeq := 4294967295 } : State).lot? 8 = none :=
  ⟨fun _ _ => req_asks _ _ _, List.pairwise_singleton _ _, by decide +kernel⟩

theorem witness_lot_priority : (∀ b s, (req Kind.lotPriority b s).asks Kind.lotPriority b) ∧ priorityOf 2 = some .hot
    ∧ u8 (be 4 7705 ++ [3]) 4 = 3 ∧ u32 (be 4 7705 ++ [2]) 0 = 7705 ∧ tables.lot? 7705 = some lot1 ∧ lot1.priority ≠ .hot
    ∧ lot1.location = .absent ∧ lot1.state = .waiting ∧ heldLot.lot? 7705 = some { lot1 with state := .held, holds := [1] }
    ∧ active1.location = .queue 0 0 ∧ ((fed .running active1 tally1).setSave 0 (some 8)).saves[(0 : CellNo)].isSome
    ∧ (fed .running active1 tally1).guardsSave active1 = false := ⟨fun _ _ => req_asks _ _ _, by decide +kernel⟩

/-- A lot behind entry 0 of the cell. -/
def queued8 : Lot := { lot1 with id := 8, seq := 1, state := .queued, location := .queue 0 1 }

/-- The cell with its current lot, the margin of its tester computed, the cell changed, and other lots of the tables. -/
def crew (st : CellState) (f : Cell → Cell) (others : List Lot) (q : DispatchQueue) : State :=
  computeMargin 1 ({ ((fed st active1 tally1).modCell 0 f).modQueue 0 (fun _ => q) with lots := others ++ [active1] })

/-- A QUEUED, a SAVED and an ACTIVE lot whose priority is changed. -/
theorem witness_lot_priority_moved :
    let s := crew .running id [queued8] { current := some 7705, behind := [8] }
    let saved : Lot := { queued8 with state := .saved, location := .save 0 }
    s.lot? 8 = some queued8 ∧ queued8.priority ≠ .hot ∧ (8 ∈ s.queues[(0 : CellNo)].behind) ∧ s.queues[(0 : CellNo)].behind.Nodup
      ∧ s.cells[(0 : CellNo)].preemptEnable = false ∧ (crew .running id [saved] { current := some 7705 }).lot? 8 = some saved
      ∧ s.lot? 7705 = some active1 ∧ s.queues[(0 : CellNo)].current = some 7705 ∧ active1.priority ≠ .hot
      ∧ ({ s with lots := [{ active1 with priority := .hot }] } : State).saves[(0 : CellNo)] = none := by decide +kernel

theorem witness_lot_drop : (∀ b s, (req Kind.lotDrop b s).asks Kind.lotDrop b) ∧ u32 (be 4 7705) 0 = 7705
    ∧ heldLot.lot? 7705 = some { lot1 with state := .held, holds := [1] } ∧ heldLot.tallyWait = [] ∧ tables.lot? 8 = none
    ∧ (fed .running active1 tally1).lot? 7705 = some active1 := ⟨fun _ _ => req_asks _ _ _, by decide +kernel⟩

theorem witness_presence : floor.outside 0 ∧ floor.outside 1 ∧ (checking check3).noCells ∧ floor.ports[(0 : Port)].state ≠ .absent
    ∧ floor.ports[(0 : Port)].role = some .handler ∧ floor.ports[(1 : Port)].role = some .tester
    ∧ State.reset.ports[(3 : Port)].state = .absent ∧ (State.reset.ports[(3 : Port)].controlLock && true) = false
    ∧ (checking check3).ports[(2 : Port)].check = some check3 :=
  ⟨noCells_outside floor_noCells 0, noCells_outside floor_noCells 1, fun c => reset_noCells c, by decide +kernel⟩

/-- A port in a state with its locks. -/
def portIn (st : PortState) (control result : Bool) : State :=
  State.reset.modPort 2 fun _ => { state := st, controlLock := control, resultLock := result, announceTimer := some { start := 0, limit := 10 } }

theorem portIn_outside (st : PortState) (a b : Bool) (p : Port) : (portIn st a b).outside p :=
  noCells_outside (fun c => reset_noCells c) p

theorem witness_lock : (portIn .awaitAnnounce true true).outside 2 ∧ (portIn .training false true).ports[(2 : Port)].state = .training
    ∧ (portIn .training false true).ports[(2 : Port)].resultLock = true ∧ (portIn .training true false).ports[(2 : Port)].resultLock = false
    ∧ (portIn .faulted true true).ports[(2 : Port)].state = .faulted ∧ (LockLoss.malformed 8).wf .control = true
    ∧ (LockLoss.silent 128).wf .control = true ∧ (LockLoss.silent 32).wf .result = true
    ∧ (checking check3).ports[(2 : Port)].controlLock = true := ⟨portIn_outside _ _ _ _, by decide +kernel⟩

/-- The check byte of a check frame of the right pattern, and a byte that is none. -/
theorem witness_up_checker : checkFrameChecks 0 (checkPattern 0) 0x5A = false ∧ checkFrameChecks 0x0102 0x3C79B2EF 0x41 = true
    ∧ checkFrameChecks 0x0102 0x3C79B2EE 0x40 = true ∧ (0x3C79B2EE : BitVec 32) ≠ checkPattern 0x0102
    ∧ (0x0102 : BitVec 16).toNat = 258 := by decide +kernel

theorem witness_check : (checking check3).ports[(2 : Port)].state = .checking ∧ (checking check3).ports[(2 : Port)].check = some check3
    ∧ check3.armed = false ∧ check3.result = none ∧ check3.expected < check3.frames ∧ (checking check3).ports[(2 : Port)].resultLock = true
    ∧ (checking { check3 with armed := true, result := some 0, expected := 2 }).ports[(2 : Port)].check =
        some { check3 with armed := true, result := some 0, expected := 2 } := by decide +kernel

theorem witness_check_ends :
    let k := { check3 with armed := true, expected := 3 }
    (checking k).ports[(2 : Port)].check = some k ∧ (checking k).ports[(2 : Port)].role = none ∧ k.ret = .training ∧ k.latched = true
      ∧ k.frames ≤ k.expected ∧ k.upErrors = 0 ∧ (checking k).ports[(2 : Port)].controlLock = true
      ∧ expired ({ checking k with elapsed := 10 } : State).ports[(2 : Port)].checkTimer 10 = true
      ∧ expired (checking k).ports[(2 : Port)].checkTimer 9 = false := by decide +kernel

/-- The last up frame of a check whose CHECK_RESULT has come: index 2 of 3, with its pattern. -/
theorem witness_check_ends_by_frame :
    let k := { check3 with armed := true, result := some 0, expected := 2 }
    let f : UpFrame := .check 2 0x3D78B3EE 0x40
    (checking k).ports[(2 : Port)].resultLock = true ∧ (checking k).ports[(2 : Port)].check = some k ∧ k.result = some 0
      ∧ k.frames ≤ (k.take f).expected ∧ (k.take f).upErrors = 0 := by decide +kernel

/-- A check that PORT_CHECK began on the handler P0 or the tester P1, with the record that ends it and the port's own cell. -/
def rechecked (p : Port) (k : CheckRec) (s : State) : State :=
  s.modPort p fun r => { r with state := .checking, check := some k, checkTimer := some { start := 0, limit := 10 } }

theorem witness_recheck :
    let k (latched : Bool) (ret : CheckReturn) : CheckRec := { latched := latched, frames := 3, ret := ret, armed := true, expected := 3 }
    let idle := rechecked 1 (k false .inService) (formed cell1)
    let manual := rechecked 0 (k true .inService) (crew .manual id [] { current := some 7705 })
    let twin := rechecked 1 (k true .inService) (floor.modPort 3 fun _ => testerPort)
    ([(0 : Port), 1].all fun p => [true, false].all fun a => [CheckReturn.training, .awaitAnnounce, .inService].all fun ret =>
        let r := (rechecked p (k a ret) floor).ports[p]
        let x := (rechecked p (k a ret) floor).slots[p]
        r.state == .checking && r.check == some (k a ret) && r.controlLock && r.role.isSome && x.request.isNone && !x.inFlight
          && expired r.checkTimer 10) = true
      ∧ floor.claims = [] ∧ (∀ q : Port, q ≠ 1 → (rechecked 1 (k true .inService) floor).ports[q].equip ≠ some 5127)
      ∧ twin.ports[(3 : Port)].state = .inService ∧ twin.ports[(3 : Port)].equip = twin.ports[(1 : Port)].equip
      ∧ idle.cellOfPort? 1 = some 0 ∧ idle.cell? 0 = some cell1 ∧ cell1.state = .idle ∧ idle.queues[(0 : CellNo)] = {}
      ∧ manual.cellOfPort? 0 = some 0 ∧ (manual.cell? 0).any (fun k => k.state == .manual && decide (manual.marginSteady k.testerPort)) = true
      ∧ manual.currentLot? 0 = some active1 ∧ manual.queues[(0 : CellNo)].behind = [] ∧ manual.slots[(0 : Port)].request = none := by
  decide +kernel

theorem witness_recheck_outside (p q : Port) (k : CheckRec) :
    (rechecked p k floor).outside q ∧ (rechecked 1 k (floor.modPort 3 fun _ => testerPort)).outside q :=
  ⟨noCells_outside (fun c => floor_noCells c) q, noCells_outside (fun c => floor_noCells c) q⟩

theorem witness_announce :
    let s := portIn .awaitAnnounce true true
    s.outside 2 ∧ (∀ g v t, s.slots[(2 : Port)].staged ≠ .loading g v t)
      ∧ s.ports[(2 : Port)].state = .awaitAnnounce ∧ s.ports[(2 : Port)].role = none ∧ s.testerPort? 5127 = none ∧ s.claims = []
      ∧ modeOf 2 = some .atHandler ∧ tempOf 0x8000 ≤ tempOf 0x7FFF ∧ (∀ q : Port, q ≠ 2 → s.ports[q].state ≠ .inService)
      ∧ (∀ q : Port, s.slots[q].equip ≠ some 5127) ∧ s.slots[(2 : Port)].swap = none := by
  have empty : (portIn .awaitAnnounce true true).slots[(2 : Port)].staged = .empty := by decide +kernel
  exact ⟨portIn_outside _ _ _ _, fun g v t h => Staged.noConfusion (empty.symm.trans h), by decide +kernel⟩

theorem witness_announce_faults : announceData (.other 3) = none ∧ announceData (.handler 4100 9 0 0 0 0 1) = none
    ∧ announceData (.handler 4100 8 0 0 7 0 1) = some (.handler, 4100, .handler 8 0 0 7 0 .remote)
    ∧ floor.ports[(0 : Port)].equip = some 4100 ∧ floor.ports[(0 : Port)].state = .inService
    ∧ (portIn .faulted true true).ports[(2 : Port)].state ≠ .awaitAnnounce
    ∧ expired (portIn .awaitAnnounce true true).ports[(2 : Port)].announceTimer 10 = true := by decide +kernel

/-- The handler and the tester, in no cell and with nothing in flight, await the ANNOUNCE of the identity they kept: another role,
another id, and the kept id while it is IN_SERVICE elsewhere. -/
theorem witness_announce_faults_kept :
    let s (p : Port) : State := floor.modPort p fun r => { r with state := .awaitAnnounce, announceTimer := some { start := 0, limit := 10 } }
    (∀ p q, (s p).outside q)
      ∧ ([(0 : Port), 1].all fun p => (s p).ports[p].state == .awaitAnnounce && (s p).ports[p].controlLock && (s p).ports[p].role.isSome
          && !(s p).slots[p].inFlight && expired (s p).ports[p].announceTimer 10) = true
      ∧ announceData (.handler 5127 4 0 500 7 0 1) = some (.handler, 5127, .handler 4 0 500 7 0 .remote)
      ∧ announceData (.tester 5128 4 235 0 168 1200 35 4) = some (.tester, 5128, .tester 4 235 0 168 1200 35 4)
      ∧ (s 1).ports[(1 : Port)].role = some .tester ∧ (s 1).ports[(1 : Port)].equip = some 5127
      ∧ ((s 1).modPort 3 fun _ => testerPort).ports[(3 : Port)].equip = some 5127 :=
  ⟨fun _ q => noCells_outside (fun c => floor_noCells c) q, by decide +kernel⟩

theorem witness_discarded : floor.ports[(0 : Port)].controlLock = true ∧ State.reset.ports[(0 : Port)].controlLock = false
    ∧ State.reset.ports[(0 : Port)].resultLock = false ∧ (portIn .training true true).ports[(2 : Port)].resultLock = true
    ∧ floor.ports[(1 : Port)].role = some .tester ∧ floor.ports[(1 : Port)].resultLock = true := by decide +kernel

theorem witness_out_of_place : messageOf (.hTemp 1 0) = some (1, 0x11, be 2 0) ∧ messageOf (.tSwapped 0) = some (0, 0x23, [])
    ∧ (checking check3).ports[(2 : Port)].state = .checking ∧ (portIn .awaitAnnounce true true).ports[(2 : Port)].state = .awaitAnnounce
    ∧ messageOf (.checkArmed 0) = some (0, 0x02, []) ∧ floor.ports[(0 : Port)].state = .inService
    ∧ messageOf (.tCal 2 0) = some (2, 0x21, be 2 0) ∧ (portIn .training true true).ports[(2 : Port)].state = .training
    ∧ floor.ports[(1 : Port)].controlLock = true ∧ floor.ports[(0 : Port)].role = some .handler := by decide +kernel

/-- An unchecked request of a port that no cell holds, of a port of an IDLE cell and of one of a MANUAL cell. -/
theorem witness_port_requests : (∀ k b s, (req k b s).asks k b) ∧ floor.outside 1
    ∧ (portIn .faulted true false).ports[(2 : Port)].state = .faulted ∧ (portIn .faulted true true).ports[(2 : Port)].state = .faulted
    ∧ u16 [2, 0, 1, 0] 1 = 1 ∧ u8 [2, 0, 1, 2] 3 = 2 ∧ u8 [2] 0 = (2 : Port).val ∧ 32 ≤ u8 [32] 0
    ∧ (formed { cell1 with state := .running }).cellBusy 1 = true
    ∧ ({ slot1 with swap := some { start := 0, limit := 30 } } : Slot).inFlight = true ∧ floor.slots[(1 : Port)].inFlight = false
    ∧ (formed cell1).cellOfPort? 0 = some 0 ∧ (formed cell1).cell? 0 = some cell1 ∧ (formed cell1).queues[(0 : CellNo)] = {}
    ∧ (fed .manual active1 tally1).ports[(0 : Port)].state = .inService ∧ (fed .manual active1 tally1).currentLot? 0 = some active1
    ∧ ((fed .manual active1 tally1).queues[(0 : CellNo)]).behind = [] := ⟨fun _ _ _ => req_asks _ _ _, noCells_outside floor_noCells 1, by decide +kernel⟩

theorem witness_handler_facts : floor.serves 0 .handler = true ∧ floor.ports[(0 : Port)].controlLock = true ∧ floor.outside 0
    ∧ floor.ports[(0 : Port)].data = some (.handler 4 (-400) 1500 7 5127 .remote) :=
  ⟨by decide +kernel, by decide +kernel, noCells_outside floor_noCells 0, by decide +kernel⟩

/-- A second handler, IN_SERVICE on P4. -/
def second (s : State) : State := s.modPort 4 fun _ => { handlerPort with equip := some 4300 }

/-- The first free record is C0. The tester of the cell on C0 is in conflict for a second handler; tester 9 is on no port. -/
theorem witness_dock : floor.outside 0 ∧ floor.outside 1 ∧ floor.testerPort? 5127 = some 1 ∧ floor.testerPort? 9 = none
    ∧ floor.cell? 0 = none ∧ floor.queues[(0 : CellNo)] = {} ∧ (∀ d : CellNo, d < 0 → (floor.cell? d).isSome) ∧ floor.claims = []
    ∧ (5127 : BitVec 32) ≠ 0 ∧ (second (formed cell1)).serves 4 .handler = true ∧ (second (formed cell1)).cellOfTester? 1 = some 0
    ∧ (second (formed cell1)).testerPort? 5127 = some 1 ∧ (second (formed cell1)).cellOfPort? 4 = none :=
  ⟨noCells_outside floor_noCells 0, noCells_outside floor_noCells 1, by decide +kernel⟩

theorem witness_chamber :
    let k := { cell1 with setpoint := some 250, band := some 20, soakTime := some 60 }
    (formed k).serves 0 .handler = true ∧ (formed k).ports[(0 : Port)].controlLock = true ∧ (formed k).cellOfHandler? 0 = some 0
      ∧ (formed k).cell? 0 = some k ∧ (formed k).queues[(0 : CellNo)].current = none ∧ cell1.setpoint = none
      ∧ 20 < (tempOf 271 - 250).natAbs ∧ (tempOf 270 - 250).natAbs ≤ 20 ∧ k.soak = .out := by decide +kernel

theorem witness_cell_timers :
    let k := { cell1 with soakTimer := some { start := 0, limit := 60 }, staleTimer := some { start := 0, limit := 30 } }
    let w := { cell1 with state := .paused, segment := some { lot := 7705, step := 0, feedTime := 0 }, withdrawTimer := some { start := 0, limit := 900 } }
    (formed k).cell? 0 = some k ∧ (formed k).queues[(0 : CellNo)].current = none ∧ expired k.soakTimer 60 = true
      ∧ expired k.soakTimer 59 = false ∧ expired k.staleTimer 30 = true ∧ expired k.staleTimer 29 = false
      ∧ expired w.withdrawTimer 900 = true ∧ expired w.withdrawTimer 899 = false ∧ w.causes.handlerLink = false
      ∧ (∀ x ∈ w.sites, x.change = none) ∧ k.state ≠ .draining := by decide +kernel

theorem witness_index :
    let s := fed .running active1 tally1
    s.serves 0 .handler = true ∧ s.cellOfHandler? 0 = some 0 ∧ (s.cell? 0).any (fun k => k.sites.all (·.change == none)) = true
      ∧ s.currentLot? 0 = some active1 ∧ s.tally? 7705 = some tally1 ∧ s.stepDef? active1 0 = some step1
      ∧ step1.edges.getLsbD 4 = true ∧ (formed cell1).cell? 0 = some cell1 ∧ cell1.state ≠ .running ∧ cell1.sites.length ≤ 8 := by
  decide +kernel

/-- An H_INDEX of a RUNNING cell whose site 1 is to go OFF and site 2 ON. -/
theorem witness_index_changes :
    let s := crew .running (fun k => { k with sites := (k.sites.set 1 (Site.mk .on (some .offForced) 0 0 1 1)).set 2 (Site.mk .offForced (some .on) 0 0 1 1) })
      [] { current := some 7705 }
    (s.cell? 0).any (fun k => decide (s.hears 0 0 k) && k.state == .running && k.soak == .soaked && k.causes == {} && k.waiting == {}
        && k.segment.isSome
        && decide (s.onlyTemp { k with sites := k.sites.map fun x => { x with state := x.target, change := none } } active1 product1 step1)) = true
      ∧ s.currentLot? 0 = some active1 ∧ s.tally? 7705 = some tally1 ∧ s.queues[(0 : CellNo)].behind = [] := by decide +kernel

/-- H_KIT: the kit held, reseated in a RUNNING cell; another kit in a RUNNING cell; and the product's own kit in a PAUSED one. -/
theorem witness_kit :
    let s := crew .running id [] { current := some 7705 }
    let u := crew .paused (fun k => { k with kit := 9, causes := { kit := true } }) [] { current := some 7705 }
    (s.cell? 0).any (fun k => decide (s.hears 0 0 k) && k.kit == (7 : BitVec 16).toNat && k.kit != (9 : BitVec 16).toNat && k.segment.isSome
        && k.state == .running && decide k.noChanges && decide (s.marginSteady k.testerPort)) = true
      ∧ s.ports[(0 : Port)].data = some (.handler 4 (-400) 1500 7 5127 .remote) ∧ s.queues[(0 : CellNo)].behind = []
      ∧ s.currentLot? 0 = some active1 ∧ s.product? 1 = some product1 ∧ product1.kit ≠ (9 : BitVec 16).toNat ∧ s.tally? 7705 = some tally1
      ∧ s.stepDef? active1 0 = some step1 ∧ step1.edges.getLsbD 2 = true
      ∧ (u.cell? 0).any (fun k => decide (u.hears 0 0 k) && k.kit == (9 : BitVec 16).toNat && k.state == .paused && k.soak == .soaked
          && !k.causes.handlerLink && decide (u.onlyTemp { k with kit := (7 : BitVec 16).toNat } active1 product1 step1)) = true
      ∧ u.cells[(0 : CellNo)].preemptEnable = false ∧ (formed cell1).queues[(0 : CellNo)] = {} := by decide +kernel

/-- A lock lost on each port of a formed cell, by the state of the cell, and a drain that loses its counts by it. -/
theorem witness_lock_in_cell :
    let s (st : CellState) := crew st (fun k => if st = .starting then { k with segment := none } else k) [] { current := some 7705 }
    (∀ st ∈ [CellState.starting, .running, .paused, .draining, .manual], ((s st).cell? 0).any (fun k => k.state == st
        && k.handlerPort == 0 && k.testerPort == 1 && !k.causes.handlerLink && decide k.noChanges && decide ((s st).marginSteady k.testerPort)
        && k.segment == if st = .starting then none else some { lot := 7705, step := 0, feedTime := 0 }) = true)
      ∧ (s .starting).cellOfTester? 1 = some 0
      ∧ (∀ p : Port, p = 0 ∨ p = 1 → (s .running).ports[p].state = .inService ∧ (s .running).cellOfPort? p = some 0
          ∧ (s .running).ports[p].controlLock = true)
      ∧ (s .running).queues[(0 : CellNo)].behind = [] ∧ (s .running).saves[(0 : CellNo)] = none ∧ (s .running).inService 0 = true
      ∧ (s .starting).currentLot? 0 = some active1 ∧ (s .starting).stopped active1 = false
      ∧ active1.state = .active ∧ active1.location = .queue 0 0 ∧ active1.holds = [] ∧ (s .draining).holds = []
      ∧ (formed cell1).cellOfPort? 1 = some 0 ∧ cell1.state = .idle ∧ (formed cell1).queues[(0 : CellNo)].current = none := by decide +kernel

/-- The fresh ANNOUNCE of a handler and of a tester of a PAUSED cell, soaked and not, and of the handler of an IDLE one. -/
theorem witness_announce_in_cell :
    let msg : AnnounceMsg := .handler 4100 4 0 500 7 5127 1
    let told : AnnounceMsg := .tester 5127 4 235 0 168 1200 35 4
    let x : Claim := { port := 0, tester := 5127, status := .formed }
    let away (p : Port) (s : State) : State := { s.modPort p fun r => { r with state := .awaitAnnounce } with claims := [x] }
    let s (soak : Soak) := away 0 (crew .paused (fun k => { k with soak := soak, causes := { handlerLink := true } }) [] { current := some 7705 })
    let u (soak : Soak) := away 1 (crew .paused (fun k => { k with soak := soak, causes := { testerLink := true } }) [] { current := some 7705 })
    (announceData msg).isSome = true ∧ (announceData told).isSome = true ∧ modeOf 1 = some .remote
      ∧ ((s .soaked).cell? 0).any (fun k => k.handlerPort == 0 && k.state == .paused && k.causes.handlerLink && k.setpoint == some 250
          && k.testerId == 5127 && k.segment.isSome && k.anyOn && decide ((s .soaked).marginSteady k.testerPort)) = true
      ∧ (s .soaked).cellOfHandler? 0 = some 0 ∧ (s .soaked).ports[(0 : Port)].state = .awaitAnnounce
      ∧ (s .soaked).ports[(0 : Port)].controlLock = true ∧ (s .soaked).ports[(0 : Port)].role = some .handler
      ∧ (s .soaked).ports[(0 : Port)].equip = some (4100 : BitVec 32).toNat ∧ (s .soaked).duplicate 0 (some 4100) = false
      ∧ (s .soaked).claims.find? (·.port == 0) = some x ∧ (s .soaked).inService 1 = true ∧ (s .soaked).product? 1 = some product1
      ∧ product1.kit = (7 : BitVec 16).toNat ∧ (s .soaked).marginPasses 1 step1 = true ∧ (s .soaked).slots[(1 : Port)].barred = false
      ∧ (s .soaked).queues[(0 : CellNo)].behind = [] ∧ (s .soaked).tally? 7705 = some tally1 ∧ (s .out).stepDef? active1 0 = some step1
      ∧ ((away 0 (crew .paused (fun k => { k with setpoint := none, causes := { handlerLink := true } }) [] { current := some 7705 })).cell? 0).any
        (fun k => k.state == .paused && k.causes.handlerLink && k.setpoint != some step1.setpoint) = true
      ∧ (away 0 (formed cell1)).queues[(0 : CellNo)].current = none
      ∧ ((u .out).cell? 0).any (fun k => k.testerPort == 1 && k.soak != .soaked && !k.causes.handlerLink) = true
      ∧ (u .soaked).cellOfTester? 1 = some 0 ∧ (u .soaked).ports[(1 : Port)].equip = some 5127
      ∧ (u .soaked).slots[(1 : Port)].equip = some 5127 ∧ (u .soaked).duplicate 1 (some 5127) = false ∧ (u .soaked).inService 0 = true
      ∧ ({ cal5127 235 with calTime := 0 } : Calibration).passes 0 step1 = true ∧ (u .soaked).cells[(0 : CellNo)].preemptEnable = false := by
  decide +kernel

/-- CELL_SET and SITE_FORCE of a cell with a current lot, by its state, and OFF of kind MONITOR on a site. -/
theorem witness_cell_requests_lot :
    let s (st : CellState) := crew st (fun k => { k with soak := .out }) [] { current := some 7705 }
    u8 (be 1 16) 0 = 16 ∧ (s .running).cells[(0 : CellNo)].enable = true ∧ (s .starting).currentLot? 0 = some active1
      ∧ (s .paused).queues[(0 : CellNo)].behind = [] ∧ (s .running).saves[(0 : CellNo)] = none ∧ (s .starting).stopped active1 = false
      ∧ (∀ st ∈ [CellState.starting, .running, .paused, .draining, .manual], ((s st).cell? 0).any (fun k => k.state == st
          && decide k.noChanges && decide ((s st).marginSteady k.testerPort) && (s st).inService k.handlerPort && !k.causes.handlerLink
          && k.segment.isSome && k.soak != .soaked && k.sites[1]? == some (Site.mk .on none 0 0 1 1)) = true)
      ∧ (Site.mk .offMonitor none 0 0 1 1).target = .offMonitor ∧ (Site.mk .on (some .offMonitor) 0 0 1 1).target = .offMonitor := by
  decide +kernel

theorem witness_cell_requests : (∀ b s, (req Kind.cellSet b s).asks Kind.cellSet b) ∧ (∀ b s, (req Kind.siteForce b s).asks Kind.siteForce b)
    ∧ (formed cell1).quiet 0 ∧ State.reset.quiet 3 ∧ u8 [0, 2, 0] 1 = 2 ∧ u8 [0, 1, 0] 1 ≤ 1 ∧ 7 < u8 [0, 8, 1] 1
    ∧ cell1.sites.length ≤ u8 [0, 4, 1] 1 ∧ cell1.sites[3]? = some (Site.mk .on none 0 0 1 1) ∧ (Site.mk .on none 0 0 1 1).target = .on
    ∧ (Site.mk .on (some .offForced) 0 0 1 1).target = .offForced ∧ (Site.mk .offMonitor none 0 0 1 1).state ≠ .on
    ∧ ((fed .running active1 tally1).cell? 0).any (·.state == .running) = true
    ∧ (Site.mk .offForced (some .on) 0 0 1 1).target = .on ∧ (Site.mk .offMonitor (some .on) 0 0 1 1).target = .on := by
  refine ⟨fun _ _ => req_asks _ _ _, fun _ _ => req_asks _ _ _, ⟨by decide +kernel, by decide +kernel, fun k h => ?_⟩,
    ⟨by decide +kernel, by decide +kernel, fun k h => ?_⟩, by decide +kernel⟩
  · have : (formed cell1).cell? 0 = some cell1 := by decide +kernel
    rw [this] at h; cases h; rfl
  · rw [reset_noCells] at h; cases h

/-- A cell in each state in which a site change is made at once, with one site OFF, for a SITE_FORCE of either value. -/
theorem witness_site_made_at_once :
    let s (st : CellState) := crew st (fun k => { k with
      soak := if st = .starting ∨ st = .paused then .settling else .soaked
      segment := if st = .starting then none else k.segment
      sites := k.sites.set 1 (Site.mk .offForced none 0 0 1 1) }) [] { current := some 7705 }
    ([CellState.starting, .manual, .draining, .paused].all fun st => ((s st).cell? 0).any fun k =>
        k.state == st && k.kit == product1.kit && decide ((s st).marginSteady k.testerPort) && (s st).inService k.handlerPort
          && (s st).inService k.testerPort && (s st).director 0 && !(s st).slots[k.testerPort].barred && !k.causes.handlerLink
          && (s st).inChamber k.handlerPort step1 && k.sites[0]? == some (Site.mk .on none 0 0 1 1)
          && k.sites[1]? == some (Site.mk .offForced none 0 0 1 1)
          && (s st).currentLot? 0 == some active1 && (s st).queues[(0 : CellNo)].behind == [] && !(s st).stopped active1
          && (s st).tally? 7705 == some tally1 && (s st).stepDef? active1 0 == some step1) = true := by decide +kernel

/-- R57, R58: the only site ON of a STARTING cell is forced OFF, so that the cell waits for SITES. -/
theorem test_force_starting :
    let s := crew .starting (fun k => { k with segment := none, soak := .settling, sites := [Site.mk .on none 0 0 1 1] }) []
      { current := some 7705 }
    (match exec .siteForce (req Kind.siteForce [0, 0, 2] s) with
    | .next t => (t.cell? 0).any fun k => k.state == .starting && k.waiting.sites && k.causes.noSites
        && k.sites == [Site.mk .offForced none 0 0 1 1]
    | _ => false) = true := by decide +kernel

/-- H_COUNTS of 100 units, all in bin 0. -/
def counts100 (flag : Byte) : CountsMsg :=
  { loaded := 100, bins := (Vector.replicate 8 0).set 0 100, jammed := 0, flag := flag }

/-- The lot of a STARTING cell that waits for its temperature alone. -/
theorem witness_first_feed :
    let s := crew .starting (fun k => { k with segment := none, soak := .settling, soakTimer := some { start := 0, limit := 0 } }) []
      { current := some 7705 }
    (s.cell? 0).any (fun k => k.state == .starting && k.soak == .settling && expired k.soakTimer s.elapsed
        && decide (s.onlyTemp k active1 product1 step1) && s.activeCurrent k.testerPort step1.program
        && s.ports[k.testerPort].data == some (.tester 4 235 0 168 1200 35 4)) = true
      ∧ s.currentLot? 0 = some active1 ∧ s.director 0 = true ∧ s.stopped active1 = false ∧ active1.tally = true
      ∧ s.slots[(1 : Port)].swap = none ∧ s.cells[(0 : CellNo)].preemptEnable = false ∧ s.tally? 7705 = some tally1
      ∧ active1.stepRec 0 = opened1 ∧ tally1.n1 < 100 := by decide +kernel

/-- R109: a tally complete before the first feed drains the segment for END at once, though a HOT lot waits at entry 1. -/
theorem test_complete_at_feed :
    let s := crew .starting (fun k => { k with segment := none, soak := .settling, soakTimer := some { start := 0, limit := 0 } })
      [{ queued8 with priority := .hot }] { current := some 7705, behind := [8] }
    let u : State := { s.modCellRec 0 (fun r => { r with preemptEnable := true }) with tallies := [{ tally1 with n1 := 100 }] }
    u.meetsPreemption 0 = true ∧ (match exec (.soakTimerExpiry 0) u with
      | .next t => (t.cell? 0).any fun k => k.state == .draining && k.purpose == some .ending
      | _ => false) = true := by decide +kernel

/-- A RUNNING cell with a stale timer due, and a PAUSED one with a soak timer due. -/
theorem witness_pause :
    let s := crew .running (fun k => { k with staleTimer := some { start := 0, limit := 0 } }) [] { current := some 7705 }
    let u := crew .paused (fun k => { k with soak := .settling, soakTimer := some { start := 0, limit := 0 } }) [] { current := some 7705 }
    (s.cell? 0).any (fun k => k.state == .running && expired k.staleTimer s.elapsed && decide k.noChanges
        && decide (s.marginSteady k.testerPort) && s.inService k.handlerPort) = true
      ∧ (u.cell? 0).any (fun k => k.state == .paused && k.soak == .settling && expired k.soakTimer u.elapsed && !k.causes.handlerLink
          && decide (u.onlyTemp k active1 product1 step1) && k.segment.isSome) = true
      ∧ s.currentLot? 0 = some active1 ∧ u.currentLot? 0 = some active1 ∧ u.cells[(0 : CellNo)].preemptEnable = false
      ∧ u.tally? 7705 = some tally1 := by decide +kernel

theorem witness_manual :
    let s (st : CellState) := crew st id [] { current := some 7705 }
    let back := crew .manual (fun k => { k with mode := .atHandler }) [] { current := some 7705 }
    (∀ st ∈ [CellState.running, .starting], ((s st).cell? 0).any (fun k => decide ((s st).hears 0 0 k) && k.state == st && decide k.noChanges
        && decide ((s st).marginSteady k.testerPort) && k.mode == .remote) = true)
      ∧ (s .running).currentLot? 0 = some active1 ∧ (s .running).queues[(0 : CellNo)] = { current := some 7705, behind := [] }
      ∧ (s .running).saves[(0 : CellNo)] = none ∧ (s .running).strict = false ∧ (s .running).cells[(0 : CellNo)].enable = true
      ∧ (s .running).ports[(0 : Port)].data = some (.handler 4 (-400) 1500 7 5127 .remote) ∧ (s .starting).stopped active1 = false
      ∧ (back.cell? 0).any (fun k => decide (back.hears 0 0 k) && k.state == .manual && k.mode == .atHandler && k.setpoint == some 250
          && k.soak == .soaked && decide (back.onlyTemp { k with mode := .remote } active1 product1 step1)) = true
      ∧ back.stopsNow active1 = false ∧ ({ active1 with overflow := true } : Lot).overflow = true
      ∧ (active1.stepRec 0).input = some 100 ∧ back.tally? 7705 = some tally1 := by decide +kernel

/-- A cell whose handler's claim goes, unfed and fed, and a second handler's claim in conflict for its tester. -/
theorem witness_dissolution :
    let s (st : CellState) (f : Cell → Cell) : State :=
      { second (crew st f [queued8] { current := some 7705, behind := [8] }) with claims := [{ port := 0, tester := 5127, status := .formed }] }
    let y : Claim := { port := 4, tester := 5127, status := .conflict }
    let u := s .starting (fun k => { k with segment := none })
    let x := s .running id
    (u.cell? 0).any (fun k => decide (u.hears 0 0 k) && k.segment == none && u.inService k.testerPort && k.testerId == 5127
        && u.testerPort? k.testerId == some k.testerPort) = true
      ∧ u.cellOfHandler? 0 = some 0 ∧ u.cellOfTester? 1 = some 0 ∧ u.ports[(0 : Port)].role = some .handler
      ∧ u.ports[(1 : Port)].role = some .tester ∧ u.ports[(1 : Port)].state ≠ .absent
      ∧ (announceData (.handler 4100 4 0 500 7 0 1)).isSome = true
      ∧ (u.modPort 0 fun r => { r with state := .awaitAnnounce }).duplicate 0 (some 4100) = false
      ∧ u.currentLot? 0 = some active1 ∧ u.stopped active1 = false ∧ u.lot? 8 = some queued8 ∧ u.stopped queued8 = false
      ∧ (u.claims.filter fun x => x.port != 0) = []
      ∧ (x.cell? 0).any (fun k => decide (x.hears 0 0 k) && k.segment == some { lot := 7705, step := 0, feedTime := 0 } && k.state == .running) = true
      ∧ active1.state = .active ∧ active1.location = .queue 0 0 ∧ 7705 ∉ x.saves[(0 : CellNo)].toList ++ x.queues[(0 : CellNo)].behind
      ∧ x.holds = [] ∧ u.inService y.port = true ∧ u.ports[y.port].data = some (.handler 4 (-400) 1500 7 5127 .remote)
      ∧ ((u.claims ++ [y]).filter fun x => x.port != 0) = [y] ∧ (∀ e : CellNo, e ≠ 0 → u.cell? e = none) := by decide +kernel

/-- The dissolution's lots stand in ascending order of their ids. -/
theorem witness_dissolution_sorted : (crew .running id [queued8] { current := some 7705, behind := [8] }).tablesSorted := by
  unfold State.tablesSorted; decide +kernel

theorem witness_interim :
    let s := fed .running active1 tally1
    s.serves 0 .handler = true ∧ s.ports[(0 : Port)].controlLock = true ∧ s.cellOfHandler? 0 = some 0
      ∧ (s.cell? 0).any (fun k => k.segment == some { lot := 7705, step := 0, feedTime := 0 } && k.state != .draining) = true
      ∧ s.lot? 7705 = some active1 ∧ active1.stepRec 0 = opened1 ∧ opened1.loaded + 100 ≤ 4000000 ∧ cell1.segment = none
      ∧ (∀ i : Fin 8, (counts100 2).bins[i].toNat ≤ 4000000) := by decide +kernel

/-- A lot whose loaded total is full. -/
def full1 : Lot := { active1 with steps := active1.steps.set 0 { opened1 with loaded := 4000000, recon := .accepted } }

theorem witness_counts_past_top :
    ([CellState.running, .paused, .manual, .draining].all fun st =>
      let s := fed st full1 tally1
      s.serves 0 .handler && s.ports[(0 : Port)].controlLock && s.cellOfHandler? 0 == some 0
        && (s.cell? 0).any (fun k => k.segment == some { lot := 7705, step := 0, feedTime := 0 } && k.state == st)
        && s.lot? 7705 == some full1 && s.queues[(0 : CellNo)] == { current := some 7705, behind := [] }
        && s.saves[(0 : CellNo)].isNone && s.holds.isEmpty) = true
      ∧ full1.state = .active ∧ full1.location = .queue 0 0 ∧ full1.holds = []
      ∧ 4000000 < (full1.stepRec 0).loaded + (counts100 2).loaded.toNat := by decide +kernel

theorem witness_counts_past_top_sorted : (fed .running full1 tally1).tablesSorted ∧ (fed .draining full1 tally1).tablesSorted := by
  unfold State.tablesSorted; decide +kernel

/-- R146: counts past the top leave the segment open and lose the counts of the step. -/
theorem test_counts_past_top : (match exec (.hCounts 0 (counts100 2)) (fed .paused full1 tally1) with
    | .next t => (t.lot? 7705).any (fun l => l.holds == [1] && l.stepRec 0 == { opened1 with
            loaded := 4000000, bins := (Vector.replicate 8 0).set 0 100, countLost := true })
        && (t.cell? 0).any (fun k => k.state == .paused && k.segment.isSome)
    | _ => false) = true := by decide +kernel

/-- The tally of a lot whose units all passed. -/
def whole1 : Tally :=
  { tally1 with n1 := 100, c1 := (Vector.replicate 16 0).set 0 100, ne := 100, ce := (Vector.replicate 16 0).set 0 100 }

def sums100 : Counts := { loaded := 100, bins := (Vector.replicate 8 0).set 0 100, jammed := 0, last := true }

theorem witness_end_counts :
    let s := fed .draining active1 whole1
    let r := addToStep sums100 opened1
    s.serves 0 .handler = true ∧ s.ports[(0 : Port)].controlLock = true ∧ s.cellOfHandler? 0 = some 0
      ∧ (s.cell? 0).any (fun k => k.segment == some { lot := 7705, step := 0, feedTime := 0 }) = true
      ∧ s.queues[(0 : CellNo)] = { current := some 7705, behind := [] } ∧ s.saves[(0 : CellNo)] = none ∧ s.tallyWait = []
      ∧ s.lot? 7705 = some active1 ∧ s.product? 1 = some product1 ∧ s.stepDef? active1 0 = some step1 ∧ s.tally? 7705 = some whole1
      ∧ countsOf (counts100 1) = some sums100 ∧ totalsOverflow opened1 sums100 = false ∧ s.stopped active1 = false
      ∧ closeBreaches whole1 step1 = [] ∧ unreadableBreach whole1 s.params.unreadable = false
      ∧ checkA r = true ∧ checkB r whole1 product1.tolerance = true ∧ checkC r whole1 product1 = true := by decide +kernel

/-- R147 to R150: such counts complete the lot and free the cell. -/
theorem test_end_counts : (match exec (.hCounts 0 (counts100 1)) (fed .draining active1 whole1) with
    | .next t => (t.lot? 7705).any (fun l => l.state == .complete && l.step == 1 && l.quantity == 100 && (l.stepRec 0).recon == .pass)
        && (t.cell? 0).any (fun k => k.state == .idle && k.segment == none) && t.tallies.isEmpty && t.queues[(0 : CellNo)] == {}
    | _ => false) = true := by decide +kernel

theorem witness_drain_expiry :
    let s := (fed .draining active1 tally1).modCell 0 fun k => { k with drainTimer := some { start := 4294967000, limit := 296 } }
    s.elapsed = 0 ∧ (s.cell? 0).any (fun k => k.state == .draining && expired k.drainTimer 0
        && k.segment == some { lot := 7705, step := 0, feedTime := 0 }) = true
      ∧ s.lot? 7705 = some active1 ∧ active1.state = .active ∧ active1.location = .queue 0 0 ∧ s.saves[(0 : CellNo)] = none
      ∧ s.queues[(0 : CellNo)] = { current := some 7705, behind := [] } ∧ s.holds = [] ∧ active1.holds.length < 8 ∧ s.tablesSorted := by
  unfold State.tablesSorted; decide +kernel

/-- R52: the counts are lost, the lot is HELD and the cell goes IDLE. -/
theorem test_drain_expiry : (match exec (.drainTimerExpiry 0)
      ((fed .draining active1 tally1).modCell 0 fun k => { k with drainTimer := some { start := 4294967000, limit := 296 } }) with
    | .next t => (t.lot? 7705).any (fun l => l.state == .held && l.holds == [1] && (l.stepRec 0).countLost)
        && (t.hold? 1).any (·.reason == .countLost) && (t.cell? 0).any (·.state == .idle)
    | _ => false) = true := by decide +kernel

theorem witness_assignment : State.reset.pass.making = false ∧ State.reset.pass.pending = false ∧ tables.noCells
    ∧ (tables.trigger).pass.pending = true ∧ tables.waitList = [7705]
    ∧ ({ tables with pass := { making := true, remaining := [7705, 8] } } : State).pass.changed.length ≤ 16 :=
  ⟨rfl, rfl, fun c => reset_noCells c, rfl, rfl, by decide⟩

theorem witness_placement :
    let s := (formed cell1).trigger
    s.pass.making = false ∧ s.pass.pending = true ∧ s.waitList = [7705] ∧ s.lot? 7705 = some lot1 ∧ s.stopped lot1 = false
      ∧ s.tally? 7705 = none ∧ s.tallies.length < 48 ∧ s.tallyWait = [] ∧ s.stepDef? lot1 0 = some step1 ∧ s.eligible 0 lot1 = true
      ∧ s.cell? 0 = some cell1 ∧ (∀ x ∈ cell1.sites, x.change = none) ∧ s.queues[(0 : CellNo)] = {}
      ∧ (∀ e : CellNo, e ≠ 0 → s.cell? e = none) ∧ cell1.setpoint ≠ some step1.setpoint ∧ cell1.segment = none := by decide +kernel

/-- R66, R76: the pass starts the lot in the cell. -/
theorem test_placement : (match exec .assignmentPass (formed cell1).trigger with
    | .next t => (t.lot? 7705) == some { lot1 with state := .active, location := .queue 0 0, tally := true }
        && (t.cell? 0).any (fun k => k.state == .starting && k.setpoint == some 250 && k.soak == .out && k.waiting.temp)
        && t.waitList.isEmpty && t.tally? 7705 == some tally1 && t.slots[(1 : Port)].request == some 5 && !t.pass.making
        && t.ports[(0 : Port)].out.contains (.setpoint 250)
    | _ => false) = true := by decide +kernel

/-- A cell that starts with no tally free, and one that a tally freed by another lot's drop serves. -/
theorem witness_tally_wait :
    let full : List Tally := List.replicate 48 { lot := 9, step := 0 }
    let s : State := { (formed cell1).trigger with tallies := full }
    let m : Lot := { lot1 with id := 8, seq := 1, state := .held, tally := true }
    let l : Lot := { active1 with tally := false }
    let u : State := { crew .starting (fun k => { k with segment := none, soak := .out }) [] { current := some 7705 } with
      lots := [m, l], tallies := List.replicate 47 { lot := 9, step := 0 } ++ [{ lot := 8, step := 0 }], tallyWait := [0, 3] }
    48 ≤ s.tallies.length ∧ (0 : CellNo) ∉ s.tallyWait ∧ s.waitList = [7705] ∧ s.eligible 0 lot1 = true ∧ cell1.segment = none
      ∧ cell1.noChanges ∧ u.lot? 8 = some m ∧ u.tallyWait = 0 :: [3] ∧ (u.tallies.filter (·.lot != 8)).length < 48
      ∧ u.currentLot? 0 = some l ∧ u.tally? 7705 = none ∧ u.director 0 = true ∧ u.stopped l = false
      ∧ (u.cell? 0).any (fun k => k.state == .starting && k.segment == none && k.soak != .soaked
          && decide (u.onlyTemp k l product1 step1)) = true := by decide +kernel

/-- A waiting lot for a cell with a current lot: nothing behind it, or three lots, of which the last but one is NORMAL. -/
theorem witness_behind :
    let w : Lot := { lot1 with id := 5, seq := 9 }
    let b (id : Nat) (p : Priority) : Lot := { queued8 with id := id, seq := id, priority := p }
    let s (others : List Lot) (behind : List Nat) : State :=
      { (crew .running id others { current := some 7705, behind := behind }).trigger with waitList := [5] }
    let one := s [w] []
    let three := s [{ w with priority := .hot }, b 6 .normal, b 7 .normal, b 8 .hot] [6, 7, 8]
    one.lot? 5 = some w ∧ one.waitList = [5] ∧ one.pass.making = false ∧ one.pass.pending = true
      ∧ (∀ e : CellNo, e ≠ 0 → one.cell? e = none) ∧ one.queues[(0 : CellNo)] = { current := some 7705, behind := [] }
      ∧ one.cells[(0 : CellNo)].preemptEnable = false ∧ one.eligible 0 w = true ∧ three.eligible 0 { w with priority := .hot } = true
      ∧ (three.cell? 0).any (fun k => decide (three.marginSteady k.testerPort) && k.segment == some { lot := 7705, step := 0, feedTime := 0 }) = true
      ∧ three.queues[(0 : CellNo)].behind = [6] ++ 7 :: [8] ∧ three.lot? 7 = some (b 7 .normal) ∧ three.isHot 8 = true
      ∧ three.stopped (b 7 .normal) = false := by decide +kernel

/-- The same cell, DRAINING, loses the lot behind entry 0 when it is disabled. -/
theorem witness_behind_lost :
    let s := crew .draining id [queued8] { current := some 7705, behind := [8] }
    (req Kind.cellSet [0, 0, 1] s).asks Kind.cellSet [0, 0, 1] ∧ (s.cell? 0).any (fun k => k.state == .draining && s.inService k.handlerPort
        && decide (s.marginSteady k.testerPort)) = true
      ∧ s.currentLot? 0 = some active1 ∧ active1.id ∉ s.queues[(0 : CellNo)].behind ∧ s.lot? 8 = some queued8
      ∧ s.stopped queued8 = false := ⟨req_asks _ _ _, by decide +kernel⟩

/-- A lot at entry 1 of a RUNNING and of a STARTING cell, at the end of a PREEMPT drain, and saved, with another setpoint. -/
theorem witness_preemption :
    let off (k : Cell) : Cell := { k with setpoint := some 300 }
    let q : DispatchQueue := { current := some 7705, behind := [8] }
    let enabled (s : State) : State := s.modCellRec 0 fun r => { r with preemptEnable := true }
    let run := enabled (crew .running off [queued8] q)
    let start := enabled (crew .starting off [queued8] q)
    let drain := crew .draining (fun k => { off k with purpose := some .preempt }) [{ queued8 with priority := .hot }] q
    let saved : Lot := { queued8 with state := .saved, location := .save 0 }
    let back := (crew .draining (fun k => { off k with purpose := some .withdraw }) [saved] { current := some 7705 }).setSave 0 (some 8)
    run.lot? 8 = some queued8 ∧ run.queues[(0 : CellNo)] = q ∧ run.currentLot? 0 = some active1 ∧ run.stepDef? queued8 0 = some step1
      ∧ run.cells[(0 : CellNo)].preemptEnable = true ∧ run.saves[(0 : CellNo)] = none ∧ start.eligible 0 queued8 = true
      ∧ start.stopped queued8 = false ∧ start.slots[(1 : Port)].swap = none
      ∧ (∀ s ∈ [run, start, drain, back], (s.cell? 0).any (fun k => decide k.noChanges && k.setpoint != some step1.setpoint
          && decide (s.marginSteady k.testerPort) && s.inService k.handlerPort && !k.causes.handlerLink && decide (s.hears 0 0 k)
          && k.segment == some { lot := 7705, step := 0, feedTime := 0 }) = true)
      ∧ (countsOf { loaded := 1, bins := (Vector.replicate 8 0).set 0 1, jammed := 0, flag := 2 }).any (fun x => !x.last
          && !totalsOverflow (active1.stepRec 0) x) = true
      ∧ drain.isHot 8 = true ∧ drain.eligible 0 { queued8 with priority := .hot } = true ∧ drain.stopped active1 = false
      ∧ back.saves[(0 : CellNo)] = some 8 ∧ back.queues[(0 : CellNo)].behind = [] ∧ back.eligible 0 saved = true
      ∧ (back.modCellRec 0 fun r => { r with enable := false }).eligible 0 saved = false := by decide +kernel

theorem witness_program : tables.noCells ∧ (∀ p : Port, tables.slots[p].request = none)
    ∧ (∀ b s, (req Kind.programPut b s).asks Kind.programPut b) ∧ (∀ b s, (req Kind.programDrop b s).asks Kind.programDrop b)
    ∧ (tables.program? 5).any (fun g => g.revision == 1 && g.checkValue == 9) = true ∧ tables.program? 6 = none
    ∧ u16 (be 2 6 ++ [1] ++ be 4 9 ++ be 2 10) 7 = 10 ∧ u16 (be 2 6 ++ [1] ++ be 4 9 ++ be 2 3601) 7 = 3601
    ∧ 128 ≤ (List.replicate 128 (Program.mk 5 1 9 100)).length ∧ (∃ g ∈ tables.products, ∃ d ∈ g.steps, d.program = 5)
    ∧ (∀ g ∈ ({ tables with products := [] } : State).products, ∀ d ∈ g.steps, d.program ≠ 5)
    ∧ (tables.modSlot 4 fun t => { t with staged := .ready 5 1 }).slots[(4 : Port)].staged = .ready 5 1 :=
  ⟨fun c => reset_noCells c, by decide +kernel, fun _ _ => req_asks _ _ _, fun _ _ => req_asks _ _ _, by decide +kernel⟩

theorem witness_calibration : floor.serves 1 .tester = true ∧ floor.ports[(1 : Port)].controlLock = true ∧ floor.outside 1
    ∧ floor.slots[(1 : Port)].use = .inUse ∧ floor.slots[(1 : Port)].cal.isSome :=
  ⟨by decide +kernel, by decide +kernel, noCells_outside floor_noCells 1, by decide +kernel, by decide +kernel⟩

/-- A RUNNING cell whose tester's head moves: to 600 the margin fails, to 330 it passes by extension alone, to 235 as before. At a
rollover the same hold of the state itself, and no other tester is in use. -/
theorem witness_margin_in_cell :
    let s := fed .running active1 tally1
    let runs (s : State) : Bool := (s.cell? 0).any fun k => decide (s.runsOn 1 0 k active1 product1 step1)
    let moved (t : Int) : State := s.modSlot 1 fun x => { x with cal := some { cal5127 t with calTime := 0 } }
    runs s = true ∧ s.serves 1 .tester = true ∧ s.ports[(1 : Port)].controlLock = true
      ∧ s.slots[(1 : Port)].cal = some { cal5127 235 with calTime := 0 }
      ∧ ¬ (moved 600).marginSteady 1 ∧ (moved 600).marginPasses 1 step1 = false
      ∧ (moved 330).marginPasses 1 step1 = true ∧ (moved 330).marginByExtension 1 step1 = true
      ∧ (moved 235).marginPasses 1 step1 = true ∧ (moved 235).marginByExtension 1 step1 = false
      ∧ runs (moved 600) = true ∧ runs { moved 600 with floorTime := 3600, elapsed := 1 } = true
      ∧ (∀ e : CellNo, e ≠ 0 → (moved 600).cell? e = none)
      ∧ (∀ q : Port, q ≠ 1 → (moved 600).marginSteady q) ∧ ¬ ({ moved 600 with floorTime := 3600 } : State).marginSteady 1
      ∧ ({ moved 600 with floorTime := 3599 } : State).floorTime + 1 = 3600 := by decide +kernel

/-- R45, R48: the tester of a RUNNING cell whose head has moved to 60.0 degrees pauses it with cause CAL. -/
theorem test_head_pauses : (match exec (.tHeadtemp 1 600) (fed .running active1 tally1) with
    | .next t => (t.cell? 0).any (fun k => k.state == .paused && k.causes == { cal := true })
    | _ => false) = true := by decide +kernel

/-- R47: a PROGRAM_PUT that makes the active revision current again takes PROGRAM off, with a load in flight. -/
theorem test_program_regained :
    let s : State := req Kind.programPut (be 2 5 ++ [2] ++ be 4 9 ++ be 2 100)
      ((crew .starting (fun k => { k with segment := none, soak := .out, waiting := { temp := true, program := true } }) []
        { current := some 7705 }).modSlot 1 fun t =>
          { t with request := some 5, active := some (5, 2), staged := .loading 5 1 { start := 0, limit := 100 } })
    (match exec .programPut s with
      | .next t => (t.cell? 0).any (fun k => k.waiting == { temp := true }) && t.slots[(1 : Port)].isLoading
      | _ => false) = true := by decide +kernel

/-- A tester that loads with a program asked for, and one of a STARTING cell that swaps. -/
theorem witness_service :
    let s (x : Staged) (swap : Option Timer) : State :=
      (crew .starting (fun k => { k with segment := none, soak := .out }) [] { current := some 7705 }).modSlot 1 fun t =>
        { t with request := some 5, active := none, staged := x, swap := swap }
    let load := s (.loading (5 : BitVec 16).toNat 1 { start := 0, limit := 0 }) none
    let done := (s (.ready 5 1) none).modSlot 1 fun t => { t with active := some (5, 1), staged := .empty }
    load.slots[(1 : Port)].request = some 5 ∧ (load.program? 5).any (fun g => g.id == 5 && g.revision == 1 && g.checkValue == 9) = true
      ∧ load.inService 1 = true ∧ load.serves 1 .tester = true ∧ load.ports[(1 : Port)].controlLock = true
      ∧ load.slots[(1 : Port)].barred = false ∧ load.slots[(1 : Port)].active = none ∧ load.slots[(1 : Port)].failures < 2
      ∧ (Timer.mk 0 0).due load.elapsed = true ∧ (s (.ready 5 1) (some (Timer.mk 0 30))).slots[(1 : Port)].swap.isSome = true
      ∧ (s (.ready 5 1) (some (Timer.mk 0 30))).cellOfTester? 1 = some 0
      ∧ ((s (.ready 5 1) (some (Timer.mk 0 30))).cell? 0).any (fun k => k.state == .starting && k.soak != .soaked
          && decide ((s (.ready 5 1) (some (Timer.mk 0 30))).onlyTemp k active1 product1 step1)) = true
      ∧ step1.program = 5 ∧ done.director 0 = true ∧ done.stopped active1 = false ∧ done.cells[(0 : CellNo)].preemptEnable = false := by
  decide +kernel

theorem witness_load :
    let s := floor.modSlot 1 fun t => { t with staged := .loading 5 1 { start := 0, limit := 100 }, failures := 2 }
    s.outside 1 ∧ s.slots[(1 : Port)].request = none ∧ s.slots[(1 : Port)].staged = .loading (5 : BitVec 16).toNat 1 { start := 0, limit := 100 }
      ∧ (s.program? 5).any (fun g => g.revision == (1 : Byte).toNat && (9 : BitVec 32).toNat == g.checkValue) = true ∧ State.reset.program? 5 = none
      ∧ (2 ≤ s.slots[(1 : Port)].failures ∧ s.slots[(1 : Port)].barred = false)
      ∧ (Timer.mk 0 100).due 100 = true ∧ (Timer.mk 0 100).due 99 = false
      ∧ (floor.slots[(1 : Port)].swap = none ∧ expired (some (Timer.mk 0 30)) 30 = true ∧ expired (some (Timer.mk 0 30)) 29 = false) :=
  ⟨noCells_outside (fun c => floor_noCells c) 1, by decide +kernel⟩

/-- R88: the third failure in succession bars the tester. -/
theorem test_third_failure : (match exec (.tLoaded 1 5 1 8 1)
      (floor.modSlot 1 fun t => { t with staged := .loading 5 1 { start := 0, limit := 100 }, failures := 2 }) with
    | .next t => t.slots[(1 : Port)].barred && t.slots[(1 : Port)].failures == 3 && t.reports.length == 2
    | _ => false) = true := by decide +kernel

theorem witness_tester_clear : (∀ b s, (req Kind.testerClear b s).asks Kind.testerClear b) ∧ u8 [32] 0 = 32 ∧ u8 [1] 0 = (1 : Port).val
    ∧ floor.slots[(2 : Port)].use = .unused ∧ floor.slots[(1 : Port)].use ≠ .unused ∧ floor.outside 1
    ∧ (floor.modSlot 1 fun t => { t with failures := 3 }).slots[(1 : Port)].barred = false :=
  ⟨fun _ _ => req_asks _ _ _, by decide, by decide, by decide +kernel, by decide +kernel, noCells_outside floor_noCells 1, by decide +kernel⟩

/-- The spec's record of lot 7705 stands at sequence 3: three missing before it, in order with nothing missing, or a duplicate. -/
theorem witness_results :
    let s := fed .running active1 tally1
    let r : BitVec 64 := 0x1E1911000003703F
    s.ports[(1 : Port)].resultLock = true ∧ s.serves 1 .tester = true ∧ s.cellOfTester? 1 = some 0 ∧ floor.cellOfTester? 1 = none
      ∧ (formed cell1).currentLot? 0 = none ∧ s.currentLot? 0 = some active1 ∧ s.tally? 7705 = some tally1 ∧ s.product? 1 = some product1
      ∧ s.currentStep? 0 = some step1 ∧ recordChecks r = true ∧ recordChecks 0 = false ∧ (recordFields r).tag = 7705 % 65536
      ∧ (s.cell? 0).any (fun k => k.state == .running && k.sites[(recordFields r).site]? == some (Site.mk .on none 0 0 1 1) && k.sites[4]? == none) = true
      ∧ (recordFields r).phase = some false ∧ (recordFields r).sequence = ({} : Site).expFirst + 2
      ∧ (recordFields r).sequence < ({ expFirst := 4 } : Site).expFirst ∧ (active1.stepRec 0).input = some 100 ∧ tally1.n1 + 1 < 100
      ∧ tally1.divider + 1 ≠ step1.divider ∧ step1.consecutive = 0
      ∧ (recordFields 0x1E1912000003113D).phase = some true ∧ product1.retest.getLsbD (recordFields 0x1E1912000003113D).origin.val = true := by
  decide +kernel

/-- R103, R107: the record is counted after a gap of two. -/
theorem test_first_record : (match exec (.resultRecord 1 0x1E1911000003703F) (fed .running active1 tally1) with
    | .next t => (t.tally? 7705).any fun x => x.n1 == 1 && x.ne == 1 && x.u == 2 && x.missing == 2 && x.c1[7] == 1
    | _ => false) = true := by decide +kernel

/-- R116: the divider is judged as the unit left it, though the monitor's OFF makes the PAUSED cell resume, which clears it. -/
theorem test_evaluation_after_resume :
    let s : State := { (crew .paused (fun k => { k with causes := { cal := true } }) [] { current := some 7705 }) with
      products := [{ product1 with steps := [{ step1 with consecutive := 1, divider := 1 }] }], tallies := [{ tally1 with ne := 2 }] }
    (match exec (.resultRecord 1 0x1E1911000003703F) s with
      | .next t => (t.holds.map (·.reason) == [.yieldFloor]) && (t.tally? 7705).any (·.divider == 0)
          && (t.cell? 0).any fun k => k.state == .draining && (k.sites[1]?.map (·.state)) == some .offMonitor
      | _ => false) = true := by decide +kernel

theorem witness_evaluator :
    let s := fed .running active1 { tally1 with ne := 3, divider := 2 }
    State.reset.current? 0 = none ∧ (s.cell? 0).any (fun k => k.state == .running && k.segment.isSome) = true
      ∧ s.currentLot? 0 = some active1 ∧ s.stepDef? active1 0 = some step1 ∧ step1.smin ≤ 3 ∧ tally1.divider ≠ step1.divider
      ∧ runningBreaches { tally1 with ne := 3, divider := 2 } step1 = [{ kind := .yieldFloor, cls := 0, value := 9000, phase := .running }]
      ∧ runningBreaches { tally1 with ne := 3, ce := (Vector.replicate 16 0).set 0 3 } step1 = [] ∧ step1.reportDivider = 0
      ∧ s.inService 0 = true ∧ active1.state = .active ∧ active1.location = .queue 0 0 ∧ s.holds = [] := by decide +kernel

/-- The evaluator's rows with a report divider and a consecutive-fail limit of 4. -/
theorem witness_monitor :
    let d : StepDef := { step1 with consecutive := 4, reportDivider := 3 }
    let s : State := { (fed .running active1 { tally1 with evaluations := 3 }).modCell 0 fun k =>
        { k with sites := k.sites.set 2 (Site.mk .on none 0 4 1 1) } with
      products := [{ product1 with steps := [d] }] }
    s.stepDef? active1 0 = some d
      ∧ (s.cell? 0).any (fun k => k.sites[2]? == some (Site.mk .on none 0 4 1 1) && k.takesResults && k.state == .running) = true
      ∧ (Site.mk .on none 0 4 1 1).run = d.consecutive ∧ (Site.mk .offForced none 0 4 1 1).target ≠ .on
      ∧ ({ tally1 with evaluations := 3 } : Tally).evaluations = d.reportDivider ∧ tally1.evaluations ≠ d.reportDivider := by decide +kernel

/-- R126, R113: a run that an earlier lot left behind takes no site of a STARTING cell off. -/
theorem test_stale_run :
    let s : State := { (fed .starting active1 tally1).modCell 0 fun k =>
        { k with segment := none, sites := k.sites.set 2 (Site.mk .on none 0 4 1 1) } with
      products := [{ product1 with steps := [{ step1 with consecutive := 4 }] }] }
    (match exec (.siteMonitor 0 2) s with
    | .next t => t.cells == s.cells && t.reports == s.reports
    | _ => false) = true := by decide +kernel

/-- HELD by one hold, so that a request merges or is stored; WAITING; queued; and current in a STARTING or a RUNNING cell. -/
theorem witness_hold_place :
    let b : List Byte := be 4 7705 ++ [3, 0]
    let q := (formed cell1).modQueue 0 fun _ => { current := some 8, behind := [7705] }
    let a := fed .running active1 tally1
    (∀ s, (req Kind.holdPlace b s).asks Kind.holdPlace b) ∧ heldLot.tablesSorted ∧ a.tablesSorted
      ∧ b.length = 6 + u8 b 5 ∧ severityOf (u8 b 4) = some .ship ∧ severityOf 0 = none
      ∧ heldLot.lot? 7705 = some { lot1 with state := .held, holds := [1] }
      ∧ heldLot.holds.find? (fun h => h.lot == 7705 && h.reason == .placed && h.cls == 0 && h.step == 0) = some held1
      ∧ (∀ h ∈ ({ heldLot with holds := [{ held1 with step := 1 }] } : State).holds,
          ¬ (h.lot = 7705 ∧ h.reason = .placed ∧ h.cls = 0 ∧ h.step = 0))
      ∧ 8 ≤ (List.replicate 8 1).length ∧ tables.lot? 7705 = some lot1 ∧ tables.holds = []
      ∧ (withLot { lot1 with state := .queued, location := .queue 0 1 } q).lot? 7705 = some { lot1 with state := .queued, location := .queue 0 1 }
      ∧ q.queues[(0 : CellNo)].current ≠ some 7705 ∧ a.lot? 7705 = some active1 ∧ active1.location = .queue 0 0 ∧ a.holds = []
      ∧ a.queues[(0 : CellNo)] = { current := some 7705, behind := [] } ∧ a.saves[(0 : CellNo)] = none ∧ a.inService 0 = true
      ∧ (a.cell? 0).any (fun k => k.segment.isSome && !k.causes.handlerLink && k.sites.all (·.change == none)) = true
      ∧ ((fed .starting active1 tally1).cell? 0).any (·.state == .starting) = true := by
  unfold State.tablesSorted
  exact ⟨fun _ => req_asks _ _ _, by decide +kernel⟩

theorem witness_dispositions :
    let l : Lot := { lot1 with state := .held, holds := [1], steps := (Vector.replicate 6 {}).set 0 opened1 }
    let s : State := { withLot l tables with holds := [held1] }
    (∀ b, (req Kind.holdDispose b s).asks Kind.holdDispose b) ∧ s.lot? held1.lot = some l ∧ s.hold? 1 = some held1
      ∧ u16 (be 2 1 ++ [1] ++ be 4 0) 0 = 1 ∧ u8 (be 2 1 ++ [1] ++ be 4 0) 2 = 1 ∧ l.mayRetest 0 = true ∧ l.mayRetest 1 = false
      ∧ u32 (be 2 1 ++ [3] ++ be 4 100) 3 ≤ l.quantity ∧ l.quantity < u32 (be 2 1 ++ [3] ++ be 4 101) 3 ∧ l.scrapped + 100 ≤ 4000000
      ∧ s.tallyWait = [] ∧ l.overflow = false
      ∧ (be 2 0 ++ [1] ++ be 4 7705 ++ [0xFF]).length = 8 ∧ u32 (be 2 0 ++ [1] ++ be 4 7705 ++ [0xFF]) 3 = 7705
      ∧ (withLot { l with overflow := true, holds := [] } tables).lot? 7705 = some { l with overflow := true, holds := [] }
      ∧ 8 ≤ (List.replicate 8 1).length := ⟨fun _ => req_asks _ _ _, by decide +kernel⟩

/-- A WAITING, a COMPLETE and an ACTIVE lot with a hold or the overflow flag, and bodies that are refused. -/
theorem witness_dispositions_not_held :
    let l (st : LotState) (step : Nat) : Lot :=
      { lot1 with state := st, step := step, holds := [1], overflow := true, steps := (Vector.replicate 6 {}).set 0 opened1 }
    let s (x : Lot) : State := { withLot x tables with holds := [held1] }
    ([l .waiting 0, l .complete 1, l .active 0, l .queued 0, l .saved 0].all fun x => (s x).lot? held1.lot == some x
        && (s x).hold? 1 == some held1 && (s x).hold? 2 == none && (s x).tallyWait.isEmpty && decide (x.holds.length < 8)) = true
      ∧ (l .waiting 0).mayRetest 0 = true ∧ (l .complete 1).mayRetest 0 = true ∧ (s (l .complete 1)).routeLength (l .complete 1) = 1
      ∧ 7705 ∈ (s (l .waiting 0)).waitList
      ∧ u8 (be 2 1 ++ [4] ++ be 4 0) 2 = 4 ∧ u32 (be 2 1 ++ [2] ++ be 4 6) 3 = 6 ∧ u32 (be 2 1 ++ [3] ++ be 4 0) 3 = 0
      ∧ u16 (be 2 0 ++ [1] ++ be 4 0) 0 = 0 ∧ u8 (be 2 0 ++ [1] ++ be 4 7705 ++ [1]) 7 = 1 ∧ tables.lot? 7706 = none := by
  decide +kernel

/-- R140, R143: RETEST_STEP takes a COMPLETE lot back to WAITING at the step named. -/
theorem test_retest_complete :
    let l : Lot := { lot1 with
      state := .complete, step := 1, holds := [1], steps := (Vector.replicate 6 {}).set 0 { opened1 with status := .closed } }
    (match exec .retestStep (req Kind.holdDispose (be 2 1 ++ [2] ++ be 4 0) { withLot l tables with holds := [held1] }) with
    | .next t => (t.lot? 7705).any (fun l => l.state == .waiting && l.step == 0 && l.stepRec 0 == {}) && t.waitList == [7705]
    | _ => false) = true := by decide +kernel

/-- R138, R143: the CLEAR of its one hold sends the lot back to WAITING. -/
theorem test_clear : (match exec .clear (req Kind.holdDispose (be 2 1 ++ [1] ++ be 4 0) heldLot) with
    | .next t => (t.lot? 7705).any (fun l => l.state == .waiting && l.holds.isEmpty) && t.holds.isEmpty && t.waitList == [7705]
    | _ => false) = true := by decide +kernel

/-- A COMPLETE lot that is fit to ship, in group 1. -/
def shipping : State :=
  { withLot { lot1 with
      state := .complete, step := 1, group := some 0
      steps := (Vector.replicate 6 {}).set 0 { opened1 with status := .closed, recon := .pass } } tables with
    groups := State.reset.groups.set 0 { opened := true, product := some 1, allowExtended := false, lots := [7705] } }

theorem witness_groups :
    (∀ k b s, (req k b s).asks k b) ∧ u8 [1, 2] 0 = (0 : Fin 16).val + 1 ∧ 1 < u8 [1, 2] 1 ∧ u8 [1, 1] 1 ≤ 1
      ∧ shipping.groups[(0 : Fin 16)].opened = true ∧ shipping.groups[(1 : Fin 16)].opened = false ∧ u32 ([1] ++ be 4 7705) 1 = 7705
      ∧ (shipping.lot? 7705).any (fun l => l.group == some 0) = true ∧ tables.lot? 7705 = some lot1 ∧ lot1.group = none
      ∧ shipping.groups[(0 : Fin 16)].product = some lot1.product ∧ (some 2 : Option Nat) ≠ some lot1.product
      ∧ 32 ≤ (List.replicate 32 1).length ∧ u8 [0, 1] 0 = 0 ∧ 16 < u8 [17] 0 := ⟨fun _ _ _ => req_asks _ _ _, by decide +kernel⟩

theorem witness_group_release : (req Kind.groupRelease [1] shipping).asks Kind.groupRelease [1]
    ∧ shipping.groups[(0 : Fin 16)].lots ≠ [] ∧ shipping.groups[(0 : Fin 16)].lots = [] ++ 7705 :: []
    ∧ (∀ l ∈ shipping.lot? 7705, shipping.releaseCause l false = none)
    ∧ (∀ l ∈ ({ shipping with holds := [held1] } : State).lot? 7705,
        ({ shipping with holds := [held1] } : State).releaseCause l false = some .held)
    ∧ shipping.groups[(0 : Fin 16)].lots.Nodup ∧ shipping.reports.length + 1 < 64
    ∧ (shipping.modGroup 0 fun x => { x with lots := [] }).groups[(0 : Fin 16)].lots = [] := ⟨req_asks _ _ _, by decide +kernel⟩

/-- R160: the release removes the lot and frees the group. -/
theorem test_group_release : (match exec .groupRelease (req Kind.groupRelease [1] shipping) with
    | .next t => t.lots.isEmpty && t.groups[(0 : Fin 16)] == {} && t.entrySeq == 0 && t.reports.length == 2
    | _ => false) = true := by decide +kernel

end Sys2Proof.Tests
end

