-- ==== Sys2Proof/Proofs/Steady.lean ====
section
-- In order: the check's memory bound leaves no room for a thread per proof.
set_option Elab.async false
/-! ## Predicates that the operations keep

What the invariants of the tables, the temperatures and the places look at is a small part of the state. A predicate that is `Steady`
is kept by every change that moves no lot. Each operation that moves none is walked once here for all such predicates. -/

namespace Sys2Proof.Machine

/-- The state with everything blanked that no invariant of the tables, the temperatures and the places looks at. -/
def State.still (s : State) : State :=
  { products := s.products, lots := s.lots, ports := s.ports, cells := s.cells, queues := s.queues, saves := s.saves
    waitList := s.waitList, catalog := s.catalog, slots := s.slots, tallies := s.tallies, holds := s.holds
    strays := Vector.replicate 32 0, groups := Vector.replicate 16 {} }

/-- A temperature that may be written into a cell record: one in the representable range, one the record holds, or a setpoint of a
route. -/
def State.mayHold (s : State) (c : CellNo) (v : Int) : Prop :=
  inRange v ∨ (∃ k, s.cell? c = some k ∧ (k.setpoint = some v ∨ k.temp = some v))
    ∨ ∃ g ∈ s.products, ∃ d ∈ g.steps, d.setpoint = v

/-- A cell record that may replace the one at `c`: it drains for preemption only when that one does, and holds temperatures that may
be written there. -/
def State.calmCell (s : State) (c : CellNo) (k : Cell) : Prop :=
  (k.purpose = some .preempt → ∃ k₀, s.cell? c = some k₀ ∧ k₀.purpose = some .preempt)
    ∧ ∀ v, k.setpoint = some v ∨ k.temp = some v → s.mayHold c v

/-- Both temperatures of a calibration record lie in the representable range. -/
def Calibration.inRange (k : Calibration) : Prop := Machine.inRange k.calTemp ∧ Machine.inRange k.headTemp

/-- A change of a lot record that leaves its id, its state, its location and its key. -/
def sameStand (l l' : Lot) : Prop :=
  l'.id = l.id ∧ l'.state = l.state ∧ l'.location = l.location ∧ l'.priority = l.priority ∧ l'.seq = l.seq

/-- The hold table stands in ascending order, with ids from 1 upward. -/
def holdsAscend (l : List Hold) : Prop := (l.Pairwise fun a b => a.id < b.id) ∧ ∀ h ∈ l, 1 ≤ h.id

/-- A predicate kept by every change that moves no lot: the tables stay within their sizes and in their order, and temperatures come
from messages, from routes, or from the records that held them. -/
structure Steady (P : State → Prop) : Prop where
  same : ∀ {s t : State}, P s → t.still = s.still → P t
  cellRec : ∀ {s : State} {c : CellNo} {f : CellRec → CellRec},
    (∀ k, (f s.cells[c]).formed = some k → s.calmCell c k) → P s → P (s.modCellRec c f)
  slots : ∀ {s : State} {x : Vector Slot 32},
    (∀ p : Port, (∀ k, s.slots[p].cal = some k → k.inRange) → ∀ k, x[p].cal = some k → k.inRange) → P s → P { s with slots := x }
  ports : ∀ {s : State} {x : Vector PortRec 32},
    (∀ p : Port, (∀ d, s.ports[p].data = some d → d.inRange) → ∀ d, x[p].data = some d → d.inRange) → P s → P { s with ports := x }
  lot : ∀ {s : State} {n : Nat} {f : Lot → Lot}, (∀ l, sameStand l (f l)) → P s → P (s.modLot n f)
  tallies : ∀ {s : State} {x : List Tally}, x.length ≤ max Config.maxTallies s.tallies.length → P s → P { s with tallies := x }
  holds : ∀ {s : State} {x : List Hold}, x.length ≤ max Config.maxHolds s.holds.length →
    (holdsAscend s.holds → holdsAscend x) → P s → P { s with holds := x }
  catalog : ∀ {s : State} {x : List Program}, x.length ≤ max Config.maxPrograms s.catalog.length →
    ((s.catalog.Pairwise fun a b => a.id < b.id) → x.Pairwise fun a b => a.id < b.id) → P s → P { s with catalog := x }
  products : ∀ {s : State} {x : List Product}, x.length ≤ max Config.maxProducts s.products.length →
    ((s.products.Pairwise fun a b => a.id < b.id) → x.Pairwise fun a b => a.id < b.id) →
    (∀ g ∈ x, g ∈ s.products ∨ ∀ d ∈ g.steps, inRange d.setpoint) → P s → P { s with products := x }

/-! ### Ascending tables -/

/-- Replacing records by records of the same key keeps an ascending order. -/
theorem ascends_map {α : Type} {key : α → Nat} {l : List α} {f : α → α} (hf : ∀ x, key (f x) = key x)
    (h : l.Pairwise fun a b => key a < key b) : (l.map f).Pairwise fun a b => key a < key b := by
  rw [List.pairwise_map]; simpa only [hf] using h

/-- A new key is inserted into a strictly ascending list. -/
theorem ascends_insertAsc {α : Type} {key : α → Nat} {x : α} {l : List α} (h : l.Pairwise fun a b => key a < key b)
    (hx : ∀ y ∈ l, key y ≠ key x) : (insertAsc key x l).Pairwise fun a b => key a < key b := by
  induction l with
  | nil => simp [insertAsc]
  | cons z zs ih =>
    obtain ⟨hz, hzs⟩ := List.pairwise_cons.mp h
    unfold insertAsc
    split
    next hlt =>
      refine List.pairwise_cons.mpr ⟨fun y hy => ?_, h⟩
      rcases List.mem_cons.mp hy with rfl | hy
      · exact hlt
      · exact hlt.trans (hz y hy)
    next hge =>
      refine List.pairwise_cons.mpr ⟨fun y hy => ?_, ih hzs fun y hy => hx y (List.mem_cons_of_mem _ hy)⟩
      rcases (mem_insertAsc key x y zs).mp hy with rfl | hy
      · have := hx z List.mem_cons_self; omega
      · exact hz y hy

/-- R129: the lowest free id is at least the id the search begins at, and no record of an ascending list holds it. -/
theorem lowestFree_free {n : Nat} {l : List Hold} (h : l.Pairwise fun a b => a.id < b.id) (hn : ∀ x ∈ l, n ≤ x.id) :
    n ≤ lowestFree n l ∧ ∀ x ∈ l, x.id ≠ lowestFree n l := by
  induction l generalizing n with
  | nil => simp [lowestFree]
  | cons x xs ih =>
    obtain ⟨hx, hxs⟩ := List.pairwise_cons.mp h
    have hxn := hn x List.mem_cons_self
    unfold lowestFree
    split
    next he =>
      obtain ⟨hle, hfree⟩ := ih (n := n + 1) hxs fun y hy => by have := hx y hy; omega
      refine ⟨by omega, fun y hy => ?_⟩
      rcases List.mem_cons.mp hy with rfl | hy
      · omega
      · exact hfree y hy
    next he =>
      refine ⟨le_refl n, fun y hy => ?_⟩
      rcases List.mem_cons.mp hy with rfl | hy
      · exact he
      · have := hx y hy; omega

theorem holdsAscend_insert {l : List Hold} {q : HoldReq} {now : Nat} (h : holdsAscend l) :
    holdsAscend (insertAsc Hold.id (q.record (lowestFree 1 l) now) l) := by
  obtain ⟨hle, hfree⟩ := lowestFree_free h.1 h.2
  refine ⟨ascends_insertAsc h.1 hfree, fun x hx => ?_⟩
  rcases (mem_insertAsc _ _ _ _).mp hx with rfl | hx
  · exact hle
  · exact h.2 x hx

theorem holdsAscend_filter {l : List Hold} {f : Hold → Bool} (h : holdsAscend l) : holdsAscend (l.filter f) :=
  ⟨h.1.filter _, fun x hx => h.2 x (List.mem_of_mem_filter hx)⟩

theorem holdsAscend_replace {l : List Hold} {x : Hold} (h : holdsAscend l) :
    holdsAscend (l.map fun y => if y.id == x.id then x else y) := by
  have keepsId (y : Hold) : (if y.id == x.id then x else y).id = y.id := by
    split
    next he => exact (beq_iff_eq.mp he).symm
    next => rfl
  refine ⟨ascends_map keepsId h.1, fun y hy => ?_⟩
  obtain ⟨z, hz, rfl⟩ := List.mem_map.mp hy
  rw [keepsId]; exact h.2 z hz

/-- The step of a lot's route is a step of a product of the table. -/
theorem mem_of_stepDef {s : State} {l : Lot} {i : Nat} {d : StepDef} (h : s.stepDef? l i = some d) :
    ∃ g ∈ s.products, d ∈ g.steps := by
  obtain ⟨g, hg, hd⟩ := Option.bind_eq_some_iff.mp h
  exact ⟨g, List.mem_of_find?_eq_some hg, List.mem_of_getElem? hd⟩

theorem mem_of_currentStep {s : State} {c : CellNo} {d : StepDef} (h : s.currentStep? c = some d) :
    ∃ g ∈ s.products, d ∈ g.steps := by
  obtain ⟨l, -, hd⟩ := Option.bind_eq_some_iff.mp h
  exact mem_of_stepDef hd

namespace Steady

variable {P : State → Prop} (hP : Steady P) {s : State}
include hP

/-! ### The updates -/

theorem modCell {c : CellNo} {f : Cell → Cell} (hs : P s)
    (hf : ∀ k, (f k).purpose = k.purpose ∧ (f k).setpoint = k.setpoint ∧ (f k).temp = k.temp := by exact fun _ => ⟨rfl, rfl, rfl⟩) :
    P (s.modCell c f) := by
  refine hP.cellRec (fun k hk => ?_) hs
  obtain ⟨k₀, h₀, rfl⟩ := Option.map_eq_some_iff.mp hk
  obtain ⟨hp, ht, hv⟩ := hf k₀
  exact ⟨fun h => ⟨k₀, h₀, hp ▸ h⟩, fun v h => .inr (.inl ⟨k₀, h₀, by rwa [ht, hv] at h⟩)⟩

/-- A change of a cell that ends a purpose, or gives it one that is not PREEMPT. -/
theorem modCell_purpose {c : CellNo} {f : Cell → Cell} (hs : P s) (hp : ∀ k, (f k).purpose ≠ some .preempt)
    (hf : ∀ k, (f k).setpoint = k.setpoint ∧ (f k).temp = k.temp := by exact fun _ => ⟨rfl, rfl⟩) : P (s.modCell c f) := by
  refine hP.cellRec (fun k hk => ?_) hs
  obtain ⟨k₀, h₀, rfl⟩ := Option.map_eq_some_iff.mp hk
  obtain ⟨ht, hv⟩ := hf k₀
  exact ⟨fun h => absurd h (hp k₀), fun v h => .inr (.inl ⟨k₀, h₀, by rwa [ht, hv] at h⟩)⟩

/-- A change of a cell that writes a setpoint of a route, or a chamber temperature in range. -/
theorem modCell_temps {c : CellNo} {f : Cell → Cell} (hs : P s) (hp : ∀ k, (f k).purpose = k.purpose)
    (hf : ∀ k v, (f k).setpoint = some v ∨ (f k).temp = some v →
      k.setpoint = some v ∨ k.temp = some v ∨ inRange v ∨ ∃ g ∈ s.products, ∃ d ∈ g.steps, d.setpoint = v) : P (s.modCell c f) := by
  refine hP.cellRec (fun k hk => ?_) hs
  obtain ⟨k₀, h₀, rfl⟩ := Option.map_eq_some_iff.mp hk
  refine ⟨fun h => ⟨k₀, h₀, hp k₀ ▸ h⟩, fun v h => ?_⟩
  rcases hf k₀ v h with h | h | h | h
  · exact .inr (.inl ⟨k₀, h₀, .inl h⟩)
  · exact .inr (.inl ⟨k₀, h₀, .inr h⟩)
  · exact .inl h
  · exact .inr (.inr h)

theorem modSlot_cal {p : Port} {f : Slot → Slot} (hs : P s)
    (hf : (∀ k, s.slots[p].cal = some k → k.inRange) → ∀ k, (f s.slots[p]).cal = some k → k.inRange) : P (s.modSlot p f) := by
  refine hP.slots (fun q hq k hk => ?_) hs
  by_cases he : q = p
  · subst he; exact hf hq k (by simpa using hk)
  · have other := modSlot_other s he f
    rw [State.modSlot] at other
    exact hq k (other ▸ hk)

theorem modSlot {p : Port} {f : Slot → Slot} (hs : P s) (hf : (f s.slots[p]).cal = s.slots[p].cal := by exact rfl) :
    P (s.modSlot p f) := hP.modSlot_cal hs fun hq k hk => hq k (hf ▸ hk)

theorem port {p : Port} {f : PortRec → PortRec}
    (hf : (∀ d, s.ports[p].data = some d → d.inRange) → ∀ d, (f s.ports[p]).data = some d → d.inRange) (hs : P s) :
    P (s.modPort p f) := by
  refine hP.ports (fun q hq d hd => ?_) hs
  by_cases he : q = p
  · subst he; exact hf hq d (by simpa using hd)
  · have other := modPort_other s he f
    rw [State.modPort] at other
    exact hq d (other ▸ hd)

theorem modPort {p : Port} {f : PortRec → PortRec} (hs : P s) (hf : (f s.ports[p]).data = s.ports[p].data := by exact rfl) :
    P (s.modPort p f) := hP.port (fun hd d h => hd d (hf ▸ h)) hs

theorem modLot {n : Nat} {f : Lot → Lot} (hs : P s) (hf : ∀ l : Lot, sameStand l (f l) := by exact fun _ => ⟨rfl, rfl, rfl, rfl, rfl⟩) :
    P (s.modLot n f) := hP.lot hf hs

theorem modStep {n i : Nat} {f : StepRec → StepRec} (hs : P s) : P (s.modStep n i f) :=
  hP.lot (fun l => by split <;> exact ⟨rfl, rfl, rfl, rfl, rfl⟩) hs

theorem modTally {n : Nat} {f : Tally → Tally} (hs : P s) : P (s.modTally n f) := hP.tallies (by simp) hs

theorem place {r : Report} (hs : P s) : P (place r s) := hP.same hs (by unfold Machine.place; split <;> rfl)

theorem send {p : Port} {d : Down} (hs : P s) : P (send p d s) := by
  unfold Machine.send
  split
  · exact hP.modPort hs
  · exact hs

theorem trigger (hs : P s) : P s.trigger := hP.same hs rfl

theorem countIgnored {p : Port} (hs : P s) : P (countIgnored p s) := hP.modPort hs

theorem transmit (hs : P s) : P (transmit s) := hP.same hs (by rw [transmit_eq]; rfl)

omit hP in
/-- A fold keeps what each of its steps keeps. -/
theorem foldl {α : Type} {f : State → α → State} (hf : ∀ {s x}, P s → P (f s x)) {l : List α} (hs : P s) : P (l.foldl f s) := by
  induction l generalizing s with
  | nil => exact hs
  | cons x l ih => exact ih (hf hs)

/-! ### Reports, sites and setpoints -/

theorem reportCell {c : CellNo} {x : Option CellState} (hs : P s) : P (reportCell c x s) := by
  unfold Machine.reportCell
  split
  · exact hs
  · exact hP.place hs

theorem fireEdge {e : Edge} {c : CellNo} {f : Nat → Site → Bool} (hs : P s) : P (fireEdge e c f s) := by
  unfold Machine.fireEdge
  repeat' split
  any_goals exact hs
  exact hP.modCell hs

theorem makeChange {c : CellNo} {i : Nat} (hs : P s) : P (makeChange c s i) := by
  unfold Machine.makeChange; dsimp only
  repeat' split
  any_goals exact hs
  · exact hP.fireEdge (hP.place (hP.modCell hs))
  · exact hP.place (hP.modCell hs)

theorem makeChanges {c : CellNo} (hs : P s) : P (makeChanges c s) := by
  unfold Machine.makeChanges
  exact foldl hP.makeChange hs

theorem leaveRunning {c : CellNo} (hs : P s) : P (leaveRunning c s).1 := by
  unfold Machine.leaveRunning; dsimp only
  exact hP.makeChanges hs

theorem writeSetpoint {c : CellNo} {d : StepDef} (hs : P s) (hd : ∃ g ∈ s.products, d ∈ g.steps) : P (writeSetpoint c d s) := by
  obtain ⟨g, hg, hd⟩ := hd
  unfold Machine.writeSetpoint; dsimp only
  split
  · exact hs
  · refine hP.send (hP.modCell_temps hs (fun _ => rfl) fun k v hv => ?_)
    rcases hv with hv | hv
    · exact .inr (.inr (.inr ⟨g, hg, d, hd, Option.some.inj hv⟩))
    · exact .inr (.inl hv)

theorem sendSetpoint {c : CellNo} (hs : P s) : P (sendSetpoint c s) := by
  unfold Machine.sendSetpoint
  split
  · exact hs
  next h => exact hP.writeSetpoint hs (mem_of_currentStep h)

/-! ### The program loader -/

theorem reportLoad {p : Port} {o : LoadOutcome} {x : Option (Nat × Nat)} (hs : P s) : P (reportLoad p o x s) := hP.place hs

theorem serve {p : Port} (hs : P s) : P (serve p s) := by
  unfold Machine.serve; dsimp only
  repeat' split
  any_goals exact hs
  · exact hP.reportLoad (hP.send (hP.modSlot hs))
  · exact hP.reportLoad (hP.send (hP.modSlot hs))

theorem setRequest {p : Port} {x : Option Nat} (hs : P s) : P (setRequest p x s) := hP.modSlot hs

theorem markExtended {p : Port} (hs : P s) : P (markExtended p s) := by
  unfold Machine.markExtended
  repeat' split
  any_goals exact hs
  exact hP.modStep hs

theorem computeMargin {p : Port} (hs : P s) : P (computeMargin p s) := by
  unfold Machine.computeMargin
  split
  · exact hP.markExtended (hP.modSlot hs)
  · exact hs

theorem consultMargin {p : Port} (hs : P s) : P (consultMargin p s).1 := hP.computeMargin hs

/-! ### Tallies and holds -/

/-- R77: a tally is given while one is free. -/
theorem giveTally {n : Nat} (hs : P s) (h : s.tallies.length < Config.maxTallies) : P (giveTally n s) := by
  unfold Machine.giveTally
  split
  · exact hs
  · exact hP.modLot (hP.tallies (by simp; omega) hs)

theorem askTally {c : CellNo} {n : Nat} (hs : P s) : P (askTally c n s) := by
  unfold Machine.askTally
  split
  · exact hs
  split
  next h => exact hP.giveTally hs h
  split
  · exact hs
  · exact hP.same hs rfl

theorem freeTally {n : Nat} (hs : P s) : P (freeTally n s) :=
  hP.modLot (hP.tallies (le_max_of_le_right (List.length_filter_le _ _)) hs)

theorem dropTally {l : Lot} (hs : P s) : P (dropTally l s).1 := by
  unfold Machine.dropTally
  split
  · exact hP.freeTally hs
  · exact hs

theorem withdrawAcceptance {q : HoldReq} (hs : P s) : P (withdrawAcceptance q s) := by
  unfold Machine.withdrawAcceptance
  split
  · exact hP.modStep hs
  · exact hs

theorem storeHold {q : HoldReq} {l : Lot} (hs : P s) : P (storeHold q l s) := by
  unfold Machine.storeHold
  split
  next => exact hP.holds (by simp) holdsAscend_replace hs
  next h hj =>
    unfold State.judgeRaise at hj
    split at hj
    · cases hj
    split at hj
    next room =>
      cases hj
      refine hP.modLot (hP.holds ?_ holdsAscend_insert hs)
      rw [length_insertAsc]; exact le_max_of_le_left room.2
    next => cases hj
  next => exact hP.modLot hs

/-! ### States of a cell -/

theorem enterDrain {c : CellNo} {x : Purpose} (hx : x ≠ .preempt) (hs : P s) : P (enterDrain c x s).1 := by
  unfold Machine.enterDrain; dsimp only
  split
  · exact hs
  · dsimp only
    exact hP.leaveRunning (hP.reportCell (hP.send (hP.modCell_purpose hs fun _ h => hx (Option.some.inj h))))

theorem enterPaused {c : CellNo} (hs : P s) : P (enterPaused c s).1 := by
  unfold Machine.enterPaused; dsimp only
  repeat' split
  · exact hs
  · exact hP.leaveRunning (hP.reportCell (hP.modCell hs))
  · exact hP.leaveRunning (hP.reportCell (hP.send (hP.modCell hs)))

theorem resumeRunning {c : CellNo} (hs : P s) : P (resumeRunning c s).1 := by
  unfold Machine.resumeRunning; dsimp only
  repeat' split
  · exact hs
  · exact hP.reportCell (hP.modTally (hP.fireEdge (hP.send (hP.modCell hs))))
  · exact hP.reportCell (hP.fireEdge (hP.send (hP.modCell hs)))

theorem enterManual {c : CellNo} (hs : P s) : P (enterManual c s).1 := by
  unfold Machine.enterManual
  split
  · exact hs
  · exact hP.leaveRunning (hP.reportCell (hP.modCell hs))

/-! ### Readiness -/

theorem writeSets {c : CellNo} {x : Causes} {w : Waiting} (hs : P s) : P (writeSets c x w s) := hP.modCell hs

theorem refreshStarting {c : CellNo} {k : Cell} {l : Lot} (hs : P s) : P (refreshStarting c k l s).1 := by
  unfold Machine.refreshStarting; dsimp only
  split
  · exact hs
  split
  · exact hs
  dsimp only
  split
  · exact hP.writeSets hs
  · exact hP.reportCell (hP.writeSets hs)

theorem refreshRunning {c : CellNo} {k : Cell} (hs : P s) : P (refreshRunning c k s).1 := by
  unfold Machine.refreshRunning; dsimp only
  split
  · exact hP.writeSets hs
  · exact hP.enterPaused (hP.writeSets hs)

theorem sendReturn {c : CellNo} {k : Cell} (hs : P s) : P (sendReturn c k s) := hP.send (hP.sendSetpoint hs)

omit hP in
/-- What an `if` chooses keeps what both of its branches keep. -/
theorem ite {q : Prop} [Decidable q] {a b : State} (ha : P a) (hb : P b) : P (if q then a else b) := by
  split
  · exact ha
  · exact hb

theorem refreshPaused {c : CellNo} {k : Cell} (hs : P s) : P (refreshPaused c k s).1 := by
  unfold Machine.refreshPaused
  extract_lets back s₁ causes s₂
  have h₁ : P s₁ := Steady.ite (hP.sendReturn hs) hs
  have h₂ : P s₂ := hP.writeSets h₁
  split
  · exact hP.resumeRunning h₂
  · exact Steady.ite (Steady.ite (hP.send h₂) h₂) (hP.reportCell (Steady.ite (hP.send h₂) h₂))

theorem refreshDraining {c : CellNo} {k : Cell} (hs : P s) : P (refreshDraining c k s).1 := hP.writeSets hs

theorem refreshCell {c : CellNo} (hs : P s) : P (refreshCell c s).1 := by
  unfold Machine.refreshCell; dsimp only
  split
  · exact hs
  split
  · exact hP.writeSets hs
  have hm {p : Port} := hP.consultMargin (p := p) hs
  split
  · exact hP.refreshStarting hm
  · exact hP.refreshRunning hm
  · exact hP.refreshPaused hm
  · exact hP.refreshDraining hm
  · exact hP.writeSets hm
  · exact hP.writeSets hm

theorem consultForQueue {c : CellNo} (hs : P s) : P (consultForQueue c s).1 := by
  unfold Machine.consultForQueue
  repeat' split
  · exact hs
  · exact hs
  · exact hP.consultMargin hs

theorem goIdle {c : CellNo} (hs : P s) : P (goIdle c s).1 := by
  unfold Machine.goIdle
  split
  · exact hs
  · exact hP.leaveRunning (hP.reportCell (hP.setRequest (hP.modCell hs)))

/-! ### Start, first feed and the end of a segment -/

theorem startLot {c : CellNo} (hs : P s) : P (startLot c s).1 := by
  unfold Machine.startLot
  split
  · extract_lets s₁ s₂ m k₂ s₃ r
    have h₁ : P s₁ := hP.sendSetpoint (hP.modCell hs)
    have h₂ : P s₂ := hP.serve (hP.setRequest (hP.askTally h₁))
    have hm : P m.1 := hP.consultMargin h₂
    have h₃ : P s₃ := hP.reportCell (hP.writeSets hm)
    dsimp only
    exact hP.leaveRunning h₃
  · exact hs

theorem openStep {l : Lot} (hs : P s) : P (openStep l s) := hP.modStep hs

theorem openSegment {c : CellNo} {l : Lot} (hs : P s) : P (openSegment c l s) := hP.modCell hs

theorem feedCell {c : CellNo} (hs : P s) : P (feedCell c s).1 := by
  have opened {p q : Port} {a b : Down} {l : Lot} (hs : P s) {r : Port} :
      P (Machine.openStep l (Machine.send p a (Machine.send q b (Machine.consultMargin r s).1))) :=
    hP.openStep (hP.send (hP.send (hP.consultMargin hs)))
  unfold Machine.feedCell; dsimp only
  split
  · split
    · split
      · refine hP.reportCell (hP.setRequest (hP.modCell (hP.fireEdge (hP.openSegment ?_))))
        split
        · exact hP.modStep (opened hs)
        · exact opened hs
      · exact hP.consultMargin hs
    · exact hs
  · exact hs

theorem drainCell {c : CellNo} {x : Purpose} (hx : x ≠ .preempt) (hs : P s) : P (drainCell c x s).1 := by
  unfold Machine.drainCell
  repeat' split
  · exact hs
  · exact hP.enterDrain hx hs
  · exact hs

theorem loseSegment {c : CellNo} {g : Segment} (hs : P s) : P (loseSegment c g s) := hP.modCell (hP.modStep hs)

theorem loseCounts {c : CellNo} (hs : P s) : P (loseCounts c s).1 := by
  unfold Machine.loseCounts
  repeat' split
  any_goals exact hs
  exact hP.loseSegment hs

omit hP in
theorem checkPreempt {c : CellNo} (hs : P s) : P (checkPreempt c s).1 := by
  unfold Machine.checkPreempt
  repeat' split
  all_goals exact hs

theorem returnFromManual {c : CellNo} (hs : P s) : P (returnFromManual c s).1 := by
  unfold Machine.returnFromManual; dsimp only
  split
  · have ht {k : Cell} {x : Causes} := hP.writeSets (c := c) (x := x) (w := {}) (hP.consultMargin (p := k.testerPort)
      (hP.send (p := k.handlerPort) (d := .mask k.onMask) (hP.sendSetpoint (c := c) hs)))
    dsimp only
    split
    · exact hP.enterDrain (by decide) ht
    split
    · exact hP.enterDrain (by decide) ht
    split
    · exact hP.enterPaused ht
    · exact hP.resumeRunning ht
  · exact hs

theorem changeMode {c : CellNo} {m : Mode} (hs : P s) : P (changeMode c m s).1 := by
  unfold Machine.changeMode; dsimp only
  split
  · exact hs
  have ht : P (s.modCell c fun k => { k with mode := m }) := hP.modCell hs
  repeat' split
  · exact ht
  · exact hP.returnFromManual ht
  · exact ht
  · exact ht
  · exact ht
  · exact hP.enterManual ht
  · exact hP.enterManual ht
  · exact ht

/-! ### Sites -/

theorem setTarget {c : CellNo} {i : Nat} {x : SiteState} (hs : P s) : P (setTarget c i x s) := by
  unfold Machine.setTarget; dsimp only
  repeat' split
  · exact hs
  · exact hP.modCell hs
  · exact hP.send (hP.modCell hs)

theorem settleSite {c : CellNo} {i : Nat} (hs : P s) : P (settleSite c i s).1 := by
  unfold Machine.settleSite
  repeat' split
  · exact hs
  · exact hs
  · exact hP.makeChange hs

theorem forceKind {c : CellNo} {i : Nat} (hs : P s) : P (forceKind c i s) := hP.modCell hs

theorem forceSite {c : CellNo} {i : Nat} {b : Bool} (hs : P s) : P (forceSite c i b s).1 := by
  unfold Machine.forceSite
  repeat' split
  · exact hs
  · exact hs
  · exact hP.settleSite (hP.setTarget hs)
  · exact hP.settleSite (hP.setTarget hs)
  · exact hP.forceKind hs
  · exact hs

theorem monitorSite {c : CellNo} {i : Nat} (hs : P s) : P (monitorSite c i s).1 := by
  unfold Machine.monitorSite; dsimp only
  repeat' split
  any_goals exact hs
  · exact hP.settleSite (hP.place (hP.setTarget (hP.modCell hs)))
  · exact hP.modCell hs

/-! ### Claims and dissolution -/

theorem setClaim {p : Port} {x : ClaimStatus} (hs : P s) : P (setClaim p x s) := hP.same hs rfl

theorem reportConflict {p : Port} {n : Nat} {c : CellNo} (hs : P s) : P (reportConflict p n c s) := hP.place hs

/-- A cell record is given up, or a fresh cell is put into it. -/
theorem reform {c : CellNo} {f : CellRec → CellRec} (hs : P s)
    (hf : ∀ k, (f s.cells[c]).formed = some k → k.purpose = none ∧ k.setpoint = none ∧ k.temp = none) : P (s.modCellRec c f) := by
  refine hP.cellRec (fun k hk => ?_) hs
  obtain ⟨hp, ht, hv⟩ := hf k hk
  exact ⟨fun h => (Option.some_ne_none _ (h.symm.trans hp)).elim, fun v h => by simp [ht, hv] at h⟩

theorem judgeClaim {p : Port} (hs : P s) : P (judgeClaim p s).1 := by
  have fresh (t : State) (q : Port) :
      (t.newCell p q).purpose = none ∧ (t.newCell p q).setpoint = none ∧ (t.newCell p q).temp = none := by
    unfold State.newCell; dsimp only; split <;> exact ⟨rfl, rfl, rfl⟩
  unfold Machine.judgeClaim
  repeat' split
  · exact hs
  · exact hs
  · exact hP.setClaim hs
  · exact hP.reportConflict (hP.setClaim hs)
  · exact hP.setClaim hs
  · exact hP.reportCell (hP.reform (hP.setClaim hs) fun _ hk => Option.some.inj hk ▸ fresh s _)
  · exact hP.setClaim hs

theorem takeClaim {p : Port} {n : Nat} (hs : P s) : P (takeClaim p n s).1 := by
  unfold Machine.takeClaim; dsimp only
  split
  · exact hs
  · exact hP.same hs rfl

theorem dissolveCell {c : CellNo} {x : DissolveCause} (hs : P s) : P (dissolveCell c x s).1 := by
  unfold Machine.dissolveCell
  repeat' split
  any_goals exact hs
  exact hP.loseSegment hs

/-! ### Evaluation and close -/

omit hP in
theorem judgeComplete {n : Nat} (hs : P s) : P (judgeComplete n s).1 := by
  unfold Machine.judgeComplete
  repeat' split
  all_goals exact hs

theorem tallyFreed (hs : P s) : P (tallyFreed s).1 := by
  unfold Machine.tallyFreed
  repeat' split
  · exact hs
  next room _ _ _ => exact hP.giveTally (hP.same hs rfl) room
  · exact hP.same hs rfl
  · exact hs

theorem evaluateRunning {c : CellNo} {n i : Nat} (hs : P s) : P (evaluateRunning c n i s).1 := by
  unfold Machine.evaluateRunning; dsimp only
  repeat' split
  any_goals exact hs
  · exact hP.modTally hs
  · exact hP.modTally hs

theorem countEvaluation {c : CellNo} {n : Nat} (hs : P s) : P (countEvaluation c n s).1 := by
  unfold Machine.countEvaluation
  repeat' split
  any_goals exact hs
  exact hP.modTally hs

theorem reportTally {c : CellNo} {n : Nat} (hs : P s) : P (reportTally c n s).1 := by
  unfold Machine.reportTally
  repeat' split
  any_goals exact hs
  exact hP.place (hP.modTally hs)

theorem closeStep {c : CellNo} (hs : P s) : P (closeStep c s).1 := by
  unfold Machine.closeStep; dsimp only
  split
  · exact hs
  split
  · exact hs
  · exact hP.modCell hs

theorem reconcileStep {c : CellNo} (hs : P s) : P (reconcileStep c s).1 := by
  have recorded (l : Lot) (o : Recon) : P (s.modStep l.id l.step fun r => { r with recon := o }) := hP.modStep hs
  unfold Machine.reconcileStep; dsimp only
  repeat' split
  any_goals exact hs
  all_goals exact recorded _ _

theorem closeRecord {c : CellNo} (hs : P s) : P (closeRecord c s).1 := by
  unfold Machine.closeRecord; dsimp only
  repeat' split
  · exact hs
  · exact hs
  · exact hP.dropTally (hP.modStep (hP.modLot hs))

theorem closeMove {c : CellNo} {x : CloseSection} (hs : P s) : P (closeMove c x s).1 := by
  unfold Machine.closeMove
  split
  · exact hs
  · exact hP.modLot hs

theorem endPass (hs : P s) : P (endPass s).1 := by
  unfold Machine.endPass
  split
  · exact hP.same hs rfl
  · exact hs

theorem leaveGroup {l : Lot} (hs : P s) : P (leaveGroup l s) := by
  unfold Machine.leaveGroup; dsimp only
  split
  · exact hs
  · exact hP.modLot (hP.same hs rfl)

theorem resetEntrySeq (hs : P s) : P (resetEntrySeq s) := by
  unfold Machine.resetEntrySeq
  split
  · exact hP.same hs rfl
  · exact hs

theorem reportCleared {n : Nat} {h : Option Hold} {d : Disposition} (hs : P s) : P (reportCleared n h d s) := by
  unfold Machine.reportCleared
  split
  · exact hs
  · exact hP.place hs

end Steady
end Sys2Proof.Machine
end

