-- ==== Sys2Proof/Proofs/Notices.lean ====
section
-- In order: the check's memory bound leaves no room for a thread per proof.
set_option Elab.async false
/-! ## The notices that operations owe

A notice is fair when it can be delivered in any state: it sends no lot to a save context, drains nothing for preemption, and drops
no lot but the named ones. The preemption check alone owes others, and they are then delivered at once. -/

namespace Sys2Proof.Machine

/-- A notice that can be delivered whenever the named lots stand in no queue and no save context. -/
def Notice.fair (F : List Nat) : Notice → Prop
  | .leave _ dest _ => dest = .waiting ∨ dest = .held ∨ dest = .complete
  | .drain _ purpose => purpose ≠ .preempt
  | .dropRest n => n ∈ F
  | _ => True

/-- Every notice of a list is fair. -/
def Fair (F : List Nat) (ns : List Notice) : Prop := ∀ n ∈ ns, n.fair F

variable {F : List Nat} {s : State}

@[simp] theorem fair_nil : Fair F [] := by simp [Fair]
@[simp] theorem fair_cons {n : Notice} {ns : List Notice} : Fair F (n :: ns) ↔ n.fair F ∧ Fair F ns := by simp [Fair]
@[simp] theorem fair_append {ms ns : List Notice} : Fair F (ms ++ ns) ↔ Fair F ms ∧ Fair F ns := by
  simp [Fair, or_imp, forall_and]
@[simp] theorem fair_ite {q : Prop} [Decidable q] {ms ns : List Notice} (hm : Fair F ms) (hn : Fair F ns) :
    Fair F (if q then ms else ns) := by split <;> assumption
theorem fair_map {α : Type} {f : α → Notice} (hf : ∀ x, (f x).fair F) (l : List α) : Fair F (l.map f) := by
  intro n hn
  obtain ⟨x, -, rfl⟩ := List.mem_map.mp hn
  exact hf x

theorem Fair.mono {G : List Nat} {ns : List Notice} (h : Fair F ns) (hFG : F ⊆ G) : Fair G ns := by
  intro n hn
  have hf := h n hn
  cases n with
  | dropRest m => exact hFG hf
  | _ => exact hf

/-! ### The shared operations -/

@[simp] theorem fair_onSetNotices (c : CellNo) (t : State) : Fair F (onSetNotices c s t) := by
  unfold onSetNotices; split <;> simp [Notice.fair]
@[simp] theorem fair_leaveRunning (c : CellNo) : Fair F (leaveRunning c s).2 := fair_onSetNotices _ _
@[simp] theorem fair_consultMargin (p : Port) : Fair F (consultMargin p s).2 := by
  unfold consultMargin; dsimp only; split <;> simp [Notice.fair]
@[simp] theorem fair_enterDrain (c : CellNo) (x : Purpose) : Fair F (enterDrain c x s).2 := by
  unfold enterDrain; dsimp only
  split
  · simp
  · dsimp only; split <;> simp [Notice.fair]
@[simp] theorem fair_enterPaused (c : CellNo) : Fair F (enterPaused c s).2 := by unfold enterPaused; dsimp only; split <;> simp
@[simp] theorem fair_resumeRunning (c : CellNo) : Fair F (resumeRunning c s).2 := by
  unfold resumeRunning; dsimp only; split <;> simp [Notice.fair]
@[simp] theorem fair_enterManual (c : CellNo) : Fair F (enterManual c s).2 := by unfold enterManual; split <;> simp
@[simp] theorem fair_holdEffect (n : Nat) (b : Bool) : Fair F (holdEffect n b s).2 := by
  unfold holdEffect
  repeat' split
  all_goals simp [Notice.fair]
@[simp] theorem fair_raiseHold (q : HoldReq) : Fair F (raiseHold q s).2 := by
  unfold raiseHold; dsimp only
  repeat' split
  all_goals simp

/-! ### Cells and their lots -/

@[simp] theorem fair_refreshStarting (c : CellNo) (k : Cell) (l : Lot) : Fair F (refreshStarting c k l s).2 := by
  unfold refreshStarting; dsimp only
  split
  · simp [Notice.fair]
  split
  · simp [Notice.fair]
  · dsimp only; split <;> simp [Notice.fair]
@[simp] theorem fair_refreshRunning (c : CellNo) (k : Cell) : Fair F (refreshRunning c k s).2 := by
  unfold refreshRunning; dsimp only; split <;> simp
@[simp] theorem fair_refreshPaused (c : CellNo) (k : Cell) : Fair F (refreshPaused c k s).2 := by
  unfold refreshPaused
  extract_lets back s₁ causes s₂
  split <;> simp
@[simp] theorem fair_refreshDraining (c : CellNo) (k : Cell) : Fair F (refreshDraining c k s).2 := by
  unfold refreshDraining; dsimp only; split <;> simp [Notice.fair]
@[simp] theorem fair_refreshCell (c : CellNo) : Fair F (refreshCell c s).2 := by
  unfold refreshCell; dsimp only
  split
  · simp
  split
  · simp
  · split <;> simp
@[simp] theorem fair_eligibilityChanged (c : CellNo) : Fair F (eligibilityChanged c s).2 := by
  have consulted : Fair F (consultForQueue c s).2 := by
    unfold consultForQueue
    repeat' split
    all_goals simp
  unfold eligibilityChanged
  extract_lets m t
  refine fair_append.mpr ⟨?_, consulted⟩
  split <;> simp [Notice.fair]
@[simp] theorem fair_leaveCell (c : CellNo) (d : LotState) (x : Option CloseSection) : Fair F (leaveCell c d x s).2 := by
  unfold leaveCell; split <;> simp [Notice.fair]
@[simp] theorem fair_goIdle (c : CellNo) : Fair F (goIdle c s).2 := by unfold goIdle; split <;> simp
@[simp] theorem fair_moveUp (c : CellNo) : Fair F (moveUp c s).2 := by unfold moveUp; split <;> simp [Notice.fair]
@[simp] theorem fair_restoreLot (c : CellNo) (k : Cell) (n : Nat) : Fair F (restoreLot c k n s).2 := by
  unfold restoreLot; dsimp only
  repeat' split
  all_goals simp [Notice.fair]
@[simp] theorem fair_fillEntry (c : CellNo) (b : Bool) : Fair F (fillEntry c b s).2 := by
  unfold fillEntry
  repeat' split
  all_goals simp
@[simp] theorem fair_startLot (c : CellNo) : Fair F (startLot c s).2 := by
  unfold startLot
  split
  · extract_lets s₁ s₂ m k₂ s₃ r
    simp [m, r, Notice.fair]
  · simp
@[simp] theorem fair_feedCell (c : CellNo) : Fair F (feedCell c s).2 := by
  unfold feedCell; dsimp only
  split
  · split
    · split <;> simp [Notice.fair]
    · simp
  · simp
@[simp] theorem fair_drainCell (c : CellNo) (x : Purpose) : Fair F (drainCell c x s).2 := by
  unfold drainCell
  repeat' split
  all_goals simp
@[simp] theorem fair_loseCounts (c : CellNo) : Fair F (loseCounts c s).2 := by
  unfold loseCounts
  repeat' split
  all_goals simp [Notice.fair]
@[simp] theorem fair_returnFromManual (c : CellNo) : Fair F (returnFromManual c s).2 := by
  unfold returnFromManual
  split
  · extract_lets m causes t r
    have hr : Fair F r.2 := by
      show Fair F (if _ then _ else _ : Told).2
      repeat' split
      all_goals simp
    simp [hr, m, Notice.fair]
  · simp
@[simp] theorem fair_changeMode (c : CellNo) (m : Mode) : Fair F (changeMode c m s).2 := by
  unfold changeMode; dsimp only
  repeat' split
  all_goals simp [Notice.fair]
@[simp] theorem fair_settleSite (c : CellNo) (i : Nat) : Fair F (settleSite c i s).2 := by
  unfold settleSite
  repeat' split
  all_goals simp
@[simp] theorem fair_forceSite (c : CellNo) (i : Nat) (b : Bool) : Fair F (forceSite c i b s).2 := by
  unfold forceSite
  repeat' split
  all_goals simp
@[simp] theorem fair_monitorSite (c : CellNo) (i : Nat) : Fair F (monitorSite c i s).2 := by
  unfold monitorSite; dsimp only
  repeat' split
  all_goals simp

/-! ### Claims and dissolution -/

@[simp] theorem fair_judgeClaim (p : Port) : Fair F (judgeClaim p s).2 := by
  unfold judgeClaim
  repeat' split
  all_goals simp [Notice.fair]
@[simp] theorem fair_retryClaims (n : Nat) : Fair F (retryClaims n s).2 := fair_map (fun _ => by exact trivial) _
@[simp] theorem fair_takeClaim (p : Port) (n : Nat) : Fair F (takeClaim p n s).2 := by
  unfold takeClaim; dsimp only
  split
  · simp [Notice.fair]
  · dsimp only; split <;> simp [Notice.fair]
@[simp] theorem fair_dissolveCell (c : CellNo) (x : DissolveCause) : Fair F (dissolveCell c x s).2 := by
  unfold dissolveCell
  repeat' split
  all_goals simp [Notice.fair]
@[simp] theorem fair_dissolveRest (c : CellNo) (x : DissolveCause) (b : Bool) : Fair F (dissolveRest c x b s).2 := by
  unfold dissolveRest
  split
  · simp
  · extract_lets s₁ s₂ s₃ s₄
    refine fair_append.mpr ⟨?_, ?_⟩ <;> split <;> simp [Notice.fair]

/-! ### Evaluation, close and drops -/

@[simp] theorem fair_judgeComplete (n : Nat) : Fair F (judgeComplete n s).2 := by
  unfold judgeComplete
  split
  · split
    · dsimp only; split <;> simp [Notice.fair]
    · simp
  · simp
@[simp] theorem fair_tallyFreed : Fair F (tallyFreed s).2 := by
  unfold tallyFreed
  repeat' split
  all_goals simp [Notice.fair]
@[simp] theorem fair_dropTally (l : Lot) : Fair F (dropTally l s).2 := by unfold dropTally; split <;> simp [Notice.fair]
@[simp] theorem fair_evaluateRunning (c : CellNo) (n i : Nat) : Fair F (evaluateRunning c n i s).2 := by
  unfold evaluateRunning; dsimp only
  repeat' split
  any_goals simp
  exact ⟨fair_map (fun _ => by exact trivial) _, trivial⟩
@[simp] theorem fair_countEvaluation (c : CellNo) (n : Nat) : Fair F (countEvaluation c n s).2 := by
  unfold countEvaluation
  repeat' split
  all_goals simp [Notice.fair]
@[simp] theorem fair_reportTally (c : CellNo) (n : Nat) : Fair F (reportTally c n s).2 := by
  unfold reportTally
  repeat' split
  all_goals simp
@[simp] theorem fair_closeStep (c : CellNo) : Fair F (closeStep c s).2 := by
  unfold closeStep; dsimp only
  split
  · simp
  split
  · simp
  · refine fair_append.mpr ⟨fair_append.mpr ⟨fair_map (fun _ => by exact trivial) _, ?_⟩, by simp [Notice.fair]⟩
    split <;> simp [Notice.fair]
@[simp] theorem fair_reconcileStep (c : CellNo) : Fair F (reconcileStep c s).2 := by
  unfold reconcileStep; dsimp only
  repeat' split
  all_goals simp [Notice.fair]
@[simp] theorem fair_closeRecord (c : CellNo) : Fair F (closeRecord c s).2 := by
  unfold closeRecord; dsimp only
  repeat' split
  all_goals simp [Notice.fair]
@[simp] theorem fair_closeMove (c : CellNo) (x : CloseSection) : Fair F (closeMove c x s).2 := by
  have dest (l : Lot) : s.closeDest l = .waiting ∨ s.closeDest l = .held ∨ s.closeDest l = .complete := by
    unfold State.closeDest; repeat' split
    all_goals simp
  unfold closeMove
  split
  · simp
  · simp [Notice.fair, dest]
@[simp] theorem fair_endPass : Fair F (endPass s).2 := by
  unfold endPass
  split
  · exact fair_map (fun _ => by exact trivial) _
  · simp
@[simp] theorem fair_dropRest (n : Nat) : Fair F (dropRest n s).2 := by unfold dropRest; split <;> simp

/-- The preemption check apart, the delivery of a notice owes fair ones. -/
theorem fair_deliver {n : Notice} (h : ∀ c, n ≠ .preemptCheck c) : Fair F (deliver n s).2 := by
  cases n with
  | preemptCheck c => exact absurd rfl (h c)
  | testerTold p => unfold deliver; dsimp only; split <;> simp [Notice.fair]
  | service p => unfold deliver; dsimp only; split <;> simp [Notice.fair]
  | disposed h d => exact fair_nil
  | _ => simp [deliver]

/-- The preemption check owes nothing, or the one notice its cell's state asks for, in the state it was made in and with the cell's
save context empty (R70 to R72). -/
theorem checkPreempt_told (c : CellNo) (s : State) : (checkPreempt c s).1 = s
    ∧ ((checkPreempt c s).2 = []
      ∨ s.saves[c] = none ∧ ((checkPreempt c s).2 = [.drain c .preempt] ∨ (checkPreempt c s).2 = [.leave c .saved none])) := by
  unfold checkPreempt
  split
  · exact ⟨rfl, .inl rfl⟩
  split
  next met =>
    have hsave : s.saves[c] = none := by simp [State.meetsPreemption] at met; exact met.2
    split
    · exact ⟨rfl, .inr ⟨hsave, .inl rfl⟩⟩
    · refine ⟨rfl, ?_⟩
      dsimp only
      split
      · exact .inl rfl
      · exact .inr ⟨hsave, .inr rfl⟩
    · exact ⟨rfl, .inl rfl⟩
  · exact ⟨rfl, .inl rfl⟩

/-! ## The end of a taking -/

/-- Each next state of an outcome comes, but for what `State.still` blanks, from a state and notices that meet a condition, by the
delivery of the notices. -/
def Ends (Q : State → List Notice → Prop) (o : Host.Outcome State Fault Refusal) : Prop :=
  ∀ t, o = .next t → ∃ u ns v, Q u ns ∧ run Config.noticeBound ns u = some v ∧ t.still = v.still

section
variable {Q : State → List Notice → Prop}

theorem still_transmit : (transmit s).still = s.still := by rw [transmit_eq]; rfl

theorem ends_next (h : Q s []) : Ends Q (.next s) := by
  rintro t ⟨⟩
  exact ⟨s, [], s, h, run_nil _ _, rfl⟩

theorem ends_settle {ns : List Notice} (h : Q s ns) : Ends Q (settle ns s) := by
  intro t ht
  unfold settle at ht
  split at ht
  next v hv => cases ht; exact ⟨s, ns, v, h, hv, still_transmit⟩
  next => cases ht

theorem ends_answered {r : Reply} {ns : List Notice} (h : Q s ns) : Ends Q (answered r ns s) := by
  intro t ht
  unfold answered at ht
  split at ht
  next v hv => cases ht; exact ⟨s, ns, v, h, hv, still_transmit⟩
  next => cases ht

theorem ends_refuse {st : Status} (h : Q s []) : Ends Q (refuse st s) := ends_answered h

theorem ends_takeRequest {mine : Byte → List Byte → Bool} {f : List Byte → Host.Outcome State Fault Refusal} (h : Q s [])
    (hf : ∀ b, Ends Q (f b)) : Ends Q (takeRequest mine s f) := by
  unfold takeRequest
  split
  · exact ends_next h
  split
  · split
    · exact hf _
    · exact ends_refuse h
  · exact ends_next h

end
end Sys2Proof.Machine
end

