-- ==== Sys2Proof/Proofs/SteadyOps.lean ====
section
-- In order: the check's memory bound leaves no room for a thread per proof.
set_option Elab.async false
/-! ## What the commands that move no lot do -/

namespace Sys2Proof.Machine

/-- A state that meets a predicate, with fair notices. -/
def Calm (P : State → Prop) (s : State) (ns : List Notice) : Prop := P s ∧ Fair [] ns

namespace Steady

variable {P : State → Prop} (hP : Steady P) {s : State}
include hP

/-! ### Ports and links -/

theorem reportPort {p : Port} {x : PortState} {e : Option LastCheck} (hs : P s) : P (reportPort p x e s) := hP.place hs

theorem beginCheck {p : Port} {b : Bool} {n : Nat} {r : CheckReturn} (hs : P s) : P (beginCheck p b n r s) :=
  hP.reportPort (hP.modPort hs)

theorem enterTraining {p : Port} {x : PortState} {e : Option LastCheck} (hs : P s) : P (enterTraining p x e s) := by
  unfold Machine.enterTraining trainedCheck; dsimp only
  exact Steady.ite (hP.beginCheck (hP.reportPort hs)) (hP.reportPort hs)

theorem trainedCheck {p : Port} (hs : P s) : P (trainedCheck p s) := by
  unfold Machine.trainedCheck; dsimp only
  exact Steady.ite (hP.beginCheck hs) hs

theorem clearCheck {p : Port} {e : Option LastCheck} (hs : P s) : P (clearCheck p e s) := by
  unfold Machine.clearCheck
  extract_lets used s₁
  have h₁ : P s₁ := Steady.ite (hP.same hs rfl) hs
  exact hP.modPort h₁

theorem parkTester {p : Port} (hs : P s) : P (parkTester p s) := by
  unfold Machine.parkTester
  extract_lets t loaded swapped s₁ s₂
  have h₁ : P s₁ := hP.modSlot hs
  have h₂ : P s₂ := Steady.ite (hP.reportLoad h₁) h₁
  exact Steady.ite (hP.reportLoad h₂) h₂

theorem departed {p : Port} {r : Option Role} {n : Option Nat} (hs : P s) : Calm P (departed p r n s).1 (departed p r n s).2 := by
  unfold Machine.departed
  split
  · exact ⟨hs, fair_nil⟩
  · exact ⟨hP.same (hP.parkTester hs) rfl, by dsimp only; split <;> simp [Notice.fair]⟩
  · exact ⟨hP.same hs rfl, by dsimp only; split <;> simp [Notice.fair]⟩

omit hP in
theorem fair_linkDown {p : Port} : Fair [] (linkDown p s) := by unfold linkDown; split <;> simp [Notice.fair]

omit hP in
theorem fair_linkUp {p : Port} : Fair [] (linkUp p s) := by unfold linkUp; split <;> simp [Notice.fair, fair_linkDown]

/-- A port gives up its announce data. -/
theorem forgetData {p : Port} {f : PortRec → PortRec} (hs : P s) (hf : (f s.ports[p]).data = none := by exact rfl) :
    P (s.modPort p f) := hP.port (fun _ _ h => (Option.some_ne_none _ (h.symm.trans hf)).elim) hs

theorem enterFaulted {p : Port} {x : FaultCause} {e : Option LastCheck} (hs : P s) :
    Calm P (enterFaulted p x e s).1 (enterFaulted p x e s).2 := hP.departed (hP.place (hP.forgetData hs))

theorem awaitAnnounce {p : Port} {e : Option LastCheck} (hs : P s) : P (awaitAnnounce p e s) := hP.reportPort (hP.modPort hs)

theorem returnToService {p : Port} {e : Option LastCheck} (hs : P s) :
    Calm P (returnToService p e s).1 (returnToService p e s).2 := by
  unfold Machine.returnToService; dsimp only
  split
  · exact hP.enterFaulted hs
  · exact ⟨hP.reportPort (hP.modPort hs), fair_linkUp⟩

theorem endCheck {p : Port} {k : CheckRec} {b : Bool} {n : Nat} (hs : P s) : Calm P (endCheck p k b n s).1 (endCheck p k b n s).2 := by
  unfold Machine.endCheck
  extract_lets ended s₁
  have h₁ : P s₁ := hP.modPort hs
  split
  · exact hP.enterFaulted h₁
  split
  · exact hP.returnToService h₁
  · exact ⟨hP.awaitAnnounce h₁, fair_nil⟩

theorem judgeCheck {p : Port} (hs : P s) : Calm P (judgeCheck p s).1 (judgeCheck p s).2 := by
  unfold Machine.judgeCheck
  split
  · exact ⟨hs, fair_nil⟩
  split
  · exact ⟨hs, fair_nil⟩
  split
  · exact hP.endCheck hs
  · exact ⟨hs, fair_nil⟩

theorem upChecker {p : Port} {f : UpFrame} (hs : P s) : Calm P (upChecker p f s).1 (upChecker p f s).2 := hP.judgeCheck (hP.modPort hs)

theorem presenceRose {p : Port} (hs : P s) : P (presenceRose p s) :=
  Steady.ite (hP.enterTraining (hP.modPort hs)) hs

theorem presenceFell {p : Port} (hs : P s) : Calm P (presenceFell p s).1 (presenceFell p s).2 := by
  unfold Machine.presenceFell; dsimp only
  split
  · exact ⟨hs, fair_nil⟩
  · exact hP.departed (hP.reportPort (hP.forgetData (hP.clearCheck hs)))

theorem setLock {p : Port} {lane : Lane} {v : Bool} (hs : P s) : P (setLock p lane v s) :=
  hP.modPort hs (by split <;> rfl)

theorem lockLoss {p : Port} {b : Bool} {lane : Lane} (hs : P s) : Calm P (lockLoss p b lane s).1 (lockLoss p b lane s).2 := by
  unfold Machine.lockLoss; dsimp only
  split
  · refine ⟨hP.enterTraining (hP.modPort (hP.clearCheck (hP.setLock hs))), ?_⟩
    split
    · exact fair_linkDown
    · exact fair_nil
  · exact ⟨hP.setLock hs, fair_nil⟩

omit hP in
theorem clamp_inRange (t : BitVec 16) : inRange (tempOf t) := by
  unfold inRange tempOf clampTemp; omega

omit hP in
/-- R33: the temperatures of an ANNOUNCE are clamped. -/
theorem announceData_inRange {m : AnnounceMsg} {role : Role} {n : Nat} {d : AnnounceData} (h : announceData m = some (role, n, d)) :
    d.inRange := by
  cases m with
  | handler id sites lo hi kit dock mode =>
    obtain ⟨x, hx, he⟩ := Option.map_eq_some_iff.mp h
    cases he
    unfold handlerData at hx
    split at hx
    · cases hx
    split at hx
    · cases hx; exact ⟨clamp_inRange _, clamp_inRange _⟩
    · cases hx
  | tester id channels temp hours validity base kt kh =>
    obtain ⟨x, hx, he⟩ := Option.map_eq_some_iff.mp h
    cases he
    unfold testerData at hx
    split at hx
    · cases hx; exact clamp_inRange _
    · cases hx
  | other role => cases h

theorem releaseParked {p : Port} {n : Nat} (hs : P s) : P (releaseParked p n s) := by
  refine hP.slots (fun q hq k hk => ?_) hs
  simp only [Fin.getElem_fin, Vector.getElem_ofFn] at hk
  split at hk
  · cases hk
  · exact hq k hk

theorem setUpTester {p : Port} {n : Nat} {k : Calibration} (hk : k.inRange) (hs : P s) :
    P (setUpTester p n k s) := by
  unfold Machine.setUpTester
  exact hP.computeMargin (hP.modSlot_cal (hP.releaseParked (hP.parkTester hs)) fun _ _ h => Option.some.inj h ▸ hk)

theorem resizeSites {c : CellNo} {n : Nat} (hs : P s) : P (resizeSites c n s) := by
  unfold Machine.resizeSites; dsimp only
  split
  · exact hs
  · exact Steady.ite (hP.fireEdge (hP.modCell hs)) (hP.modCell hs)

theorem refreshHandler {c : CellNo} {n kit : Nat} {m : Mode} (hs : P s) :
    Calm P (refreshHandler c n kit m s).1 (refreshHandler c n kit m s).2 := by
  have hr : P (Machine.changeMode c m (Machine.resizeSites c n (s.modCell c fun k => { k with kit := kit }))).1 :=
    hP.changeMode (hP.resizeSites (hP.modCell hs))
  exact ⟨hr, by simp [Machine.refreshHandler, Notice.fair]⟩

theorem handlerAnnounced {p : Port} {n kit dock : Nat} {m : Mode} (hs : P s) :
    Calm P (handlerAnnounced p n kit dock m s).1 (handlerAnnounced p n kit dock m s).2 := by
  have ht : P (Machine.takeClaim p dock s).1 := hP.takeClaim hs
  unfold Machine.handlerAnnounced; dsimp only
  split
  · exact ⟨ht, by simp⟩
  split
  · exact ⟨(hP.refreshHandler ht).1, fair_append.mpr ⟨(hP.refreshHandler ht).2, by simp⟩⟩
  · exact ⟨ht, by simp⟩

theorem announced {p : Port} {n : Nat} {d : AnnounceData} (hd : d.inRange) (hs : P s) :
    Calm P (announced p n d s).1 (announced p n d s).2 := by
  cases d with
  | handler sites lo hi kit dock mode => exact hP.handlerAnnounced hs
  | tester channels temp hours validity base kt kh =>
    unfold Machine.announced; dsimp only
    exact ⟨hP.setUpTester ⟨hd, hd⟩ hs, by simp [Notice.fair]⟩

theorem takeAnnounce {p : Port} {m : AnnounceMsg} (hs : P s) : Calm P (takeAnnounce p m s).1 (takeAnnounce p m s).2 := by
  unfold Machine.takeAnnounce; dsimp only
  split
  · exact hP.enterFaulted hs
  next role n d hd =>
    split
    · exact hP.enterFaulted hs
    split
    · exact hP.enterFaulted hs
    · exact hP.announced (announceData_inRange hd)
        (hP.reportPort (hP.port (fun _ _ h => Option.some.inj h ▸ announceData_inRange hd) hs))

/-! ### Takings of messages -/

theorem takeMessage {p : Port} {b : Bool} {r : Told} (hs : P s) (hr : Calm P r.1 r.2) : Ends (Calm P) (takeMessage p b s r) := by
  unfold Machine.takeMessage
  split
  · exact ends_next ⟨hs, fair_nil⟩
  split
  · exact ends_settle hr
  · exact ends_settle ⟨hP.countIgnored hs, fair_nil⟩

theorem takeHandler {p : Port} {b : Bool} {r : Told} (hs : P s) (hr : Calm P r.1 r.2) : Ends (Calm P) (takeHandler p b s r) :=
  hP.takeMessage hs hr

theorem takeTester {p : Port} {b : Bool} {r : Told} (hs : P s) (hr : Calm P r.1 r.2) : Ends (Calm P) (takeTester p b s r) :=
  hP.takeMessage hs hr

theorem forCell {p : Port} {f : CellNo → Told} (hs : P s) (hf : ∀ c, Calm P (f c).1 (f c).2) :
    Calm P (forCell p s f).1 (forCell p s f).2 := by
  unfold Machine.forCell
  split
  · exact hf _
  · exact ⟨hP.countIgnored hs, fair_nil⟩

omit hP in
theorem onExpiry {b : Bool} {r : Told} (hs : P s) (hr : Calm P r.1 r.2) : Ends (Calm P) (onExpiry b s r) := by
  unfold Machine.onExpiry
  split
  · exact ends_settle hr
  · exact ends_next ⟨hs, fair_nil⟩

omit hP in
/-- A request whose every body leads to an end. -/
theorem takeRequest {mine : Byte → List Byte → Bool} {f : List Byte → Host.Outcome State Fault Refusal} (hs : P s)
    (hf : ∀ b, Ends (Calm P) (f b)) : Ends (Calm P) (takeRequest mine s f) := ends_takeRequest ⟨hs, fair_nil⟩ hf

omit hP in
theorem refuse {x : Status} (hs : P s) : Ends (Calm P) (refuse x s) := ends_refuse ⟨hs, fair_nil⟩

omit hP in
theorem answered {r : Reply} {ns : List Notice} (hs : P s) (hf : Fair [] ns := by simp) : Ends (Calm P) (answered r ns s) :=
  ends_answered ⟨hs, hf⟩

omit hP in
theorem next (hs : P s) : Ends (Calm P) (.next s) := ends_next ⟨hs, fair_nil⟩

/-! ### The host link and the clock -/

theorem receive {l : Received} (hs : P s) : P (receive l s) := by
  have scanned (fuel : Nat) (l : Received) (s : State) (hs : P s) : P (scanFrames fuel l s) := by
    induction fuel generalizing l s with
    | zero => exact hP.same hs rfl
    | succ fuel ih =>
      unfold scanFrames
      split
      · exact hP.same hs rfl
      split
      · exact hP.same hs rfl
      · exact ih _ _ (hP.same hs rfl)
      · exact ih _ _ (hP.same hs rfl)
      · refine ih _ _ (hP.same hs ?_)
        unfold acceptFrame
        repeat' split
        all_goals rfl
  exact scanned _ _ _ hs

theorem reportLeft (hs : P s) : P (reportLeft s) := by
  unfold Machine.reportLeft; dsimp only
  exact Steady.ite (hP.place (hP.same hs rfl)) (hP.same hs rfl)

omit hP in
theorem fair_rollover : Fair [] (rollover s) := fair_map (fun _ => by exact trivial) _

/-! ### Handlers -/

theorem portMode {p : Port} {m : Mode} (hs : P s) : P (portMode p m s) := by
  refine hP.port (fun hd d h => ?_) hs
  obtain ⟨d₀, h₀, rfl⟩ := Option.map_eq_some_iff.mp h
  have := hd d₀ h₀
  cases d₀ <;> exact this

theorem portKit {p : Port} {kit : Nat} (hs : P s) : P (portKit p kit s) := by
  refine hP.port (fun hd d h => ?_) hs
  obtain ⟨d₀, h₀, rfl⟩ := Option.map_eq_some_iff.mp h
  have := hd d₀ h₀
  cases d₀ <;> exact this

theorem takeStatus {p : Port} {m : Mode} (hs : P s) : Calm P (takeStatus p m s).1 (takeStatus p m s).2 := by
  have ht : P (Machine.portMode p m s) := hP.portMode hs
  unfold Machine.takeStatus; dsimp only
  split
  · exact ⟨ht, fair_nil⟩
  · refine ⟨hP.changeMode ht, fair_append.mpr ⟨by simp, ?_⟩⟩
    split <;> simp [Notice.fair]

omit hP in
theorem soakReading_temps (k : Cell) (t : Int) (n : Nat) :
    (k.soakReading t n).purpose = k.purpose ∧ (k.soakReading t n).setpoint = k.setpoint := by
  unfold Cell.soakReading
  repeat' split
  all_goals exact ⟨rfl, rfl⟩

theorem takeTemp {c : CellNo} {t : Int} (ht : inRange t) (hs : P s) : Calm P (takeTemp c t s).1 (takeTemp c t s).2 := by
  refine ⟨hP.modCell_temps hs (fun k => (soakReading_temps k t _).1) fun k v hv => ?_, by simp [Machine.takeTemp, Notice.fair]⟩
  rcases hv with hv | hv
  · exact .inl ((soakReading_temps k t _).2 ▸ hv)
  · exact .inr (.inr (.inl (Option.some.inj hv ▸ ht)))

theorem takeKit {p : Port} {kit : Nat} {b : Bool} (hs : P s) : Calm P (takeKit p kit b s).1 (takeKit p kit b s).2 := by
  have ht : P (Machine.portKit p kit s) := hP.portKit hs
  unfold Machine.takeKit kitForCell; dsimp only
  split
  · exact ⟨ht, fair_nil⟩
  split
  · exact ⟨ht, fair_nil⟩
  split
  · exact ⟨Steady.ite (hP.fireEdge ht) ht, fair_nil⟩
  · exact ⟨hP.modCell ht, by simp [Notice.fair]⟩

theorem takeIndex {c : CellNo} {mask : Byte} (hs : P s) : Calm P (takeIndex c mask s).1 (takeIndex c mask s).2 := by
  unfold Machine.takeIndex; dsimp only
  split
  · exact ⟨hs, fair_nil⟩
  · exact ⟨hP.modCell (Steady.ite (hP.makeChanges hs) hs), by simp⟩

theorem takeClean {c : CellNo} {mask : Byte} (hs : P s) : Calm P (takeClean c mask s).1 (takeClean c mask s).2 :=
  ⟨Steady.ite (hP.fireEdge hs) hs, fair_nil⟩

theorem setCell {c : CellNo} {a b : Bool} (hs : P s) : Calm P (setCell c a b s).1 (setCell c a b s).2 := by
  have fair_disabled (k : Cell) : Fair [] (disabled c k) := by unfold disabled; split <;> simp [Notice.fair]
  have kept : P (s.modCellRec c fun r => { r with enable := a, preemptEnable := b }) :=
    hP.cellRec (fun k hk => ⟨fun h => ⟨k, hk, h⟩, fun v h => .inr (.inl ⟨k, hk, h⟩)⟩) hs
  unfold Machine.setCell; dsimp only
  refine ⟨kept, ?_⟩
  split
  · split <;> simp [Notice.fair, fair_disabled]
  · simp [Notice.fair]

/-- R146: counts are added, whatever they then cause. -/
theorem takeCounts {p : Port} {c : CellNo} {x : Counts} (hs : P s) : P (takeCounts p c x s).1 := by
  unfold Machine.takeCounts; dsimp only
  split
  · exact hP.countIgnored hs
  split
  · exact hP.countIgnored hs
  split
  · exact hP.countIgnored hs
  have ht {g : Segment} : P ((s.modCell c (addToSegment x)).modStep g.lot g.step (addToStep x)) := hP.modStep (hP.modCell hs)
  split
  · exact ht
  split
  · split
    · exact ht
    · exact hP.modCell ht
  · exact ht

/-! ### Result intake and the evaluator -/

theorem countStray {p : Port} (hs : P s) : P (countStray p s) := hP.same hs rfl

theorem modSite {c : CellNo} {i : Nat} {f : Site → Site} (hs : P s) : P (modSite c i f s) := hP.modCell hs

theorem countFirst {c : CellNo} {l : Lot} {i : Nat} {b : Fin 16} {n : Nat} {d : StepDef} (hs : P s) :
    Calm P (countFirst c l i b n d s).1 (countFirst c l i b n d s).2 := by
  unfold Machine.countFirst; dsimp only
  split
  · dsimp only
    exact ⟨hP.modSite (hP.modTally hs), by simp [Notice.fair]⟩
  · dsimp only
    refine ⟨hP.modSite (hP.modTally (hP.modTally hs)), fair_append.mpr ⟨fair_append.mpr ⟨?_, ?_⟩, by simp [Notice.fair]⟩⟩ <;>
      split <;> simp [Notice.fair]

theorem takeSorted {p : Port} {c : CellNo} {k : Cell} {l : Lot} {t : Tally} {g : Product} {d : StepDef} {r : BitVec 64} (hs : P s) :
    Calm P (takeSorted p c k l t g d r s).1 (takeSorted p c k l t g d r s).2 := by
  have inOrder {i : Nat} {b : Bool} {n gap : Nat} :
      P ((advanceSequence c i b n s).modTally l.id (·.addMissing gap)) := hP.modTally (hP.modCell hs)
  unfold Machine.takeSorted; dsimp only
  split
  · exact ⟨hP.modTally hs, fair_nil⟩
  · exact ⟨hP.countStray (hP.modTally hs), fair_nil⟩
  · exact ⟨hP.modTally hs, fair_nil⟩
  · exact ⟨hP.modTally hs, fair_nil⟩
  · exact ⟨hP.modTally inOrder, fair_nil⟩
  · exact ⟨hP.modTally inOrder, fair_nil⟩
  · exact hP.countFirst inOrder
  · exact ⟨hP.modTally inOrder, by simp [Notice.fair]⟩

theorem intake {p : Port} {r : BitVec 64} (hs : P s) : Calm P (intake p r s).1 (intake p r s).2 := by
  unfold Machine.intake
  split
  · exact ⟨hP.countStray hs, fair_nil⟩
  split
  · split
    · exact hP.takeSorted hs
    · exact ⟨hP.countStray hs, fair_nil⟩
  · exact ⟨hP.countStray hs, fair_nil⟩

/-! ### The program loader -/

theorem staleSlot {n : Nat} {p : Port} (hs : P s) : P (staleSlot n s p) := by
  unfold Machine.staleSlot
  split
  · exact Steady.ite (hP.reportLoad (hP.modSlot hs)) hs
  · exact hs

omit hP in
theorem fair_serviceAll : Fair [] serviceAll := fair_map (fun _ => by exact trivial) _

omit hP in
theorem fair_allEligibility : Fair [] (allEligibility s) := fair_map (fun _ => by exact trivial) _

/-- A revision takes the place of the program with its id. -/
theorem replaceProgram {g : Program} (hs : P s) : P { s with catalog := s.catalog.map fun x => if x.id == g.id then g else x } := by
  refine hP.catalog (by simp) (fun h => ascends_map (fun x => ?_) h) hs
  split
  next he => exact (beq_iff_eq.mp he).symm
  next => rfl

theorem revise {old new : Program} (hs : P s) : Calm P (revise old new s).1 (revise old new s).2 := by
  have revised : P (allPorts.foldl (Machine.staleSlot old.id)
      { s with catalog := s.catalog.map fun x => if x.id == new.id then new else x }) := foldl hP.staleSlot (hP.replaceProgram hs)
  unfold Machine.revise; dsimp only
  exact ⟨revised, fair_append.mpr ⟨fair_map (fun _ => by exact trivial) _, fair_serviceAll⟩⟩

theorem recalibrate {p : Port} {f : Calibration → Calibration} (hf : ∀ k, k.inRange → (f k).inRange) (hs : P s) :
    Calm P (recalibrate p f s).1 (recalibrate p f s).2 := by
  refine ⟨hP.computeMargin (hP.modSlot_cal hs fun hq k hk => ?_), ?_⟩
  · obtain ⟨k₀, h₀, rfl⟩ := Option.map_eq_some_iff.mp hk
    exact hf k₀ (hq k₀ h₀)
  · unfold Machine.recalibrate; dsimp only
    split <;> simp [Notice.fair]

theorem countFailure {p : Port} {o : LoadOutcome} {x : Option (Nat × Nat)} (hs : P s) :
    Calm P (countFailure p o x s).1 (countFailure p o x s).2 := by
  unfold Machine.countFailure; dsimp only
  split
  · exact ⟨hP.reportLoad (hP.modSlot (hP.reportLoad (hP.modSlot hs))), by simp [Notice.fair]⟩
  · exact ⟨hP.reportLoad (hP.modSlot hs), fair_nil⟩

theorem judgeLoaded {p : Port} {n v x : Nat} {b : Bool} (hs : P s) : Calm P (judgeLoaded p n v x b s).1 (judgeLoaded p n v x b s).2 := by
  unfold Machine.judgeLoaded
  extract_lets named s₁
  have h₁ : P s₁ := hP.modSlot hs
  split
  · exact ⟨hP.reportLoad h₁, fair_nil⟩
  split
  · exact ⟨hP.reportLoad h₁, fair_nil⟩
  split
  · exact hP.countFailure h₁
  split
  · exact hP.countFailure h₁
  · exact ⟨hP.reportLoad (hP.modSlot h₁), fair_nil⟩

theorem takeLoaded {p : Port} {n v x : Nat} {b : Bool} (hs : P s) : Calm P (takeLoaded p n v x b s).1 (takeLoaded p n v x b s).2 := by
  unfold Machine.takeLoaded
  split
  · split
    · have hj : Calm P (Machine.judgeLoaded p n v x b s).1 (Machine.judgeLoaded p n v x b s).2 := hP.judgeLoaded hs
      exact ⟨hj.1, fair_append.mpr ⟨hj.2, by simp [Notice.fair]⟩⟩
    · exact ⟨hP.countIgnored hs, fair_nil⟩
  · exact ⟨hP.countIgnored hs, fair_nil⟩

omit hP in
theorem fair_swapEnded {p : Port} : Fair [] (swapEnded p s) := by unfold swapEnded; split <;> simp [Notice.fair]

theorem takeSwapped {p : Port} (hs : P s) : Calm P (takeSwapped p s).1 (takeSwapped p s).2 := by
  unfold Machine.takeSwapped; dsimp only
  split
  · exact ⟨hP.countIgnored hs, fair_nil⟩
  · exact ⟨hP.reportLoad (hP.modSlot hs), fair_append.mpr ⟨fair_swapEnded, by simp [Notice.fair]⟩⟩

theorem loadTimedOut {p : Port} {n v : Nat} (hs : P s) : Calm P (loadTimedOut p n v s).1 (loadTimedOut p n v s).2 := by
  unfold Machine.loadTimedOut
  extract_lets named s₁ r
  have h₁ : P s₁ := hP.modSlot hs
  have hr : Calm P r.1 r.2 := by
    show Calm P (if _ then _ else _ : Told).1 (if _ then _ else _ : Told).2
    split
    · exact hP.countFailure h₁
    · exact ⟨hP.reportLoad h₁, fair_nil⟩
  exact ⟨hr.1, fair_append.mpr ⟨hr.2, by simp [Notice.fair]⟩⟩

theorem barTester {p : Port} (hs : P s) : P (barTester p s) := hP.reportLoad (hP.modSlot hs)

theorem swapTimedOut {p : Port} (hs : P s) : Calm P (swapTimedOut p s).1 (swapTimedOut p s).2 :=
  ⟨hP.barTester (hP.reportLoad (hP.modSlot hs)),
    fair_append.mpr ⟨fair_append.mpr ⟨by simp [Notice.fair], fair_swapEnded⟩, by simp [Notice.fair]⟩⟩

/-! ### Groups and holds -/

theorem modGroup {g : Fin 16} {f : Group → Group} (hs : P s) : P (s.modGroup g f) := hP.same hs rfl

theorem clearGroupIds {l : List Nat} (hs : P s) : P (clearGroupIds l s) := foldl hP.modLot hs

theorem addToGroup {g : Fin 16} {l : Lot} (hs : P s) : P (addToGroup g l s) := hP.modLot (hP.modGroup hs)

theorem deleteHold {h : Hold} (hs : P s) : P (deleteHold h s) :=
  hP.modLot (hP.holds (le_max_of_le_right (List.length_filter_le _ _)) holdsAscend_filter hs)

theorem acceptCounts {h : Hold} (hs : P s) : P (acceptCounts h s) := Steady.ite (hP.modStep hs) hs

theorem scrapUnits {l : Lot} {n : Nat} (hs : P s) : P (scrapUnits l n s) :=
  Steady.ite (hP.modLot hs) (hP.modLot (hP.same hs rfl))

/-! ### Products (R1 to R4) -/

omit hP in
/-- R2: the setpoints of a product that fits lie in the representable range. -/
theorem toProduct_inRange {r : RawProduct} (h : r.steps.all RawStep.fits = true) : ∀ d ∈ r.toProduct.steps, inRange d.setpoint := by
  intro d hd
  obtain ⟨x, hx, rfl⟩ := List.mem_map.mp hd
  exact ((RawStep.fits_iff x).mp (List.all_eq_true.mp h x hx)).1

theorem addProduct {g : Product} (hg : ∀ d ∈ g.steps, inRange d.setpoint) (hnew : s.product? g.id = none)
    (room : s.products.length < Config.maxProducts) (hs : P s) : P { s with products := insertAsc Product.id g s.products } := by
  refine hP.products ?_ (fun h => ascends_insertAsc h fun x hx he => ?_) (fun x hx => ?_) hs
  · rw [length_insertAsc]; exact le_max_of_le_left room
  · exact List.find?_eq_none.mp hnew x hx (beq_iff_eq.mpr he)
  · rcases (mem_insertAsc _ _ _ _).mp hx with rfl | hx
    · exact .inr hg
    · exact .inl hx

theorem replaceProduct {g : Product} (hg : ∀ d ∈ g.steps, inRange d.setpoint) (hs : P s) :
    P { s with products := s.products.map fun x => if x.id == g.id then g else x } := by
  refine hP.products (by simp) (fun h => ascends_map (fun x => ?_) h) (fun x hx => ?_) hs
  · split
    next he => exact (beq_iff_eq.mp he).symm
    next => rfl
  · obtain ⟨y, hy, rfl⟩ := List.mem_map.mp hx
    split
    · exact .inr hg
    · exact .inl hy

theorem dropProduct {f : Product → Bool} (hs : P s) : P { s with products := s.products.filter f } :=
  hP.products (le_max_of_le_right (List.length_filter_le _ _)) (fun h => h.filter _) (fun _ hx => .inl (List.mem_of_mem_filter hx)) hs

end Steady
end Sys2Proof.Machine
end

