-- ==== Sys2Proof/Proofs/SteadyCommands.lean ====
section
-- In order: the check's memory bound leaves no room for a thread per proof.
set_option Elab.async false
/-! ## Each command that moves no lot ends in a state a steady predicate holds of, with fair notices -/

namespace Sys2Proof.Machine

/-- The commands whose own change moves a lot, or whose notices are not all fair. -/
def movesLots : Instr → Bool
  | .powerOn _ _ _ => true
  | .restartFull _ => true
  | .restartFloor => true
  | .lotEnter => true
  | .lotPriority => true
  | .lotDrop => true
  | .retestStep => true
  | .holdDisposeOverflow => true
  | .groupRelease => true
  | .assignmentPass => true
  | .hCounts _ _ => true
  | _ => false

namespace Steady

variable {P : State → Prop} (hP : Steady P) {s : State}
include hP

/-! ### The host link and the clock -/

theorem execHostFrame {b : List Byte} (hs : P s) : Ends (Calm P) (execHostFrame b s) := ends_settle ⟨hP.receive hs, fair_nil⟩

theorem execFrameTruncated (hs : P s) : Ends (Calm P) (execFrameTruncated s) := by
  unfold Machine.execFrameTruncated
  split
  · exact next hs
  split
  · exact ends_settle ⟨hP.receive (hP.same hs rfl), fair_nil⟩
  · exact next hs

theorem execFrameSent (hs : P s) : Ends (Calm P) (execFrameSent s) := by
  unfold Machine.execFrameSent
  split
  · exact next hs
  · exact ends_settle ⟨hP.same hs rfl, fair_nil⟩
  · exact ends_settle ⟨Steady.ite (hP.reportLeft (hP.same hs rfl)) (hP.same hs rfl), fair_nil⟩

omit hP in
theorem execRequestUnknownKind (hs : P s) : Ends (Calm P) (execRequestUnknownKind s) := by
  unfold Machine.execRequestUnknownKind
  split
  · exact next hs
  split
  · exact next hs
  · exact refuse hs

theorem execParamSet (hs : P s) : Ends (Calm P) (execParamSet s) := by
  refine takeRequest hs fun b => ?_
  split
  · exact refuse hs
  split
  · exact answered (hP.same hs rfl)
  · exact refuse hs

omit hP in
theorem execStatus (hs : P s) : Ends (Calm P) (execStatus s) := by
  refine takeRequest hs fun b => ?_
  split
  · exact refuse hs
  · exact answered hs

theorem execSecondAdvance (hs : P s) : Ends (Calm P) (execSecondAdvance s) := by
  refine ends_settle ⟨hP.same hs rfl, ?_⟩
  split
  · exact fair_rollover
  · exact fair_nil

omit hP in
theorem execHourRollover (hs : P s) : Ends (Calm P) (execHourRollover s) := ends_settle ⟨hs, fair_rollover⟩

theorem execClockSet (hs : P s) : Ends (Calm P) (execClockSet s) := by
  refine takeRequest hs fun b => answered (hP.same hs rfl) ?_
  split
  · exact fair_rollover
  · exact fair_nil

/-! ### Ports -/

theorem execPresenceRise {p : Port} (hs : P s) : Ends (Calm P) (execPresenceRise p s) :=
  ends_settle ⟨hP.presenceRose (hP.same hs rfl), fair_nil⟩

theorem execPresenceFall {p : Port} (hs : P s) : Ends (Calm P) (execPresenceFall p s) :=
  ends_settle (hP.presenceFell (hP.same hs rfl))

theorem execLockGained {p : Port} {lane : Lane} {n : Nat} (hs : P s) : Ends (Calm P) (execLockGained p lane n s) := by
  unfold Machine.execLockGained
  split
  · exact next hs
  · exact ends_settle ⟨hP.trainedCheck (hP.setLock hs), fair_nil⟩

theorem execLockLost {p : Port} {lane : Lane} {x : LockLoss} {b : Bool} (hs : P s) : Ends (Calm P) (execLockLost p lane x b s) := by
  unfold Machine.execLockLost
  extract_lets locked
  split
  · exact next hs
  · exact ends_settle (hP.lockLoss hs)

theorem execCheckArmed {p : Port} (hs : P s) : Ends (Calm P) (execCheckArmed p s) := by
  unfold Machine.execCheckArmed
  refine hP.takeMessage hs ⟨?_, fair_nil⟩
  dsimp only
  exact hP.modPort hs

theorem execCheckResult {p : Port} {n : BitVec 16} (hs : P s) : Ends (Calm P) (execCheckResult p n s) := by
  unfold Machine.execCheckResult
  split
  · exact hP.takeMessage hs ⟨hs, fair_nil⟩
  · refine hP.takeMessage hs ?_
    unfold takeCheckResult
    split
    · exact hP.judgeCheck (hP.modPort hs)
    · exact hP.endCheck hs

theorem execCheckFrame {p : Port} {f : UpFrame} (hs : P s) : Ends (Calm P) (execCheckFrame p f s) := by
  unfold Machine.execCheckFrame; dsimp only
  split
  · exact next hs
  · exact ends_settle (hP.upChecker hs)

theorem execCheckTimerExpiry {p : Port} (hs : P s) : Ends (Calm P) (execCheckTimerExpiry p s) := by
  unfold Machine.execCheckTimerExpiry
  split
  · exact next hs
  split
  · exact ends_settle (hP.endCheck hs)
  · exact next hs

theorem execAnnounce {p : Port} {m : AnnounceMsg} (hs : P s) : Ends (Calm P) (execAnnounce p m s) :=
  hP.takeMessage hs (hP.takeAnnounce hs)

theorem execAnnounceTimerExpiry {p : Port} (hs : P s) : Ends (Calm P) (execAnnounceTimerExpiry p s) := by
  unfold Machine.execAnnounceTimerExpiry
  split
  · exact ends_settle (hP.enterFaulted hs)
  · exact next hs

theorem execBadFrame {p : Port} (hs : P s) : Ends (Calm P) (execBadFrame p s) := by
  unfold Machine.execBadFrame
  split
  · exact ends_settle ⟨hP.modPort hs, fair_nil⟩
  · exact next hs

theorem execUnknownMessageKind {p : Port} (hs : P s) : Ends (Calm P) (execUnknownMessageKind p s) := hP.takeMessage hs ⟨hs, fair_nil⟩

theorem execResultLaneDiscard {p : Port} {f : UpFrame} (hs : P s) : Ends (Calm P) (execResultLaneDiscard p f s) := by
  unfold Machine.execResultLaneDiscard; dsimp only
  split
  · exact next hs
  · exact ends_settle ⟨hP.modPort hs, fair_nil⟩

theorem execPortReset (hs : P s) : Ends (Calm P) (execPortReset s) := by
  refine takeRequest hs fun b => ?_
  split
  · exact refuse hs
  split
  · exact answered (hP.enterTraining (hP.modPort hs))
  · exact refuse hs

theorem execPortCheck (hs : P s) : Ends (Calm P) (execPortCheck s) := by
  refine takeRequest hs fun b => ?_
  split
  · split
    · exact refuse hs
    split
    · exact refuse hs
    split
    · exact refuse hs
    split
    · exact refuse hs
    · refine answered (hP.beginCheck hs) ?_
      split
      · exact fair_linkDown
      · exact fair_nil
  · exact refuse hs

/-! ### Cells -/

theorem execHStatus {p : Port} {m : Byte} (hs : P s) : Ends (Calm P) (execHStatus p m s) := by
  unfold Machine.execHStatus
  split
  · exact hP.takeHandler hs ⟨hs, fair_nil⟩
  · exact hP.takeHandler hs (hP.takeStatus hs)

theorem execHTemp {p : Port} {t : BitVec 16} (hs : P s) : Ends (Calm P) (execHTemp p t s) :=
  hP.takeHandler hs (hP.forCell hs fun _ => hP.takeTemp (clamp_inRange t) hs)

theorem execHKit {p : Port} {kit : BitVec 16} {b : Byte} (hs : P s) : Ends (Calm P) (execHKit p kit b s) := by
  unfold Machine.execHKit
  split
  · exact hP.takeHandler hs ⟨hs, fair_nil⟩
  · exact hP.takeHandler hs (hP.takeKit hs)

theorem execHDock {p : Port} {n : BitVec 32} (hs : P s) : Ends (Calm P) (execHDock p n s) :=
  hP.takeHandler hs ⟨hP.takeClaim hs, fair_takeClaim _ _⟩

theorem execHIndex {p : Port} {m : Byte} (hs : P s) : Ends (Calm P) (execHIndex p m s) :=
  hP.takeHandler hs (hP.forCell hs fun _ => hP.takeIndex hs)

theorem execHClean {p : Port} {m : Byte} (hs : P s) : Ends (Calm P) (execHClean p m s) :=
  hP.takeHandler hs (hP.forCell hs fun _ => hP.takeClean hs)

theorem execHPhase {p : Port} {x : Byte} (hs : P s) : Ends (Calm P) (execHPhase p x s) := by
  unfold Machine.execHPhase
  split
  · exact hP.takeHandler hs ⟨hs, fair_nil⟩
  · exact hP.takeHandler hs (hP.forCell hs fun _ => ⟨hP.modCell hs, fair_nil⟩)

theorem execSoakTimerExpiry {c : CellNo} (hs : P s) : Ends (Calm P) (execSoakTimerExpiry c s) :=
  onExpiry hs ⟨hP.modCell hs, by simp [Notice.fair]⟩

theorem execStaleTimerExpiry {c : CellNo} (hs : P s) : Ends (Calm P) (execStaleTimerExpiry c s) :=
  onExpiry hs ⟨hP.modCell_temps hs (fun _ => rfl) fun _ _ h => h.elim .inl nofun, by simp [Notice.fair]⟩

omit hP in
theorem execWithdrawTimerExpiry {c : CellNo} (hs : P s) : Ends (Calm P) (execWithdrawTimerExpiry c s) :=
  onExpiry hs ⟨hs, by simp [Notice.fair]⟩

omit hP in
theorem execDrainTimerExpiry {c : CellNo} (hs : P s) : Ends (Calm P) (execDrainTimerExpiry c s) :=
  onExpiry hs ⟨hs, by simp [Notice.fair]⟩

theorem execCellSet (hs : P s) : Ends (Calm P) (execCellSet s) := by
  refine takeRequest hs fun b => ?_
  split
  · exact ends_answered (hP.setCell hs)
  · exact refuse hs

theorem execSiteForce (hs : P s) : Ends (Calm P) (execSiteForce s) := by
  refine takeRequest hs fun b => ?_
  split
  · split
    · exact refuse hs
    split
    · exact refuse hs
    split
    · exact refuse hs
    · exact answered (hP.forceSite hs)
  · exact refuse hs

omit hP in
theorem execCellQuery (hs : P s) : Ends (Calm P) (execCellQuery s) := by
  refine takeRequest hs fun b => ?_
  split
  · exact refuse hs
  · exact answered hs

/-! ### Result intake and the evaluator -/

theorem execResultRecord {p : Port} {r : BitVec 64} (hs : P s) : Ends (Calm P) (execResultRecord p r s) := by
  unfold Machine.execResultRecord
  split
  · exact next hs
  split
  · exact ends_settle (hP.upChecker hs)
  split
  · exact ends_settle (hP.intake hs)
  · exact ends_settle ⟨hP.modPort hs, fair_nil⟩

omit hP in
theorem execRunningEvaluation {c : CellNo} {i : Fin 8} (hs : P s) : Ends (Calm P) (execRunningEvaluation c i s) := by
  unfold Machine.execRunningEvaluation
  split
  · exact next hs
  · refine ends_settle ⟨hs, ?_⟩
    split <;> simp [Notice.fair]

omit hP in
theorem execTally {c : CellNo} (hs : P s) : Ends (Calm P) (execTally c s) := by
  unfold Machine.execTally
  split
  · exact next hs
  · exact ends_settle ⟨hs, by simp [Notice.fair]⟩

omit hP in
theorem execSiteMonitor {c : CellNo} {i : Fin 8} (hs : P s) : Ends (Calm P) (execSiteMonitor c i s) := by
  unfold Machine.execSiteMonitor
  split
  · exact next hs
  split
  · exact ends_settle ⟨hs, by simp [Notice.fair]⟩
  · exact next hs

omit hP in
theorem execTallyQuery (hs : P s) : Ends (Calm P) (execTallyQuery s) := by
  refine takeRequest hs fun b => ?_
  split
  · exact refuse hs
  split
  · exact refuse hs
  · exact answered hs

/-! ### The program loader -/

theorem execProgramPut (hs : P s) : Ends (Calm P) (execProgramPut s) := by
  refine takeRequest hs fun b => ?_
  extract_lets new
  split
  · exact refuse hs
  split
  next hnew =>
    split
    next room =>
      refine answered (hP.catalog ?_ (fun h => ascends_insertAsc h fun x hx he => ?_) hs)
        (fair_append.mpr ⟨fair_serviceAll, fair_allEligibility⟩)
      · rw [length_insertAsc]; exact le_max_of_le_left room
      · exact List.find?_eq_none.mp hnew x hx (beq_iff_eq.mpr he)
    next => exact refuse hs
  split
  · split
    · exact answered (hP.replaceProgram hs) fair_serviceAll
    · exact refuse hs
  · exact ends_answered (hP.revise hs)

theorem execProgramDrop (hs : P s) : Ends (Calm P) (execProgramDrop s) := by
  refine takeRequest hs fun b => ?_
  split
  · exact refuse hs
  split
  · exact refuse hs
  · refine answered (foldl hP.staleSlot (hP.catalog ?_ (fun h => h.filter _) hs)) fair_serviceAll
    exact le_max_of_le_right (List.length_filter_le _ _)

theorem execTesterClear (hs : P s) : Ends (Calm P) (execTesterClear s) := by
  refine takeRequest hs fun b => ?_
  split
  · exact refuse hs
  dsimp only
  split
  · exact refuse hs
  · refine answered (hP.reportLoad (hP.modSlot hs)) ?_
    split <;> simp [Notice.fair]

theorem execTHeadtemp {p : Port} {t : BitVec 16} (hs : P s) : Ends (Calm P) (execTHeadtemp p t s) :=
  hP.takeTester hs (hP.recalibrate (fun _ hk => ⟨hk.1, clamp_inRange t⟩) hs)

theorem execTCal {p : Port} {t : BitVec 16} (hs : P s) : Ends (Calm P) (execTCal p t s) :=
  hP.takeTester hs (hP.recalibrate (fun _ _ => ⟨clamp_inRange t, clamp_inRange t⟩) hs)

theorem execTLoaded {p : Port} {n : BitVec 16} {v : Byte} {x : BitVec 32} {y : Byte} (hs : P s) :
    Ends (Calm P) (execTLoaded p n v x y s) := by
  unfold Machine.execTLoaded
  split
  · exact hP.takeTester hs ⟨hs, fair_nil⟩
  · exact hP.takeTester hs (hP.takeLoaded hs)

theorem execTSwapped {p : Port} (hs : P s) : Ends (Calm P) (execTSwapped p s) := hP.takeTester hs (hP.takeSwapped hs)

theorem execLoadTimerExpiry {p : Port} (hs : P s) : Ends (Calm P) (execLoadTimerExpiry p s) := by
  unfold Machine.execLoadTimerExpiry
  split
  · split
    · exact ends_settle (hP.loadTimedOut hs)
    · exact next hs
  · exact next hs

theorem execSwapTimerExpiry {p : Port} (hs : P s) : Ends (Calm P) (execSwapTimerExpiry p s) := by
  unfold Machine.execSwapTimerExpiry
  split
  · exact ends_settle (hP.swapTimedOut hs)
  · exact next hs

theorem execBarred {p : Port} (hs : P s) : Ends (Calm P) (execBarred p s) := by
  unfold Machine.execBarred; dsimp only
  split
  · exact ends_settle ⟨hP.barTester hs, by simp [Notice.fair]⟩
  · exact next hs

/-! ### Products and lots -/

theorem execProductPut (hs : P s) : Ends (Calm P) (execProductPut s) := by
  refine takeRequest hs fun b => ?_
  dsimp only
  split
  next fits =>
    have warm := toProduct_inRange (Bool.and_eq_true_iff.mp fits).2
    split
    next hnew =>
      split
      next room => exact answered (hP.addProduct warm hnew room hs)
      next => exact refuse hs
    next =>
      split
      · exact refuse hs
      · exact answered (hP.replaceProduct warm hs)
  next => exact refuse hs

theorem execProductDrop (hs : P s) : Ends (Calm P) (execProductDrop s) := by
  refine takeRequest hs fun b => ?_
  split
  · exact refuse hs
  split
  · exact refuse hs
  · exact answered (hP.dropProduct hs)

omit hP in
theorem execLotQuery (hs : P s) : Ends (Calm P) (execLotQuery s) := by
  refine takeRequest hs fun b => ?_
  split
  · exact refuse hs
  · exact answered hs

omit hP in
theorem execLotQueryListing (hs : P s) : Ends (Calm P) (execLotQueryListing s) := takeRequest hs fun _ => answered hs

/-! ### Holds and groups -/

omit hP in
theorem execHoldPlace (hs : P s) : Ends (Calm P) (execHoldPlace s) := by
  refine takeRequest hs fun b => ?_
  split
  · exact refuse hs
  split
  · exact refuse hs
  split
  · exact refuse hs
  · exact answered hs (by simp [Notice.fair])

theorem execClear (hs : P s) : Ends (Calm P) (execClear s) := by
  refine takeRequest hs fun b => ?_
  split
  · exact refuse hs
  split
  · exact refuse hs
  · exact answered (hP.acceptCounts (hP.deleteHold hs)) (by simp [Notice.fair])

theorem execScrap (hs : P s) : Ends (Calm P) (execScrap s) := by
  refine takeRequest hs fun b => ?_
  dsimp only
  split
  · exact refuse hs
  split
  · exact refuse hs
  split
  · exact refuse hs
  split
  · exact refuse hs
  split
  · exact refuse hs
  · exact answered (hP.scrapUnits (hP.deleteHold hs)) (by simp [Notice.fair])

omit hP in
theorem execHoldList (hs : P s) : Ends (Calm P) (execHoldList s) := by
  refine takeRequest hs fun b => ?_
  split
  · exact refuse hs
  · exact answered hs

theorem execGroupOpen (hs : P s) : Ends (Calm P) (execGroupOpen s) := by
  refine takeRequest hs fun b => ?_
  split
  · split
    · exact refuse hs
    · exact answered (hP.modGroup hs)
  · exact refuse hs

theorem execGroupClose (hs : P s) : Ends (Calm P) (execGroupClose s) := by
  refine takeRequest hs fun b => ?_
  split
  · exact refuse hs
  split
  · exact refuse hs
  · exact answered (hP.modGroup (hP.clearGroupIds hs))

theorem execGroupAdd (hs : P s) : Ends (Calm P) (execGroupAdd s) := by
  refine takeRequest hs fun b => ?_
  repeat' split
  any_goals exact refuse hs
  · exact answered hs
  · exact answered (hP.addToGroup hs)

theorem execGroupRemove (hs : P s) : Ends (Calm P) (execGroupRemove s) := by
  refine takeRequest hs fun b => ?_
  repeat' split
  any_goals exact refuse hs
  exact answered (hP.leaveGroup hs)

omit hP in
theorem execGroupQuery (hs : P s) : Ends (Calm P) (execGroupQuery s) := by
  refine takeRequest hs fun b => ?_
  repeat' split
  · exact refuse hs
  · exact answered hs
  · exact answered hs

/-- A command that moves no lot ends in a state that meets the predicate, with fair notices. -/
theorem exec {i : Instr} (hi : movesLots i = false) (hs : P s) : Ends (Calm P) (exec i s) := by
  cases i with
  | hostFrame b => exact hP.execHostFrame hs
  | frameTruncated => exact hP.execFrameTruncated hs
  | frameSent => exact hP.execFrameSent hs
  | requestUnknownKind => exact execRequestUnknownKind hs
  | productPut => exact hP.execProductPut hs
  | productDrop => exact hP.execProductDrop hs
  | lotQuery => exact execLotQuery hs
  | lotQueryListing => exact execLotQueryListing hs
  | portCheck => exact hP.execPortCheck hs
  | portReset => exact hP.execPortReset hs
  | cellSet => exact hP.execCellSet hs
  | siteForce => exact hP.execSiteForce hs
  | cellQuery => exact execCellQuery hs
  | programPut => exact hP.execProgramPut hs
  | programDrop => exact hP.execProgramDrop hs
  | testerClear => exact hP.execTesterClear hs
  | tallyQuery => exact execTallyQuery hs
  | holdPlace => exact execHoldPlace hs
  | clear => exact hP.execClear hs
  | scrap => exact hP.execScrap hs
  | holdList => exact execHoldList hs
  | groupOpen => exact hP.execGroupOpen hs
  | groupClose => exact hP.execGroupClose hs
  | groupAdd => exact hP.execGroupAdd hs
  | groupRemove => exact hP.execGroupRemove hs
  | groupQuery => exact execGroupQuery hs
  | clockSet => exact hP.execClockSet hs
  | paramSet => exact hP.execParamSet hs
  | status => exact execStatus hs
  | secondAdvance => exact hP.execSecondAdvance hs
  | hourRollover => exact execHourRollover hs
  | presenceRise p => exact hP.execPresenceRise hs
  | presenceFall p => exact hP.execPresenceFall hs
  | lockGained p lane n => exact hP.execLockGained hs
  | lockLost p lane x b => exact hP.execLockLost hs
  | checkArmed p => exact hP.execCheckArmed hs
  | checkResult p n => exact hP.execCheckResult hs
  | checkFrame p f => exact hP.execCheckFrame hs
  | checkTimerExpiry p => exact hP.execCheckTimerExpiry hs
  | announce p m => exact hP.execAnnounce hs
  | announceTimerExpiry p => exact hP.execAnnounceTimerExpiry hs
  | badFrame p => exact hP.execBadFrame hs
  | unknownMessageKind p => exact hP.execUnknownMessageKind hs
  | hStatus p m => exact hP.execHStatus hs
  | hTemp p t => exact hP.execHTemp hs
  | hKit p kit b => exact hP.execHKit hs
  | hDock p n => exact hP.execHDock hs
  | hIndex p m => exact hP.execHIndex hs
  | hClean p m => exact hP.execHClean hs
  | hPhase p x => exact hP.execHPhase hs
  | tHeadtemp p t => exact hP.execTHeadtemp hs
  | tCal p t => exact hP.execTCal hs
  | tLoaded p n v x y => exact hP.execTLoaded hs
  | tSwapped p => exact hP.execTSwapped hs
  | resultRecord p r => exact hP.execResultRecord hs
  | resultLaneDiscard p f => exact hP.execResultLaneDiscard hs
  | soakTimerExpiry c => exact hP.execSoakTimerExpiry hs
  | staleTimerExpiry c => exact hP.execStaleTimerExpiry hs
  | withdrawTimerExpiry c => exact execWithdrawTimerExpiry hs
  | drainTimerExpiry c => exact execDrainTimerExpiry hs
  | loadTimerExpiry p => exact hP.execLoadTimerExpiry hs
  | swapTimerExpiry p => exact hP.execSwapTimerExpiry hs
  | barred p => exact hP.execBarred hs
  | runningEvaluation c i => exact execRunningEvaluation hs
  | tally c => exact execTally hs
  | siteMonitor c i => exact execSiteMonitor hs
  | _ => exact Bool.noConfusion (show true = false from hi)

end Steady
end Sys2Proof.Machine
end

