-- ==== Sys2Proof/Proofs/Robust.lean ====
section
-- In order: the check's memory bound leaves no room for a thread per proof.
set_option Elab.async false
/-! ## Predicates that every step keeps

A predicate that is `Robust` does not look at the places of the lots at all. Every operation of a taking keeps it, and so does every
step. -/

namespace Sys2Proof.Machine

/-- A steady predicate that is also kept by every change of the places, of a cell's purpose, and by every change of the lot table that
stays within its size and its order; it holds after a reset. -/
structure Robust (P : State → Prop) : Prop extends Steady P where
  places : ∀ {s : State} {q : Vector DispatchQueue 16} {v : Vector (Option Nat) 16} {w : List Nat}, P s →
    P { s with queues := q, saves := v, waitList := w }
  lots : ∀ {s : State} {x : List Lot}, x.length ≤ max Config.maxLots s.lots.length →
    ((s.lots.Pairwise fun a b => a.id < b.id) → x.Pairwise fun a b => a.id < b.id) → P s → P { s with lots := x }
  purpose : ∀ {s : State} {c : CellNo} {f : Cell → Cell},
    (∀ k, (f k).setpoint = k.setpoint ∧ (f k).temp = k.temp) → P s → P (s.modCell c f)
  reset : P State.reset

/-- A state that meets a predicate, whatever its notices. -/
def Stays (P : State → Prop) (s : State) (_ : List Notice) : Prop := P s

namespace Robust

variable {P : State → Prop} (hP : Robust P) {s : State}
include hP

/-! ### The updates -/

theorem modLot {n : Nat} {f : Lot → Lot} (hs : P s) (hf : ∀ l : Lot, (f l).id = l.id := by exact fun _ => rfl) : P (s.modLot n f) :=
  hP.lots (by simp) (fun h => ascends_map (fun l => by split <;> simp [hf]) h) hs

theorem filterLots {f : Lot → Bool} (hs : P s) : P { s with lots := s.lots.filter f } :=
  hP.lots (le_max_of_le_right (List.length_filter_le _ _)) (fun h => h.filter _) hs

theorem modQueue {c : CellNo} {f : DispatchQueue → DispatchQueue} (hs : P s) : P (s.modQueue c f) := hP.places hs

theorem setSave {c : CellNo} {x : Option Nat} (hs : P s) : P (s.setSave c x) := hP.places hs

theorem leaveWait {n : Nat} (hs : P s) : P (s.leaveWait n) := hP.places hs

theorem joinWait {n : Nat} (hs : P s) : P (s.joinWait n) := hP.trigger (hP.same (hP.places hs) rfl)

theorem moveLot {n : Nat} {d : LotState} {l : Location} {x : Option CloseSection} (hs : P s) : P (s.moveLot n d l x) := by
  unfold State.moveLot
  split
  · exact hs
  · exact hP.place (hP.modLot hs)

theorem toWaiting {n : Nat} {x : Option CloseSection} (hs : P s) : P (s.toWaiting n x) := by
  have ht : P ((s.moveLot n .waiting .absent x).joinWait n) := hP.joinWait (hP.moveLot hs)
  unfold State.toWaiting; dsimp only
  split
  · exact Steady.ite (hP.moveLot (hP.leaveWait ht)) ht
  · exact ht

theorem renumber {c : CellNo} (hs : P s) : P (s.renumber c) := by
  unfold State.renumber; dsimp only
  exact Steady.foldl hP.modLot hs

theorem insertBehind {c : CellNo} {n : Nat} (hs : P s) : P (s.insertBehind c n) := hP.renumber (hP.modQueue hs)

theorem removeBehind {c : CellNo} {n : Nat} (hs : P s) : P (s.removeBehind c n) := hP.trigger (hP.renumber (hP.modQueue hs))

/-! ### The operations -/

theorem enterDrain {c : CellNo} {x : Purpose} (hs : P s) : P (enterDrain c x s).1 := by
  unfold Machine.enterDrain
  split
  · exact hs
  · extract_lets s₁ s₂ r
    have h₁ : P s₁ := hP.purpose (fun _ => ⟨rfl, rfl⟩) hs
    have h₂ : P s₂ := hP.reportCell (hP.send h₁)
    dsimp only
    exact hP.leaveRunning h₂

theorem drainCell {c : CellNo} {x : Purpose} (hs : P s) : P (drainCell c x s).1 := by
  unfold Machine.drainCell
  repeat' split
  · exact hs
  · exact hP.enterDrain hs
  · exact hs

theorem holdEffect {n : Nat} {b : Bool} (hs : P s) : P (holdEffect n b s).1 := by
  unfold Machine.holdEffect
  repeat' split
  any_goals exact hs
  · exact hP.moveLot (hP.leaveWait hs)
  · exact hP.moveLot (hP.removeBehind hs)

theorem raiseHold {q : HoldReq} (hs : P s) : P (raiseHold q s).1 := by
  unfold Machine.raiseHold
  split
  · exact hs
  · extract_lets o s₁
    have h₁ : P s₁ := hP.storeHold (hP.withdrawAcceptance hs)
    split
    · exact hP.place h₁
    · exact hP.holdEffect (hP.place h₁)

theorem eligibilityChanged {c : CellNo} (hs : P s) : P (eligibilityChanged c s).1 := by
  unfold Machine.eligibilityChanged
  extract_lets m t
  have hm : P m.1 := hP.consultForQueue hs
  have ht : P t := Steady.ite (Steady.foldl (fun h => hP.toWaiting (hP.removeBehind h)) hm) hm
  exact hP.trigger ht

theorem clearCurrent {c : CellNo} (hs : P s) : P (clearCurrent c s) := by
  have h₁ : P (s.modQueue c fun q => { q with current := none }) := hP.modQueue hs
  exact hP.purpose (fun _ => ⟨rfl, rfl⟩) (hP.same h₁ rfl)

theorem moveOut {c : CellNo} {n : Nat} {d : LotState} {x : Option CloseSection} (hs : P s) : P (moveOut c n d x s) := by
  unfold Machine.moveOut
  split
  · exact hP.toWaiting hs
  · exact hP.moveLot (hP.setSave hs)
  · exact hP.moveLot hs

theorem leaveCell {c : CellNo} {d : LotState} {x : Option CloseSection} (hs : P s) : P (leaveCell c d x s).1 := by
  unfold Machine.leaveCell
  split
  · exact hP.trigger (hP.moveOut (hP.clearCurrent hs))
  · exact hs

theorem toEntry0 {c : CellNo} {n : Nat} {l : List Nat} (hs : P s) : P (toEntry0 c n l s) :=
  hP.renumber (hP.moveLot (hP.modQueue hs))

theorem moveUp {c : CellNo} (hs : P s) : P (moveUp c s).1 := by
  unfold Machine.moveUp
  split
  · exact hP.goIdle hs
  · exact hP.trigger (hP.toEntry0 hs)

theorem restoreLot {c : CellNo} {k : Cell} {n : Nat} (hs : P s) : P (restoreLot c k n s).1 := by
  unfold Machine.restoreLot
  split
  · exact hP.moveUp (hP.setSave hs)
  split
  · exact hP.moveUp (hP.moveLot (hP.setSave hs))
  · extract_lets m r
    have hm : P m.1 := hP.consultMargin hs
    have hr : P r.1 := hP.moveUp (hP.toWaiting (hP.setSave hm))
    split
    · exact hP.toEntry0 (hP.setSave hm)
    · exact hr

theorem emptySave {c : CellNo} (hs : P s) : P (emptySave c s) := by
  unfold Machine.emptySave
  repeat' split
  · exact hs
  · exact hP.setSave hs
  · exact hP.moveLot (hP.setSave hs)
  · exact hP.toWaiting (hP.setSave hs)

theorem fillEntry {c : CellNo} {b : Bool} (hs : P s) : P (fillEntry c b s).1 := by
  unfold Machine.fillEntry
  repeat' split
  · exact hP.moveUp hs
  · exact hP.restoreLot hs
  · exact hP.moveUp hs
  · exact hP.goIdle (hP.emptySave hs)
  · exact hs

theorem dissolveLots {c : CellNo} {b : Bool} (hs : P s) : P (dissolveLots c b s) := by
  unfold Machine.dissolveLots
  extract_lets q saved s₁ s₂
  have h₁ : P s₁ := hP.setSave (hP.modQueue hs)
  have h₂ : P s₂ := by
    show P (match q.current with | none => s₁ | some id => if b then s₁.moveLot id .held .absent else s₁.toWaiting id)
    split
    · exact h₁
    · exact Steady.ite (hP.moveLot h₁) (hP.toWaiting h₁)
  exact Steady.foldl hP.toWaiting h₂

theorem dissolveRest {c : CellNo} {x : DissolveCause} {b : Bool} (hs : P s) : P (dissolveRest c x b s).1 := by
  unfold Machine.dissolveRest
  split
  · exact hs
  · extract_lets s₁ s₂ s₃ s₄
    have h₁ : P s₁ := hP.dissolveLots hs
    clear_value s₁
    have h₂ : P s₂ := hP.reform (hP.setRequest h₁) fun _ h => by simp at h
    have h₃ : P s₃ := hP.same h₂ rfl
    dsimp only
    exact hP.trigger (hP.place h₃)

theorem dropRest {n : Nat} (hs : P s) : P (dropRest n s).1 := by
  unfold Machine.dropRest
  split
  · exact hs
  next l _ =>
    extract_lets clear s₁ s₂
    have cleared {t : State} {h : Nat} (ht : P t) : P (clear t h) := by
      show P (match t.hold? h with | none => t | some x => Machine.place _ _)
      split
      · exact ht
      · exact hP.place (hP.holds (le_max_of_le_right (List.length_filter_le _ _)) holdsAscend_filter ht)
    have h₁ : P s₁ := Steady.foldl cleared hs
    have h₂ : P s₂ := hP.leaveWait (hP.filterLots h₁)
    exact hP.resetEntrySeq (hP.place h₂)

theorem returnLot {n : Nat} (hs : P s) : P (returnLot n s) := by
  unfold Machine.returnLot
  repeat' split
  · exact hs
  · exact hs
  · exact hP.toWaiting hs
  · exact hP.moveLot hs

/-- The delivery of a notice keeps a robust predicate. -/
theorem deliver {n : Notice} (hs : P s) : P (deliver n s).1 := by
  cases n with
  | refresh c => exact hP.refreshCell hs
  | eligibility c => exact hP.eligibilityChanged hs
  | leave c d x => exact hP.leaveCell hs
  | fill c b => exact hP.fillEntry hs
  | start c => exact hP.startLot hs
  | feed c => exact hP.feedCell hs
  | drain c x => exact hP.drainCell hs
  | countsLost c => exact hP.loseCounts hs
  | preemptCheck c => exact Steady.checkPreempt hs
  | complete n => exact Steady.judgeComplete hs
  | raise q => exact hP.raiseHold hs
  | closeStep c => exact hP.closeStep hs
  | reconcile c => exact hP.reconcileStep hs
  | closeRecord c => exact hP.closeRecord hs
  | closeMove c x => exact hP.closeMove hs
  | tallyFreed => exact hP.tallyFreed hs
  | consult p => exact hP.consultMargin hs
  | testerTold p => exact hs
  | service p => exact hP.serve hs
  | judgeClaim p => exact hP.judgeClaim hs
  | retryClaims n => exact hs
  | dissolve c x => exact hP.dissolveCell hs
  | dissolveRest c x b => exact hP.dissolveRest hs
  | monitor c i => exact hP.monitorSite hs
  | evaluate c n i => exact hP.evaluateRunning hs
  | evaluated c n => exact hP.countEvaluation hs
  | tallyReport c n => exact hP.reportTally hs
  | passEnd => exact hP.endPass hs
  | dropRest n => exact hP.dropRest hs
  | disposed h d => exact hP.returnLot (hP.reportCleared hs)

theorem run {fuel : Nat} {ns : List Notice} {t : State} (hs : P s) (h : run fuel ns s = some t) : P t := by
  induction fuel generalizing ns s with
  | zero =>
    cases ns with
    | nil => cases h; exact hs
    | cons n ns => cases h
  | succ fuel ih =>
    cases ns with
    | nil => cases h; exact hs
    | cons n ns => exact ih (hP.deliver hs) h

/-! ### The commands that move lots -/

/-- What an outcome ends in meets the predicate when what its notices are delivered to does. -/
theorem of_ends {o : Host.Outcome State Fault Refusal} (h : Ends (Stays P) o) {t : State} (ht : o = .next t) : P t := by
  obtain ⟨u, ns, v, hu, hv, hst⟩ := h t ht
  exact hP.same (hP.run hu hv) hst

theorem samplePresence (hs : P s) : P (samplePresence s) := by
  unfold Machine.samplePresence
  exact Steady.foldl (fun h => Steady.ite (hP.presenceRose h) h) hs

theorem restartFloor (hs : P s) : P (restartFloor s) := by
  have stopped {t : State} {c : CellNo} (ht : P t) : P (stopFed t c) := by
    unfold stopFed
    split
    · exact ht
    · exact Steady.ite (hP.send ht) ht
  have idled {t : State} {c : CellNo} (ht : P t) : P (idleCell t c) := by
    have hf : P (t.modCell c Cell.floorReset) := hP.purpose (fun _ => ⟨rfl, rfl⟩) ht
    unfold idleCell; dsimp only
    split
    · exact ht
    · exact Steady.ite hf (hP.reportCell hf)
  have cleared {t : State} (ht : P t) : P (clearFloor t) := by
    have h₁ : P { t with lots := [] } := hP.lots (Nat.zero_le _) (fun _ => .nil) ht
    have h₂ : P { t with lots := [], tallies := [] } := hP.tallies (Nat.zero_le _) h₁
    have h₃ : P { t with lots := [], tallies := [], holds := [] } := hP.holds (Nat.zero_le _) (fun _ => ⟨.nil, nofun⟩) h₂
    have h₄ : P { t with lots := [], tallies := [], holds := [], slots := t.slots.map fun x => { x with request := none } } :=
      hP.slots (fun p hq k hk => hq k (by simpa using hk)) h₃
    exact hP.same (hP.places h₄) rfl
  unfold Machine.restartFloor
  exact Steady.foldl idled (cleared (Steady.foldl stopped hs))

theorem enterLot {l : Lot} (hnew : s.lot? l.id = none) (room : s.lots.length < Config.maxLots) (hs : P s) : P (enterLot l s) := by
  have h₁ : P { s with lots := insertAsc Lot.id l s.lots } := by
    refine hP.lots ?_ (fun h => ascends_insertAsc h fun x hx he => ?_) hs
    · rw [length_insertAsc]; exact le_max_of_le_left room
    · exact List.find?_eq_none.mp hnew x hx (beq_iff_eq.mpr he)
  exact hP.place (hP.joinWait (hP.same h₁ rfl))

theorem resort {l : Lot} (hs : P s) : P (resort l s) := by
  unfold Machine.resort
  split
  · exact hP.places hs
  · exact hP.insertBehind (hP.modQueue hs)
  · exact hs

theorem releaseGroup {g : Fin 16} (hs : P s) : P (releaseGroup g s) := by
  have released {t : State} {n : Nat} (ht : P t) : P (releaseLot t n) := by
    unfold releaseLot
    split
    · exact ht
    · exact hP.place (hP.filterLots ht)
  unfold Machine.releaseGroup
  exact hP.place (hP.resetEntrySeq (hP.modGroup (Steady.foldl released hs)))

theorem noteChanged {c : CellNo} {b : State} (hs : P s) : P (noteChanged c b s) := Steady.ite hs (hP.same hs rfl)

theorem placeLot {c : CellNo} {n : Nat} (hs : P s) : P (placeLot c n s).1 := by
  unfold Machine.placeLot
  split
  · exact hP.moveLot (hP.modQueue (hP.leaveWait hs))
  · extract_lets t m
    have ht : P t := hP.modQueue (hP.leaveWait hs)
    exact hP.noteChanged (hP.renumber (hP.moveLot ht))

theorem judgeWaiting {l : Lot} (hs : P s) : P (judgeWaiting l s).1 := by
  have consulted (cs : List CellNo) (r : Told) (hr : P r.1) : P (cs.foldl (fun r c =>
      match r.1.cell? c with
      | none => r
      | some k =>
        let m := Machine.consultMargin k.testerPort r.1
        (m.1, r.2 ++ m.2)) r).1 := by
    induction cs generalizing r with
    | nil => exact hr
    | cons c cs ih =>
      refine ih _ ?_
      dsimp only
      split
      · exact hr
      · exact hP.consultMargin hr
  unfold Machine.judgeWaiting
  extract_lets m s₁ cells
  have h₁ : P s₁ := consulted _ _ hs
  clear_value cells s₁ m
  split
  · exact hP.placeLot h₁
  split
  · split
    · split
      · exact hP.noteChanged (hP.placeLot (hP.toWaiting (hP.removeBehind h₁)))
      · exact h₁
    · exact h₁
  · exact h₁

theorem passStep (hs : P s) : P (passStep s).1 := by
  unfold Machine.passStep
  split
  · exact hs
  next n rest _ =>
    extract_lets x t
    have ht : P t := hP.same hs rfl
    clear_value t
    split
    · exact ht
    split
    · dsimp only
      exact hP.judgeWaiting ht
    · exact ht

theorem execLotEnter (hs : P s) : Ends (Stays P) (execLotEnter s) := by
  refine ends_takeRequest hs fun b => ?_
  dsimp only
  split
  · exact ends_refuse hs
  split
  · exact ends_refuse hs
  split
  · exact ends_refuse hs
  next hnew =>
    split
    · exact ends_refuse hs
    split
    · exact ends_refuse hs
    next room =>
      refine ends_answered (hP.enterLot (Option.not_isSome_iff_eq_none.mp hnew) ?_ hs)
      exact Nat.not_le.mp fun h => room (.inl h)

theorem execRetestStep (hs : P s) : Ends (Stays P) (execRetestStep s) := by
  refine ends_takeRequest hs fun b => ?_
  dsimp only
  repeat' split
  any_goals exact ends_refuse hs
  exact ends_answered (Steady.ite (hP.joinWait (hP.modLot (hP.dropTally (hP.deleteHold hs))))
    (hP.modLot (hP.dropTally (hP.deleteHold hs))))

/-- Every command ends in a state that meets the predicate. -/
theorem exec {i : Instr} (hs : P s) : Ends (Stays P) (exec i s) := by
  have freshly (x : Pins) (r : BitVec 2) {u : State} (hu : u.still = (State.fresh x r).still) : P u := hP.same hP.reset hu
  cases hi : movesLots i with
  | false =>
    intro t ht
    obtain ⟨u, ns, v, ⟨hu, -⟩, hv, hst⟩ := hP.toSteady.exec hi hs t ht
    exact ⟨u, ns, v, hu, hv, hst⟩
  | true =>
    cases i with
    | powerOn a r x =>
      unfold Machine.exec execPowerOn
      exact ends_settle (hP.samplePresence (freshly (State.reset.pins) 0 rfl))
    | restartFull a => exact ends_takeRequest hs fun b => ends_answered (hP.samplePresence (freshly (State.reset.pins) 0 rfl))
    | restartFloor =>
      refine ends_takeRequest hs fun b => ?_
      split
      · exact ends_answered (hP.restartFloor hs)
      · exact ends_refuse hs
    | lotEnter => exact hP.execLotEnter hs
    | lotPriority =>
      refine ends_takeRequest hs fun b => ?_
      split
      · exact ends_refuse hs
      split
      · exact ends_refuse hs
      split
      · exact ends_refuse hs
      split
      · exact ends_answered hs
      · exact ends_answered (hP.trigger (hP.resort (hP.modLot hs)))
    | lotDrop =>
      refine ends_takeRequest hs fun b => ?_
      repeat' split
      any_goals exact ends_refuse hs
      exact ends_answered (hP.dropTally (hP.leaveGroup hs))
    | retestStep => exact hP.execRetestStep hs
    | holdDisposeOverflow =>
      refine ends_takeRequest hs fun b => ?_
      split
      · exact ends_refuse hs
      split
      · exact ends_refuse hs
      split
      · exact ends_refuse hs
      split
      · exact ends_refuse hs
      · exact ends_answered (hP.returnLot (hP.reportCleared (hP.modLot hs)))
    | groupRelease =>
      refine ends_takeRequest hs fun b => ?_
      repeat' split
      any_goals exact ends_refuse hs
      · exact ends_answered hs
      · exact ends_answered hs
      · exact ends_answered (hP.releaseGroup hs)
    | assignmentPass =>
      unfold Machine.exec execAssignmentPass
      dsimp only
      split
      · exact ends_settle (hP.passStep hs)
      split
      · exact ends_settle (hP.passStep (hP.same hs rfl))
      · exact ends_next hs
    | hCounts p m =>
      have ended {b : Bool} {r : Told} (hr : P r.1) : Ends (Stays P) (takeHandler p b s r) := by
        unfold takeHandler takeMessage
        repeat' split
        · exact ends_next hs
        · exact ends_settle hr
        · exact ends_settle (hP.countIgnored hs)
      unfold Machine.exec execHCounts
      dsimp only
      split
      · exact ended hs
      · refine ended ?_
        unfold forCell
        split
        · exact hP.takeCounts hs
        · exact hP.countIgnored hs
    | _ => exact Bool.noConfusion (show false = true from hi)

/-- Every step keeps a robust predicate. -/
theorem step {t : State} (hs : P s) (h : step s = .next t) : P t := by
  unfold Machine.step at h
  split at h
  · cases h
    have sent {r : PortRec} : (laneSends r).data = r.data := by
      unfold laneSends
      repeat' split
      all_goals rfl
    exact hP.ports (fun p hd d h => hd d (by simpa [sent] using h)) hs
  next c rest hp =>
    have hr : P { s with pending := rest } := hP.same hs rfl
    exact hP.of_ends (hP.exec hr) h

end Robust
end Sys2Proof.Machine
end

