-- ==== Sys2Proof/Proofs/Tables.lean ====
section
-- In order: the check's memory bound leaves no room for a thread per proof.
set_option Elab.async false
/-! ## The tables and the temperatures -/

namespace Sys2Proof.Machine

/-! ### What `State.still` shows -/

section
variable {s t : State}

theorem still_products (h : t.still = s.still) : t.products = s.products := (congrArg State.products h :)
theorem still_lots (h : t.still = s.still) : t.lots = s.lots := (congrArg State.lots h :)
theorem still_ports (h : t.still = s.still) : t.ports = s.ports := (congrArg State.ports h :)
theorem still_cells (h : t.still = s.still) : t.cells = s.cells := (congrArg State.cells h :)
theorem still_queues (h : t.still = s.still) : t.queues = s.queues := (congrArg State.queues h :)
theorem still_saves (h : t.still = s.still) : t.saves = s.saves := (congrArg State.saves h :)
theorem still_waitList (h : t.still = s.still) : t.waitList = s.waitList := (congrArg State.waitList h :)
theorem still_catalog (h : t.still = s.still) : t.catalog = s.catalog := (congrArg State.catalog h :)
theorem still_slots (h : t.still = s.still) : t.slots = s.slots := (congrArg State.slots h :)
theorem still_tallies (h : t.still = s.still) : t.tallies = s.tallies := (congrArg State.tallies h :)
theorem still_holds (h : t.still = s.still) : t.holds = s.holds := (congrArg State.holds h :)

end

/-! ### After a reset -/

theorem reset_cell (c : CellNo) : State.reset.cell? c = none := by simp [State.reset, State.fresh, State.cell?]
theorem reset_queue (c : CellNo) : State.reset.queues[c] = {} := by simp [State.reset, State.fresh]
theorem reset_save (c : CellNo) : State.reset.saves[c] = none := by simp [State.reset, State.fresh]
theorem reset_slot (p : Port) : State.reset.slots[p] = {} := by simp [State.reset, State.fresh]
theorem reset_port (p : Port) : State.reset.ports[p] = {} := by simp [State.reset, State.fresh, PortRec.reset]

theorem reset_tablesBounded : State.reset.tablesBounded := by
  simp [State.tablesBounded, State.reset, State.fresh]

theorem reset_tablesSorted : State.reset.tablesSorted := by simp [State.tablesSorted, State.reset, State.fresh]

theorem reset_temperaturesInRange : State.reset.temperaturesInRange := by
  refine ⟨by simp [State.reset, State.fresh], fun c k _ h => ?_, fun p k h => ?_, fun p d h => ?_⟩
  · rw [reset_cell] at h; cases h
  · rw [reset_slot] at h; cases h
  · rw [reset_port] at h; cases h

theorem reset_placesAgree : State.reset.placesAgree := by
  refine ⟨by simp [State.reset, State.fresh], by simp [State.reset, State.fresh], by simp [State.reset, State.fresh],
    fun c _ h => ?_, fun c n _ h => ?_, fun c _ h => ?_⟩
  · rw [reset_queue] at h; cases h
  · rw [reset_queue] at h; cases h
  · rw [reset_save] at h; cases h

theorem reset_inKeyOrder : State.reset.inKeyOrder :=
  ⟨by simp [State.waitSorted, State.reset, State.fresh], fun c => by rw [reset_queue]; exact .nil⟩

theorem reset_savesFree : State.reset.savesFree := fun c _ h => by rw [reset_cell] at h; cases h

/-! ### The sizes of the tables -/

theorem tablesBounded_of_le {s t : State} (h : s.tablesBounded)
    (hp : t.products.length ≤ max Config.maxProducts s.products.length := by exact Nat.le_max_right _ _)
    (hl : t.lots.length ≤ max Config.maxLots s.lots.length := by exact Nat.le_max_right _ _)
    (hc : t.catalog.length ≤ max Config.maxPrograms s.catalog.length := by exact Nat.le_max_right _ _)
    (ht : t.tallies.length ≤ max Config.maxTallies s.tallies.length := by exact Nat.le_max_right _ _)
    (hh : t.holds.length ≤ max Config.maxHolds s.holds.length := by exact Nat.le_max_right _ _) : t.tablesBounded := by
  obtain ⟨bp, bl, bc, bt, bh⟩ := h
  rw [max_eq_left ‹_›] at hp hl hc ht hh
  exact ⟨hp, hl, hc, ht, hh⟩

theorem robust_tablesBounded : Robust State.tablesBounded where
  same h hst := by
    unfold State.tablesBounded
    rw [still_products hst, still_lots hst, still_catalog hst, still_tallies hst, still_holds hst]
    exact h
  cellRec _ h := h
  slots _ h := h
  ports _ h := h
  lot _ h := tablesBounded_of_le h (hl := by simp [State.modLot])
  tallies hx h := tablesBounded_of_le h (ht := hx)
  holds hx _ h := tablesBounded_of_le h (hh := hx)
  catalog hx _ h := tablesBounded_of_le h (hc := hx)
  products hx _ _ h := tablesBounded_of_le h (hp := hx)
  places h := h
  lots hx _ h := tablesBounded_of_le h (hl := hx)
  purpose _ h := h
  reset := reset_tablesBounded

/-! ### The order of the tables -/

theorem robust_tablesSorted : Robust State.tablesSorted where
  same h hst := by
    unfold State.tablesSorted
    rw [still_products hst, still_lots hst, still_catalog hst, still_holds hst]
    exact h
  cellRec _ h := h
  slots _ h := h
  ports _ h := h
  lot hf h := by
    obtain ⟨hp, hl, hc, hh⟩ := h
    refine ⟨hp, ascends_map (fun l => ?_) hl, hc, hh⟩
    split
    · exact (hf l).1
    · rfl
  tallies _ h := h
  holds _ hx h := by
    obtain ⟨hp, hl, hc, hh⟩ := h
    exact ⟨hp, hl, hc, hx hh⟩
  catalog _ hx h := by
    obtain ⟨hp, hl, hc, hh⟩ := h
    exact ⟨hp, hl, hx hc, hh⟩
  products _ hx _ h := by
    obtain ⟨hp, hl, hc, hh⟩ := h
    exact ⟨hx hp, hl, hc, hh⟩
  places h := h
  lots _ hx h := by
    obtain ⟨hp, hl, hc, hh⟩ := h
    exact ⟨hp, hx hl, hc, hh⟩
  purpose _ h := h
  reset := reset_tablesSorted

/-! ### The temperatures -/

theorem modCellRec_other {s : State} {c d : CellNo} (h : d ≠ c) (f : CellRec → CellRec) : (s.modCellRec c f).cell? d = s.cell? d := by
  have : c.val ≠ d.val := fun e => h (Fin.ext e.symm)
  simp [State.modCellRec, State.cell?, this]

theorem modCellRec_cell (s : State) (c : CellNo) (f : CellRec → CellRec) : (s.modCellRec c f).cell? c = (f s.cells[c]).formed := by
  simp [State.modCellRec, State.cell?]

theorem robust_temperaturesInRange : Robust State.temperaturesInRange where
  same h hst := by
    unfold State.temperaturesInRange State.cell?
    rw [still_products hst, still_cells hst, still_slots hst, still_ports hst]
    exact h
  cellRec {s c f} hf h := by
    obtain ⟨hg, hk, hq, hd⟩ := h
    refine ⟨hg, fun d k v hd hv => ?_, hq, hd⟩
    by_cases he : d = c
    · subst he
      rw [modCellRec_cell] at hd
      rcases (hf k hd).2 v hv with hr | ⟨k₀, h₀, hr⟩ | ⟨g, hgm, x, hx, rfl⟩
      · exact hr
      · exact hk d k₀ v h₀ hr
      · exact hg g hgm x hx
    · exact hk d k v (modCellRec_other he f ▸ hd) hv
  slots hx h := by
    obtain ⟨hg, hk, hq, hd⟩ := h
    exact ⟨hg, hk, fun p k hc => hx p (fun k hk => hq p k hk) k hc, hd⟩
  ports hx h := by
    obtain ⟨hg, hk, hq, hd⟩ := h
    exact ⟨hg, hk, hq, fun p d hc => hx p (fun d hp => hd p d hp) d hc⟩
  lot _ h := h
  tallies _ h := h
  holds _ _ h := h
  catalog _ _ h := h
  products _ _ hx h := by
    obtain ⟨hg, hk, hq, hd⟩ := h
    refine ⟨fun g hgx => ?_, hk, hq, hd⟩
    rcases hx g hgx with hold | hnew
    · exact hg g hold
    · exact hnew
  places h := h
  lots _ _ h := h
  purpose {s c f} hf h := by
    obtain ⟨hg, hk, hq, hd⟩ := h
    refine ⟨hg, fun d k v hd hv => ?_, hq, hd⟩
    by_cases he : d = c
    · subst he
      obtain ⟨k₀, h₀, rfl⟩ := Option.map_eq_some_iff.mp (modCell_cell s d f ▸ hd)
      rw [(hf k₀).1, (hf k₀).2] at hv
      exact hk d k₀ v h₀ hv
    · exact hk d k v (modCell_other s he f ▸ hd) hv
  reset := reset_temperaturesInRange

end Sys2Proof.Machine

section
open Sys2Proof.Machine

/-- Settles O4: the sizes of the tables are a robust predicate. -/
theorem tableBoundsKept : Obligations.TableBoundsKept := fun _ _ hs h => robust_tablesBounded.step hs h

/-- Settles O5: the order of the tables is a robust predicate. -/
theorem tablesStaySorted : Obligations.TablesStaySorted := fun _ _ hs h => robust_tablesSorted.step hs h

/-- Settles O6: the range of the temperatures is a robust predicate. -/
theorem temperaturesStayInRange : Obligations.TemperaturesStayInRange := fun _ _ hs h => robust_temperaturesInRange.step hs h

/-- Settles O7. -/
theorem resetState : Obligations.ResetState := by
  refine ⟨?_, ?_, reset_tablesBounded, reset_tablesSorted, reset_temperaturesInRange, reset_placesAgree, reset_inKeyOrder,
    reset_savesFree, rfl, rfl, rfl, rfl, rfl, rfl, rfl, rfl, rfl, rfl, rfl, rfl, rfl, fun p => ⟨reset_port p, ?_, ?_⟩,
    fun c => ⟨?_, reset_queue c, reset_save c⟩, fun g => ?_⟩
  · simp [State.linkBounded, State.reset, State.fresh, pendingRequests, busyReplies]
  · simp [State.clockBounded, State.reset, State.fresh, Sys2Proof.Config.wrap32]
  all_goals simp [State.reset, State.fresh]

end
end

