-- ==== Sys2Proof/Proofs/Places.lean ====
section
-- In order: the check's memory bound leaves no room for a thread per proof.
set_option Elab.async false
/-! ## The places of the lots

While an operation moves a lot, the lot is for a moment in no place. `Loose F X s` says that every lot but those of `X` stands in the
place its record names, that the lists name no lot of `X`, and that the lots of `F` stand in no queue and no save context. With `X`
empty it is the agreement of R8 with the orders of R62 and R63. -/

namespace Sys2Proof.Machine

/-- The state and the location that the lists of a state give a lot. -/
inductive Listed (s : State) : Nat → LotState → Location → Prop
  | wait {id : Nat} (h : id ∈ s.waitList) : Listed s id .waiting .absent
  | current {c : CellNo} {id : Nat} (h : s.queues[c].current = some id) : Listed s id .active (.queue c 0)
  | behind {c : CellNo} {n id : Nat} (h : s.queues[c].behind[n]? = some id) : Listed s id .queued (.queue c (n + 1))
  | saved {c : CellNo} {id : Nat} (h : s.saves[c] = some id) : Listed s id .saved (.save c)

/-- A lot stands in no list. -/
def restsAt (st : LotState) (loc : Location) : Prop := (st = .held ∨ st = .complete) ∧ loc = .absent

/-- A state of a lot in no queue and no save context. -/
def freeState (st : LotState) : Prop := st = .waiting ∨ st = .held ∨ st = .complete

/-- The lots that a queue names, entry 0 first. -/
def DispatchQueue.entries (q : DispatchQueue) : List Nat := q.current.toList ++ q.behind

/-- A lot stands in the table. -/
def State.inTable (s : State) (id : Nat) : Prop := ∃ st loc, s.holdsLot id st loc

/-- A list that the wait key orders names a lot. -/
def State.keyed (s : State) (id : Nat) : Prop := id ∈ s.waitList ∨ ∃ c : CellNo, id ∈ s.queues[c].behind

structure Loose (F X : List Nat) (s : State) : Prop where
  stands : ∀ {id st loc}, s.holdsLot id st loc → id ∉ X → Listed s id st loc ∨ restsAt st loc
  listed : ∀ {id st loc}, Listed s id st loc → id ∉ X ∧ s.holdsLot id st loc
  nodup : s.waitList.Nodup
  keys : s.inKeyOrder
  saves : s.savesFree
  free : ∀ {id st loc}, id ∈ F → s.holdsLot id st loc → freeState st

/-! ### Records of lots -/

section
variable {s t : State} {F X Y : List Nat} {id : Nat} {st st' : LotState} {loc loc' : Location}

theorem holdsLot_unique (h : s.holdsLot id st loc) (h' : s.holdsLot id st' loc') : st = st' ∧ loc = loc' := by
  obtain ⟨l, hl, rfl, rfl⟩ := h
  obtain ⟨l', hl', rfl, rfl⟩ := h'
  cases hl.symm.trans hl'
  exact ⟨rfl, rfl⟩

theorem inTable_iff : s.inTable id ↔ (s.lot? id).isSome := by
  rw [Option.isSome_iff_exists]
  exact ⟨fun ⟨_, _, l, h, _⟩ => ⟨l, h⟩, fun ⟨l, h⟩ => ⟨_, _, l, h, rfl, rfl⟩⟩

theorem holdsLot_of_lots (h : t.lots = s.lots) : t.holdsLot id st loc ↔ s.holdsLot id st loc := by
  unfold State.holdsLot State.lot?; rw [h]

theorem waitKeyOf_of_lots (h : t.lots = s.lots) : t.waitKeyOf id = s.waitKeyOf id := by
  unfold State.waitKeyOf State.lot?; rw [h]

/-- A change of a lot's record seen from every lot. -/
theorem holdsLot_modLot {n : Nat} {f : Lot → Lot} (hf : ∀ l, (f l).id = l.id) :
    (s.modLot n f).holdsLot id st loc ↔
      if id = n then ∃ l, s.lot? n = some l ∧ (f l).state = st ∧ (f l).location = loc else s.holdsLot id st loc := by
  unfold State.holdsLot
  rw [modLot_lot s hf]
  split
  next h => subst h; simp
  next h => simp

theorem waitKeyOf_modLot {n : Nat} {f : Lot → Lot} (hf : ∀ l, (f l).id = l.id) (h : id ≠ n) :
    (s.modLot n f).waitKeyOf id = s.waitKeyOf id := by
  unfold State.waitKeyOf
  rw [modLot_lot s hf]
  simp [h]

/-- A change of a lot's record that leaves its state and its location moves no lot. -/
theorem holdsLot_samePlace {n : Nat} {f : Lot → Lot}
    (hf : ∀ l : Lot, (f l).id = l.id ∧ (f l).state = l.state ∧ (f l).location = l.location) :
    (s.modLot n f).holdsLot id st loc ↔ s.holdsLot id st loc := by
  rw [holdsLot_modLot fun l => (hf l).1]
  split
  next h =>
    subst h
    refine exists_congr fun l => and_congr_right fun _ => ?_
    rw [(hf l).2.1, (hf l).2.2]
  next => rfl

theorem holdsLot_sameStand {n : Nat} {f : Lot → Lot} (hf : ∀ l, sameStand l (f l)) :
    (s.modLot n f).holdsLot id st loc ↔ s.holdsLot id st loc :=
  holdsLot_samePlace fun l => by
    obtain ⟨hid, hst, hloc, -, -⟩ := hf l
    exact ⟨hid, hst, hloc⟩

theorem waitKeyOf_sameKey {n : Nat} {f : Lot → Lot} (hf : ∀ l : Lot, (f l).id = l.id ∧ (f l).priority = l.priority ∧ (f l).seq = l.seq) :
    (s.modLot n f).waitKeyOf id = s.waitKeyOf id := by
  have hkey (l : Lot) : (if id = n then f l else l).waitKey = l.waitKey := by
    split
    · unfold Lot.waitKey; rw [(hf l).2.1, (hf l).2.2]
    · rfl
  unfold State.waitKeyOf
  rw [modLot_lot s fun l => (hf l).1]
  simp [Function.comp_def, hkey]

/-! ### The predicate -/

/-- The wait key orders shorter lists as well, and lists whose lots have kept their keys. -/
theorem inKeyOrder_of_sublist (h : s.inKeyOrder) (hw : t.waitList.Sublist s.waitList)
    (hb : ∀ c : CellNo, t.queues[c].behind.Sublist s.queues[c].behind) (hk : ∀ id, t.keyed id → t.waitKeyOf id = s.waitKeyOf id) :
    t.inKeyOrder := by
  refine ⟨(h.1.sublist hw).imp_of_mem fun ha hb hab => ?_, fun c => ((h.2 c).sublist (hb c)).imp_of_mem fun ha hb hab => ?_⟩
  · rw [hk _ (.inl ha), hk _ (.inl hb)]; exact hab
  · rw [hk _ (.inr ⟨c, ha⟩), hk _ (.inr ⟨c, hb⟩)]; exact hab

theorem listed_congr (hw : t.waitList = s.waitList) (hq : t.queues = s.queues) (hv : t.saves = s.saves) :
    Listed t id st loc ↔ Listed s id st loc := by
  constructor
  · rintro (h | h | h | h)
    · exact .wait (hw ▸ h)
    · exact .current (hq ▸ h)
    · exact .behind (hq ▸ h)
    · exact .saved (hv ▸ h)
  · rintro (h | h | h | h)
    · exact .wait (hw ▸ h)
    · exact .current (hq ▸ h)
    · exact .behind (hq ▸ h)
    · exact .saved (hv ▸ h)

namespace Loose

/-- What the predicate looks at. -/
theorem congr (h : Loose F X s) (hl : ∀ {id st loc}, t.holdsLot id st loc ↔ s.holdsLot id st loc)
    (hk : ∀ id, s.keyed id → t.waitKeyOf id = s.waitKeyOf id) (hw : t.waitList = s.waitList) (hq : t.queues = s.queues)
    (hv : t.saves = s.saves) (hc : t.savesFree) : Loose F X t where
  stands ht hX := (h.stands (hl.mp ht) hX).imp_left (listed_congr hw hq hv).mpr
  listed ht := (h.listed ((listed_congr hw hq hv).mp ht)).imp_right hl.mpr
  nodup := hw ▸ h.nodup
  keys := inKeyOrder_of_sublist h.keys (hw ▸ .refl _) (fun c => by rw [hq]) fun id hid =>
    hk id (by unfold State.keyed at hid ⊢; rwa [hw, hq] at hid)
  saves := hc
  free hF ht := h.free hF (hl.mp ht)

theorem congr_hands (h : Loose F X s) (hXY : ∀ a, a ∈ X ↔ a ∈ Y) : Loose F Y s where
  stands ht hY := h.stands ht fun hX => hY ((hXY _).mp hX)
  listed ht := (h.listed ht).imp_left fun hX hY => hX ((hXY _).mpr hY)
  nodup := h.nodup
  keys := h.keys
  saves := h.saves
  free := h.free

theorem unwatch (h : Loose F X s) : Loose [] X s where
  stands := h.stands
  listed := h.listed
  nodup := h.nodup
  keys := h.keys
  saves := h.saves
  free hF _ := nomatch hF

/-- The lists give a lot one place. -/
theorem listed_unique (h : Loose F X s) (h₁ : Listed s id st loc) (h₂ : Listed s id st' loc') : st = st' ∧ loc = loc' :=
  holdsLot_unique (h.listed h₁).2 (h.listed h₂).2

theorem not_listed (h : Loose F X s) (hX : id ∈ X) : ¬ Listed s id st loc := fun hl => (h.listed hl).1 hX

/-- Lots that the lists no longer name are in hand. -/
theorem takeOut (h : Loose F X s) (hl : t.lots = s.lots) (hin : ∀ {a st loc}, Listed t a st loc → Listed s a st loc ∧ a ∉ Y)
    (hout : ∀ {a st loc}, Listed s a st loc → a ∉ Y → Listed t a st loc) (hw : t.waitList.Sublist s.waitList)
    (hb : ∀ c : CellNo, t.queues[c].behind.Sublist s.queues[c].behind) (hc : t.savesFree) : Loose F (Y ++ X) t where
  stands ht hX := by
    rw [List.mem_append, not_or] at hX
    exact (h.stands ((holdsLot_of_lots hl).mp ht) hX.2).imp_left fun hs => hout hs hX.1
  listed ht := by
    obtain ⟨hs, hY⟩ := hin ht
    obtain ⟨hX, hh⟩ := h.listed hs
    exact ⟨by simp [hX, hY], (holdsLot_of_lots hl).mpr hh⟩
  nodup := h.nodup.sublist hw
  keys := inKeyOrder_of_sublist h.keys hw hb fun _ _ => waitKeyOf_of_lots hl
  saves := hc
  free hF ht := h.free hF ((holdsLot_of_lots hl).mp ht)

theorem savesFree_of (h : Loose F X s) (hc : ∀ c, t.cell? c = s.cell? c) (hv : ∀ c : CellNo, t.saves[c] = s.saves[c] ∨ t.saves[c] = none) :
    t.savesFree := by
  intro c k hk hp
  rcases hv c with hv | hv
  · rw [hv]; exact h.saves c k (hc c ▸ hk) hp
  · exact hv

/-- A change of a cell record that begins no drain for preemption, or one where the save context is empty. -/
theorem modCellRec {c : CellNo} {f : CellRec → CellRec} (h : Loose F X s)
    (hf : ∀ k, (f s.cells[c]).formed = some k → k.purpose = some .preempt → s.saves[c] = none) : Loose F X (s.modCellRec c f) := by
  refine h.congr Iff.rfl (fun _ _ => rfl) rfl rfl rfl fun d k hd hp => ?_
  by_cases he : d = c
  · subst he; exact hf k (modCellRec_cell s d f ▸ hd) hp
  · exact h.saves d k (modCellRec_other he f ▸ hd) hp

end Loose

/-- Every change that moves no lot keeps the agreement. -/
theorem steady_loose (F X : List Nat) : Steady (Loose F X) where
  same {s t} h hst := h.congr (holdsLot_of_lots (still_lots hst)) (fun _ _ => waitKeyOf_of_lots (still_lots hst))
    (still_waitList hst) (still_queues hst) (still_saves hst)
    (h.savesFree_of (fun c => by unfold State.cell?; rw [still_cells hst]) fun c => .inl (by rw [still_saves hst]))
  cellRec hf h := h.modCellRec fun k hk hp => by
    obtain ⟨k₀, h₀, hp₀⟩ := (hf k hk).1 hp
    exact h.saves _ k₀ h₀ hp₀
  slots _ h := h.congr Iff.rfl (fun _ _ => rfl) rfl rfl rfl h.saves
  ports _ h := h.congr Iff.rfl (fun _ _ => rfl) rfl rfl rfl h.saves
  lot hf h := h.congr (holdsLot_sameStand hf) (fun _ _ => waitKeyOf_sameKey fun l => ⟨(hf l).1, (hf l).2.2.2⟩) rfl rfl rfl h.saves
  tallies _ h := h.congr Iff.rfl (fun _ _ => rfl) rfl rfl rfl h.saves
  holds _ _ h := h.congr Iff.rfl (fun _ _ => rfl) rfl rfl rfl h.saves
  catalog _ _ h := h.congr Iff.rfl (fun _ _ => rfl) rfl rfl rfl h.saves
  products _ _ _ h := h.congr Iff.rfl (fun _ _ => rfl) rfl rfl rfl h.saves

/-- A lot keeps its place under every change that moves none. -/
def StandsAt (id : Nat) (st : LotState) (loc : Location) (s : State) : Prop := s.holdsLot id st loc

theorem steady_standsAt (id : Nat) (st : LotState) (loc : Location) : Steady (StandsAt id st loc) where
  same h hst := (holdsLot_of_lots (still_lots hst)).mpr h
  cellRec _ h := h
  slots _ h := h
  ports _ h := h
  lot hf h := (holdsLot_sameStand hf).mpr h
  tallies _ h := h
  holds _ _ h := h
  catalog _ _ h := h
  products _ _ _ h := h

/-- The queues, the save contexts and the wait list of a state. -/
def PlacesAre (q : Vector DispatchQueue 16) (v : Vector (Option Nat) 16) (w : List Nat) (s : State) : Prop :=
  s.queues = q ∧ s.saves = v ∧ s.waitList = w

theorem steady_placesAre (q : Vector DispatchQueue 16) (v : Vector (Option Nat) 16) (w : List Nat) : Steady (PlacesAre q v w) where
  same h hst := ⟨(still_queues hst).trans h.1, (still_saves hst).trans h.2.1, (still_waitList hst).trans h.2.2⟩
  cellRec _ h := h
  slots _ h := h
  ports _ h := h
  lot _ h := h
  tallies _ h := h
  holds _ _ h := h
  catalog _ _ h := h
  products _ _ _ h := h

/-! ### The agreement of the model -/

theorem mem_lots_iff (h : s.lots.Pairwise fun a b => a.id < b.id) {l : Lot} : l ∈ s.lots ↔ s.lot? l.id = some l := by
  refine ⟨fun hl => ?_, List.mem_of_find?_eq_some⟩
  have ids : (s.lots.map Lot.id).Nodup := List.pairwise_map.mpr (h.imp fun hab => ne_of_lt hab)
  have hsome : (s.lot? l.id).isSome := List.find?_isSome.mpr ⟨l, hl, by simp⟩
  obtain ⟨m, hm⟩ := Option.isSome_iff_exists.mp hsome
  have hid : m.id = l.id := by simpa using List.find?_some hm
  rw [hm, List.inj_on_of_nodup_map ids (List.mem_of_find?_eq_some hm) hl hid]

/-- R8: a lot stands where its record says when the lists give it that place, or when it rests. -/
theorem stands_iff {l : Lot} : s.stands l ↔ Listed s l.id l.state l.location ∨ restsAt l.state l.location := by
  obtain ⟨id, _, _, _, _, _, st, _, _, _, _, loc, _, _, _⟩ := l
  constructor
  · intro h
    cases st with
    | waiting => obtain ⟨rfl, h⟩ := h; exact .inl (.wait h)
    | queued => obtain ⟨c, n, rfl, h⟩ := h; exact .inl (.behind h)
    | active => obtain ⟨c, rfl, h⟩ := h; exact .inl (.current h)
    | saved => obtain ⟨c, rfl, h⟩ := h; exact .inl (.saved h)
    | held => exact .inr ⟨.inl rfl, h⟩
    | complete => exact .inr ⟨.inr rfl, h⟩
  · rintro (h | ⟨h, hloc⟩)
    · cases h with
      | wait h => exact ⟨rfl, h⟩
      | current h => exact ⟨_, rfl, h⟩
      | behind h => exact ⟨_, _, rfl, h⟩
      | saved h => exact ⟨_, rfl, h⟩
    · rcases h with h | h <;> (dsimp only at h hloc; subst h hloc; rfl)

theorem loose_iff (h : s.lots.Pairwise fun a b => a.id < b.id) : Loose [] [] s ↔ s.placesAgree ∧ s.inKeyOrder ∧ s.savesFree := by
  constructor
  · intro hs
    refine ⟨⟨fun l hl => ?_, hs.nodup, fun a ha => (hs.listed (.wait ha)).2, fun c a ha => (hs.listed (.current ha)).2,
      fun c n a ha => (hs.listed (.behind ha)).2, fun c a ha => (hs.listed (.saved ha)).2⟩, hs.keys, hs.saves⟩
    exact stands_iff.mpr (hs.stands ⟨l, (mem_lots_iff h).mp hl, rfl, rfl⟩ List.not_mem_nil)
  · rintro ⟨⟨hstands, hnodup, hwait, hcurrent, hbehind, hsaved⟩, hkeys, hsaves⟩
    refine ⟨?_, ?_, hnodup, hkeys, hsaves, nofun⟩
    · rintro a _ _ ⟨l, hl, rfl, rfl⟩ -
      have hid : l.id = a := by simpa using List.find?_some hl
      exact hid ▸ stands_iff.mp (hstands l (List.mem_of_find?_eq_some hl))
    · rintro a _ _ (ha | ha | ha | ha)
      · exact ⟨List.not_mem_nil, hwait _ ha⟩
      · exact ⟨List.not_mem_nil, hcurrent _ _ ha⟩
      · exact ⟨List.not_mem_nil, hbehind _ _ _ ha⟩
      · exact ⟨List.not_mem_nil, hsaved _ _ ha⟩

end
end Sys2Proof.Machine
end

