-- ==== Sys2Proof/Proofs/PlaceOps.lean ====
section
-- In order: the check's memory bound leaves no room for a thread per proof.
set_option Elab.async false
/-! ## How the places change

One rule for each thing an operation does with the place of a lot: it is taken out of a list, moved while it is in hand, and put into
another. -/

namespace Sys2Proof.Machine

section
variable {s t : State} {F X Y : List Nat} {id : Nat} {st : LotState} {loc : Location}

/-! ### Moves of a record -/

section
variable (s) (n : Nat) (d : LotState) (l : Location) (x : Option CloseSection)

theorem moveLot_eq : s.moveLot n d l x = { s with
    lots := (s.moveLot n d l x).lots, reports := (s.moveLot n d l x).reports, dropped := (s.moveLot n d l x).dropped } := by
  unfold State.moveLot
  split
  · rfl
  · unfold place; split <;> rfl

@[simp] theorem moveLot_waitList : (s.moveLot n d l x).waitList = s.waitList := by rw [moveLot_eq]
@[simp] theorem moveLot_queues : (s.moveLot n d l x).queues = s.queues := by rw [moveLot_eq]
@[simp] theorem moveLot_saves : (s.moveLot n d l x).saves = s.saves := by rw [moveLot_eq]
@[simp] theorem moveLot_cells : (s.moveLot n d l x).cells = s.cells := by rw [moveLot_eq]

/-- R9: the record of a lot after a move. -/
theorem moveLot_lot (m : Nat) :
    (s.moveLot n d l x).lot? m = (s.lot? m).map fun r => if m = n then { r with state := d, location := l } else r := by
  unfold State.moveLot
  split
  next h =>
    by_cases hm : m = n
    · subst hm; simp [h]
    · simp [hm]
  next h =>
    have hlots (r : Report) (u : State) : (place r u).lot? m = u.lot? m := by unfold place; split <;> rfl
    exact (hlots ..).trans (modLot_lot s (f := fun r => { r with state := d, location := l }) (fun _ => rfl) m)

end

theorem holdsLot_moveLot {n : Nat} {d : LotState} {l : Location} {x : Option CloseSection} :
    (s.moveLot n d l x).holdsLot id st loc ↔ if id = n then s.inTable n ∧ d = st ∧ l = loc else s.holdsLot id st loc := by
  rw [inTable_iff]
  unfold State.holdsLot
  rw [moveLot_lot]
  split
  next h =>
    subst h
    rcases s.lot? id with _ | r <;> simp
  next h => simp

theorem holdsLot_moveLot_self {d : LotState} {l : Location} {x : Option CloseSection} (h : s.inTable id) :
    (s.moveLot id d l x).holdsLot id d l := holdsLot_moveLot.mpr (by simp [h])

theorem inTable_moveLot {n : Nat} {d : LotState} {l : Location} {x : Option CloseSection} :
    (s.moveLot n d l x).inTable id ↔ s.inTable id := by simp [inTable_iff, moveLot_lot]

theorem waitKeyOf_moveLot {n : Nat} {d : LotState} {l : Location} {x : Option CloseSection} :
    (s.moveLot n d l x).waitKeyOf id = s.waitKeyOf id := by
  have hkey (r : Lot) : (if id = n then { r with state := d, location := l } else r).waitKey = r.waitKey := by split <;> rfl
  unfold State.waitKeyOf
  rw [moveLot_lot]
  simp [Function.comp_def, hkey]

namespace Loose

/-! ### Lots in hand -/

/-- The record of a lot in hand may change. -/
theorem inHand (h : Loose F X s) (hid : id ∈ X) (hl : ∀ {a st loc}, a ≠ id → (t.holdsLot a st loc ↔ s.holdsLot a st loc))
    (hk : ∀ a, a ≠ id → t.waitKeyOf a = s.waitKeyOf a) (hw : t.waitList = s.waitList) (hq : t.queues = s.queues)
    (hv : t.saves = s.saves) (hc : t.savesFree) (hF : id ∈ F → ∀ {st loc}, t.holdsLot id st loc → freeState st) : Loose F X t where
  stands {a} {_} {_} ht hX := by
    have ha : a ≠ id := fun e => hX (e ▸ hid)
    exact (h.stands ((hl ha).mp ht) hX).imp_left (listed_congr hw hq hv).mpr
  listed {a} {_} {_} ht := by
    obtain ⟨hX, hs⟩ := h.listed ((listed_congr hw hq hv).mp ht)
    exact ⟨hX, (hl (by rintro rfl; exact hX hid)).mpr hs⟩
  nodup := hw ▸ h.nodup
  keys := inKeyOrder_of_sublist h.keys (hw ▸ .refl _) (fun c => by rw [hq]) fun a ha => hk a fun e => by
    rcases ha with ha | ⟨c, ha⟩
    · exact (h.listed (.wait (hw ▸ ha))).1 (e ▸ hid)
    · obtain ⟨n, hn⟩ := List.mem_iff_getElem?.mp ha
      exact (h.listed (.behind (hq ▸ hn))).1 (e ▸ hid)
  saves := hc
  free {a} {_} {_} ha ht := by
    by_cases he : a = id
    · exact hF (he ▸ ha) (he ▸ ht)
    · exact h.free ha ((hl he).mp ht)

theorem moveLot {d : LotState} {l : Location} {x : Option CloseSection} (h : Loose F X s) (hid : id ∈ X)
    (hF : id ∈ F → freeState d) : Loose F X (s.moveLot id d l x) := by
  refine h.inHand hid (fun ha => by rw [holdsLot_moveLot, if_neg ha]) (fun a _ => waitKeyOf_moveLot) (moveLot_waitList ..)
    (moveLot_queues ..) (moveLot_saves ..) (h.savesFree_of (fun c => ?_) fun c => .inl ?_) fun hm _ _ ht => ?_
  · unfold State.cell?; rw [moveLot_cells]
  · rw [moveLot_saves]
  · rw [holdsLot_moveLot, if_pos rfl] at ht; exact ht.2.1 ▸ hF hm

/-- A lot in hand whose record shows it at rest needs no place. -/
theorem putDown (h : Loose F (id :: X) s) (hr : ∀ {st loc}, s.holdsLot id st loc → restsAt st loc) : Loose F X s where
  stands {a} {_} {_} hs hX := by
    by_cases he : a = id
    · exact .inr (hr (he ▸ hs))
    · exact h.stands hs (by simp [he, hX])
  listed ht := (h.listed ht).imp_left fun hX hm => hX (List.mem_cons_of_mem _ hm)
  nodup := h.nodup
  keys := h.keys
  saves := h.saves
  free := h.free

/-- R8: a lot in hand goes HELD or COMPLETE. -/
theorem rest {d : LotState} {x : Option CloseSection} (h : Loose F (id :: X) s) (hd : d = .held ∨ d = .complete) :
    Loose F X (s.moveLot id d .absent x) := by
  refine (h.moveLot List.mem_cons_self fun _ => .inr hd).putDown fun ht => ?_
  rw [holdsLot_moveLot, if_pos rfl] at ht
  exact ⟨ht.2.1 ▸ hd, ht.2.2.symm⟩

/-- A lot at rest may be taken in hand. -/
theorem pickUp (h : Loose F X s) (hs : s.holdsLot id st loc) (hr : st = .held ∨ st = .complete) : Loose F (id :: X) s where
  stands hs hX := h.stands hs fun hm => hX (List.mem_cons_of_mem _ hm)
  listed {a} {_} {_} ht := by
    obtain ⟨hX, ha⟩ := h.listed ht
    refine ⟨?_, ha⟩
    rw [List.mem_cons, not_or]
    refine ⟨?_, hX⟩
    rintro rfl
    obtain ⟨rfl, -⟩ := holdsLot_unique ha hs
    cases ht <;> rcases hr with hr | hr <;> cases hr
  nodup := h.nodup
  keys := h.keys
  saves := h.saves
  free := h.free

/-! ### The wait list (R62) -/

theorem leaveWait (h : Loose F X s) (hid : ∀ {st loc}, Listed s id st loc → st = .waiting) : Loose F (id :: X) (s.leaveWait id) := by
  refine h.takeOut (Y := [id]) rfl ?_ ?_ List.filter_sublist (fun c => .refl _) h.saves
  · intro a st loc ha
    rw [List.mem_singleton]
    cases ha with
    | wait ha =>
      obtain ⟨hm, hne⟩ := List.mem_filter.mp ha
      exact ⟨.wait hm, by simpa using hne⟩
    | current ha => exact ⟨.current ha, fun e => by subst e; cases hid (.current ha)⟩
    | behind ha => exact ⟨.behind ha, fun e => by subst e; cases hid (.behind ha)⟩
    | saved ha => exact ⟨.saved ha, fun e => by subst e; cases hid (.saved ha)⟩
  · intro a st loc ha hne
    cases ha with
    | wait ha => exact .wait (List.mem_filter.mpr ⟨ha, by simpa using hne⟩)
    | current ha => exact .current ha
    | behind ha => exact .behind ha
    | saved ha => exact .saved ha

theorem leaveWait_waiting (h : Loose F X s) (hid : s.holdsLot id .waiting loc) : Loose F (id :: X) (s.leaveWait id) :=
  h.leaveWait fun hl => (holdsLot_unique (h.listed hl).2 hid).1

end Loose

theorem insertAsc_perm {α : Type} (key : α → Nat) (x : α) (l : List α) : (insertAsc key x l).Perm (x :: l) := by
  induction l with
  | nil => rfl
  | cons y ys ih =>
    unfold insertAsc
    split
    · rfl
    · exact (ih.cons y).trans (.swap x y ys)

/-- An entry of an ascending list is taken out, and put back at the position of its new key. -/
theorem mem_reinsert {α : Type} [DecidableEq α] (key : α → Nat) (x y : α) (l : List α) :
    y ∈ insertAsc key x (l.filter (· != x)) ↔ y = x ∨ y ∈ l := by
  rw [mem_insertAsc, List.mem_filter, bne_iff_ne]
  by_cases hy : y = x <;> simp [hy]

theorem pairwise_reinsert {α : Type} [DecidableEq α] {key key' : α → Nat} {x : α} {l : List α}
    (h : l.Pairwise fun a b => key a ≤ key b) (hk : ∀ a, a ≠ x → key' a = key a) :
    (insertAsc key' x (l.filter (· != x))).Pairwise fun a b => key' a ≤ key' b := by
  refine sorted_insertAsc key' x _ ((h.sublist List.filter_sublist).imp_of_mem fun ha hb hab => ?_)
  rw [hk _ (bne_iff_ne.mp (List.mem_filter.mp ha).2), hk _ (bne_iff_ne.mp (List.mem_filter.mp hb).2)]
  exact hab

namespace Loose

/-- A lot in hand is put into the place its record names. -/
theorem putIn (h : Loose F (id :: X) s) (hX : id ∉ X) (hs : s.holdsLot id st loc) (hl : t.lots = s.lots) (hput : Listed t id st loc)
    (hin : ∀ {a st' loc'}, Listed t a st' loc' → Listed s a st' loc' ∨ a = id ∧ st' = st ∧ loc' = loc)
    (hout : ∀ {a st' loc'}, Listed s a st' loc' → Listed t a st' loc') (hw : t.waitList.Nodup) (hk : t.inKeyOrder) (hc : t.savesFree) :
    Loose F X t where
  stands {a} {_} {_} ha hm := by
    rw [holdsLot_of_lots hl] at ha
    by_cases he : a = id
    · subst he
      obtain ⟨rfl, rfl⟩ := holdsLot_unique ha hs
      exact .inl hput
    · exact (h.stands ha (by simp [he, hm])).imp_left hout
  listed ha := by
    rw [holdsLot_of_lots hl]
    rcases hin ha with ha | ⟨rfl, rfl, rfl⟩
    · exact (h.listed ha).imp_left fun hm hX => hm (List.mem_cons_of_mem _ hX)
    · exact ⟨hX, hs⟩
  nodup := hw
  keys := hk
  saves := hc
  free hF ha := h.free hF ((holdsLot_of_lots hl).mp ha)

/-- R62: a WAITING lot in hand is put into the wait list at the position of its key. -/
theorem putWaiting (h : Loose F (id :: X) s) (hX : id ∉ X) (hs : s.holdsLot id .waiting .absent) :
    Loose F X { s with waitList := insertAsc s.waitKeyOf id s.waitList } := by
  refine h.putIn hX hs rfl (.wait ((mem_insertAsc _ _ _ _).mpr (.inl rfl))) ?_ ?_ ?_
    ⟨sorted_insertAsc s.waitKeyOf id s.waitList h.keys.1, h.keys.2⟩ h.saves
  · rintro a _ _ (hl | hl | hl | hl)
    · exact ((mem_insertAsc _ _ _ _).mp hl).symm.imp .wait fun he => ⟨he, rfl, rfl⟩
    · exact .inl (.current hl)
    · exact .inl (.behind hl)
    · exact .inl (.saved hl)
  · rintro a _ _ (hl | hl | hl | hl)
    · exact .wait ((mem_insertAsc _ _ _ _).mpr (.inr hl))
    · exact .current hl
    · exact .behind hl
    · exact .saved hl
  · refine (insertAsc_perm s.waitKeyOf id s.waitList).nodup_iff.mpr (List.nodup_cons.mpr ⟨fun hm => ?_, h.nodup⟩)
    exact h.not_listed List.mem_cons_self (.wait hm)

theorem joinWait (h : Loose F (id :: X) (s.leaveWait id)) (hX : id ∉ X) (hs : s.holdsLot id .waiting .absent) :
    Loose F X (s.joinWait id) :=
  (steady_loose F X).same (h.putWaiting hX hs) rfl

theorem leaveWait_inHand (h : Loose F (id :: X) s) : Loose F (id :: X) (s.leaveWait id) :=
  (h.leaveWait fun hl => (h.not_listed List.mem_cons_self hl).elim).congr_hands fun a => by simp

/-- R62, R136: a lot in hand goes WAITING, and on to HELD when it is stopped. -/
theorem toWaiting {x : Option CloseSection} (h : Loose F (id :: X) s) (hX : id ∉ X) (ht : s.inTable id) :
    Loose F X (s.toWaiting id x) := by
  have moved : Loose F (id :: X) (s.moveLot id .waiting .absent x) := h.moveLot List.mem_cons_self fun _ => .inl rfl
  have joined : Loose F X ((s.moveLot id .waiting .absent x).joinWait id) :=
    moved.leaveWait_inHand.joinWait hX (holdsLot_moveLot_self ht)
  have waits : ((s.moveLot id .waiting .absent x).joinWait id).holdsLot id .waiting .absent := holdsLot_moveLot_self ht
  unfold State.toWaiting; dsimp only
  split
  · split
    · exact (joined.leaveWait_waiting waits).rest (.inl rfl)
    · exact joined
  · exact joined

end Loose

theorem toWaiting_lot (n : Nat) (x : Option CloseSection) (m : Nat) (h : m ≠ n) : (s.toWaiting n x).lot? m = s.lot? m := by
  have joined : ((s.moveLot n .waiting .absent x).joinWait n).lot? m = s.lot? m := by
    show (s.moveLot n .waiting .absent x).lot? m = s.lot? m
    rw [moveLot_lot]; simp [h]
  unfold State.toWaiting; dsimp only
  split
  · split
    · rw [moveLot_lot]
      show ((((s.moveLot n .waiting .absent x).joinWait n)).lot? m).map _ = _
      rw [joined]; simp [h]
    · exact joined
  · exact joined

theorem inTable_toWaiting {n : Nat} {x : Option CloseSection} : (s.toWaiting n x).inTable id ↔ s.inTable id := by
  have joined : ((s.moveLot n .waiting .absent x).joinWait n).inTable id ↔ s.inTable id := by
    show (s.moveLot n .waiting .absent x).inTable id ↔ _
    exact inTable_moveLot
  unfold State.toWaiting; dsimp only
  split
  · split
    · rw [inTable_moveLot]; exact joined
    · exact joined
  · exact joined

/-! ### The queues (R63) -/

theorem mem_entries {q : DispatchQueue} {a : Nat} : a ∈ q.entries ↔ q.current = some a ∨ a ∈ q.behind := by
  simp [DispatchQueue.entries]

theorem modQueue_other {s : State} {c d : CellNo} (h : d ≠ c) (f : DispatchQueue → DispatchQueue) :
    (s.modQueue c f).queues[d] = s.queues[d] := by
  have : c.val ≠ d.val := fun e => h (Fin.ext e.symm)
  simp [State.modQueue, this]

theorem setSave_other {s : State} {c d : CellNo} (h : d ≠ c) (x : Option Nat) : (s.setSave c x).saves[d] = s.saves[d] := by
  have : c.val ≠ d.val := fun e => h (Fin.ext e.symm)
  simp [State.setSave, this]

/-- The state with a queue emptied. -/
def State.bare (s : State) (c : CellNo) : State := s.modQueue c fun _ => {}

theorem bare_modQueue (s : State) (c : CellNo) (f : DispatchQueue → DispatchQueue) : (s.modQueue c f).bare c = s.bare c := by
  simp [State.bare, State.modQueue]

/-- A move does not look at the queues and the save contexts. -/
theorem moveLot_places (s : State) (q : Vector DispatchQueue 16) (v : Vector (Option Nat) 16) (n : Nat) (d : LotState) (l : Location)
    (x : Option CloseSection) :
    ({ s with queues := q, saves := v } : State).moveLot n d l x = { s.moveLot n d l x with queues := q, saves := v } := by
  have found : ({ s with queues := q, saves := v } : State).lot? n = s.lot? n := rfl
  unfold State.moveLot
  rw [found]
  split
  · rfl
  · unfold place
    show (if s.reports.length < _ then _ else _ : State) = State.mk ..
    by_cases room : s.reports.length < Config.maxReports
    · rw [if_pos room, if_pos (show (State.modLot s n _).reports.length < _ from room)]; rfl
    · rw [if_neg room, if_neg (show ¬ (State.modLot s n _).reports.length < _ from room)]; rfl

theorem moveLot_modQueue (s : State) (c : CellNo) (f : DispatchQueue → DispatchQueue) (n : Nat) (d : LotState) (l : Location)
    (x : Option CloseSection) : (s.modQueue c f).moveLot n d l x = (s.moveLot n d l x).modQueue c f := by
  refine (moveLot_places s _ s.saves n d l x).trans ?_
  rw [← moveLot_saves s n d l x]
  unfold State.modQueue
  rw [moveLot_queues]

theorem moveLot_setSave (s : State) (c : CellNo) (y : Option Nat) (n : Nat) (d : LotState) (l : Location) (x : Option CloseSection) :
    (s.setSave c y).moveLot n d l x = (s.moveLot n d l x).setSave c y := by
  refine (moveLot_places s s.queues _ n d l x).trans ?_
  rw [← moveLot_queues s n d l x]
  unfold State.setSave
  rw [moveLot_saves]

theorem bare_moveLot (s : State) (c : CellNo) (n : Nat) (d : LotState) (l : Location) (x : Option CloseSection) :
    (s.moveLot n d l x).bare c = (s.bare c).moveLot n d l x := (moveLot_modQueue ..).symm

namespace Loose

/-- The entries of a queue: at entry 0 an ACTIVE lot, behind it QUEUED ones. -/
theorem current (h : Loose F X s) {c : CellNo} (hc : s.queues[c].current = some id) : s.holdsLot id .active (.queue c 0) :=
  (h.listed (.current hc)).2

theorem behind (h : Loose F X s) {c : CellNo} (hb : id ∈ s.queues[c].behind) : ∃ n, s.holdsLot id .queued (.queue c (n + 1)) := by
  obtain ⟨n, hn⟩ := List.mem_iff_getElem?.mp hb
  exact ⟨n, (h.listed (.behind hn)).2⟩

/-- A WAITING lot has no location, and a QUEUED one stands in its queue. -/
theorem waits (h : Loose F X s) (hX : id ∉ X) (hs : s.holdsLot id .waiting loc) : s.holdsLot id .waiting .absent := by
  rcases h.stands hs hX with hl | ⟨-, hloc⟩
  · cases hl; exact hs
  · exact hloc ▸ hs

theorem queued (h : Loose F X s) (hX : id ∉ X) {c : CellNo} {n : Nat} (hs : s.holdsLot id .queued (.queue c n)) :
    id ∈ s.queues[c].behind := by
  rcases h.stands hs hX with hl | ⟨hst, -⟩
  · cases hl with | behind hb => exact List.mem_of_getElem? hb
  · rcases hst with hst | hst <;> cases hst

theorem entry (h : Loose F X s) {c : CellNo} (he : id ∈ s.queues[c].entries) : id ∉ X ∧ id ∉ F ∧ s.inTable id := by
  have out {st : LotState} {loc : Location} (hst : ¬ freeState st) (hl : Listed s id st loc) : id ∉ X ∧ id ∉ F ∧ s.inTable id := by
    obtain ⟨hX, hh⟩ := h.listed hl
    exact ⟨hX, fun hF => hst (h.free hF hh), _, _, hh⟩
  rcases mem_entries.mp he with hc | hb
  · exact out (by simp [freeState]) (.current hc)
  · obtain ⟨n, hn⟩ := List.mem_iff_getElem?.mp hb
    exact out (by simp [freeState]) (.behind hn)

theorem entries_nodup (h : Loose F X s) (c : CellNo) : s.queues[c].entries.Nodup := by
  refine List.nodup_append.mpr ⟨?_, List.nodup_iff_getElem?_ne_getElem?.mpr fun i j hij hj he => ?_, fun a ha b hb hab => ?_⟩
  · cases s.queues[c].current <;> simp
  · have ha := List.getElem?_eq_getElem hj
    have := (h.listed_unique (.behind (he.trans ha)) (.behind ha)).2
    injection this
    omega
  · obtain ⟨n, hn⟩ := h.behind (hab ▸ hb)
    cases (holdsLot_unique (h.current (by simpa using ha)) hn).1

/-- All lots of a queue are taken in hand. -/
theorem bare (h : Loose F X s) (c : CellNo) : Loose F (s.queues[c].entries ++ X) (s.bare c) := by
  have self : (s.bare c).queues[c] = {} := modQueue_self s c _
  have other {d : CellNo} (hd : d ≠ c) : (s.bare c).queues[d] = s.queues[d] := modQueue_other hd _
  have place {a : Nat} (ha : a ∈ s.queues[c].entries) : ∃ st n, Listed s a st (.queue c n) := by
    rcases mem_entries.mp ha with ha | ha
    · exact ⟨_, _, .current ha⟩
    · obtain ⟨n, hn⟩ := List.mem_iff_getElem?.mp ha
      exact ⟨_, _, .behind hn⟩
  have apart {a : Nat} {st : LotState} {loc : Location} (hl : Listed s a st loc) (hloc : ∀ n, loc ≠ .queue c n) :
      a ∉ s.queues[c].entries := by
    intro ha
    obtain ⟨st', n, hp⟩ := place ha
    exact hloc n (h.listed_unique hl hp).2
  refine h.takeOut rfl ?_ ?_ (.refl _) (fun d => ?_) h.saves
  · intro a st loc ha
    cases ha with
    | wait ha => exact ⟨.wait ha, apart (.wait ha) nofun⟩
    | @current d _ ha =>
      by_cases hd : d = c
      · subst hd; rw [self] at ha; cases ha
      · rw [other hd] at ha
        exact ⟨.current ha, apart (.current ha) fun n e => hd (by injection e)⟩
    | @behind d _ _ ha =>
      by_cases hd : d = c
      · subst hd; rw [self] at ha; cases ha
      · rw [other hd] at ha
        exact ⟨.behind ha, apart (.behind ha) fun n e => hd (by injection e)⟩
    | saved ha => exact ⟨.saved ha, apart (.saved ha) nofun⟩
  · intro a st loc ha hne
    cases ha with
    | wait ha => exact .wait ha
    | @current d _ ha =>
      have hd : d ≠ c := by rintro rfl; exact hne (mem_entries.mpr (.inl ha))
      exact .current (by rw [other hd]; exact ha)
    | @behind d _ _ ha =>
      have hd : d ≠ c := by rintro rfl; exact hne (mem_entries.mpr (.inr (List.mem_of_getElem? ha)))
      exact .behind (by rw [other hd]; exact ha)
    | saved ha => exact .saved ha
  · by_cases hd : d = c
    · subst hd; rw [self]; exact List.nil_sublist _
    · rw [other hd]

end Loose

/-! ### The entry numbers (R8) -/

/-- The location of each lot of a list of entries is written. -/
def relocate (c : CellNo) (es : List (Nat × Nat)) (s : State) : State :=
  es.foldl (fun s e => s.modLot e.1 fun l => { l with location := .queue c e.2 }) s

theorem relocate_frame (c : CellNo) (es : List (Nat × Nat)) (s : State) : relocate c es s = { s with lots := (relocate c es s).lots } := by
  unfold relocate
  induction es generalizing s with
  | nil => rfl
  | cons e es ih => rw [List.foldl_cons, ih]; rfl

theorem modLot_location (s : State) (n : Nat) (loc : Location) (m : Nat) :
    (s.modLot n fun l => { l with location := loc }).lot? m =
      (s.lot? m).map fun l => if m = n then { l with location := loc } else l :=
  modLot_lot s (f := fun l => { l with location := loc }) (fun _ => rfl) m

theorem relocate_other {c : CellNo} {es : List (Nat × Nat)} {s : State} {a : Nat} (h : a ∉ es.map Prod.fst) :
    (relocate c es s).lot? a = s.lot? a := by
  unfold relocate
  induction es generalizing s with
  | nil => rfl
  | cons e es ih =>
    rw [List.map_cons, List.mem_cons, not_or] at h
    rw [List.foldl_cons, ih h.2, modLot_location]
    simp [h.1]

theorem relocate_self {c : CellNo} {es : List (Nat × Nat)} {s : State} {a n : Nat} (hn : (es.map Prod.fst).Nodup) (h : (a, n) ∈ es) :
    (relocate c es s).lot? a = (s.lot? a).map fun l => { l with location := .queue c n } := by
  unfold relocate
  induction es generalizing s with
  | nil => cases h
  | cons e es ih =>
    rw [List.map_cons, List.nodup_cons] at hn
    rw [List.foldl_cons]
    rcases List.mem_cons.mp h with rfl | h
    · refine (relocate_other hn.1).trans ?_
      rw [modLot_location]; simp
    · have hne : a ≠ e.1 := fun he => hn.1 (he ▸ List.mem_map.mpr ⟨_, h, rfl⟩)
      rw [ih hn.2 h, modLot_location]; simp [hne]

/-- Where a lot stands in several entries the last one counts. -/
theorem relocate_last {c : CellNo} {es es' : List (Nat × Nat)} {s : State} {a n : Nat} (hn : (es'.map Prod.fst).Nodup) (h : (a, n) ∈ es') :
    (relocate c (es ++ es') s).lot? a = (s.lot? a).map fun l => { l with location := .queue c n } := by
  have first : (relocate c (es ++ es') s).lot? a = ((relocate c es s).lot? a).map fun l => { l with location := .queue c n } := by
    unfold relocate
    rw [List.foldl_append]
    exact relocate_self hn h
  rw [first]
  clear first
  unfold relocate
  induction es generalizing s with
  | nil => rfl
  | cons e es ih =>
    rw [List.foldl_cons, ih, modLot_location, Option.map_map]
    congr 1; funext l
    dsimp only [Function.comp]
    split <;> rfl

theorem relocate_waitKeyOf {c : CellNo} {es : List (Nat × Nat)} {s : State} {a : Nat} :
    (relocate c es s).waitKeyOf a = s.waitKeyOf a := by
  unfold relocate
  induction es generalizing s with
  | nil => rfl
  | cons e es ih => rw [List.foldl_cons, ih]; exact waitKeyOf_sameKey fun _ => ⟨rfl, rfl, rfl⟩

theorem relocate_isSome {c : CellNo} {es : List (Nat × Nat)} {s : State} {a : Nat} :
    ((relocate c es s).lot? a).isSome = (s.lot? a).isSome := by
  unfold relocate
  induction es generalizing s with
  | nil => rfl
  | cons e es ih => rw [List.foldl_cons, ih, modLot_location]; simp

/-- The entries of a queue with their numbers. -/
def DispatchQueue.numbered (q : DispatchQueue) : List (Nat × Nat) := (q.current.toList.map fun id => (id, 0)) ++ q.behind.zipIdx 1

theorem numbered_fst (q : DispatchQueue) : q.numbered.map Prod.fst = q.entries := by
  unfold DispatchQueue.numbered DispatchQueue.entries
  cases q.current <;> simp

theorem renumber_eq (s : State) (c : CellNo) : s.renumber c = relocate c s.queues[c].numbered s := rfl

section
variable (s) (c : CellNo)

@[simp] theorem renumber_waitList : (s.renumber c).waitList = s.waitList := by rw [renumber_eq, relocate_frame]
@[simp] theorem renumber_queues : (s.renumber c).queues = s.queues := by rw [renumber_eq, relocate_frame]
@[simp] theorem renumber_saves : (s.renumber c).saves = s.saves := by rw [renumber_eq, relocate_frame]
@[simp] theorem renumber_cells : (s.renumber c).cells = s.cells := by rw [renumber_eq, relocate_frame]

end

theorem renumber_other {c : CellNo} {a : Nat} (h : a ∉ s.queues[c].entries) : (s.renumber c).lot? a = s.lot? a :=
  relocate_other (es := s.queues[c].numbered) (by rwa [numbered_fst])

theorem renumber_current {c : CellNo} {a : Nat} (hn : s.queues[c].entries.Nodup) (h : s.queues[c].current = some a) :
    (s.renumber c).lot? a = (s.lot? a).map fun l => { l with location := .queue c 0 } :=
  relocate_self (es := s.queues[c].numbered) (by rwa [numbered_fst]) (List.mem_append.mpr (.inl (by rw [h]; exact .head _)))

theorem renumber_behind {c : CellNo} {a n : Nat} (hn : s.queues[c].behind.Nodup) (h : s.queues[c].behind[n]? = some a) :
    (s.renumber c).lot? a = (s.lot? a).map fun l => { l with location := .queue c (n + 1) } := by
  refine relocate_last (es' := s.queues[c].behind.zipIdx 1) (by simpa using hn) ?_
  rw [List.mk_mem_zipIdx_iff_le_and_getElem?_sub]
  exact ⟨by omega, by simpa using h⟩

namespace Loose

/-- R8, R63: lots in hand are put into an emptied queue, ACTIVE at entry 0 and QUEUED behind it in key order, and take their entry
numbers. -/
theorem fill {c : CellNo} {q : DispatchQueue} (hb : Loose F Y (s.bare c)) (hq : s.queues[c] = q) (hn : q.entries.Nodup)
    (hcur : ∀ a, q.current = some a → ∃ loc, s.holdsLot a .active loc) (hbeh : ∀ a ∈ q.behind, ∃ loc, s.holdsLot a .queued loc)
    (hkeys : q.behind.Pairwise fun a b => s.waitKeyOf a ≤ s.waitKeyOf b) (hY : ∀ a, a ∈ Y ↔ a ∈ q.entries ∨ a ∈ X)
    (hX : ∀ a ∈ q.entries, a ∉ X) (hF : ∀ a ∈ q.entries, a ∉ F) : Loose F X (s.renumber c) := by
  subst hq
  have other {d : CellNo} (hd : d ≠ c) : (s.bare c).queues[d] = s.queues[d] := modQueue_other hd _
  have outside {a : Nat} {st : LotState} {loc : Location} (ha : a ∉ s.queues[c].entries) :
      (s.renumber c).holdsLot a st loc ↔ s.holdsLot a st loc := by
    unfold State.holdsLot; rw [renumber_other ha]
  have first {a : Nat} (ha : s.queues[c].current = some a) : (s.renumber c).holdsLot a .active (.queue c 0) := by
    obtain ⟨loc, l, hl, hst, -⟩ := hcur a ha
    exact ⟨{ l with location := .queue c 0 }, (renumber_current hn ha).trans (by rw [hl]; rfl), hst, rfl⟩
  have later {a n : Nat} (ha : s.queues[c].behind[n]? = some a) : (s.renumber c).holdsLot a .queued (.queue c (n + 1)) := by
    obtain ⟨loc, l, hl, hst, -⟩ := hbeh a (List.mem_of_getElem? ha)
    exact ⟨{ l with location := .queue c (n + 1) }, (renumber_behind (hn.sublist (List.sublist_append_right _ _)) ha).trans (by rw [hl]; rfl), hst, rfl⟩
  -- A place in another list is one of the state with the queue emptied, and so of a lot that is not in hand.
  have elsewhere {a : Nat} {st : LotState} {loc : Location} (hl : Listed (s.bare c) a st loc) :
      a ∉ X ∧ (s.renumber c).holdsLot a st loc := by
    obtain ⟨ha, hh⟩ := hb.listed hl
    have hnot : a ∉ s.queues[c].entries ∧ a ∉ X := by rw [hY, not_or] at ha; exact ha
    exact ⟨hnot.2, (outside hnot.1).mpr hh⟩
  refine ⟨?_, ?_, by rw [renumber_waitList]; exact hb.nodup, ⟨?_, fun d => ?_⟩, fun d k hk hp => ?_, ?_⟩
  · intro a st loc ha hXa
    by_cases he : a ∈ s.queues[c].entries
    · rcases mem_entries.mp he with hc | hc
      · obtain ⟨rfl, rfl⟩ := holdsLot_unique ha (first hc)
        exact .inl (.current (by rw [renumber_queues]; exact hc))
      · obtain ⟨n, hc⟩ := List.mem_iff_getElem?.mp hc
        obtain ⟨rfl, rfl⟩ := holdsLot_unique ha (later hc)
        exact .inl (.behind (by rw [renumber_queues]; exact hc))
    · refine (hb.stands ((outside he).mp ha) (by rw [hY, not_or]; exact ⟨he, hXa⟩)).imp_left fun hl => ?_
      cases hl with
      | wait hl => exact .wait (by rw [renumber_waitList]; exact hl)
      | @current d _ hl =>
        have hd : d ≠ c := by rintro rfl; rw [State.bare, modQueue_self] at hl; cases hl
        exact .current (by rw [renumber_queues, ← other hd]; exact hl)
      | @behind d _ _ hl =>
        have hd : d ≠ c := by rintro rfl; rw [State.bare, modQueue_self] at hl; cases hl
        exact .behind (by rw [renumber_queues, ← other hd]; exact hl)
      | saved hl => exact .saved (by rw [renumber_saves]; exact hl)
  · intro a st loc hl
    cases hl with
    | wait hl => exact elsewhere (.wait (by rwa [renumber_waitList] at hl))
    | @current d _ hl =>
      rw [renumber_queues] at hl
      by_cases hd : d = c
      · subst hd; exact ⟨hX a (mem_entries.mpr (.inl hl)), first hl⟩
      · exact elsewhere (.current (by rw [other hd]; exact hl))
    | @behind d _ _ hl =>
      rw [renumber_queues] at hl
      by_cases hd : d = c
      · subst hd; exact ⟨hX a (mem_entries.mpr (.inr (List.mem_of_getElem? hl))), later hl⟩
      · exact elsewhere (.behind (by rw [other hd]; exact hl))
    | saved hl => exact elsewhere (.saved (by rwa [renumber_saves] at hl))
  · have sorted : s.waitSorted := hb.keys.1
    unfold State.waitSorted at sorted ⊢
    rw [renumber_waitList]
    simpa only [renumber_eq, relocate_waitKeyOf] using sorted
  · rw [renumber_queues]
    have sorted : s.queues[d].behind.Pairwise fun a b => s.waitKeyOf a ≤ s.waitKeyOf b := by
      by_cases hd : d = c
      · subst hd; exact hkeys
      · rw [← other hd]; exact hb.keys.2 d
    simpa only [renumber_eq, relocate_waitKeyOf] using sorted
  · rw [renumber_saves]
    unfold State.cell? at hk
    rw [renumber_cells] at hk
    exact hb.saves d k hk hp
  · intro a st loc ha hh
    by_cases he : a ∈ s.queues[c].entries
    · exact (hF a he ha).elim
    · exact hb.free ha ((outside he).mp hh)

end Loose

end
end Sys2Proof.Machine
end

