-- ==== Sys2Proof/Proofs/PlaceSteps.lean ====
section
-- In order: the check's memory bound leaves no room for a thread per proof.
set_option Elab.async false
/-! ## Every taking keeps the places

What each operation that moves a lot does with the places, and so the delivery of every notice. -/

namespace Sys2Proof.Machine

section
variable {s t : State} {F X Y : List Nat} {id : Nat} {st : LotState} {loc : Location} {c : CellNo}

@[simp] theorem toWaiting_queues (n : Nat) (x : Option CloseSection) : (s.toWaiting n x).queues = s.queues := by
  have joined : ((s.moveLot n .waiting .absent x).joinWait n).queues = s.queues := moveLot_queues ..
  unfold State.toWaiting; dsimp only
  repeat' split
  · rw [moveLot_queues]; exact joined
  · exact joined
  · exact joined

@[simp] theorem toWaiting_saves (n : Nat) (x : Option CloseSection) : (s.toWaiting n x).saves = s.saves := by
  have joined : ((s.moveLot n .waiting .absent x).joinWait n).saves = s.saves := moveLot_saves ..
  unfold State.toWaiting; dsimp only
  repeat' split
  · rw [moveLot_saves]; exact joined
  · exact joined
  · exact joined

theorem modQueue_behind {f : DispatchQueue → DispatchQueue} (hf : ∀ q, (f q).behind = q.behind) (d : CellNo) :
    (s.modQueue c f).queues[d].behind = s.queues[d].behind := by
  by_cases hd : d = c
  · subst hd; rw [modQueue_self, hf]
  · rw [modQueue_other hd]

/-- A queue without a lot behind its entry 0. -/
def DispatchQueue.without (q : DispatchQueue) (id : Nat) : DispatchQueue := { q with behind := q.behind.filter (· != id) }

theorem mem_entries_without {q : DispatchQueue} (h : q.current ≠ some id) (a : Nat) :
    a ∈ (q.without id).entries ↔ a ∈ q.entries ∧ a ≠ id := by
  rw [mem_entries, mem_entries]
  simp only [DispatchQueue.without, List.mem_filter, bne_iff_ne]
  constructor
  · rintro (ha | ⟨ha, hne⟩)
    · exact ⟨.inl ha, by rintro rfl; exact h ha⟩
    · exact ⟨.inr ha, hne⟩
  · rintro ⟨ha | ha, hne⟩
    · exact .inl ha
    · exact .inr ⟨ha, hne⟩

namespace Loose

/-! ### Entry 0 and the save context -/

/-- Entry 0 of a queue is emptied. -/
theorem freeEntry (h : Loose F X s) (c : CellNo) :
    Loose F (s.queues[c].current.toList ++ X) (s.modQueue c fun q => { q with current := none }) := by
  have self : (s.modQueue c fun q => { q with current := none }).queues[c] = { s.queues[c] with current := none } := modQueue_self s c _
  have other {d : CellNo} (hd : d ≠ c) : (s.modQueue c fun q => { q with current := none }).queues[d] = s.queues[d] :=
    modQueue_other hd _
  have behind (d : CellNo) := modQueue_behind (s := s) (c := c) (f := fun q => { q with current := none }) (fun _ => rfl) d
  have apart {a : Nat} {st : LotState} {loc : Location} (hl : Listed s a st loc) (hloc : loc ≠ .queue c 0) :
      a ∉ s.queues[c].current.toList :=
    fun ha => hloc (h.listed_unique hl (.current (by simpa using ha))).2
  refine h.takeOut rfl ?_ ?_ (.refl _) (fun d => by rw [behind d]) h.saves
  · rintro a _ _ (ha | ha | ha | ha)
    · exact ⟨.wait ha, apart (.wait ha) nofun⟩
    case current d =>
      by_cases hd : d = c
      · subst hd; rw [self] at ha; cases ha
      · rw [other hd] at ha
        exact ⟨.current ha, apart (.current ha) fun e => hd (by injection e)⟩
    · rw [behind] at ha
      exact ⟨.behind ha, apart (.behind ha) nofun⟩
    · exact ⟨.saved ha, apart (.saved ha) nofun⟩
  · rintro a _ _ (ha | ha | ha | ha) hne
    · exact .wait ha
    case current d =>
      have hd : d ≠ c := by rintro rfl; exact hne (by rw [ha]; exact .head _)
      exact .current (by rw [other hd]; exact ha)
    · exact .behind (by rw [behind]; exact ha)
    · exact .saved ha

/-- A save context is emptied. -/
theorem freeSave (h : Loose F X s) (c : CellNo) : Loose F (s.saves[c].toList ++ X) (s.setSave c none) := by
  have self : (s.setSave c none).saves[c] = none := setSave_self s c _
  have other {d : CellNo} (hd : d ≠ c) : (s.setSave c none).saves[d] = s.saves[d] := setSave_other hd _
  have apart {a : Nat} {st : LotState} {loc : Location} (hl : Listed s a st loc) (hloc : loc ≠ .save c) : a ∉ s.saves[c].toList :=
    fun ha => hloc (h.listed_unique hl (.saved (by simpa using ha))).2
  refine h.takeOut rfl ?_ ?_ (.refl _) (fun _ => .refl _) (h.savesFree_of (fun _ => rfl) fun d => ?_)
  · rintro a _ _ (ha | ha | ha | ha)
    · exact ⟨.wait ha, apart (.wait ha) nofun⟩
    · exact ⟨.current ha, apart (.current ha) nofun⟩
    · exact ⟨.behind ha, apart (.behind ha) nofun⟩
    case saved d =>
      by_cases hd : d = c
      · subst hd; rw [self] at ha; cases ha
      · rw [other hd] at ha
        exact ⟨.saved ha, apart (.saved ha) fun e => hd (by injection e)⟩
  · rintro a _ _ (ha | ha | ha | ha) hne
    · exact .wait ha
    · exact .current ha
    · exact .behind ha
    case saved d =>
      have hd : d ≠ c := by rintro rfl; exact hne (by rw [ha]; exact .head _)
      exact .saved (by rw [other hd]; exact ha)
  · by_cases hd : d = c
    · subst hd; exact .inr self
    · exact .inl (other hd)

/-- R67: a lot in hand is put at a free entry 0. -/
theorem putCurrent (h : Loose F (id :: X) s) (hX : id ∉ X) (hF : id ∉ F) (ht : s.inTable id) (hc : s.queues[c].current = none) :
    Loose F X ((s.modQueue c fun q => { q with current := some id }).moveLot id .active (.queue c 0)) := by
  rw [moveLot_modQueue]
  have moved : Loose F (id :: X) (s.moveLot id .active (.queue c 0)) := h.moveLot List.mem_cons_self fun hm => absurd hm hF
  replace hc : (s.moveLot id .active (.queue c 0)).queues[c].current = none := by rw [moveLot_queues]; exact hc
  have hs := holdsLot_moveLot_self (d := .active) (l := .queue c 0) (x := none) ht
  generalize s.moveLot id .active (.queue c 0) = u at *
  have self : (u.modQueue c fun q => { q with current := some id }).queues[c] = { u.queues[c] with current := some id } :=
    modQueue_self u c _
  have other {d : CellNo} (hd : d ≠ c) : (u.modQueue c fun q => { q with current := some id }).queues[d] = u.queues[d] :=
    modQueue_other hd _
  have behind (d : CellNo) := modQueue_behind (s := u) (c := c) (f := fun q => { q with current := some id }) (fun _ => rfl) d
  refine moved.putIn hX hs rfl (.current (by rw [self])) ?_ ?_ moved.nodup ⟨moved.keys.1, fun d => by rw [behind d]; exact moved.keys.2 d⟩ moved.saves
  · rintro a _ _ (ha | ha | ha | ha)
    · exact .inl (.wait ha)
    case current d =>
      by_cases hd : d = c
      · subst hd; rw [self] at ha; cases ha; exact .inr ⟨rfl, rfl, rfl⟩
      · rw [other hd] at ha; exact .inl (.current ha)
    · rw [behind] at ha; exact .inl (.behind ha)
    · exact .inl (.saved ha)
  · rintro a _ _ (ha | ha | ha | ha)
    · exact .wait ha
    case current d =>
      have hd : d ≠ c := by rintro rfl; rw [hc] at ha; cases ha
      exact .current (by rw [other hd]; exact ha)
    · exact .behind (by rw [behind]; exact ha)
    · exact .saved ha

/-- R72: a lot in hand is put into an empty save context of a cell that does not drain for preemption. -/
theorem putSaved {x : Option CloseSection} (h : Loose F (id :: X) s) (hX : id ∉ X) (hF : id ∉ F) (ht : s.inTable id)
    (hv : s.saves[c] = none) (hc : ∀ k, s.cell? c = some k → k.purpose ≠ some .preempt) :
    Loose F X ((s.setSave c (some id)).moveLot id .saved (.save c) x) := by
  rw [moveLot_setSave]
  have moved : Loose F (id :: X) (s.moveLot id .saved (.save c) x) := h.moveLot List.mem_cons_self fun hm => absurd hm hF
  replace hv : (s.moveLot id .saved (.save c) x).saves[c] = none := by rw [moveLot_saves]; exact hv
  replace hc : ∀ k, (s.moveLot id .saved (.save c) x).cell? c = some k → k.purpose ≠ some .preempt := by
    unfold State.cell? at hc ⊢; rwa [moveLot_cells]
  have hs := holdsLot_moveLot_self (d := .saved) (l := .save c) (x := x) ht
  generalize s.moveLot id .saved (.save c) x = u at *
  have self : (u.setSave c (some id)).saves[c] = some id := setSave_self u c _
  have other {d : CellNo} (hd : d ≠ c) : (u.setSave c (some id)).saves[d] = u.saves[d] := setSave_other hd _
  refine moved.putIn hX hs rfl (.saved self) ?_ ?_ moved.nodup moved.keys fun d k hk hp => ?_
  · rintro a _ _ (ha | ha | ha | ha)
    · exact .inl (.wait ha)
    · exact .inl (.current ha)
    · exact .inl (.behind ha)
    case saved d =>
      by_cases hd : d = c
      · subst hd; rw [self] at ha; cases ha; exact .inr ⟨rfl, rfl, rfl⟩
      · rw [other hd] at ha; exact .inl (.saved ha)
  · rintro a _ _ (ha | ha | ha | ha)
    · exact .wait ha
    · exact .current ha
    · exact .behind ha
    case saved d =>
      have hd : d ≠ c := by rintro rfl; rw [hv] at ha; cases ha
      exact .saved (by rw [other hd]; exact ha)
  · have hd : d ≠ c := by rintro rfl; exact hc k hk hp
    rw [other hd]
    exact moved.saves d k hk hp

/-! ### Behind entry 0 -/

/-- R63: a queued lot is taken out, and the lots behind it move up. -/
theorem removeBehind (h : Loose F X s) (hid : id ∈ s.queues[c].behind) : Loose F (id :: X) (s.removeBehind c id) := by
  have hn : s.queues[c].entries.Nodup := h.entries_nodup c
  have noCurrent : s.queues[c].current ≠ some id := fun hc => by
    obtain ⟨n, hb⟩ := h.behind hid
    cases (holdsLot_unique (h.current hc) hb).1
  have mem := mem_entries_without noCurrent
  have filled : Loose F (id :: X) ((s.modQueue c fun q => q.without id).renumber c) := by
    refine fill (q := s.queues[c].without id) (Y := s.queues[c].entries ++ X) ?_ (modQueue_self s c _)
      (hn.sublist ((List.Sublist.refl _).append List.filter_sublist)) (fun a ha => ⟨_, h.current ha⟩) (fun a ha => ?_)
      ((h.keys.2 c).sublist List.filter_sublist) (fun a => ?_) (fun a ha => ?_) fun a ha => (h.entry ((mem a).mp ha).1).2.1
    · rw [bare_modQueue]; exact h.bare c
    · obtain ⟨n, hb⟩ := h.behind (List.mem_filter.mp ha).1
      exact ⟨_, hb⟩
    · rw [List.mem_append, mem, List.mem_cons]
      by_cases he : a = id
      · subst he; exact iff_of_true (.inl (mem_entries.mpr (.inr hid))) (.inr (.inl rfl))
      · simp [he]
    · obtain ⟨he, hne⟩ := (mem a).mp ha
      simp [hne, (h.entry he).1]
  exact (steady_loose F _).trigger filled

/-- R74: a lot in hand comes to entry 0, before the lots that stand behind it. -/
theorem toEntry0 {rest : List Nat} (hb : Loose F Y (s.bare c)) (hY : ∀ a, a ∈ Y ↔ (a = id ∨ a ∈ rest) ∨ a ∈ X) (hn : (id :: rest).Nodup)
    (hq : ∀ a ∈ rest, ∃ loc, s.holdsLot a .queued loc) (hk : rest.Pairwise fun a b => s.waitKeyOf a ≤ s.waitKeyOf b) (ht : s.inTable id)
    (hX : ∀ a ∈ id :: rest, a ∉ X) (hF : ∀ a ∈ id :: rest, a ∉ F) : Loose F X (toEntry0 c id rest s) := by
  unfold Machine.toEntry0
  have emptied : Loose F Y (((s.modQueue c fun _ => { current := some id, behind := rest }).moveLot id .active (.queue c 0)).bare c) := by
    rw [bare_moveLot, bare_modQueue]
    exact hb.moveLot ((hY id).mpr (.inl (.inl rfl))) fun hm => absurd hm (hF id List.mem_cons_self)
  refine fill (q := { current := some id, behind := rest }) emptied ?_ hn ?_ ?_ ?_ (by simpa [mem_entries, eq_comm] using hY)
    (by simpa [mem_entries, eq_comm] using hX) (by simpa [mem_entries, eq_comm] using hF)
  · rw [moveLot_queues]; exact modQueue_self s c _
  · rintro a ha
    cases ha
    exact ⟨_, holdsLot_moveLot_self ht⟩
  · intro a ha
    have hne : a ≠ id := by rintro rfl; exact (List.nodup_cons.mp hn).1 ha
    obtain ⟨loc, hl⟩ := hq a ha
    exact ⟨loc, holdsLot_moveLot.mpr (by rw [if_neg hne]; exact hl)⟩
  · simp only [waitKeyOf_moveLot]; exact hk

/-- R74: the lot at entry 1 moves up, or the cell goes IDLE. -/
theorem moveUp (h : Loose F X s) (hc : s.queues[c].current = none) : Loose F X (moveUp c s).1 := by
  unfold Machine.moveUp
  split
  · exact (steady_loose F X).goIdle h
  next id rest hb =>
    have entries : s.queues[c].entries = id :: rest := by unfold DispatchQueue.entries; rw [hc, hb]; rfl
    have entry {a : Nat} (ha : a ∈ id :: rest) := h.entry (c := c) (entries ▸ ha)
    have sorted := h.keys.2 c
    rw [hb] at sorted
    refine (steady_loose F X).trigger (toEntry0 (h.bare c) (fun a => ?_) (entries ▸ h.entries_nodup c) (fun a ha => ?_)
      (List.pairwise_cons.mp sorted).2 (entry List.mem_cons_self).2.2 (fun a ha => (entry ha).1) fun a ha => (entry ha).2.1)
    · rw [entries, List.mem_append, List.mem_cons]
    · obtain ⟨n, hn⟩ := h.behind (c := c) (id := a) (by rw [hb]; exact .tail _ ha)
      exact ⟨_, hn⟩

/-! ### The cell's part -/

/-- R75: a saved lot comes back to a free entry 0, or leaves the save context for the wait list or HELD. -/
theorem restoreLot {k : Cell} (h : Loose F [] s) (hc : s.queues[c].current = none) (hv : s.saves[c] = some id) :
    Loose F [] (restoreLot c k id s).1 := by
  have freed {u : State} (h : Loose F [] u) (hv : u.saves[c] = some id) : Loose F [id] (u.setSave c none) := by
    have := h.freeSave c
    rwa [hv] at this
  have saved : s.holdsLot id .saved (.save c) := (h.listed (.saved hv)).2
  have stillFree {x : Option CloseSection} {d : LotState} {l : Location} {u : State} (hq : u.queues = s.queues) :
      (u.moveLot id d l x).queues[c].current = none := by rw [moveLot_queues, hq]; exact hc
  unfold Machine.restoreLot
  split
  next hl => obtain ⟨l, hl', -⟩ := saved; rw [hl] at hl'; cases hl'
  split
  · exact ((freed h hv).rest (.inl rfl)).moveUp (stillFree rfl)
  · extract_lets m r
    have calm := steady_loose F []
    have hm : Loose F [] m.1 := calm.consultMargin h
    obtain ⟨mq, mv, -⟩ : PlacesAre s.queues s.saves s.waitList m.1 := (steady_placesAre _ _ _).consultMargin ⟨rfl, rfl, rfl⟩
    have msaved : m.1.holdsLot id .saved (.save c) := (hm.listed (.saved (by rw [mv]; exact hv))).2
    clear_value m
    replace hv : m.1.saves[c] = some id := by rw [mv]; exact hv
    replace hc : m.1.queues[c].current = none := by rw [mq]; exact hc
    have hf := freed hm hv
    split
    · have entries : m.1.queues[c].entries = m.1.queues[c].behind := by unfold DispatchQueue.entries; rw [hc]; rfl
      have entry {a : Nat} (ha : a ∈ m.1.queues[c].behind) := hm.entry (c := c) (entries ▸ ha)
      have notBehind : id ∉ m.1.queues[c].behind := fun hb => by
        obtain ⟨n, hb⟩ := hm.behind hb
        cases (holdsLot_unique msaved hb).1
      have notF : id ∉ F := fun hF => by have := hm.free hF msaved; simp [freeState] at this
      refine toEntry0 (hf.bare c) (fun a => ?_) (List.nodup_cons.mpr ⟨notBehind, entries ▸ hm.entries_nodup c⟩) (fun a ha => ?_)
        (hm.keys.2 c) ⟨_, _, msaved⟩ (fun a _ => List.not_mem_nil) fun a ha => ?_
      · show a ∈ m.1.queues[c].entries ++ [id] ↔ _
        rw [entries]; simp [or_comm]
      · obtain ⟨n, hn⟩ := hm.behind ha
        exact ⟨_, hn⟩
      · rcases List.mem_cons.mp ha with rfl | ha
        · exact notF
        · exact (entry ha).2.1
    · exact (hf.toWaiting List.not_mem_nil ⟨_, _, msaved⟩).moveUp (by rw [toWaiting_queues]; exact hc)

/-- R53: the save context of a cell that is not filled is emptied. -/
theorem emptySave (h : Loose F [] s) : Loose F [] (emptySave c s) := by
  unfold Machine.emptySave
  split
  · exact h
  next id hv =>
    have freed := h.freeSave c
    rw [hv] at freed
    have saved : s.holdsLot id .saved (.save c) := (h.listed (.saved hv)).2
    split
    next hl => obtain ⟨l, hl', -⟩ := saved; rw [hl] at hl'; cases hl'
    split
    · exact freed.rest (.inl rfl)
    · exact freed.toWaiting List.not_mem_nil ⟨_, _, saved⟩

theorem fillEntry {b : Bool} (h : Loose F [] s) : Loose F [] (fillEntry c b s).1 := by
  unfold Machine.fillEntry
  split
  next k hk hc =>
    split
    · split
      next id hv =>
        split
        · exact h.moveUp hc
        · exact h.restoreLot hc hv
      · exact h.moveUp hc
    · exact (steady_loose F []).goIdle h.emptySave
  · exact h

/-- R53: the current lot is in hand, and the cell's purpose is gone. -/
theorem clearCurrent (h : Loose F X s) (hc : s.queues[c].current = some id) : Loose F (id :: X) (clearCurrent c s) := by
  have freed := h.freeEntry c
  rw [hc] at freed
  exact (steady_loose F _).modCell_purpose ((steady_loose F _).same freed rfl) fun _ => nofun

theorem leaveCell {d : LotState} {x : Option CloseSection} (h : Loose F [] s)
    (hd : d = .waiting ∨ d = .held ∨ d = .complete ∨ d = .saved ∧ s.saves[c] = none) : Loose F [] (leaveCell c d x s).1 := by
  unfold Machine.leaveCell
  split
  next k id hk hc =>
    have cleared := h.clearCurrent hc
    have active := h.current hc
    have known : (Machine.clearCurrent c s).inTable id := ⟨_, _, active⟩
    refine (steady_loose F []).trigger ?_
    rcases hd with rfl | rfl | rfl | ⟨rfl, hv⟩
    · exact cleared.toWaiting List.not_mem_nil known
    · exact cleared.rest (.inl rfl)
    · exact cleared.rest (.inr rfl)
    · refine cleared.putSaved List.not_mem_nil (fun hF => ?_) known hv fun k hk => ?_
      · have := h.free hF active; simp [freeState] at this
      · unfold Machine.clearCurrent at hk
        rw [modCell_cell] at hk
        obtain ⟨k₀, -, rfl⟩ := Option.map_eq_some_iff.mp hk
        nofun
  · exact h

/-- R65: a queued lot returns to the wait list. -/
theorem returnQueued (h : Loose F [] s) (hid : id ∈ s.queues[c].behind) : Loose F [] (returnQueued c s id) := by
  obtain ⟨n, hb⟩ := h.behind hid
  have known : (s.removeBehind c id).inTable id := by
    have : (s.removeBehind c id).lot? id = (((s.modQueue c fun q => q.without id)).renumber c).lot? id := rfl
    rw [inTable_iff, this, renumber_eq, relocate_isSome, ← inTable_iff]
    exact ⟨_, _, hb⟩
  exact (h.removeBehind hid).toWaiting List.not_mem_nil known

theorem behind_returnQueued : (Machine.returnQueued c s id).queues[c].behind = s.queues[c].behind.filter (· != id) := by
  unfold Machine.returnQueued
  rw [toWaiting_queues]
  show ((s.modQueue c fun q => q.without id).renumber c).queues[c].behind = _
  rw [renumber_queues, modQueue_self]; rfl

theorem returnAll {ids : List Nat} (h : Loose F [] s) (hn : ids.Nodup) (hids : ∀ a ∈ ids, a ∈ s.queues[c].behind) :
    Loose F [] (ids.foldl (Machine.returnQueued c) s) := by
  induction ids generalizing s with
  | nil => exact h
  | cons id ids ih =>
    obtain ⟨hid, hn⟩ := List.nodup_cons.mp hn
    refine ih (h.returnQueued (hids id List.mem_cons_self)) hn fun a ha => ?_
    rw [behind_returnQueued]
    exact List.mem_filter.mpr ⟨hids a (.tail _ ha), bne_iff_ne.mpr fun e => hid (e ▸ ha)⟩

theorem eligibilityChanged (h : Loose F [] s) : Loose F [] (eligibilityChanged c s).1 := by
  have calm := steady_loose F []
  have consulted : Loose F [] (consultForQueue c s).1 := calm.consultForQueue h
  unfold Machine.eligibilityChanged
  refine calm.trigger (Steady.ite ?_ consulted)
  have nodup : (consultForQueue c s).1.queues[c].behind.Nodup := (consulted.entries_nodup c).sublist (List.sublist_append_right _ _)
  exact consulted.returnAll (nodup.filter _) fun a ha => (List.mem_filter.mp ha).1

/-! ### Holds -/

theorem holdEffect {b : Bool} (h : Loose F [] s) : Loose F [] (holdEffect id b s).1 := by
  unfold Machine.holdEffect
  split
  · exact h
  next l hl =>
    have held : s.holdsLot id l.state l.location := ⟨l, hl, rfl, rfl⟩
    split
    next hst =>
      rw [hst] at held
      exact (h.leaveWait_waiting held).rest (.inl rfl)
    next hst =>
      split
      next c n hloc =>
        rw [hst, hloc] at held
        exact (h.removeBehind (h.queued List.not_mem_nil held)).rest (.inl rfl)
      · exact h
    · repeat' split
      all_goals exact h
    · exact h

theorem raiseHold {q : HoldReq} (h : Loose F [] s) : Loose F [] (raiseHold q s).1 := by
  have calm := steady_loose F []
  unfold Machine.raiseHold
  split
  · exact h
  · extract_lets o s₁
    have h₁ : Loose F [] s₁ := calm.storeHold (calm.withdrawAcceptance h)
    split
    · exact calm.place h₁
    · exact (calm.place h₁).holdEffect

/-- R143: a lot at rest returns to the flow, or stays at rest. -/
theorem returnLot (h : Loose F [] s) : Loose F [] (returnLot id s) := by
  unfold Machine.returnLot
  split
  · exact h
  next l hl =>
    have held : s.holdsLot id l.state l.location := ⟨l, hl, rfl, rfl⟩
    have dest {d : LotState} (hd : s.returnDest l = some d) :
        (l.state = .held ∨ l.state = .complete) ∧ (d = .waiting ∨ d = .held ∨ d = .complete) := by
      unfold State.returnDest at hd
      split at hd
      next hst => refine ⟨.inl hst, ?_⟩; split at hd <;> cases hd; split <;> simp
      next hst => refine ⟨.inr hst, ?_⟩; split at hd <;> cases hd; split <;> simp
      · cases hd
    split
    · exact h
    next hd => exact (h.pickUp held (dest hd).1).toWaiting List.not_mem_nil ⟨_, _, held⟩
    next d hne hd =>
      obtain ⟨hst, hd⟩ := dest hd
      exact (h.pickUp held hst).rest (hd.resolve_left hne)

/-- R18: the record of a lot in hand is removed. -/
theorem discard (h : Loose F (id :: X) s) : Loose F X { s with lots := s.lots.filter (·.id != id) } := by
  have other {a : Nat} (ha : a ≠ id) : ({ s with lots := s.lots.filter (·.id != id) } : State).lot? a = s.lot? a := by
    unfold State.lot?
    rw [List.find?_filter]
    congr 1; funext l
    by_cases hl : l.id = a
    · simp [hl, ha]
    · simp [hl]
  have gone : ({ s with lots := s.lots.filter (·.id != id) } : State).lot? id = none :=
    List.find?_eq_none.mpr fun l hl => by simpa using (List.mem_filter.mp hl).2
  have holds {a : Nat} {st : LotState} {loc : Location} (ht : ({ s with lots := s.lots.filter (·.id != id) } : State).holdsLot a st loc) :
      a ≠ id ∧ s.holdsLot a st loc := by
    obtain ⟨l, hl, hst⟩ := ht
    have ha : a ≠ id := by rintro rfl; rw [gone] at hl; cases hl
    exact ⟨ha, l, other ha ▸ hl, hst⟩
  have listed {a : Nat} {st : LotState} {loc : Location} (hl : Listed s a st loc) : a ≠ id := by
    rintro rfl; exact h.not_listed List.mem_cons_self hl
  have same {a : Nat} {st : LotState} {loc : Location} :
      Listed { s with lots := s.lots.filter (·.id != id) } a st loc ↔ Listed s a st loc := listed_congr rfl rfl rfl
  refine ⟨fun {a} _ _ ht hX => ?_, fun {a} _ _ ht => ?_, h.nodup, ?_, h.saves, fun hF ht => h.free hF (holds ht).2⟩
  · obtain ⟨hne, hs⟩ := holds ht
    exact (h.stands hs (by simp [hne, hX])).imp_left same.mpr
  · have ht := same.mp ht
    obtain ⟨hX, l, hl, hst⟩ := h.listed ht
    exact ⟨fun hm => hX (.tail _ hm), l, (other (listed ht)).trans hl, hst⟩
  · refine inKeyOrder_of_sublist h.keys (.refl _) (fun _ => .refl _) fun a ha => ?_
    unfold State.waitKeyOf
    rw [other]
    rcases ha with ha | ⟨c, ha⟩
    · exact listed (.wait ha)
    · obtain ⟨n, hn⟩ := List.mem_iff_getElem?.mp ha
      exact listed (.behind hn)

/-- R18: a lot that stands in no queue and no save context is dropped. -/
theorem dropRest (h : Loose F [] s) (hF : id ∈ F) : Loose F [] (dropRest id s).1 := by
  have calm := steady_loose F []
  unfold Machine.dropRest
  split
  · exact h
  next l hl =>
    extract_lets clear s₁ s₂
    have cleared {t : State} {n : Nat} (ht : Loose F [] t) : Loose F [] (clear t n) := by
      show Loose F [] (match t.hold? n with | none => t | some x => Machine.place _ _)
      split
      · exact ht
      · exact calm.place (calm.holds (le_max_of_le_right (List.length_filter_le _ _)) holdsAscend_filter ht)
    have h₁ : Loose F [] s₁ := Steady.foldl cleared h
    have taken : Loose F [id] (s₁.leaveWait id) := h₁.leaveWait fun ha => by
      have := h₁.free hF (h₁.listed ha).2
      cases ha <;> simp_all [freeState]
    have h₂ : Loose F [] s₂ := taken.discard
    exact calm.resetEntrySeq (calm.place h₂)

/-! ### Dissolution (R40, R41) -/

/-- Lots in hand go WAITING one after the other. -/
theorem toWaitingAll {ids : List Nat} (h : Loose F (ids ++ X) s) (hn : (ids ++ X).Nodup) (ht : ∀ a ∈ ids, s.inTable a) :
    Loose F X (ids.foldl (fun s a => s.toWaiting a) s) := by
  induction ids generalizing s with
  | nil => exact h
  | cons id ids ih =>
    obtain ⟨hid, hn⟩ := List.nodup_cons.mp hn
    exact ih (toWaiting h hid (ht id List.mem_cons_self)) hn fun a ha => inTable_toWaiting.mpr (ht a (.tail _ ha))

theorem dissolveLots {b : Bool} (h : Loose F [] s) : Loose F [] (dissolveLots c b s) := by
  have entry {a : Nat} (ha : a ∈ s.queues[c].entries) : s.inTable a := (h.entry ha).2.2
  have save {a : Nat} (ha : a ∈ s.saves[c].toList) : s.holdsLot a .saved (.save c) := (h.listed (.saved (by simpa using ha))).2
  have hands : Loose F (s.queues[c].current.toList ++ (s.saves[c].toList ++ s.queues[c].behind)) ((s.bare c).setSave c none) := by
    refine ((h.bare c).freeSave c).congr_hands fun a => ?_
    show a ∈ s.saves[c].toList ++ (s.queues[c].entries ++ []) ↔ _
    simp only [DispatchQueue.entries, List.mem_append, List.not_mem_nil, or_false]
    exact or_left_comm
  have nodup : (s.queues[c].current.toList ++ (s.saves[c].toList ++ s.queues[c].behind)).Nodup := by
    have apart : ∀ a ∈ s.saves[c].toList, a ∉ s.queues[c].entries := fun a ha he => by
      rcases mem_entries.mp he with hc | hb
      · cases (holdsLot_unique (save ha) (h.current hc)).1
      · obtain ⟨n, hb⟩ := h.behind hb
        cases (holdsLot_unique (save ha) hb).1
    have once : (s.saves[c].toList ++ s.queues[c].entries).Nodup :=
      List.nodup_append'.mpr ⟨by cases s.saves[c] <;> simp, h.entries_nodup c, fun a ha he => apart a ha he⟩
    refine (List.Perm.nodup_iff ?_).mp once
    unfold DispatchQueue.entries
    rw [← List.append_assoc, ← List.append_assoc]
    exact List.perm_append_comm.append_right _
  have known : ∀ a ∈ s.saves[c].toList ++ s.queues[c].behind, s.inTable a := fun a ha => by
    rcases List.mem_append.mp ha with ha | ha
    · exact ⟨_, _, save ha⟩
    · exact entry (mem_entries.mpr (.inr ha))
  unfold Machine.dissolveLots
  extract_lets q saved s₁ s₂
  have finish {u : State} (hu : Loose F (saved.toList ++ q.behind) u) (hin : ∀ a, s.inTable a → u.inTable a) (hn : (saved.toList ++ q.behind).Nodup) :
      Loose F [] ((saved.toList ++ q.behind).foldl (fun s a => s.toWaiting a) u) := by
    refine toWaitingAll (X := []) ?_ ?_ fun a ha => hin a (known a ha)
    · rw [List.append_nil]; exact hu
    · rw [List.append_nil]; exact hn
  show Loose F [] ((saved.toList ++ q.behind).foldl (fun s a => s.toWaiting a)
    (match q.current with | none => s₁ | some id => if b then s₁.moveLot id .held .absent else s₁.toWaiting id))
  split
  next hc =>
    rw [hc] at hands nodup
    exact finish hands (fun _ ha => ha) nodup
  next id hc =>
    have here : s₁.inTable id := entry (mem_entries.mpr (.inl hc))
    rw [hc] at hands nodup
    obtain ⟨hid, nodup⟩ := List.nodup_cons.mp nodup
    split
    · exact finish (rest hands (.inl rfl)) (fun _ ha => inTable_moveLot.mpr ha) nodup
    · exact finish (toWaiting hands hid here) (fun _ ha => inTable_toWaiting.mpr ha) nodup

theorem dissolveRest {x : DissolveCause} {b : Bool} (h : Loose F [] s) : Loose F [] (dissolveRest c x b s).1 := by
  have calm := steady_loose F []
  unfold Machine.dissolveRest
  split
  · exact h
  · extract_lets s₁ s₂ s₃ s₄
    have h₁ : Loose F [] s₁ := h.dissolveLots
    clear_value s₁
    have h₂ : Loose F [] s₂ := calm.reform (calm.setRequest h₁) fun _ h => by simp at h
    have h₃ : Loose F [] s₃ := calm.same h₂ rfl
    dsimp only
    exact calm.trigger (calm.place h₃)

/-- R71: a drain for preemption begins while the save context is empty. -/
theorem enterDrain {x : Purpose} (h : Loose F X s) (hv : s.saves[c] = none) : Loose F X (enterDrain c x s).1 := by
  have calm := steady_loose F X
  unfold Machine.enterDrain
  split
  · exact h
  · extract_lets s₁ s₂ r
    have h₁ : Loose F X s₁ := h.modCellRec fun _ _ _ => hv
    have h₂ : Loose F X s₂ := calm.reportCell (calm.send h₁)
    dsimp only
    exact calm.leaveRunning h₂

theorem drainCell {x : Purpose} (h : Loose F X s) (hv : s.saves[c] = none) : Loose F X (drainCell c x s).1 := by
  unfold Machine.drainCell
  repeat' split
  · exact h
  · exact h.enterDrain hv
  · exact h

end Loose

/-! ## Takings -/

/-- A notice can be delivered: it is fair, or it acts for preemption on a cell whose save context is empty. -/
def Ready (F : List Nat) (s : State) (n : Notice) : Prop :=
  n.fair F ∨ ∃ c : CellNo, s.saves[c] = none ∧ (n = .drain c .preempt ∨ ∃ x, n = .leave c .saved x)

/-- The first notice can be delivered, and those behind it in any state. -/
def Due (F : List Nat) (s : State) : List Notice → Prop
  | [] => True
  | n :: ns => Ready F s n ∧ Fair F ns

theorem Fair.due {ns : List Notice} (h : Fair F ns) : Due F s ns := by
  cases ns with
  | nil => trivial
  | cons n ns => exact ⟨.inl (fair_cons.mp h).1, (fair_cons.mp h).2⟩

theorem Due.append {ms ns : List Notice} (hm : Due F s ms) (hn : Fair F ns) : Due F s (ms ++ ns) := by
  cases ms with
  | nil => exact hn.due
  | cons m ms => exact hm.imp_right fun h => fair_append.mpr ⟨h, hn⟩

/-- The delivery of a notice keeps the places. -/
theorem Loose.deliver {n : Notice} (h : Loose F [] s) (hn : Ready F s n) : Loose F [] (deliver n s).1 := by
  have calm := steady_loose F []
  cases n with
  | refresh c => exact calm.refreshCell h
  | eligibility c => exact h.eligibilityChanged
  | leave c d x =>
    refine h.leaveCell ?_
    rcases hn with hd | ⟨c', hv, hd | ⟨x, hd⟩⟩
    · obtain hd | hd | hd := hd <;> simp [hd]
    · cases hd
    · cases hd; exact .inr (.inr (.inr ⟨rfl, hv⟩))
  | fill c b => exact h.fillEntry
  | start c => exact calm.startLot h
  | feed c => exact calm.feedCell h
  | drain c x =>
    rcases hn with hx | ⟨c', hv, hd | ⟨x, hd⟩⟩
    · exact calm.drainCell hx h
    · cases hd
      exact h.drainCell hv
    · cases hd
  | countsLost c => exact calm.loseCounts h
  | preemptCheck c => exact Steady.checkPreempt h
  | complete n => exact Steady.judgeComplete h
  | raise q => exact h.raiseHold
  | closeStep c => exact calm.closeStep h
  | reconcile c => exact calm.reconcileStep h
  | closeRecord c => exact calm.closeRecord h
  | closeMove c x => exact calm.closeMove h
  | tallyFreed => exact calm.tallyFreed h
  | consult p => exact calm.consultMargin h
  | testerTold p => exact h
  | service p => exact calm.serve h
  | judgeClaim p => exact calm.judgeClaim h
  | retryClaims n => exact h
  | dissolve c x => exact calm.dissolveCell h
  | dissolveRest c x b => exact h.dissolveRest
  | monitor c i => exact calm.monitorSite h
  | evaluate c n i => exact calm.evaluateRunning h
  | evaluated c n => exact calm.countEvaluation h
  | tallyReport c n => exact calm.reportTally h
  | passEnd => exact calm.endPass h
  | dropRest n => exact h.dropRest (hn.resolve_right fun ⟨_, _, hd⟩ => by rcases hd with hd | ⟨_, hd⟩ <;> cases hd)
  | disposed q d => exact (calm.reportCleared h).returnLot

theorem due_deliver (F : List Nat) (n : Notice) (s : State) : Due F (deliver n s).1 (deliver n s).2 := by
  by_cases hn : ∃ c, n = .preemptCheck c
  · obtain ⟨c, rfl⟩ := hn
    obtain ⟨hs, hn | ⟨hv, hn | hn⟩⟩ := checkPreempt_told c s
    · show Due F _ (checkPreempt c s).2
      rw [hn]; trivial
    · show Due F (checkPreempt c s).1 (checkPreempt c s).2
      rw [hs, hn]; exact ⟨.inr ⟨c, hv, .inl rfl⟩, fair_nil⟩
    · show Due F (checkPreempt c s).1 (checkPreempt c s).2
      rw [hs, hn]; exact ⟨.inr ⟨c, hv, .inr ⟨_, rfl⟩⟩, fair_nil⟩
  · exact (fair_deliver fun c hc => hn ⟨c, hc⟩).due

/-- The notices of a taking keep the places. -/
theorem Loose.run {fuel : Nat} {ns : List Notice} {t : State} (h : Loose F [] s) (hn : Due F s ns) (ht : run fuel ns s = some t) :
    Loose F [] t := by
  induction fuel generalizing ns s with
  | zero =>
    cases ns with
    | nil => cases ht; exact h
    | cons n ns => cases ht
  | succ fuel ih =>
    cases ns with
    | nil => cases ht; exact h
    | cons n ns => exact ih (h.deliver hn.1) ((due_deliver F n s).append hn.2) ht

end
end Sys2Proof.Machine
end

