-- ==== Sys2Proof/Proofs/PlaceCommands.lean ====
section
-- In order: the check's memory bound leaves no room for a thread per proof.
set_option Elab.async false
/-! ## Every step keeps the places

The commands that move lots themselves, and with them the agreement of R8 with the orders of R62 and R63 as an invariant of every step. -/

namespace Sys2Proof.Machine

/-- The places agree, and the notices can be delivered. -/
def Placed (s : State) (ns : List Notice) : Prop := ∃ F, Loose F [] s ∧ Due F s ns

section
variable {s t : State} {F X Y : List Nat} {id : Nat} {st : LotState} {loc : Location} {c : CellNo}

namespace Loose

theorem placed {ns : List Notice} (h : Loose [] [] s) (hn : Fair [] ns := by exact fair_nil) : Placed s ns := ⟨[], h, hn.due⟩

/-- A lot in no queue and no save context is watched. -/
theorem watch (h : Loose [] [] s) (hid : ∀ {st loc}, s.holdsLot id st loc → freeState st) : Loose [id] [] s where
  stands := h.stands
  listed := h.listed
  nodup := h.nodup
  keys := h.keys
  saves := h.saves
  free ha := by rw [List.mem_singleton] at ha; subst ha; exact hid

theorem keyed_listed (hk : s.keyed id) :
    Listed s id .waiting .absent ∨ ∃ c n, Listed s id .queued (.queue c (n + 1)) := by
  rcases hk with hk | ⟨c, hk⟩
  · exact .inl (.wait hk)
  · obtain ⟨n, hn⟩ := List.mem_iff_getElem?.mp hk
    exact .inr ⟨c, n, .behind hn⟩

/-! ### Resets -/

theorem empty (hl : s.lots = []) (hq : s.queues = Vector.replicate 16 {}) (hv : s.saves = Vector.replicate 16 none)
    (hw : s.waitList = []) : Loose [] [] s := by
  have queue (c : CellNo) : s.queues[c] = {} := by rw [hq]; simp
  have save (c : CellNo) : s.saves[c] = none := by rw [hv]; simp
  refine ⟨?_, ?_, by rw [hw]; exact .nil, ⟨by unfold State.waitSorted; rw [hw]; exact .nil, fun c => by rw [queue]; exact .nil⟩,
    fun c _ _ _ => save c, nofun⟩
  · rintro a _ _ ⟨l, hf, -⟩
    unfold State.lot? at hf; rw [hl] at hf; cases hf
  · rintro a _ _ (ha | ha | ha | ha)
    · rw [hw] at ha; cases ha
    · rw [queue] at ha; cases ha
    · rw [queue] at ha; cases ha
    · rw [save] at ha; cases ha

theorem samplePresence (h : Loose [] [] s) : Loose [] [] (samplePresence s) := by
  have calm := steady_loose [] []
  exact Steady.foldl (fun h => Steady.ite (calm.presenceRose h) h) h

theorem restartFloor (s : State) : Loose [] [] (restartFloor s) := by
  have calm := steady_loose [] []
  have idled {t : State} {c : CellNo} (ht : Loose [] [] t) : Loose [] [] (idleCell t c) := by
    have hf : Loose [] [] (t.modCell c Cell.floorReset) := calm.modCell_purpose ht fun _ => nofun
    unfold idleCell; dsimp only
    split
    · exact ht
    · exact Steady.ite hf (calm.reportCell hf)
  exact Steady.foldl idled (empty rfl rfl rfl rfl)

/-! ### Lots that come and go -/

/-- R6: a lot joins the table and the wait list. -/
theorem enterLot {l : Lot} (h : Loose [] [] s) (hnew : s.lot? l.id = none) (hl : l.state = .waiting ∧ l.location = .absent) :
    Loose [] [] (enterLot l s) := by
  let u : State := { s with lots := insertAsc Lot.id l s.lots, entrySeq := s.entrySeq + 1 }
  have found (a : Nat) : u.lot? a = if l.id = a then some l else s.lot? a := find_insertAsc _ _ _ _ fun x hx he => by
    have := List.find?_eq_none.mp hnew x hx
    simp [he] at this
  have here : u.holdsLot l.id .waiting .absent := ⟨l, by rw [found, if_pos rfl], hl⟩
  have old {a : Nat} {st : LotState} {loc : Location} (ha : l.id ≠ a) : u.holdsLot a st loc ↔ s.holdsLot a st loc := by
    unfold State.holdsLot; rw [found, if_neg ha]
  have listed {a : Nat} {st : LotState} {loc : Location} (ha : Listed s a st loc) : l.id ≠ a := by
    rintro rfl
    obtain ⟨-, m, hm, -⟩ := h.listed ha
    rw [hnew] at hm; cases hm
  have same {a : Nat} {st : LotState} {loc : Location} : Listed u a st loc ↔ Listed s a st loc := listed_congr rfl rfl rfl
  have entered : Loose [] [l.id] u := by
    refine ⟨fun {a} _ _ ha hX => ?_, fun {a} _ _ ha => ?_, h.nodup, ?_, h.saves, nofun⟩
    · have hne : l.id ≠ a := by simpa [eq_comm] using hX
      exact (h.stands ((old hne).mp ha) List.not_mem_nil).imp_left same.mpr
    · have hne := listed (same.mp ha)
      exact ⟨by simpa [eq_comm] using hne, (old hne).mpr (h.listed (same.mp ha)).2⟩
    · refine inKeyOrder_of_sublist h.keys (.refl _) (fun _ => .refl _) fun a ha => ?_
      have hne : l.id ≠ a := by
        rcases keyed_listed ha with hl | ⟨_, _, hl⟩
        · exact listed (same.mp hl)
        · exact listed (same.mp hl)
      unfold State.waitKeyOf; rw [found, if_neg hne]
  exact (steady_loose [] []).place (entered.leaveWait_inHand.joinWait List.not_mem_nil here)

/-- R160: the lots of a released group leave the table. -/
theorem releaseLots {ids : List Nat} (h : Loose [] [] s) (hids : ∀ {a st loc}, a ∈ ids → s.holdsLot a st loc → st = .complete) :
    Loose [] [] (ids.foldl releaseLot s) := by
  induction ids generalizing s with
  | nil => exact h
  | cons id ids ih =>
    rw [List.foldl_cons]
    unfold releaseLot
    split
    · exact ih h fun ha => hids (.tail _ ha)
    next l hl =>
      have held : s.holdsLot id l.state l.location := ⟨l, hl, rfl, rfl⟩
      have gone := (h.pickUp held (.inr (hids List.mem_cons_self held))).discard
      refine ih ((steady_loose [] []).place gone) fun {a st loc} ha ht => ?_
      obtain ⟨m, hm, hst⟩ := (holdsLot_of_lots (t := place _ _) (s := { s with lots := s.lots.filter (·.id != id) })
        (by unfold place; split <;> rfl)).mp ht
      refine hids (.tail _ ha) ⟨m, ?_, hst⟩
      have hne : a ≠ id := by
        rintro rfl
        rw [State.lot?, List.find?_eq_none.mpr fun l hl => by simpa using (List.mem_filter.mp hl).2] at hm
        cases hm
      rw [← hm]
      unfold State.lot?
      rw [List.find?_filter]
      congr 1; funext l
      by_cases hl : l.id = a
      · simp [hl, hne]
      · simp [hl]

theorem releaseGroup {g : Fin 16} (h : Loose [] [] s) (hg : s.firstUnfit g = none) : Loose [] [] (releaseGroup g s) := by
  have calm := steady_loose [] []
  refine calm.place (calm.resetEntrySeq (calm.modGroup (h.releaseLots ?_)))
  rintro a _ _ ha ⟨l, hl, rfl, rfl⟩
  have fit := List.findSome?_eq_none_iff.mp hg _ (List.mem_map_of_mem (List.mem_filterMap.mpr ⟨a, ha, hl⟩))
  by_contra hst
  simp [State.releaseCause, hst] at fit

/-! ### Priorities (R17) -/

/-- R17, R62: a WAITING lot takes the place of its new key. -/
theorem resort_waiting {f : Lot → Lot} (h : Loose [] [] s) (hs : s.holdsLot id .waiting .absent)
    (hf : ∀ l : Lot, (f l).id = l.id ∧ (f l).state = l.state ∧ (f l).location = l.location) :
    Loose [] [] { s.modLot id f with waitList := insertAsc (s.modLot id f).waitKeyOf id (s.waitList.filter (· != id)) } := by
  have changed : Loose [] [id] ((s.leaveWait id).modLot id f) := by
    exact (h.leaveWait_waiting hs).inHand List.mem_cons_self (fun _ => holdsLot_samePlace hf)
      (fun a ha => waitKeyOf_modLot (fun l => (hf l).1) ha) rfl rfl rfl h.saves nofun
  refine changed.putWaiting List.not_mem_nil ?_
  exact (holdsLot_samePlace hf).mpr hs

/-- R17, R63: a QUEUED lot takes the place of its new key behind entry 0. -/
theorem resort_queued {f : Lot → Lot} (h : Loose [] [] s) (hid : id ∈ s.queues[c].behind)
    (hf : ∀ l : Lot, (f l).id = l.id ∧ (f l).state = l.state ∧ (f l).location = l.location) :
    Loose [] [] (((s.modLot id f).modQueue c fun q => q.without id).insertBehind c id) := by
  have noCurrent : s.queues[c].current ≠ some id := fun hc => by
    obtain ⟨n, hb⟩ := h.behind hid
    cases (holdsLot_unique (h.current hc) hb).1
  have mem := mem_entries_without noCurrent
  let key : Nat → Nat := ((s.modLot id f).modQueue c fun q => q.without id).waitKeyOf
  have keyOf {a : Nat} (ha : a ≠ id) : key a = s.waitKeyOf a := waitKeyOf_modLot (fun l => (hf l).1) ha
  let q : DispatchQueue := { s.queues[c].without id with behind := insertAsc key id (s.queues[c].without id).behind }
  have entries (a : Nat) : a ∈ q.entries ↔ a ∈ s.queues[c].entries := by
    have split : a ∈ q.entries ↔ a = id ∨ a ∈ (s.queues[c].without id).entries := by
      rw [mem_entries, mem_entries]
      show _ ∨ a ∈ insertAsc key id _ ↔ _
      rw [mem_insertAsc]
      exact or_left_comm
    rw [split, mem]
    by_cases ha : a = id
    · subst ha; exact iff_of_true (.inl rfl) (mem_entries.mpr (.inr hid))
    · simp [ha]
  have hands : Loose [] s.queues[c].entries ((s.bare c).modLot id f) := by
    have bare := h.bare c
    rw [List.append_nil] at bare
    exact bare.inHand (mem_entries.mpr (.inr hid)) (fun _ => holdsLot_samePlace hf)
      (fun a ha => waitKeyOf_modLot (fun l => (hf l).1) ha) rfl rfl rfl bare.saves nofun
  have self : ((s.modLot id f).modQueue c fun q => q.without id).queues[c] = s.queues[c].without id := modQueue_self _ c _
  have fresh : id ∉ (s.queues[c].without id).entries := fun hm => ((mem id).mp hm).2 rfl
  unfold State.insertBehind
  refine fill (q := q) (Y := s.queues[c].entries) ?_ ?_ ?_ (fun a ha => ?_) (fun a ha => ?_) ?_ (fun a => by simp [entries])
    (fun a _ => List.not_mem_nil) fun a _ => List.not_mem_nil
  · rw [bare_modQueue, bare_modQueue]; exact hands
  · rw [modQueue_self, self]
  · have nodup : (s.queues[c].without id).entries.Nodup :=
      (h.entries_nodup c).sublist ((List.Sublist.refl _).append List.filter_sublist)
    refine (List.Perm.nodup_iff ?_).mpr (List.nodup_cons.mpr ⟨fresh, nodup⟩)
    exact ((insertAsc_perm key id _).append_left _).trans List.perm_middle
  · exact ⟨_, (holdsLot_samePlace hf).mpr (h.current ha)⟩
  · have hq : a ∈ s.queues[c].behind := by
      rcases (mem_insertAsc _ _ _ _).mp ha with rfl | ha
      · exact hid
      · exact (List.mem_filter.mp ha).1
    obtain ⟨n, hb⟩ := h.behind hq
    exact ⟨_, (holdsLot_samePlace hf).mpr hb⟩
  · exact pairwise_reinsert (h.keys.2 c) fun a ha => keyOf ha

/-- R17: the priority of a lot changes, and the lot takes the place of its new key. -/
theorem resort {l : Lot} {x : Priority} (h : Loose [] [] s) (hl : s.lot? l.id = some l) :
    Loose [] [] (resort l (s.modLot l.id fun l => { l with priority := x })) := by
  have held : s.holdsLot l.id l.state l.location := ⟨l, hl, rfl, rfl⟩
  have kept (m : Lot) : ({ m with priority := x } : Lot).id = m.id ∧ ({ m with priority := x } : Lot).state = m.state
      ∧ ({ m with priority := x } : Lot).location = m.location := ⟨rfl, rfl, rfl⟩
  unfold Machine.resort
  split
  next hst =>
    exact h.resort_waiting (h.waits List.not_mem_nil (hst ▸ held)) kept
  next c n hst hloc =>
    rw [hst, hloc] at held
    exact h.resort_queued (h.queued List.not_mem_nil held) kept
  next hw hq =>
    refine h.congr (holdsLot_samePlace kept) (fun a ha => waitKeyOf_modLot (fun l => (kept l).1) ?_) rfl rfl rfl h.saves
    rintro rfl
    rcases keyed_listed ha with ha | ⟨d, n, ha⟩
    · exact hw (holdsLot_unique held (h.listed ha).2).1
    · obtain ⟨hst, hloc⟩ := holdsLot_unique held (h.listed ha).2
      exact hq d (n + 1) hst hloc

/-! ### The assignment pass (R66 to R68) -/

theorem noteChanged {b : State} (h : Loose F X s) : Loose F X (noteChanged c b s) :=
  Steady.ite h ((steady_loose F X).same h rfl)

/-- R67: a WAITING lot is placed at entry 0 or behind it. -/
theorem placeLot (h : Loose [] [] s) (hs : s.holdsLot id .waiting .absent) : Loose [] [] (placeLot c id s).1 := by
  have hand : Loose [] [id] (s.leaveWait id) := h.leaveWait_waiting hs
  have known : (s.leaveWait id).inTable id := ⟨_, _, hs⟩
  unfold Machine.placeLot
  split
  next hc => exact hand.putCurrent List.not_mem_nil List.not_mem_nil known hc
  next cur hc =>
    extract_lets u n
    let q : DispatchQueue := { s.queues[c] with behind := insertAsc s.waitKeyOf id s.queues[c].behind }
    have self : u.queues[c] = q := modQueue_self _ c _
    have fresh : id ∉ s.queues[c].entries := fun hm => (hand.entry (c := c) hm).1 List.mem_cons_self
    have entries (a : Nat) : a ∈ q.entries ↔ a ∈ s.queues[c].entries ∨ a = id := by
      rw [mem_entries, mem_entries]
      show _ ∨ a ∈ insertAsc _ id _ ↔ _
      rw [mem_insertAsc, or_comm (a := a = id), or_assoc]
    have bared : Loose [] (s.queues[c].entries ++ [id]) ((u.moveLot id .queued (.queue c n)).bare c) := by
      rw [bare_moveLot]
      show Loose [] _ (State.moveLot (((s.leaveWait id).modQueue c _).bare c) id .queued _)
      rw [bare_modQueue]
      exact moveLot (hand.bare c) (by simp) nofun
    have queued {a : Nat} {loc : Location} {st : LotState} (hne : a ≠ id) :
        (u.moveLot id .queued (.queue c n)).holdsLot a st loc ↔ s.holdsLot a st loc := by
      rw [holdsLot_moveLot, if_neg hne]; rfl
    refine noteChanged (fill (q := q) bared (by rw [moveLot_queues]; exact self) ?_ (fun a ha => ?_) (fun a ha => ?_) ?_
      (fun a => by simp [entries]) (fun a _ => List.not_mem_nil) fun a _ => List.not_mem_nil)
    · refine (List.Perm.nodup_iff ?_).mpr (List.nodup_cons.mpr ⟨fresh, h.entries_nodup c⟩)
      exact ((insertAsc_perm s.waitKeyOf id _).append_left _).trans List.perm_middle
    · have hne : a ≠ id := by rintro rfl; exact fresh (mem_entries.mpr (.inl ha))
      exact ⟨_, (queued hne).mpr (h.current ha)⟩
    · rcases (mem_insertAsc s.waitKeyOf id a _).mp ha with rfl | ha
      · exact ⟨_, holdsLot_moveLot_self known⟩
      · have hne : a ≠ id := fun e => fresh (mem_entries.mpr (.inr (e ▸ ha)))
        obtain ⟨m, hb⟩ := h.behind ha
        exact ⟨_, (queued hne).mpr hb⟩
    · simp only [waitKeyOf_moveLot]
      exact sorted_insertAsc s.waitKeyOf id _ (h.keys.2 c)

/-- A lot that does not stand behind entry 0 is not touched by the return of one that does. -/
theorem returnQueued_other {n : Nat} (hn : n ∈ s.queues[c].behind) (hid : id ∉ s.queues[c].entries) :
    (Machine.returnQueued c s n).lot? id = s.lot? id := by
  have hne : id ≠ n := by rintro rfl; exact hid (mem_entries.mpr (.inr hn))
  unfold Machine.returnQueued
  rw [toWaiting_lot _ _ _ hne]
  refine (renumber_other (s := s.modQueue c fun q => q.without n) (c := c) fun hm => hid ?_).trans rfl
  rw [modQueue_self] at hm
  rcases mem_entries.mp hm with hm | hm
  · exact mem_entries.mpr (.inl hm)
  · exact mem_entries.mpr (.inr (List.mem_filter.mp hm).1)

/-- R68: a bumped lot returns to the wait list, and the HOT lot takes its place. -/
theorem bumpFor {old : Nat} (h : Loose [] [] s) (hs : s.holdsLot id .waiting .absent) (ho : s.bumped? c = some old) :
    Loose [] [] (bumpFor c old id s) := by
  have hb : old ∈ s.queues[c].behind := (List.mem_filter.mp (List.mem_of_getLast? ho)).1
  have fresh : id ∉ s.queues[c].entries := fun hm => by
    rcases mem_entries.mp hm with hm | hm
    · cases (holdsLot_unique hs (h.current hm)).1
    · obtain ⟨n, hm⟩ := h.behind hm
      cases (holdsLot_unique hs hm).1
  refine noteChanged ((h.returnQueued hb).placeLot ?_)
  unfold State.holdsLot
  rw [returnQueued_other hb fresh]
  exact hs

end Loose

theorem consultAll_calm {P : State → Prop} (hP : Steady P) (h : P s) : Calm P (consultAll s).1 (consultAll s).2 := by
  unfold consultAll
  generalize allCells = cs
  have run (cs : List CellNo) (r : Told) (hr : Calm P r.1 r.2) : Calm P
      (cs.foldl (fun r c => match r.1.cell? c with
        | none => r
        | some k =>
          let m := consultMargin k.testerPort r.1
          (m.1, r.2 ++ m.2)) r).1
      (cs.foldl (fun r c => match r.1.cell? c with
        | none => r
        | some k =>
          let m := consultMargin k.testerPort r.1
          (m.1, r.2 ++ m.2)) r).2 := by
    induction cs generalizing r with
    | nil => exact hr
    | cons c cs ih =>
      refine ih _ ?_
      dsimp only
      split
      · exact hr
      · exact ⟨hP.consultMargin hr.1, fair_append.mpr ⟨hr.2, fair_consultMargin _⟩⟩
  exact run cs (s, []) ⟨h, fair_nil⟩

namespace Loose

theorem judgeWaiting {l : Lot} (h : Loose [] [] s) (hl : s.holdsLot l.id .waiting .absent) :
    Calm (Loose [] []) (judgeWaiting l s).1 (judgeWaiting l s).2 := by
  unfold Machine.judgeWaiting
  extract_lets m u cells
  obtain ⟨hu, hm⟩ : Calm (Loose [] []) u m.2 := consultAll_calm (steady_loose [] []) h
  have here : u.holdsLot l.id .waiting .absent := (consultAll_calm (steady_standsAt _ _ _) hl).1
  clear_value cells u m
  split
  · refine ⟨hu.placeLot here, fair_append.mpr ⟨?_, hm⟩⟩
    unfold Machine.placeLot
    split <;> simp [Notice.fair]
  split
  · split
    · split
      next old ho => exact ⟨hu.bumpFor here ho, hm⟩
      · exact ⟨hu, hm⟩
    · exact ⟨hu, hm⟩
  · exact ⟨hu, hm⟩

theorem passStep (h : Loose [] [] s) : Calm (Loose [] []) (passStep s).1 (passStep s).2 := by
  unfold Machine.passStep
  split
  · exact ⟨h, by simp [Notice.fair]⟩
  next id rest _ =>
    extract_lets x u
    have hu : Loose [] [] u := (steady_loose [] []).same h rfl
    clear_value u
    split
    · exact ⟨hu, by simp [Notice.fair]⟩
    next l hl =>
      split
      next hst =>
        have hid : l.id = id := by simpa using List.find?_some hl
        have held : u.holdsLot l.id .waiting l.location := ⟨l, hid ▸ hl, hst, rfl⟩
        obtain ⟨hj, hn⟩ := hu.judgeWaiting (hu.waits List.not_mem_nil held)
        dsimp only
        exact ⟨hj, fair_append.mpr ⟨hn, by simp [Notice.fair]⟩⟩
      · exact ⟨hu, by simp [Notice.fair]⟩

/-! ### Counts (R51) -/

theorem takeCounts {p : Port} {x : Counts} (h : Loose [] [] s) : Placed (takeCounts p c x s).1 (takeCounts p c x s).2 := by
  have calm := steady_loose [] []
  have kept : Loose [] [] (Machine.takeCounts p c x s).1 := calm.takeCounts h
  refine ⟨[], kept, ?_⟩
  unfold Machine.takeCounts
  split
  · trivial
  next k hk =>
    split
    · trivial
    split
    · trivial
    extract_lets exceeds u raised
    have hr : Fair [] raised := by
      show Fair [] (if _ then _ else _)
      split <;> simp [Notice.fair]
    split
    · exact (fair_append.mpr ⟨hr, by simp [Notice.fair]⟩ : Fair [] _).due
    split
    · split
      · exact (fair_append.mpr ⟨hr, by simp [Notice.fair]⟩ : Fair [] _).due
      · refine ⟨?_, fair_nil⟩
        unfold State.drainDest
        split
        · exact .inl (.inr (.inl rfl))
        split
        next hp => exact .inr ⟨c, h.saves c k hk hp.1, .inr ⟨_, rfl⟩⟩
        · exact .inl (.inl rfl)
    · exact hr.due

end Loose

/-! ### Commands -/

theorem execLotEnter_placed (h : Loose [] [] s) : Ends Placed (execLotEnter s) := by
  refine ends_takeRequest h.placed fun b => ?_
  dsimp only
  split
  · exact ends_refuse h.placed
  split
  · exact ends_refuse h.placed
  split
  · exact ends_refuse h.placed
  next hnew =>
    split
    · exact ends_refuse h.placed
    split
    · exact ends_refuse h.placed
    · exact ends_answered (h.enterLot (Option.not_isSome_iff_eq_none.mp hnew) ⟨rfl, rfl⟩).placed

theorem lot_id {l : Lot} (h : s.lot? id = some l) : l.id = id := by simpa using List.find?_some h

theorem execLotPriority_placed (h : Loose [] [] s) : Ends Placed (execLotPriority s) := by
  refine ends_takeRequest h.placed fun b => ?_
  split
  · exact ends_refuse h.placed
  split
  · exact ends_refuse h.placed
  next l hl =>
    split
    · exact ends_refuse h.placed
    split
    · exact ends_answered h.placed
    · refine ends_answered (Loose.placed ((steady_loose [] []).trigger (h.resort (lot_id hl ▸ hl))) ?_)
      unfold priorityChecks
      split
      · split <;> simp [Notice.fair]
      · exact fair_nil

theorem execLotDrop_placed (h : Loose [] [] s) : Ends Placed (execLotDrop s) := by
  refine ends_takeRequest h.placed fun b => ?_
  split
  · exact ends_refuse h.placed
  next l hl =>
    split
    · exact ends_refuse h.placed
    next hst =>
      have calm := steady_loose [l.id] []
      have watched : Loose [l.id] [] s := h.watch fun hs => by
        have := (holdsLot_unique (s := s) hs ⟨l, lot_id hl ▸ hl, rfl, rfl⟩).1
        subst this
        cases hs : l.state <;> simp_all [freeState]
      refine ends_answered ⟨[l.id], calm.dropTally (calm.leaveGroup watched), Fair.due (fair_append.mpr ⟨fair_dropTally l, ?_⟩)⟩
      simp [Notice.fair]

theorem execRetestStep_placed (h : Loose [] [] s) : Ends Placed (execRetestStep s) := by
  have calm := steady_loose [] []
  refine ends_takeRequest h.placed fun b => ?_
  dsimp only
  split
  · exact ends_refuse h.placed
  split
  · exact ends_refuse h.placed
  next x _ =>
    split
    · exact ends_refuse h.placed
    next l hl =>
      split
      · exact ends_refuse h.placed
      split
      · exact ends_refuse h.placed
      · have kept {P : State → Prop} (hP : Steady P) (hs : P s) :
            P ((dropTally l (deleteHold x s)).1.modLot l.id (·.retestFrom (u32 b 3))) :=
          hP.lot (fun _ => ⟨rfl, rfl, rfl, rfl, rfl⟩) (hP.dropTally (hP.deleteHold hs))
        refine ends_answered (Loose.placed ?_ (fair_append.mpr ⟨fair_dropTally l, by simp [Notice.fair]⟩))
        have changed := kept calm h
        unfold rejoin
        split
        next hst =>
          have waits := h.waits (id := l.id) List.not_mem_nil ⟨l, lot_id hl ▸ hl, hst, rfl⟩
          have still := kept (steady_standsAt _ _ _) waits
          exact (changed.leaveWait_waiting still).joinWait List.not_mem_nil still
        · exact changed

theorem execHoldDisposeOverflow_placed (h : Loose [] [] s) : Ends Placed (execHoldDisposeOverflow s) := by
  have calm := steady_loose [] []
  refine ends_takeRequest h.placed fun b => ?_
  split
  · exact ends_refuse h.placed
  split
  · exact ends_refuse h.placed
  split
  · exact ends_refuse h.placed
  split
  · exact ends_refuse h.placed
  · refine ends_answered (Loose.placed (calm.reportCleared ?_).returnLot)
    exact calm.lot (fun _ => ⟨rfl, rfl, rfl, rfl, rfl⟩) h

theorem execGroupRelease_placed (h : Loose [] [] s) : Ends Placed (execGroupRelease s) := by
  refine ends_takeRequest h.placed fun b => ?_
  split
  · exact ends_refuse h.placed
  split
  · exact ends_refuse h.placed
  split
  · exact ends_answered h.placed
  split
  · exact ends_answered h.placed
  next hg => exact ends_answered (h.releaseGroup hg).placed

theorem execHCounts_placed {p : Port} {m : CountsMsg} (h : Loose [] [] s) : Ends Placed (execHCounts p m s) := by
  have calm := steady_loose [] []
  have ended {b : Bool} {r : Told} (hr : Placed r.1 r.2) : Ends Placed (takeHandler p b s r) := by
    unfold takeHandler takeMessage
    repeat' split
    · exact ends_next h.placed
    · exact ends_settle hr
    · exact ends_settle (calm.countIgnored h).placed
  unfold execHCounts
  split
  · exact ended h.placed
  · refine ended ?_
    unfold forCell
    split
    · exact h.takeCounts
    · exact (calm.countIgnored h).placed

/-- Every command ends in a state whose places agree, with notices that keep them. -/
theorem exec_placed {i : Instr} (h : Loose [] [] s) : Ends Placed (exec i s) := by
  have calm := steady_loose [] []
  cases hi : movesLots i with
  | false =>
    intro t ht
    obtain ⟨u, ns, v, ⟨hu, hn⟩, hv⟩ := calm.exec hi h t ht
    exact ⟨u, ns, v, hu.placed hn, hv⟩
  | true =>
    cases i with
    | powerOn a r x =>
      unfold exec execPowerOn
      exact ends_settle (Loose.samplePresence (.empty rfl rfl rfl rfl)).placed
    | restartFull a =>
      exact ends_takeRequest h.placed fun b => ends_answered (Loose.samplePresence (.empty rfl rfl rfl rfl)).placed
    | restartFloor =>
      refine ends_takeRequest h.placed fun b => ?_
      split
      · exact ends_answered (Loose.restartFloor s).placed
      · exact ends_refuse h.placed
    | lotEnter => exact execLotEnter_placed h
    | lotPriority => exact execLotPriority_placed h
    | lotDrop => exact execLotDrop_placed h
    | retestStep => exact execRetestStep_placed h
    | holdDisposeOverflow => exact execHoldDisposeOverflow_placed h
    | groupRelease => exact execGroupRelease_placed h
    | assignmentPass =>
      unfold exec execAssignmentPass
      dsimp only
      split
      · obtain ⟨hp, hn⟩ := h.passStep
        exact ends_settle (hp.placed hn)
      split
      · obtain ⟨hp, hn⟩ := (calm.same (t := beginPass s) h rfl).passStep
        exact ends_settle (hp.placed hn)
      · exact ends_next h.placed
    | hCounts p m => exact execHCounts_placed h
    | _ => exact Bool.noConfusion (show false = true from hi)

/-- Every step keeps the places. -/
theorem step_loose (h : Loose [] [] s) (hst : step s = .next t) : Loose [] [] t := by
  unfold step at hst
  split at hst
  · cases hst
    exact h.congr Iff.rfl (fun _ _ => rfl) rfl rfl rfl h.saves
  next i rest _ =>
    obtain ⟨u, ns, v, ⟨F, hu, hn⟩, hv, hsame⟩ := exec_placed (s := { s with pending := rest }) ((steady_loose [] []).same h rfl) t hst
    exact (steady_loose [] []).same (hu.run hn hv).unwatch hsame

end
end Sys2Proof.Machine

section
open Sys2Proof.Machine

/-- Settles O11: the agreement of the places, read lot by lot, is kept by every taking; that a lot in hand is in no list carries it
through the moves. -/
theorem placesStayInAgreement : Obligations.PlacesStayInAgreement := by
  intro s t sorted places keys saves h
  obtain ⟨-, ht, -⟩ := robust_tablesSorted.step sorted h
  obtain ⟨-, hs, -⟩ := sorted
  exact (loose_iff ht).mp (step_loose ((loose_iff hs).mpr ⟨places, keys, saves⟩) h)

end
end

