-- ==== Sys2Proof/Proofs/Queries.lean ====
section
-- In order: the check's memory bound leaves no room for a thread per proof.
set_option Elab.async false
/-! ## The host's queries -/

namespace Sys2Proof.Machine

theorem cellOf_val (c : CellNo) : cellOf c.val = some c := dif_pos c.isLt

theorem cellOf_none {n : Nat} (h : 16 ≤ n) : cellOf n = none := dif_neg (by omega)

theorem groupOf_val (g : Fin 16) : groupOf (g.val + 1) = some g := dif_pos ⟨by omega, by omega⟩

theorem groupOf_none {n : Nat} (h : n = 0 ∨ 16 < n) : groupOf n = none := dif_neg (by omega)

section
variable {s : State} {b : List Byte}

/-- R15, R16: LOT_QUERY, of a lot and of the listing. -/
theorem lotQuery_answers (ha : s.asks Kind.lotQuery b) (hb : b.length = 8) :
    (u32 b 0 ≠ 0 → s.lot? (u32 b 0) = none → exec .lotQuery s = .next (s.replied (.plain .notFound)))
    ∧ (∀ l, u32 b 0 ≠ 0 → s.lot? (u32 b 0) = some l →
      exec .lotQuery s = .next (s.replied (.lot l (l.steps.toList.take (s.routeLength l)))))
    ∧ (u32 b 0 = 0 →
      exec .lotQueryListing s =
        .next (s.replied (.lots (((s.lots.filter fun l => decide (u32 b 4 < l.id)).take 64).map s.summary)
          (decide (64 < (s.lots.filter fun l => decide (u32 b 4 < l.id)).length))))) := by
  have fits : bodyFits Kind.lotQuery b = true := by simp [bodyFits, Kind.lotQuery, hb]
  refine ⟨fun h0 hl => ?_, fun l h0 hl => ?_, fun h0 => ?_⟩
  · refine (takeRequest_fits ha (by simp [h0]) fits).trans ?_
    rw [hl]; exact refuse_eq _ _
  · refine (takeRequest_fits ha (by simp [h0]) fits).trans ?_
    rw [hl]; exact answered_nil _ _
  · exact (takeRequest_fits ha (by simp [h0, hb]) fits).trans (answered_nil _ _)

/-- R128: TALLY_QUERY. -/
theorem tallyQuery_answers (ha : s.asks Kind.tallyQuery b) (hb : b.length = 4) :
    (u32 b 0 = 0 → exec .tallyQuery s = .next (s.replied (.plain .malformed)))
    ∧ (u32 b 0 ≠ 0 → s.lot? (u32 b 0) = none → exec .tallyQuery s = .next (s.replied (.plain .notFound)))
    ∧ (∀ l, u32 b 0 ≠ 0 → s.lot? (u32 b 0) = some l → s.tally? l.id = none →
      exec .tallyQuery s = .next (s.replied (.noTally l.state l.step)))
    ∧ (∀ l t, u32 b 0 ≠ 0 → s.lot? (u32 b 0) = some l → s.tally? l.id = some t →
      exec .tallyQuery s = .next (s.replied (.tally t (l.stepRec t.step).input t.final t.retested t.ratios))) := by
  have fits : bodyFits Kind.tallyQuery b = true := by simp [bodyFits, Kind.tallyQuery, hb]
  refine ⟨fun h0 => ?_, fun h0 hl => ?_, fun l h0 hl ht => ?_, fun l t h0 hl ht => ?_⟩
  · refine (takeRequest_fits ha (ofKind_self _ _) fits).trans ?_
    rw [if_pos h0]; exact refuse_eq _ _
  · refine (takeRequest_fits ha (ofKind_self _ _) fits).trans ?_
    rw [if_neg h0, hl]; exact refuse_eq _ _
  · refine (takeRequest_fits ha (ofKind_self _ _) fits).trans ?_
    rw [if_neg h0, hl]; simp [State.tallyReply, ht]
  · refine (takeRequest_fits ha (ofKind_self _ _) fits).trans ?_
    rw [if_neg h0, hl]; simp [State.tallyReply, ht]

/-- R139: HOLD_LIST. -/
theorem holdList_answers (ha : s.asks Kind.holdList b) (hb : b.length = 6) :
    (u32 b 0 ≠ 0 → s.lot? (u32 b 0) = none → exec .holdList s = .next (s.replied (.plain .notFound)))
    ∧ ((u32 b 0 = 0 ∨ (s.lot? (u32 b 0)).isSome) → exec .holdList s = .next (s.replied (s.holdReply (u32 b 0) (u16 b 4)))) := by
  have fits : bodyFits Kind.holdList b = true := by simp [bodyFits, Kind.holdList, hb]
  refine ⟨fun h0 hl => ?_, fun h => ?_⟩
  · refine (takeRequest_fits ha (ofKind_self _ _) fits).trans ?_
    rw [if_pos ⟨h0, by rw [hl]; rfl⟩]; exact refuse_eq _ _
  · refine (takeRequest_fits ha (ofKind_self _ _) fits).trans ?_
    rw [if_neg]
    · exact answered_nil _ _
    · rintro ⟨h0, hl⟩
      rw [Option.isNone_iff_eq_none] at hl
      simp [h0, hl] at h

/-- R59: CELL_QUERY. -/
theorem cellQuery_answers (ha : s.asks Kind.cellQuery b) (hb : b.length = 1) :
    (16 ≤ u8 b 0 → exec .cellQuery s = .next (s.replied (.plain .malformed)))
    ∧ (∀ c : CellNo, u8 b 0 = c.val →
      (s.cell? c = none → exec .cellQuery s = .next (s.replied (.cellFree s.cells[c].enable s.cells[c].preemptEnable)))
      ∧ (∀ k, s.cell? c = some k →
        exec .cellQuery s =
          .next (s.replied (.cell s.cells[c].enable s.cells[c].preemptEnable k (k.timers s.elapsed) (s.director c) s.queues[c]
            s.saves[c] (s.claimStatus k.handlerPort) (s.claimStatus k.handlerPort))))) := by
  have fits : bodyFits Kind.cellQuery b = true := by simp [bodyFits, Kind.cellQuery, hb]
  refine ⟨fun h => ?_, fun c hc => ?_⟩
  · refine (takeRequest_fits ha (ofKind_self _ _) fits).trans ?_
    rw [cellOf_none h]; exact refuse_eq _ _
  · have reply : exec .cellQuery s = .next (s.replied (s.cellReply c)) := by
      refine (takeRequest_fits ha (ofKind_self _ _) fits).trans ?_
      rw [hc, cellOf_val]; exact answered_nil _ _
    rw [reply]
    unfold State.cell? State.cellReply; dsimp only
    exact ⟨fun hk => by rw [hk], fun k hk => by rw [hk]⟩

/-- R158: GROUP_QUERY. -/
theorem groupQuery_answers (ha : s.asks Kind.groupQuery b) (hb : b.length = 1) :
    (u8 b 0 = 0 ∨ 16 < u8 b 0 → exec .groupQuery s = .next (s.replied (.plain .malformed)))
    ∧ (∀ g : Fin 16, u8 b 0 = g.val + 1 →
      exec .groupQuery s =
        .next (s.replied (if s.groups[g].opened then
            .group (g.val + 1) s.groups[g].product s.groups[g].allowExtended (s.groupLines g)
          else .groupFree))) := by
  have fits : bodyFits Kind.groupQuery b = true := by simp [bodyFits, Kind.groupQuery, hb]
  refine ⟨fun h => ?_, fun g hg => ?_⟩
  · refine (takeRequest_fits ha (ofKind_self _ _) fits).trans ?_
    rw [groupOf_none h]; exact refuse_eq _ _
  · refine (takeRequest_fits ha (ofKind_self _ _) fits).trans ?_
    rw [hg, groupOf_val]
    dsimp only
    cases s.groups[g].opened with
    | false => exact answered_nil _ _
    | true => exact answered_nil _ _

/-- R168: STATUS. -/
theorem status_answers (ha : s.asks Kind.status b) (hb : b.length = 2) :
    (u8 b 0 = 1 → u8 b 1 = 0 → exec .status s = .next (s.replied (.general s.general)))
    ∧ (u8 b 0 = 2 → u8 b 1 ≤ 31 →
      exec .status s =
        .next (s.replied (.ports (((s.ports.toList.zip s.strays.toList).drop (u8 b 1)).take 8) (decide (u8 b 1 + 8 < 32)))))
    ∧ (u8 b 0 = 3 → u8 b 1 ≤ 31 →
      exec .status s =
        .next (s.replied (.claims ((s.claims.drop (u8 b 1)).take 32) (decide (u8 b 1 + 32 < s.claims.length)))))
    ∧ (u8 b 0 = 4 → u8 b 1 ≤ 31 →
      exec .status s = .next (s.replied (.testers ((s.slots.toList.drop (u8 b 1)).take 8) (decide (u8 b 1 + 8 < 32)))))
    ∧ (u8 b 0 = 0 ∨ 4 < u8 b 0 ∨ 31 < u8 b 1 ∨ (u8 b 0 = 1 ∧ u8 b 1 ≠ 0) → exec .status s = .next (s.replied (.plain .malformed))) := by
  have fits : bodyFits Kind.status b = true := by simp [bodyFits, Kind.status, hb]
  have reply {r : Reply} (h : s.statusReply (u8 b 0) (u8 b 1) = some r) : exec .status s = .next (s.replied r) := by
    refine (takeRequest_fits ha (ofKind_self _ _) fits).trans ?_
    rw [h]; exact answered_nil _ _
  refine ⟨fun h₁ h₂ => reply ?_, fun h₁ h₂ => reply ?_, fun h₁ h₂ => reply ?_, fun h₁ h₂ => reply ?_, fun h => ?_⟩
  · simp [State.statusReply, h₁, h₂]
  · simp [State.statusReply, h₁, h₂, page]
  · simp [State.statusReply, h₁, h₂, page]
  · simp [State.statusReply, h₁, h₂, page]
  · have none : s.statusReply (u8 b 0) (u8 b 1) = none := by
      unfold State.statusReply
      split
      · exact if_neg (by omega)
      split
      · rfl
      · rw [if_neg (by omega), if_neg (by omega), if_neg (by omega)]
    refine (takeRequest_fits ha (ofKind_self _ _) fits).trans ?_
    rw [none]; exact refuse_eq _ _

end
end Sys2Proof.Machine

section
open Sys2Proof.Machine

/-- Settles O16, query by query. -/
theorem queriesAnswerFromState : Obligations.QueriesAnswerFromState :=
  fun _ _ => ⟨lotQuery_answers, tallyQuery_answers, holdList_answers, cellQuery_answers, groupQuery_answers, status_answers⟩

end
end

