-- ==== Sys2Proof/Proofs/Requests.lean ====
section
-- In order: the check's memory bound leaves no room for a thread per proof.
set_option Elab.async false
/-! ## Requests about products and lots -/

namespace Sys2Proof.Machine

section
variable {s : State} {b : List Byte}

/-! ### Looking a key up in a table -/

/-- The record with a key is replaced. -/
theorem find_replace {α : Type} (key : α → Nat) (y : α) (l : List α) (n : Nat) :
    (l.map fun x => if key x == key y then y else x).find? (fun x => key x == n) =
      if n = key y then (l.find? fun x => key x == n).map fun _ => y else l.find? fun x => key x == n := by
  induction l with
  | nil => simp
  | cons z zs ih =>
    rw [List.map_cons, List.find?_cons, List.find?_cons, ih]
    by_cases hz : key z = key y
    · by_cases hn : n = key y
      · simp [hz, hn]
      · simp [hz, hn, beq_eq_false_iff_ne.mpr (Ne.symm hn)]
    · by_cases hn : n = key y
      · simp [hn, beq_eq_false_iff_ne.mpr hz]
      · simp [hz, hn]

/-- The records with a key are removed. -/
theorem find_remove {α : Type} (key : α → Nat) (m : Nat) (l : List α) (n : Nat) :
    (l.filter fun x => key x != m).find? (fun x => key x == n) = if n = m then none else l.find? fun x => key x == n := by
  rw [List.find?_filter]
  split
  next h =>
    subst h
    exact List.find?_eq_none.mpr fun x _ => by simp
  next h =>
    congr 1
    funext x
    by_cases hx : key x = n
    · simp [hx, h]
    · simp [hx]

/-! ### Products (R1 to R4) -/

theorem RawProduct.fits_iff (r : RawProduct) : r.fits = true ↔
    r.id ≠ 0 ∧ (∀ k : Fin 16, r.bins[k] ≤ 7) ∧ r.bins[0] = 0 ∧ (∀ k : Fin 16, k ≠ 0 → r.bins[k] ≠ 0)
      ∧ r.retest.getLsbD 0 = false ∧ 1 ≤ r.steps.length ∧ r.steps.length ≤ 6 := by
  have small : r.bins.toList.all (fun n => decide (n ≤ 7)) = true ↔ ∀ k : Fin 16, r.bins[k] ≤ 7 := by
    rw [List.all_eq_true]
    constructor
    · intro h k
      exact of_decide_eq_true (h _ (Vector.mem_toList_iff.mpr (Vector.getElem_mem k.isLt)))
    · intro h n hn
      obtain ⟨i, hi, rfl⟩ := Vector.mem_iff_getElem.mp (Vector.mem_toList_iff.mp hn)
      exact decide_eq_true (h ⟨i, hi⟩)
  have used : (r.bins.toList.drop 1).all (fun n => n != 0) = true ↔ ∀ k : Fin 16, k ≠ 0 → r.bins[k] ≠ 0 := by
    rw [List.all_eq_true]
    constructor
    · intro h k hk
      have hpos : 1 ≤ k.val := Nat.one_le_iff_ne_zero.mpr fun e => hk (Fin.ext e)
      have hmem : r.bins[k] ∈ r.bins.toList.drop 1 := by
        refine List.mem_iff_getElem.mpr ⟨k.val - 1, by simp; omega, ?_⟩
        simp only [List.getElem_drop, Vector.getElem_toList, Nat.add_sub_cancel' hpos]; rfl
      exact bne_iff_ne.mp (h _ hmem)
    · intro h n hn
      obtain ⟨i, hi, rfl⟩ := List.mem_iff_getElem.mp hn
      have hlt : i < 15 := by simpa using hi
      have := h ⟨i + 1, by omega⟩ (by intro e; have := congrArg Fin.val e; simp at this)
      simpa [Nat.add_comm 1 i] using this
  simp only [RawProduct.fits, Bool.and_eq_true, small, used, decide_eq_true_eq, bne_iff_ne, beq_iff_eq, Bool.not_eq_true', and_assoc]

theorem product_replaced {y : Product} {n : Nat} :
    ({ s with products := s.products.map fun x => if x.id == y.id then y else x } : State).product? n =
      if n = y.id then (s.product? n).map fun _ => y else s.product? n := find_replace Product.id y s.products n

theorem productInUse_iff {id : Nat} : s.productInUse id = true ↔ ∃ l ∈ s.lots, l.product = id := by
  simp [State.productInUse]

/-- R1 to R3: PRODUCT_PUT by whether the record fits. -/
theorem productPut_answers (ha : s.asks Kind.productPut b) (h₁ : 24 ≤ b.length) (h₂ : b.length = 24 + 61 * u8 b 23) {r : RawProduct}
    (hr : rawProduct b = r) :
    ((r.fits && r.steps.all RawStep.fits) = false → exec .productPut s = .next (s.replied (.plain .malformed)))
    ∧ ((r.fits && r.steps.all RawStep.fits) = true →
      (s.product? r.id = none → 64 ≤ s.products.length → exec .productPut s = .next (s.replied (.plain .full)))
      ∧ ((s.product? r.id).isSome → (∃ l ∈ s.lots, l.product = r.id) → exec .productPut s = .next (s.replied (.plain .inUse)))
      ∧ ((s.product? r.id = none ∧ s.products.length < 64) ∨ ((s.product? r.id).isSome ∧ ∀ l ∈ s.lots, l.product ≠ r.id) →
          ∃ t : State, exec .productPut s = .next (t.replied (.plain .ok)) ∧ t = { s with products := t.products }
            ∧ t.product? r.id = some r.toProduct ∧ ∀ n, n ≠ r.id → t.product? n = s.product? n)) := by
  subst hr
  have fits : bodyFits Kind.productPut b = true := by simp only [bodyFits]; simp [Kind.productPut, h₁, ← h₂]
  refine ⟨fun hf => ?_, fun hf => ⟨fun hp hl => ?_, fun hp hu => ?_, ?_⟩⟩
  · refine (takeRequest_fits ha (ofKind_self _ _) fits).trans ?_
    dsimp only
    rw [if_neg (by rw [hf]; exact Bool.false_ne_true)]; exact refuse_eq _ _
  · refine (takeRequest_fits ha (ofKind_self _ _) fits).trans ?_
    dsimp only
    rw [if_pos hf, hp]
    dsimp only
    exact (if_neg (Nat.not_lt.mpr hl)).trans (refuse_eq _ _)
  · refine (takeRequest_fits ha (ofKind_self _ _) fits).trans ?_
    obtain ⟨g, hg⟩ := Option.isSome_iff_exists.mp hp
    dsimp only
    rw [if_pos hf, hg]
    dsimp only
    rw [if_pos (productInUse_iff.mpr hu)]; exact refuse_eq _ _
  · rintro (⟨hp, hl⟩ | ⟨hp, hu⟩)
    · refine ⟨{ s with products := insertAsc Product.id (rawProduct b).toProduct s.products }, ?_, rfl, ?_⟩
      · refine (takeRequest_fits ha (ofKind_self _ _) fits).trans ?_
        dsimp only
        rw [if_pos hf, hp]
        dsimp only
        exact (if_pos hl).trans (answered_nil _ _)
      · have new : ∀ x ∈ s.products, x.id ≠ (rawProduct b).id := fun x hx => by
          simpa using List.find?_eq_none.mp hp x hx
        have found := find_insertAsc Product.id (rawProduct b).toProduct s.products
        exact ⟨(found _ new).trans (if_pos rfl), fun n hn => (found _ new).trans (if_neg hn.symm)⟩
    · refine ⟨{ s with products := s.products.map fun x => if x.id == (rawProduct b).id then (rawProduct b).toProduct else x },
        ?_, rfl, ?_⟩
      · refine (takeRequest_fits ha (ofKind_self _ _) fits).trans ?_
        obtain ⟨g, hg⟩ := Option.isSome_iff_exists.mp hp
        dsimp only
        rw [if_pos hf, hg]
        dsimp only
        rw [if_neg fun h => by obtain ⟨l, hl, he⟩ := productInUse_iff.mp h; exact hu l hl he]
        exact answered_nil _ _
      · obtain ⟨g, hg⟩ := Option.isSome_iff_exists.mp hp
        have found (n : Nat) := product_replaced (s := s) (y := (rawProduct b).toProduct) (n := n)
        exact ⟨(found _).trans ((if_pos rfl).trans (by rw [hg]; rfl)), fun n hn => (found n).trans (if_neg hn)⟩

/-- R4: PRODUCT_DROP. -/
theorem productDrop_answers (ha : s.asks Kind.productDrop b) (hb : b.length = 2) {id : Nat} (hid : u16 b 0 = id) :
    (s.product? id = none → exec .productDrop s = .next (s.replied (.plain .notFound)))
    ∧ ((s.product? id).isSome → (∃ l ∈ s.lots, l.product = id) → exec .productDrop s = .next (s.replied (.plain .inUse)))
    ∧ ((s.product? id).isSome → (∀ l ∈ s.lots, l.product ≠ id) →
        ∃ t : State, exec .productDrop s = .next (t.replied (.plain .ok)) ∧ t = { s with products := t.products }
          ∧ t.product? id = none ∧ ∀ n, n ≠ id → t.product? n = s.product? n) := by
  subst hid
  have fits : bodyFits Kind.productDrop b = true := by simp [bodyFits, Kind.productDrop, hb]
  refine ⟨fun hp => ?_, fun hp hu => ?_, fun hp hu => ⟨{ s with products := s.products.filter (·.id != u16 b 0) }, ?_, rfl, ?_⟩⟩
  · refine (takeRequest_fits ha (ofKind_self _ _) fits).trans ?_
    rw [hp]; exact refuse_eq _ _
  · refine (takeRequest_fits ha (ofKind_self _ _) fits).trans ?_
    rw [if_neg (by simpa [Option.isSome_iff_ne_none] using hp), if_pos (productInUse_iff.mpr hu)]; exact refuse_eq _ _
  · refine (takeRequest_fits ha (ofKind_self _ _) fits).trans ?_
    rw [if_neg (by simpa [Option.isSome_iff_ne_none] using hp),
      if_neg fun h => by obtain ⟨l, hl, he⟩ := productInUse_iff.mp h; exact hu l hl he]
    exact answered_nil _ _
  · have found (n : Nat) := find_remove Product.id (u16 b 0) s.products n
    exact ⟨(found _).trans (if_pos rfl), fun n hn => (found n).trans (if_neg hn)⟩

/-! ### The entry of a lot (R6, R7) -/

theorem place_room {r : Report} (h : s.reports.length < 64) : place r s = { s with reports := s.reports ++ [r] } := if_pos h

theorem waitKeyOf_eq {t : State} {n : Nat} (h : t.lot? n = s.lot? n) : t.waitKeyOf n = s.waitKeyOf n := by
  unfold State.waitKeyOf; rw [h]

theorem priorityOf_eq {n : Nat} (h : n = 1 ∨ n = 2) : priorityOf n = some (if n = 2 then .hot else .normal) := by
  rcases h with rfl | rfl <;> rfl

theorem priorityOf_none {n : Nat} (h₁ : n ≠ 1) (h₂ : n ≠ 2) : priorityOf n = none := by simp [priorityOf, h₁, h₂]

/-- R6, R9: what the entry of a lot leaves of the state. -/
theorem enterLot_frame (l : Lot) : enterLot l s = { s with
    lots := (enterLot l s).lots, waitList := (enterLot l s).waitList, entrySeq := s.entrySeq + 1
    reports := (enterLot l s).reports, dropped := (enterLot l s).dropped
    pass := { s.pass with pending := true, remaining := s.pass.remaining.filter (· != l.id) } } := by
  unfold enterLot place
  split <;> rfl

theorem enterLot_lots (l : Lot) : (enterLot l s).lots = insertAsc Lot.id l s.lots := by
  unfold enterLot place
  split <;> rfl

theorem enterLot_lot {l : Lot} (hnew : s.lot? l.id = none) (n : Nat) :
    (enterLot l s).lot? n = if l.id = n then some l else s.lot? n := by
  unfold State.lot?
  rw [enterLot_lots]
  refine find_insertAsc Lot.id l s.lots n fun x hx he => ?_
  have := List.find?_eq_none.mp hnew x hx
  simp [he] at this

/-- R62: the wait list after the entry of a lot. -/
theorem enterLot_waitList (l : Lot) : (enterLot l s).waitList = insertAsc (enterLot l s).waitKeyOf l.id (s.waitList.filter (· != l.id)) := by
  have key : (enterLot l s).waitKeyOf = ({ s with lots := insertAsc Lot.id l s.lots } : State).waitKeyOf := by
    funext n; exact waitKeyOf_of_lots (enterLot_lots l)
  rw [key]
  unfold enterLot place
  split <;> rfl

theorem enterLot_reports (l : Lot) (h : s.reports.length < 64) :
    (enterLot l s).reports = s.reports ++ [.lotState l.id none (.state .waiting) 0 l.quantity none none]
      ∧ (enterLot l s).dropped = s.dropped := by
  unfold enterLot
  rw [place_room]
  · exact ⟨rfl, rfl⟩
  · exact h

end
end Sys2Proof.Machine

section
open Sys2Proof.Machine

/-- Settles O22: the checks of a record say field by field what R1 and R2 ask, and an answer changes the product table alone. -/
theorem productPutAndDrop : Obligations.ProductPutAndDrop := by
  intro s b limitSound stepSound
  have limit (m : RawLimit) : m.fits = true ↔ limitSound m := RawLimit.fits_iff m
  have step (x : RawStep) : x.fits = true ↔ stepSound x := by
    rw [RawStep.fits_iff, limitsApart_iff]
    simp only [limit, and_assoc, stepSound]
  refine ⟨fun ha h₁ h₂ => ?_, fun ha hb => productDrop_answers ha hb rfl⟩
  intro r sound
  have checks : (r.fits && r.steps.all RawStep.fits) = true ↔ sound := by
    rw [Bool.and_eq_true, RawProduct.fits_iff, List.all_eq_true]
    simp only [step, and_assoc, sound]
  obtain ⟨misfit, fit⟩ := productPut_answers ha h₁ h₂ (r := r) rfl
  refine ⟨fun h => misfit (Bool.eq_false_iff.mpr fun h' => h (checks.mp h')), fun h => (fit (checks.mpr h)).1,
    fun h => (fit (checks.mpr h)).2.1, fun h => (fit (checks.mpr h)).2.2⟩

/-- Settles O23: the checks in their order, and the record and the place of the lot that passes them. -/
theorem lotEnter : Obligations.LotEnter := by
  intro s b ha hb id quantity inRange
  have fits : bodyFits Kind.lotEnter b = true := by simp [bodyFits, Kind.lotEnter, hb]
  have ranged (h : inRange) : priorityOf (u8 b 10) = some (if u8 b 10 = 2 then .hot else .normal)
      ∧ ¬ (id = 0 ∨ quantity = 0 ∨ Sys2Proof.Config.maxUnits < quantity) := by
    obtain ⟨h₁, h₂, h₃, h₄⟩ := h
    exact ⟨priorityOf_eq h₄, by simp [h₁, h₂, Sys2Proof.Config.maxUnits, h₃]⟩
  refine ⟨fun h => ?_, fun h hl => ?_, fun h hl hp => ?_, fun h hl hp hf => ?_, fun h hl hp hn hq => ?_⟩
  · refine (takeRequest_fits ha (ofKind_self _ _) fits).trans ?_
    dsimp only
    by_cases hx : u8 b 10 = 1 ∨ u8 b 10 = 2
    · rw [priorityOf_eq hx]
      refine (if_pos ?_).trans (refuse_eq _ _)
      show id = 0 ∨ quantity = 0 ∨ 4000000 < quantity
      by_contra hc
      exact h ⟨fun e => hc (.inl e), fun e => hc (.inr (.inl e)), Nat.not_lt.mp fun e => hc (.inr (.inr e)), hx⟩
    · rw [not_or] at hx
      rw [priorityOf_none hx.1 hx.2]
      exact refuse_eq _ _
  all_goals
    obtain ⟨priority, range⟩ := ranged h
  · refine (takeRequest_fits ha (ofKind_self _ _) fits).trans ?_
    dsimp only
    rw [priority]
    exact (if_neg range).trans ((if_pos hl).trans (refuse_eq _ _))
  · refine (takeRequest_fits ha (ofKind_self _ _) fits).trans ?_
    dsimp only
    rw [priority]
    exact (if_neg range).trans ((if_neg (by rw [hl]; simp)).trans ((if_pos (by rw [hp]; rfl)).trans (refuse_eq _ _)))
  · refine (takeRequest_fits ha (ofKind_self _ _) fits).trans ?_
    dsimp only
    rw [priority]
    exact (if_neg range).trans ((if_neg (by rw [hl]; simp)).trans ((if_neg (by simpa [Option.isSome_iff_ne_none] using hp)).trans
      ((if_pos hf).trans (refuse_eq _ _))))
  · let l : Lot := { id := id, product := u16 b 4, entered := quantity, quantity := quantity, seq := s.entrySeq,
                     priority := if u8 b 10 = 2 then .hot else .normal }
    have other (n : Nat) (hne : n ≠ id) : (enterLot l s).lot? n = s.lot? n := (enterLot_lot (l := l) hl n).trans (if_neg hne.symm)
    refine ⟨enterLot l s, ?_, enterLot_frame l, (enterLot_lot (l := l) hl id).trans (if_pos rfl), other, fun n => ?_, fun hw => ?_,
      enterLot_reports l⟩
    · refine (takeRequest_fits ha (ofKind_self _ _) fits).trans ?_
      dsimp only
      rw [priority]
      refine (if_neg range).trans ((if_neg (by rw [hl]; simp)).trans ((if_neg (by simpa [Option.isSome_iff_ne_none] using hp)).trans
        ((if_neg ?_).trans (answered_nil _ _))))
      show ¬ (256 ≤ s.lots.length ∨ 4294967295 < s.entrySeq)
      omega
    · rw [enterLot_waitList]; exact mem_reinsert ..
    · unfold State.waitSorted
      rw [enterLot_waitList]
      exact pairwise_reinsert hw fun a ha => waitKeyOf_eq (other a ha)

end
end

