-- ==== Sys2Proof/Proofs/LotRequests.lean ====
section
-- In order: the check's memory bound leaves no room for a thread per proof.
set_option Elab.async false
/-! ## LOT_PRIORITY and LOT_DROP -/

namespace Sys2Proof.Machine

section
variable {s : State} {b : List Byte}

theorem currentLot_of {c : CellNo} {id : Nat} {l : Lot} (hc : s.queues[c].current = some id) (hl : s.lot? id = some l) :
    s.currentLot? c = some l := by
  unfold State.currentLot? State.current?
  rw [hc]; exact hl

/-! ### LOT_PRIORITY (R17) -/

/-- R70: a cell that may not be preempted owes nothing. -/
theorem preemptCheck_quiet {c : CellNo} (h : s.meetsPreemption c = false) : deliver (.preemptCheck c) s = (s, []) := by
  show checkPreempt c s = _
  unfold checkPreempt
  split
  · rfl
  · rw [if_neg (by rw [h]; exact Bool.false_ne_true)]

theorem meetsPreemption_disabled {c : CellNo} (h : s.cells[c].preemptEnable = false) : s.meetsPreemption c = false := by
  unfold State.meetsPreemption
  rw [h]; simp

theorem meetsPreemption_hot {c : CellNo} {l : Lot} (hl : s.currentLot? c = some l) (h : l.priority = .hot) :
    s.meetsPreemption c = false := by
  unfold State.meetsPreemption
  rw [hl, Option.any_some, h]; rfl

theorem lot_withPriority {id : Nat} {l : Lot} {x : Priority} (hl : s.lot? id = some l) :
    (s.modLot id fun l => { l with priority := x }).lot? id = some { l with priority := x }
      ∧ ∀ n, n ≠ id → (s.modLot id fun l => { l with priority := x }).lot? n = s.lot? n := by
  have found (n : Nat) := modLot_lot s (n := id) (f := fun l => { l with priority := x }) (fun _ => rfl) n
  refine ⟨by rw [found, hl]; simp, fun n hn => ?_⟩
  rw [found]
  simp [hn]

section
variable {id : Nat} {l : Lot} {x : Priority} (ha : s.asks Kind.lotPriority b) (hb : b.length = 5) (hid : u32 b 0 = id)
  (hx : priorityOf (u8 b 4) = some x) (hl : s.lot? id = some l)
include ha hb hid hx hl

/-- R17: a change of priority, once the refusals are past. -/
theorem lotPriority_changes (hg : x = .normal → s.guardsSave l = false) (hne : l.priority ≠ x) :
    exec .lotPriority s = answered (.plain .ok) (priorityChecks l x) (resort l (s.modLot id fun l => { l with priority := x })).trigger := by
  have fits : bodyFits Kind.lotPriority b = true := by simp [bodyFits, Kind.lotPriority, hb]
  subst hid
  refine (takeRequest_fits ha (ofKind_self _ _) fits).trans ?_
  rw [hx]; dsimp only
  rw [hl]; dsimp only
  rw [if_neg fun h => by simp [hg h.1] at h, if_neg hne, lot_id hl]

theorem lotPriority_refused (hg : s.guardsSave l = true) (hn : x = .normal) :
    exec .lotPriority s = .next (s.replied (.plain .wrongState)) := by
  have fits : bodyFits Kind.lotPriority b = true := by simp [bodyFits, Kind.lotPriority, hb]
  subst hid
  refine (takeRequest_fits ha (ofKind_self _ _) fits).trans ?_
  rw [hx]; dsimp only
  rw [hl]; dsimp only
  rw [if_pos ⟨hn, hg⟩]; exact refuse_eq _ _

theorem lotPriority_same (hg : x = .normal → s.guardsSave l = false) (he : l.priority = x) :
    exec .lotPriority s = .next (s.replied (.plain .ok)) := by
  have fits : bodyFits Kind.lotPriority b = true := by simp [bodyFits, Kind.lotPriority, hb]
  subst hid
  refine (takeRequest_fits ha (ofKind_self _ _) fits).trans ?_
  rw [hx]; dsimp only
  rw [hl]; dsimp only
  rw [if_neg fun h => by simp [hg h.1] at h, if_pos he]; exact answered_nil _ _

/-- R17, R62: a lot in no queue and no save context. -/
theorem lotPriority_free (hne : l.priority ≠ x) (hloc : l.location = .absent)
    (hst : l.state = .waiting ∨ l.state = .held ∨ l.state = .complete) :
    ∃ t : State, exec .lotPriority s = .next (t.replied (.plain .ok))
      ∧ t = { s with lots := t.lots, waitList := t.waitList, pass := { s.pass with pending := true } }
      ∧ t.lot? id = some { l with priority := x } ∧ (∀ n, n ≠ id → t.lot? n = s.lot? n)
      ∧ (l.state ≠ .waiting → t.waitList = s.waitList)
      ∧ (l.state = .waiting → (∀ n, n ∈ t.waitList ↔ n = id ∨ n ∈ s.waitList) ∧ (s.waitSorted → t.waitSorted)) := by
  have guard : s.guardsSave l = false := by unfold State.guardsSave; rw [hloc]; cases l.state <;> rfl
  have checks : priorityChecks l x = [] := by unfold priorityChecks; rw [hloc]
  have change := lotPriority_changes ha hb hid hx hl (fun _ => guard) hne
  rw [checks, answered_nil] at change
  have record := lot_withPriority (x := x) hl
  have hid' : l.id = id := lot_id hl
  rcases hst with hst | hst
  · have moved : resort l (s.modLot id fun l => { l with priority := x }) =
        { s.modLot id fun l => { l with priority := x } with
          waitList := insertAsc (s.modLot id fun l => { l with priority := x }).waitKeyOf id (s.waitList.filter (· != id)) } := by
      unfold resort; rw [hst, hid']; rfl
    refine ⟨_, change, ?_⟩
    rw [moved]
    refine ⟨rfl, record.1, record.2, fun h => absurd hst h, fun _ => ⟨fun n => mem_reinsert .., fun hw => ?_⟩⟩
    exact pairwise_reinsert hw fun a ha => waitKeyOf_eq (record.2 a ha)
  · have stays : resort l (s.modLot id fun l => { l with priority := x }) = s.modLot id fun l => { l with priority := x } := by
      unfold resort; rcases hst with hst | hst <;> rw [hst]
    refine ⟨_, change, ?_⟩
    rw [stays]
    refine ⟨rfl, record.1, record.2, fun _ => rfl, fun h => ?_⟩
    rcases hst with hst | hst <;> (rw [hst] at h; cases h)

/-- R17: a saved lot, and a current lot that nothing can preempt. -/
theorem lotPriority_placed {c : CellNo} (hne : l.priority ≠ x)
    (hst : (l.state = .saved ∧ l.location = .save c)
      ∨ (l.state = .active ∧ l.location = .queue c 0 ∧ s.queues[c].current = some id
          ∧ (x = .normal → s.saves[c] = none ∧ s.cells[c].preemptEnable = false))) :
    ∃ t : State, exec .lotPriority s = .next (t.replied (.plain .ok))
      ∧ t = { s with lots := t.lots, pass := { s.pass with pending := true } }
      ∧ t.lot? id = some { l with priority := x } ∧ ∀ n, n ≠ id → t.lot? n = s.lot? n := by
  have record := lot_withPriority (x := x) hl
  have stays : resort l (s.modLot id fun l => { l with priority := x }) = s.modLot id fun l => { l with priority := x } := by
    unfold resort
    rcases hst with ⟨hst, -⟩ | ⟨hst, -⟩ <;> rw [hst]
  have guard : x = .normal → s.guardsSave l = false := fun hn => by
    unfold State.guardsSave
    rcases hst with ⟨hst, hloc⟩ | ⟨hst, hloc, -, hv⟩
    · rw [hst]
    · rw [hst, hloc]
      show s.saves[c].isSome = false
      rw [(hv hn).1]; rfl
  have change := lotPriority_changes ha hb hid hx hl guard hne
  rw [stays] at change
  refine ⟨(s.modLot id fun l => { l with priority := x }).trigger, change.trans ?_, rfl, record.1, record.2⟩
  rcases hst with ⟨-, hloc⟩ | ⟨hst, hloc, hc, hv⟩
  · have checks : priorityChecks l x = [] := by unfold priorityChecks; rw [hloc]
    rw [checks]; exact answered_nil _ _
  · have checks : priorityChecks l x = [.preemptCheck c] := by unfold priorityChecks; rw [hloc]; simp [hst]
    rw [checks]
    refine answered_of_run (fuel := 1) (by decide) (run_quiet (preemptCheck_quiet ?_))
    cases x with
    | normal => exact meetsPreemption_disabled (hv rfl).2
    | hot => exact meetsPreemption_hot (currentLot_of hc record.1) rfl

/-- R17, R63: a queued lot of a cell that may not be preempted. -/
theorem lotPriority_queued {c : CellNo} {n : Nat} (hne : l.priority ≠ x) (hst : l.state = .queued) (hloc : l.location = .queue c n)
    (hq : id ∈ s.queues[c].behind) (hnd : s.queues[c].behind.Nodup) (hp : s.cells[c].preemptEnable = false) :
    ∃ t : State, exec .lotPriority s = .next (t.replied (.plain .ok))
      ∧ t = { s with lots := t.lots, queues := t.queues, pass := { s.pass with pending := true } }
      ∧ (∀ e : CellNo, e ≠ c → t.queues[e] = s.queues[e]) ∧ t.queues[c].current = s.queues[c].current
      ∧ (∀ m, m ∈ t.queues[c].behind ↔ m ∈ s.queues[c].behind)
      ∧ ((s.queues[c].behind.Pairwise fun a b => s.waitKeyOf a ≤ s.waitKeyOf b) →
          t.queues[c].behind.Pairwise fun a b => t.waitKeyOf a ≤ t.waitKeyOf b)
      ∧ ∃ i, t.queues[c].behind[i]? = some id ∧ t.lot? id = some { l with priority := x, location := .queue c (i + 1) } := by
  have record := lot_withPriority (x := x) hl
  have guard : s.guardsSave l = false := by unfold State.guardsSave; rw [hst]
  have change := lotPriority_changes ha hb hid hx hl (fun _ => guard) hne
  let u := s.modLot id fun l => { l with priority := x }
  let key := (u.modQueue c fun q => q.without id).waitKeyOf
  let v := (u.modQueue c fun q => q.without id).modQueue c fun q => { q with behind := insertAsc key id q.behind }
  have moved : resort l u = v.renumber c := by unfold resort; rw [hst, hloc, lot_id hl]; rfl
  have self : v.queues[c] = { s.queues[c] with behind := insertAsc key id (s.queues[c].behind.filter (· != id)) } := by
    rw [modQueue_self, modQueue_self]; rfl
  have keyOf (m : Nat) : (v.renumber c).waitKeyOf m = key m := relocate_waitKeyOf
  have nodup : v.queues[c].behind.Nodup := by
    rw [self]
    refine (insertAsc_perm key id _).nodup_iff.mpr (List.nodup_cons.mpr ⟨fun hm => ?_, hnd.filter _⟩)
    simp at hm
  have mem (m : Nat) : m ∈ v.queues[c].behind ↔ m ∈ s.queues[c].behind := by
    rw [self]
    refine (mem_reinsert key id m _).trans ⟨?_, .inr⟩
    rintro (rfl | hm)
    · exact hq
    · exact hm
  refine ⟨(resort l u).trigger, change.trans ?_, ?_⟩
  · refine answered_of_run (fuel := 1) (by decide) ?_
    unfold priorityChecks
    rw [hloc]; dsimp only
    split
    · refine run_quiet (preemptCheck_quiet (meetsPreemption_disabled ?_))
      rw [moved]
      show (v.renumber c).cells[c].preemptEnable = false
      rw [renumber_cells]; exact hp
    · exact run_nil _ _
  · rw [moved]
    show _ ∧ (∀ e : CellNo, e ≠ c → (v.renumber c).queues[e] = _) ∧ (v.renumber c).queues[c].current = _
      ∧ (∀ m, m ∈ (v.renumber c).queues[c].behind ↔ _)
      ∧ (_ → (v.renumber c).queues[c].behind.Pairwise fun a b => (v.renumber c).waitKeyOf a ≤ (v.renumber c).waitKeyOf b)
      ∧ ∃ i, (v.renumber c).queues[c].behind[i]? = some id ∧ (v.renumber c).lot? id = _
    rw [renumber_queues]
    obtain ⟨i, hi⟩ := List.mem_iff_getElem?.mp ((mem id).mpr hq)
    refine ⟨?_, fun e he => ?_, by rw [self], mem, fun hk => ?_, i, hi, ?_⟩
    · rw [renumber_eq, relocate_frame]; rfl
    · exact (modQueue_other he _).trans (modQueue_other he _)
    · rw [self]
      simp only [keyOf]
      exact pairwise_reinsert hk fun a ha => waitKeyOf_eq (record.2 a ha)
    · rw [renumber_behind nodup hi]
      exact congrArg _ record.1

end

/-! ### LOT_DROP (R18) -/

/-- R18: one hold record of a dropped lot is deleted with its report. -/
def dropHold (id : Nat) (l : Lot) (s : State) (h : Nat) : State :=
  match s.hold? h with
  | none => s
  | some x => place (.holdCleared id (some x) .dropped l.state l.step l.quantity) { s with holds := s.holds.filter (·.id != h) }

theorem dropHold_eq (id : Nat) (l : Lot) (s : State) (h : Nat) : dropHold id l s h = { s with
    holds := s.holds.filter (·.id != h), reports := (dropHold id l s h).reports, dropped := (dropHold id l s h).dropped } := by
  unfold dropHold
  split
  next hn =>
    have none : s.holds.filter (·.id != h) = s.holds := List.filter_eq_self.mpr fun x hx => by
      simpa using List.find?_eq_none.mp hn x hx
    rw [none]
  next => unfold place; split <;> rfl

theorem dropHolds_eq (id : Nat) (l : Lot) (hs : List Nat) (s : State) : ∃ r d, hs.foldl (dropHold id l) s = { s with
    holds := s.holds.filter (fun h => !hs.contains h.id), reports := r, dropped := d } := by
  induction hs generalizing s with
  | nil => exact ⟨s.reports, s.dropped, by simp⟩
  | cons h hs ih =>
    obtain ⟨r, d, he⟩ := ih (dropHold id l s h)
    refine ⟨r, d, ?_⟩
    rw [List.foldl_cons, he, dropHold_eq]
    simp only [List.filter_filter]
    congr 2
    funext x
    by_cases hx : x.id = h <;> simp [hx]

theorem place_exists (x : Report) (s : State) : ∃ r d, place x s = { s with reports := r, dropped := d } := by
  unfold place
  split
  · exact ⟨_, s.dropped, rfl⟩
  · exact ⟨s.reports, _, rfl⟩

theorem resetEntrySeq_eq (s : State) : resetEntrySeq s = { s with entrySeq := if s.lots = [] then 0 else s.entrySeq } := by
  unfold resetEntrySeq
  by_cases h : s.lots = []
  · rw [if_pos (List.isEmpty_iff.mpr h), if_pos h]
  · rw [if_neg (mt List.isEmpty_iff.mp h), if_neg h]

/-- R18: the rest of a drop, from step 4 on. -/
theorem dropRest_eq {id : Nat} {l : Lot} (hl : s.lot? id = some l) : ∃ r d, (dropRest id s).1 = { s with
    lots := s.lots.filter (·.id != id), waitList := s.waitList.filter (· != id)
    entrySeq := if s.lots.filter (·.id != id) = [] then 0 else s.entrySeq
    holds := s.holds.filter (fun h => !l.holds.contains h.id), reports := r, dropped := d } := by
  obtain ⟨r, d, he⟩ := dropHolds_eq id l l.holds s
  have unfolded : (dropRest id s).1 = resetEntrySeq (place (.lotState id (some l.state) .dropped l.step l.quantity none none)
      (({ l.holds.foldl (dropHold id l) s with lots := (l.holds.foldl (dropHold id l) s).lots.filter (·.id != id) } : State).leaveWait id)) := by
    unfold dropRest; rw [hl]; rfl
  obtain ⟨r', d', hp⟩ := place_exists (.lotState id (some l.state) .dropped l.step l.quantity none none)
    (({ l.holds.foldl (dropHold id l) s with lots := (l.holds.foldl (dropHold id l) s).lots.filter (·.id != id) } : State).leaveWait id)
  rw [unfolded, hp, resetEntrySeq_eq, he]
  exact ⟨r', d', rfl⟩

/-- R156: the lots and the groups when a lot leaves its group. -/
theorem leaveGroup_eq {id : Nat} {l : Lot} (hl : s.lot? id = some l) : ∃ x g, leaveGroup l s = { s with lots := x, groups := g }
    ∧ (leaveGroup l s).lot? id = some { l with group := none } ∧ (∀ n, n ≠ id → (leaveGroup l s).lot? n = s.lot? n)
    ∧ ∀ i : Fin 16, g[i] =
        if l.group = some i then
          { s.groups[i] with
            lots := s.groups[i].lots.filter (· != id)
            product := if s.groups[i].lots.filter (· != id) = [] then none else s.groups[i].product }
        else s.groups[i] := by
  have hid : l.id = id := lot_id hl
  unfold leaveGroup
  split
  next hg => exact ⟨s.lots, s.groups, rfl, by rw [hl, ← hg], fun _ _ => rfl, fun i => by simp [hg]⟩
  next g hg =>
    rw [hid]
    have found (u : State) (n : Nat) := modLot_lot u (n := id) (f := fun l => { l with group := none }) (fun _ => rfl) n
    refine ⟨_, _, rfl, ?_, fun n hn => ?_, fun i => ?_⟩
    · rw [found]
      show (s.lot? id).map _ = _
      rw [hl]; simp [hid]
    · rw [found]
      show (s.lot? n).map _ = _
      simp [hn]
    · by_cases hi : g = i
      · subst hi
        show (s.modGroup g _).groups[g] = _
        rw [modGroup_self, if_pos hg]
        simp [List.isEmpty_iff]
      · rw [if_neg fun h => hi (Option.some.inj (hg.symm.trans h))]
        have : g.val ≠ i.val := fun e => hi (Fin.ext e)
        simp [State.modGroup, this]

/-- R106: the lots and the tallies when a lot's tally is dropped. -/
theorem dropTally_eq {id : Nat} {l m : Lot} (hid : l.id = id) (hm : s.lot? id = some m) : ∃ x,
    (dropTally l s).1 = { s with lots := x, tallies := if l.tally then s.tallies.filter (·.lot != id) else s.tallies }
    ∧ (∃ m', (dropTally l s).1.lot? id = some m' ∧ m'.holds = m.holds) ∧ ∀ n, n ≠ id → (dropTally l s).1.lot? n = s.lot? n := by
  unfold dropTally
  split
  next ht =>
    rw [hid]
    have found (u : State) (n : Nat) := modLot_lot u (n := id) (f := fun l => { l with tally := false }) (fun _ => rfl) n
    refine ⟨_, rfl, ⟨{ m with tally := false }, (found _ _).trans ?_, rfl⟩, fun n hn => (found _ _).trans ?_⟩
    · show (s.lot? id).map _ = _
      rw [hm]; simp
    · show (s.lot? n).map _ = _
      simp [hn]
  next ht => exact ⟨s.lots, rfl, ⟨m, hm, rfl⟩, fun _ _ => rfl⟩

/-- R18: the notices of a drop come to rest when no cell waits for a tally. -/
theorem dropTally_run {id : Nat} {l : Lot} (h : (dropTally l s).1.tallyWait = []) :
    run 2 ((dropTally l s).2 ++ [.dropRest id]) (dropTally l s).1 = some (dropRest id (dropTally l s).1).1 := by
  have rest (u : State) : deliver (.dropRest id) u = ((dropRest id u).1, []) := by
    show dropRest id u = _
    unfold dropRest; split <;> rfl
  unfold dropTally at h ⊢
  split
  next ht =>
    rw [if_pos ht] at h
    have freed : deliver .tallyFreed (freeTally l.id s) = (freeTally l.id s, []) := by
      show tallyFreed _ = _
      unfold tallyFreed; rw [h]
    exact (run_quiet freed).trans (run_quiet (rest _))
  next => exact run_quiet (rest _)

end
end Sys2Proof.Machine

section
open Sys2Proof.Machine

/-- Settles O24, by where the lot stands. -/
theorem lotPriority : Obligations.LotPriority := by
  intro s b ha hb id
  have fits : bodyFits Kind.lotPriority b = true := by simp [bodyFits, Kind.lotPriority, hb]
  refine ⟨fun h₁ h₂ => ?_, fun x hx => ⟨fun hl => ?_, fun l hl => ⟨fun c n hn hst hloc hv => ?_, fun he hg => ?_, fun hne hloc hst => ?_,
    fun c hne hst => ?_, fun c n hne hst hloc hq hnd hp => ?_⟩⟩⟩
  · refine (takeRequest_fits ha (ofKind_self _ _) fits).trans ?_
    rw [priorityOf_none h₁ h₂]; exact refuse_eq _ _
  · refine (takeRequest_fits ha (ofKind_self _ _) fits).trans ?_
    rw [hx]; dsimp only
    rw [hl]; exact refuse_eq _ _
  · refine lotPriority_refused ha hb rfl hx hl ?_ hn
    unfold State.guardsSave
    rw [hst, hloc]; exact hv
  · exact lotPriority_same ha hb rfl hx hl hg he
  · exact lotPriority_free ha hb rfl hx hl hne hloc hst
  · exact lotPriority_placed ha hb rfl hx hl hne hst
  · exact lotPriority_queued ha hb rfl hx hl hne hst hloc hq hnd hp

/-- Settles O25. -/
theorem lotDrop : Obligations.LotDrop := by
  intro s b ha hb id
  have fits : bodyFits Kind.lotDrop b = true := by simp [bodyFits, Kind.lotDrop, hb]
  refine ⟨fun hl => ?_, fun l hl => ⟨fun hst => ?_, fun hst hw => ?_⟩⟩
  · refine (takeRequest_fits ha (ofKind_self _ _) fits).trans ?_
    rw [hl]; exact refuse_eq _ _
  · refine (takeRequest_fits ha (ofKind_self _ _) fits).trans ?_
    rw [hl]
    exact (if_pos hst).trans (refuse_eq _ _)
  · have hid : l.id = id := lot_id hl
    obtain ⟨x₁, g, h₁, hl₁, ho₁, hg⟩ := leaveGroup_eq hl
    obtain ⟨x₂, h₂, ⟨l₂, hl₂, hh⟩, ho₂⟩ := dropTally_eq hid hl₁
    obtain ⟨r, d, h₃⟩ := dropRest_eq hl₂
    have free : ¬ (l.state = .queued ∨ l.state = .active ∨ l.state = .saved) := by
      rcases hst with hst | hst | hst <;> simp [hst]
    refine ⟨(dropRest id (dropTally l (leaveGroup l s)).1).1, ?_, ?_⟩
    · refine (takeRequest_fits ha (ofKind_self _ _) fits).trans ?_
      rw [hl]
      refine (if_neg free).trans ?_
      dsimp only
      rw [hid]
      exact answered_of_run (by decide) (dropTally_run (by rw [h₂, h₁]; exact hw))
    · have lots : (dropRest id (dropTally l (leaveGroup l s)).1).1.lots = x₂.filter (·.id != id) := by rw [h₃, h₂]
      have found (n : Nat) : (dropRest id (dropTally l (leaveGroup l s)).1).1.lot? n =
          if n = id then none else (dropTally l (leaveGroup l s)).1.lot? n := by
        unfold State.lot?
        rw [lots, h₂]
        exact find_remove Lot.id id x₂ n
      refine ⟨?_, (found id).trans (if_pos rfl), fun n hn => ((found n).trans (if_neg hn)).trans ((ho₂ n hn).trans (ho₁ n hn)), ?_, ?_, ?_⟩
      · rw [h₃, hh, h₂, h₁]
      · rw [h₃, h₂, h₁]
      · rw [h₃, h₂, h₁]
      · rw [h₃, h₂, h₁]; exact hg

end
end

