-- ==== Sys2Proof/Proofs/Inputs.lean ====
section
-- In order: the check's memory bound leaves no room for a thread per proof.
set_option Elab.async false
/-! ## What readiness and eligibility read

Ownership, eligibility, the two sets of a cell and its margin read a part of the state that a move of a lot, a message, a report and a
request of a program leave as it is. `SameInputs s t` says that this part of `t` is that of `s`. -/

namespace Sys2Proof.Machine

/-- The part of a cell record that eligibility and the two sets read, apart from the chamber. -/
def sameBody (k k' : Cell) : Prop :=
  k'.handlerPort = k.handlerPort ∧ k'.testerPort = k.testerPort ∧ k'.mode = k.mode ∧ k'.kit = k.kit ∧ k'.sites = k.sites

/-- The values of a margin that are told (R95). -/
def Slot.told (t : Slot) : Option (Nat × Nat × Nat) := t.margin.map fun m => (m.delta, m.age, m.used)

/-- The part of a tester's slot that eligibility reads, and the margin told. -/
def sameTester (t t' : Slot) : Prop :=
  t'.use = t.use ∧ t'.cal = t.cal ∧ t'.barred = t.barred ∧ t'.active = t.active ∧ t'.told = t.told

/-- The part of a lot record that eligibility reads. -/
def sameRoute (l l' : Lot) : Prop := l'.id = l.id ∧ l'.product = l.product ∧ l'.step = l.step ∧ l'.overflow = l.overflow

/-- The state with everything blanked that readiness and eligibility do not read. -/
def State.inputs (s : State) : State :=
  { strict := s.strict, floorTime := s.floorTime, elapsed := s.elapsed, params := s.params, products := s.products, lots := s.lots
    ports := s.ports, cells := s.cells, catalog := s.catalog, slots := s.slots, holds := s.holds
    queues := Vector.replicate 16 {}, saves := Vector.replicate 16 none, strays := Vector.replicate 32 0
    groups := Vector.replicate 16 {} }

structure SameInputs (s t : State) : Prop where
  strict : t.strict = s.strict
  floorTime : t.floorTime = s.floorTime
  elapsed : t.elapsed = s.elapsed
  params : t.params = s.params
  products : t.products = s.products
  catalog : t.catalog = s.catalog
  holds : t.holds = s.holds
  enable : ∀ e : CellNo, t.cells[e].enable = s.cells[e].enable ∧ t.cells[e].preemptEnable = s.cells[e].preemptEnable
  cell : ∀ {e : CellNo} {k}, s.cell? e = some k → ∃ k', t.cell? e = some k' ∧ sameBody k k'
  noCell : ∀ {e : CellNo}, s.cell? e = none → t.cell? e = none
  port : ∀ p : Port, t.ports[p].state = s.ports[p].state ∧ t.ports[p].data = s.ports[p].data
  out : ∀ {p : Port} {m}, m ∈ s.ports[p].out → m ∈ t.ports[p].out
  slot : ∀ p : Port, sameTester s.slots[p] t.slots[p]
  lot : ∀ {n l}, s.lot? n = some l → ∃ l', t.lot? n = some l' ∧ sameRoute l l'

theorem sameBody_refl (k : Cell) : sameBody k k := ⟨rfl, rfl, rfl, rfl, rfl⟩
theorem sameTester_refl (t : Slot) : sameTester t t := ⟨rfl, rfl, rfl, rfl, rfl⟩
theorem sameRoute_refl (l : Lot) : sameRoute l l := ⟨rfl, rfl, rfl, rfl⟩

theorem sameBody_trans {a b c : Cell} (h : sameBody a b) (h' : sameBody b c) : sameBody a c := by
  obtain ⟨h₁, h₂, h₃, h₄, h₅⟩ := h
  obtain ⟨i₁, i₂, i₃, i₄, i₅⟩ := h'
  exact ⟨i₁.trans h₁, i₂.trans h₂, i₃.trans h₃, i₄.trans h₄, i₅.trans h₅⟩

theorem sameTester_trans {a b c : Slot} (h : sameTester a b) (h' : sameTester b c) : sameTester a c := by
  obtain ⟨h₁, h₂, h₃, h₄, h₅⟩ := h
  obtain ⟨i₁, i₂, i₃, i₄, i₅⟩ := h'
  exact ⟨i₁.trans h₁, i₂.trans h₂, i₃.trans h₃, i₄.trans h₄, i₅.trans h₅⟩

theorem sameRoute_trans {a b c : Lot} (h : sameRoute a b) (h' : sameRoute b c) : sameRoute a c := by
  obtain ⟨h₁, h₂, h₃, h₄⟩ := h
  obtain ⟨i₁, i₂, i₃, i₄⟩ := h'
  exact ⟨i₁.trans h₁, i₂.trans h₂, i₃.trans h₃, i₄.trans h₄⟩

variable {s t u : State} {c : CellNo} {p : Port}

namespace SameInputs

theorem refl (s : State) : SameInputs s s where
  strict := rfl
  floorTime := rfl
  elapsed := rfl
  params := rfl
  products := rfl
  catalog := rfl
  holds := rfl
  enable _ := ⟨rfl, rfl⟩
  cell h := ⟨_, h, sameBody_refl _⟩
  noCell h := h
  port _ := ⟨rfl, rfl⟩
  out h := h
  slot _ := sameTester_refl _
  lot h := ⟨_, h, sameRoute_refl _⟩

theorem trans (h : SameInputs s t) (h' : SameInputs t u) : SameInputs s u where
  strict := h'.strict.trans h.strict
  floorTime := h'.floorTime.trans h.floorTime
  elapsed := h'.elapsed.trans h.elapsed
  params := h'.params.trans h.params
  products := h'.products.trans h.products
  catalog := h'.catalog.trans h.catalog
  holds := h'.holds.trans h.holds
  enable e := ⟨(h'.enable e).1.trans (h.enable e).1, (h'.enable e).2.trans (h.enable e).2⟩
  cell hk := by
    obtain ⟨k', hk', hb⟩ := h.cell hk
    obtain ⟨k'', hk'', hb'⟩ := h'.cell hk'
    exact ⟨k'', hk'', sameBody_trans hb hb'⟩
  noCell hk := h'.noCell (h.noCell hk)
  port p := ⟨(h'.port p).1.trans (h.port p).1, (h'.port p).2.trans (h.port p).2⟩
  out hm := h'.out (h.out hm)
  slot p := sameTester_trans (h.slot p) (h'.slot p)
  lot hl := by
    obtain ⟨l', hl', hr⟩ := h.lot hl
    obtain ⟨l'', hl'', hr'⟩ := h'.lot hl'
    exact ⟨l'', hl'', sameRoute_trans hr hr'⟩

/-! ### The updates -/

theorem same (h : SameInputs s t) (hu : u.inputs = t.inputs) : SameInputs s u := by
  have strict : u.strict = t.strict := (congrArg State.strict hu :)
  have floorTime : u.floorTime = t.floorTime := (congrArg State.floorTime hu :)
  have elapsed : u.elapsed = t.elapsed := (congrArg State.elapsed hu :)
  have params : u.params = t.params := (congrArg State.params hu :)
  have products : u.products = t.products := (congrArg State.products hu :)
  have catalog : u.catalog = t.catalog := (congrArg State.catalog hu :)
  have holds : u.holds = t.holds := (congrArg State.holds hu :)
  have cells : u.cells = t.cells := (congrArg State.cells hu :)
  have ports : u.ports = t.ports := (congrArg State.ports hu :)
  have slots : u.slots = t.slots := (congrArg State.slots hu :)
  have lots : u.lots = t.lots := (congrArg State.lots hu :)
  have cell (e : CellNo) : u.cell? e = t.cell? e := by unfold State.cell?; rw [cells]
  have lot (n : Nat) : u.lot? n = t.lot? n := by unfold State.lot?; rw [lots]
  exact h.trans
    { strict, floorTime, elapsed, params, products, catalog, holds
      enable e := by rw [cells]; exact ⟨rfl, rfl⟩
      cell hk := ⟨_, (cell _).trans hk, sameBody_refl _⟩
      noCell hk := (cell _).trans hk
      port p := by rw [ports]; exact ⟨rfl, rfl⟩
      out hm := by rw [ports]; exact hm
      slot p := by rw [slots]; exact sameTester_refl _
      lot hl := ⟨_, (lot _).trans hl, sameRoute_refl _⟩ }

theorem modCell {f : Cell → Cell} (h : SameInputs s t) (hf : ∀ k, sameBody k (f k) := by exact fun _ => ⟨rfl, rfl, rfl, rfl, rfl⟩) :
    SameInputs s (t.modCell c f) := by
  have keeps (e : CellNo) : (t.modCell c f).cells[e].enable = t.cells[e].enable
      ∧ (t.modCell c f).cells[e].preemptEnable = t.cells[e].preemptEnable := by
    by_cases he : c.val = e.val
    · obtain rfl := Fin.ext he
      simp [State.modCell, State.modCellRec]
    · simp [State.modCell, State.modCellRec, he]
  refine h.trans { SameInputs.refl t with
    enable := keeps
    cell := fun {e k} hk => ?_
    noCell := fun {e} hk => ?_ }
  · by_cases he : e = c
    · subst he; exact ⟨f k, by rw [modCell_cell, hk]; rfl, hf k⟩
    · exact ⟨k, by rw [modCell_other t he]; exact hk, sameBody_refl k⟩
  · by_cases he : e = c
    · subst he; rw [modCell_cell, hk]; rfl
    · rw [modCell_other t he]; exact hk

theorem modPort {f : PortRec → PortRec} (h : SameInputs s t)
    (hf : ∀ r, (f r).state = r.state ∧ (f r).data = r.data ∧ ∀ m ∈ r.out, m ∈ (f r).out) : SameInputs s (t.modPort p f) := by
  refine h.trans { SameInputs.refl t with port := fun q => ?_, out := fun {q m} hm => ?_ }
  · by_cases hq : q = p
    · subst hq; rw [modPort_self]; exact ⟨(hf _).1, (hf _).2.1⟩
    · rw [modPort_other t hq]; exact ⟨rfl, rfl⟩
  · by_cases hq : q = p
    · subst hq; rw [modPort_self]; exact (hf _).2.2 m hm
    · rw [modPort_other t hq]; exact hm

theorem modSlot {f : Slot → Slot} (h : SameInputs s t) (hf : ∀ x, sameTester x (f x) := by exact fun _ => ⟨rfl, rfl, rfl, rfl, rfl⟩) :
    SameInputs s (t.modSlot p f) := by
  refine h.trans { SameInputs.refl t with slot := fun q => ?_ }
  by_cases hq : q = p
  · subst hq; rw [modSlot_self]; exact hf _
  · rw [modSlot_other t hq]; exact sameTester_refl _

theorem modLot {n : Nat} {f : Lot → Lot} (h : SameInputs s t) (hf : ∀ l, sameRoute l (f l) := by exact fun _ => ⟨rfl, rfl, rfl, rfl⟩) :
    SameInputs s (t.modLot n f) := by
  refine h.trans { SameInputs.refl t with lot := fun {m l} hl => ?_ }
  rw [modLot_lot t fun l => (hf l).1, hl]
  by_cases hm : m = n
  · exact ⟨f l, by simp [hm], hf l⟩
  · exact ⟨l, by simp [hm], sameRoute_refl l⟩

theorem ite {q : Prop} [Decidable q] (ht : SameInputs s t) (hu : SameInputs s u) : SameInputs s (if q then t else u) := by
  split <;> assumption

theorem foldl {α : Type} {f : State → α → State} {l : List α} (hf : ∀ {u x}, SameInputs s u → SameInputs s (f u x)) (h : SameInputs s t) :
    SameInputs s (l.foldl f t) := by
  induction l generalizing t with
  | nil => exact h
  | cons x l ih => exact ih (hf h)

theorem modStep {n i : Nat} {f : StepRec → StepRec} (h : SameInputs s t) : SameInputs s (t.modStep n i f) :=
  h.modLot fun l => by split <;> exact ⟨rfl, rfl, rfl, rfl⟩

theorem place {r : Report} (h : SameInputs s t) : SameInputs s (place r t) := by
  unfold Machine.place
  exact SameInputs.ite (h.same rfl) (h.same rfl)

theorem send {d : Down} (h : SameInputs s t) : SameInputs s (send p d t) := by
  unfold Machine.send
  exact SameInputs.ite (h.modPort fun r => ⟨rfl, rfl, fun m hm => List.mem_append_left _ hm⟩) h

theorem reportCell {x : Option CellState} (h : SameInputs s t) : SameInputs s (reportCell c x t) := by
  unfold Machine.reportCell; split
  · exact h
  · exact h.place

/-! ### The moves of a lot -/

theorem moveLot {n : Nat} {d : LotState} {l : Location} {x : Option CloseSection} (h : SameInputs s t) :
    SameInputs s (t.moveLot n d l x) := by
  unfold State.moveLot; split
  · exact h
  · exact h.modLot.place

theorem joinWait {n : Nat} (h : SameInputs s t) : SameInputs s (t.joinWait n) := h.same rfl
theorem leaveWait {n : Nat} (h : SameInputs s t) : SameInputs s (t.leaveWait n) := h.same rfl
theorem trigger (h : SameInputs s t) : SameInputs s t.trigger := h.same rfl
theorem modQueue {f : DispatchQueue → DispatchQueue} (h : SameInputs s t) : SameInputs s (t.modQueue c f) := h.same rfl
theorem setSave {x : Option Nat} (h : SameInputs s t) : SameInputs s (t.setSave c x) := h.same rfl

theorem toWaiting {n : Nat} {x : Option CloseSection} (h : SameInputs s t) : SameInputs s (t.toWaiting n x) := by
  have joined : SameInputs s ((t.moveLot n .waiting .absent x).joinWait n) := h.moveLot.joinWait
  unfold State.toWaiting; dsimp only
  split
  · exact SameInputs.ite joined.leaveWait.moveLot joined
  · exact joined

theorem renumber (h : SameInputs s t) : SameInputs s (t.renumber c) := by
  unfold State.renumber; dsimp only
  exact SameInputs.foldl (fun h => h.modLot) h

theorem toEntry0 {n : Nat} {l : List Nat} (h : SameInputs s t) : SameInputs s (toEntry0 c n l t) :=
  h.modQueue.moveLot.renumber

theorem clearCurrent (h : SameInputs s t) : SameInputs s (clearCurrent c t) := by
  have freed : SameInputs s { t.modQueue c (fun q => { q with current := none }) with tallyWait := t.tallyWait.filter (· != c) } :=
    h.same rfl
  exact freed.modCell

/-! ### The loader and the tallies -/

theorem setRequest {r : Option Nat} (h : SameInputs s t) : SameInputs s (setRequest p r t) := h.modSlot

theorem reportLoad {o : LoadOutcome} {x : Option (Nat × Nat)} (h : SameInputs s t) : SameInputs s (reportLoad p o x t) := h.place

theorem serve (h : SameInputs s t) : SameInputs s (serve p t) := by
  unfold Machine.serve
  extract_lets r
  split
  · exact h
  split
  · exact h
  split
  · exact h
  split
  · exact h
  split
  · exact h.modSlot.send.reportLoad
  · exact h.modSlot.send.reportLoad

theorem giveTally {n : Nat} (h : SameInputs s t) : SameInputs s (giveTally n t) := by
  unfold Machine.giveTally; split
  · exact h
  next l _ =>
    have given : SameInputs s { t with tallies := t.tallies ++ [{ lot := n, step := l.step : Tally }] } := h.same rfl
    exact given.modLot

theorem askTally {n : Nat} (h : SameInputs s t) : SameInputs s (askTally c n t) := by
  unfold Machine.askTally
  split
  · exact h
  split
  · exact h.giveTally
  split
  · exact h
  · exact h.same rfl

theorem writeSetpoint {d : StepDef} (h : SameInputs s t) : SameInputs s (writeSetpoint c d t) := by
  unfold Machine.writeSetpoint; split
  · exact h
  · exact h.modCell.send

theorem sendSetpoint (h : SameInputs s t) : SameInputs s (sendSetpoint c t) := by
  unfold Machine.sendSetpoint; split
  · exact h
  · exact h.writeSetpoint

theorem writeSets {x : Causes} {w : Waiting} (h : SameInputs s t) : SameInputs s (writeSets c x w t) := h.modCell

theorem markExtended (h : SameInputs s t) : SameInputs s (markExtended p t) := by
  unfold Machine.markExtended
  repeat' split
  any_goals exact h
  exact h.modStep

end SameInputs

/-! ### What the flags make of the same inputs -/

section
variable (h : SameInputs s t)
include h

theorem SameInputs.inService (p : Port) : t.inService p = s.inService p := by unfold State.inService; rw [(h.port p).1]

theorem SameInputs.product? (n : Nat) : t.product? n = s.product? n := by unfold State.product?; rw [h.products]

theorem SameInputs.program? (n : Nat) : t.program? n = s.program? n := by unfold State.program?; rw [h.catalog]

theorem SameInputs.stepDef? {l l' : Lot} (hl : sameRoute l l') (i : Nat) : t.stepDef? l' i = s.stepDef? l i := by
  unfold State.stepDef?; rw [h.product?, hl.2.1]

theorem SameInputs.stopped {l l' : Lot} (hl : sameRoute l l') : t.stopped l' = s.stopped l := by
  obtain ⟨hid, -, -, ho⟩ := hl
  unfold State.stopped; rw [h.holds, hid, ho]

theorem SameInputs.marginPasses (p : Port) (d : StepDef) : t.marginPasses p d = s.marginPasses p d := by
  obtain ⟨-, hc, -⟩ := h.slot p
  unfold State.marginPasses; rw [hc, h.floorTime]

theorem SameInputs.director (e : CellNo) : t.director e = s.director e := by
  unfold State.director
  rw [(h.enable e).1, h.strict]
  rcases hk : s.cell? e with _ | k
  · rw [h.noCell hk]
  · obtain ⟨k', hk', -, -, hm, -⟩ := h.cell hk
    rw [hk', Option.any_some, Option.any_some, hm]

theorem SameInputs.inChamber (p : Port) (d : StepDef) : t.inChamber p d = s.inChamber p d := by
  unfold State.inChamber; rw [(h.port p).2]

theorem SameInputs.eligible {l l' : Lot} (hl : sameRoute l l') (e : CellNo) : t.eligible e l' = s.eligible e l := by
  have hd := h.stepDef? hl
  obtain ⟨-, hp, hs, -⟩ := hl
  unfold State.eligible
  rw [h.product?, hp, hs, hd, h.director, (h.enable e).1]
  rcases hk : s.cell? e with _ | k
  · rw [h.noCell hk]
  · obtain ⟨k', hk', h₁, h₂, -, h₃, h₄⟩ := h.cell hk
    have barred {q : Port} (hq : q = k.testerPort) : t.slots[q].barred = s.slots[k.testerPort].barred := by
      obtain ⟨-, -, hb, -⟩ := h.slot q
      rw [hb]; subst hq; rfl
    rw [hk']
    cases s.product? l.product with
    | none => rfl
    | some g =>
      cases s.stepDef? l l.step with
      | none => rfl
      | some d =>
        dsimp only
        unfold Cell.anyOn
        rw [barred h₂, h₁, h₂, h₃, h₄, h.inService, h.inService, h.inChamber, h.marginPasses, h.program?]

end

/-! ### Margins (R94, R95) -/

theorem computeMargin_unused (h : ∀ k, s.slots[p].use = .inUse → s.slots[p].cal ≠ some k) : computeMargin p s = s := by
  unfold computeMargin
  split
  next k hu hk => exact absurd hk (h k hu)
  next => rfl

theorem markExtended_slots : (markExtended p s).slots = s.slots := by
  unfold markExtended
  repeat' split
  all_goals rfl

theorem markExtended_cells : (markExtended p s).cells = s.cells := by
  unfold markExtended
  repeat' split
  all_goals rfl

/-- R94: what a consultation writes. -/
theorem computeMargin_slots : ∃ f : Slot → Slot,
    (∀ x, f x = { x with margin := (f x).margin }) ∧ (computeMargin p s).slots = (s.modSlot p f).slots := by
  unfold computeMargin
  split
  · exact ⟨_, fun _ => rfl, markExtended_slots⟩
  · exact ⟨id, fun _ => rfl, by simp [State.modSlot]⟩

theorem computeMargin_cells : (computeMargin p s).cells = s.cells := by
  unfold computeMargin
  split
  · rw [markExtended_cells]; rfl
  · rfl

/-- R95: a margin is steady when the one told is the one that a consultation computes. -/
theorem marginSteady_iff : s.marginSteady p ↔
    ∀ k, s.slots[p].use = .inUse → s.slots[p].cal = some k → s.slots[p].told = some (k.delta, k.age s.floorTime, k.used s.floorTime) := by
  unfold State.marginSteady marginDiffers
  rw [bne_eq_false_iff_eq]
  by_cases h : ∃ k, s.slots[p].use = .inUse ∧ s.slots[p].cal = some k
  · obtain ⟨k, hu, hk⟩ := h
    have computed : (computeMargin p s).slots[p].margin = some (k.margin s.floorTime) := by
      unfold computeMargin
      rw [hu, hk]; dsimp only
      rw [markExtended_slots, modSlot_self]
    rw [computed]
    constructor
    · intro h k' _ hk'
      cases hk.symm.trans hk'
      exact h
    · exact fun h => h k hu hk
  · rw [computeMargin_unused fun k hu hk => h ⟨k, hu, hk⟩]
    exact iff_of_true rfl fun k hu hk => absurd ⟨k, hu, hk⟩ h

theorem SameInputs.marginSteady (h : SameInputs s t) (hm : s.marginSteady p) : t.marginSteady p := by
  obtain ⟨hu, hc, -, -, ht⟩ := h.slot p
  rw [marginSteady_iff] at hm ⊢
  rw [hu, hc, ht, h.floorTime]
  exact hm

/-- R95: a consultation of a steady margin owes nothing. -/
theorem consultMargin_quiet (h : s.marginSteady p) : (consultMargin p s).2 = [] := by
  unfold consultMargin
  dsimp only
  rw [h]; rfl

theorem SameInputs.consultMargin (h : SameInputs s t) (hm : t.marginSteady p) : SameInputs s (consultMargin p t).1 := by
  rw [marginSteady_iff] at hm
  unfold Machine.consultMargin computeMargin
  dsimp only
  split
  next k hu hk =>
    refine SameInputs.markExtended (h.trans { SameInputs.refl t with slot := fun q => ?_ })
    by_cases hq : q = p
    · subst hq; rw [modSlot_self]; exact ⟨rfl, rfl, rfl, rfl, (hm k hu hk).symm⟩
    · rw [modSlot_other t hq]; exact sameTester_refl _
  next => exact h

end Sys2Proof.Machine
end

