-- ==== Sys2Proof/Proofs/Start.lean ====
section
-- In order: the check's memory bound leaves no room for a thread per proof.
set_option Elab.async false
/-! ## A lot that comes to entry 0 is started

A lot that starts in a cell which must still bring its chamber to the setpoint: what R76 sends and asks for, and that the judgement of
R47 leaves it there. -/

namespace Sys2Proof.Machine

section
variable {s t : State} {c : CellNo} {p : Port} {k : Cell} {l : Lot} {d : StepDef}

/-! ### Single operations -/

section
variable (c : CellNo) (x : Option CellState) (s : State)

theorem reportCell_exists : ∃ r n, reportCell c x s = { s with reports := r, dropped := n } := by
  unfold reportCell
  split
  · exact ⟨s.reports, s.dropped, rfl⟩
  · exact place_exists _ _

@[simp] theorem reportCell_cell (e : CellNo) : (reportCell c x s).cell? e = s.cell? e := by
  obtain ⟨r, n, he⟩ := reportCell_exists c x s; rw [he]; rfl
@[simp] theorem reportCell_slots : (reportCell c x s).slots = s.slots := by obtain ⟨r, n, he⟩ := reportCell_exists c x s; rw [he]
@[simp] theorem reportCell_ports : (reportCell c x s).ports = s.ports := by obtain ⟨r, n, he⟩ := reportCell_exists c x s; rw [he]
@[simp] theorem reportCell_lots : (reportCell c x s).lots = s.lots := by obtain ⟨r, n, he⟩ := reportCell_exists c x s; rw [he]
@[simp] theorem reportCell_tallies : (reportCell c x s).tallies = s.tallies := by
  obtain ⟨r, n, he⟩ := reportCell_exists c x s; rw [he]
@[simp] theorem reportCell_tallyWait : (reportCell c x s).tallyWait = s.tallyWait := by
  obtain ⟨r, n, he⟩ := reportCell_exists c x s; rw [he]
@[simp] theorem reportCell_queues : (reportCell c x s).queues = s.queues := by obtain ⟨r, n, he⟩ := reportCell_exists c x s; rw [he]
@[simp] theorem reportCell_saves : (reportCell c x s).saves = s.saves := by obtain ⟨r, n, he⟩ := reportCell_exists c x s; rw [he]
@[simp] theorem reportCell_pass : (reportCell c x s).pass = s.pass := by obtain ⟨r, n, he⟩ := reportCell_exists c x s; rw [he]
@[simp] theorem writeSets_cell (y : Causes) (w : Waiting) :
    (writeSets c y w s).cell? c = (s.cell? c).map fun k => { k with causes := y, waiting := w } := modCell_cell s c _

end

/-- R58: a cell with no pending change makes none. -/
theorem leaveRunning_quiet (hk : s.cell? c = some k) (h : k.noChanges) : leaveRunning c s = (s, []) := by
  have none (i : Nat) : makeChange c s i = s := by
    unfold makeChange
    rw [hk]; dsimp only
    split
    · rfl
    next x hx => rw [h x (List.mem_of_getElem? hx)]
  have all (is : List Nat) : is.foldl (makeChange c) s = s := by
    induction is with
    | nil => rfl
    | cons i is ih => rw [List.foldl_cons, none, ih]
  unfold leaveRunning makeChanges
  rw [all]
  unfold onSetNotices
  rw [if_pos rfl]

/-- R46: a setpoint other than the cell's own is sent, and the chamber is out of its band until it has come to it. -/
theorem writeSetpoint_new (hk : s.cell? c = some k) (h : k.setpoint ≠ some d.setpoint) :
    writeSetpoint c d s = send k.handlerPort (.setpoint d.setpoint) (s.modCell c fun k =>
      { k with setpoint := some d.setpoint, band := some d.band, soakTime := some d.soak, soak := .out, soakTimer := none }) := by
  unfold writeSetpoint
  rw [hk]
  simp [h, expired]

theorem serve_request (q : Port) : (serve p s).slots[q].request = s.slots[q].request := by
  have kept {f : Slot → Slot} {o : LoadOutcome} {x : Option (Nat × Nat)} {m : Down} (hf : ∀ t, (f t).request = t.request) :
      (reportLoad p o x (send p m (s.modSlot p f))).slots[q].request = s.slots[q].request := by
    unfold reportLoad
    rw [place_slots, send_slots]
    by_cases hq : q = p
    · subst hq; rw [modSlot_self, hf]
    · rw [modSlot_other s hq]
  unfold serve
  extract_lets r
  repeat' split
  any_goals rfl
  · exact kept fun _ => rfl
  · exact kept fun _ => rfl

theorem send_exists (m : Down) (s : State) : ∃ ps, send p m s = { s with ports := ps } := by
  unfold send
  split
  · exact ⟨_, rfl⟩
  · exact ⟨s.ports, rfl⟩

theorem serve_exists : ∃ ss ps r n, serve p s = { s with slots := ss, ports := ps, reports := r, dropped := n } := by
  have kept {f : Slot → Slot} {o : LoadOutcome} {x : Option (Nat × Nat)} {m : Down} :
      ∃ ss ps r n, reportLoad p o x (send p m (s.modSlot p f)) = { s with slots := ss, ports := ps, reports := r, dropped := n } := by
    obtain ⟨ps, hs⟩ := send_exists (p := p) m (s.modSlot p f)
    rw [hs]
    obtain ⟨r, n, hr⟩ := place_exists _ _
    exact ⟨_, ps, r, n, hr⟩
  unfold serve
  extract_lets r
  repeat' split
  any_goals exact ⟨s.slots, s.ports, s.reports, s.dropped, rfl⟩
  · exact kept
  · exact kept

theorem askTally_exists {n : Nat} : ∃ ls ts w, askTally c n s = { s with lots := ls, tallies := ts, tallyWait := w } := by
  unfold askTally giveTally
  repeat' split
  any_goals exact ⟨s.lots, s.tallies, s.tallyWait, rfl⟩
  · exact ⟨_, _, s.tallyWait, rfl⟩
  · exact ⟨s.lots, s.tallies, _, rfl⟩

/-- R77: what the request for a tally reads and writes. -/
theorem askTally_congr {n : Nat} (hl : t.lots = s.lots) (ht : t.tallies = s.tallies) (hw : t.tallyWait = s.tallyWait) :
    (askTally c n t).lots = (askTally c n s).lots ∧ (askTally c n t).tallies = (askTally c n s).tallies
      ∧ (askTally c n t).tallyWait = (askTally c n s).tallyWait := by
  have hlot : t.lot? n = s.lot? n := by unfold State.lot?; rw [hl]
  unfold askTally giveTally
  rw [hlot, ht, hw]
  split
  · exact ⟨hl, ht, hw⟩
  split
  · split
    · exact ⟨hl, ht, hw⟩
    · refine ⟨?_, rfl, rfl⟩
      unfold State.modLot; dsimp only; rw [hl]
  split
  · exact ⟨hl, ht, hw⟩
  · exact ⟨hl, rfl, rfl⟩

/-- No segment is open. -/
def State.noSegment (s : State) : Prop := ∀ e k, s.cell? e = some k → k.segment = none

/-- R96: without an open segment a consultation touches no lot. -/
theorem computeMargin_lots (h : s.noSegment) : (computeMargin p s).lots = s.lots := by
  have none (u : State) (hu : ∀ e, u.cell? e = s.cell? e) : markExtended p u = u := by
    unfold markExtended
    split
    · rfl
    next k hk =>
      obtain ⟨e, -, hk⟩ := Option.bind_eq_some_iff.mp hk
      rw [h e k ((hu e).symm.trans hk)]
  unfold computeMargin
  split
  next m hu hm => rw [none (s.modSlot p fun t => { t with margin := some (m.margin s.floorTime) }) fun _ => rfl]; rfl
  next => rfl

theorem computeMargin_exists : ∃ ls ss, computeMargin p s = { s with lots := ls, slots := ss } := by
  unfold computeMargin markExtended
  repeat' split
  any_goals exact ⟨s.lots, _, rfl⟩
  · exact ⟨_, _, rfl⟩

theorem computeMargin_tallies : (computeMargin p s).tallies = s.tallies ∧ (computeMargin p s).tallyWait = s.tallyWait
    ∧ (computeMargin p s).pass = s.pass := by
  obtain ⟨ls, ss, h⟩ := computeMargin_exists (p := p) (s := s)
  rw [h]; exact ⟨rfl, rfl, rfl⟩

theorem computeMargin_slot (q : Port) : ∃ m, (computeMargin p s).slots[q] = { s.slots[q] with margin := m } := by
  obtain ⟨f, hf, hs⟩ := computeMargin_slots (p := p) (s := s)
  rw [hs]
  by_cases hq : q = p
  · subst hq; rw [modSlot_self]; exact ⟨_, hf _⟩
  · rw [modSlot_other s hq]; exact ⟨_, rfl⟩

theorem currentLot_id (h : s.currentLot? c = some l) : s.queues[c].current = some l.id ∧ s.lot? l.id = some l := by
  obtain ⟨id, hc, hl⟩ := Option.bind_eq_some_iff.mp h
  rw [lot_id hl]
  exact ⟨hc, hl⟩

/-! ### The start (R76) -/

/-- The record of a cell that starts and must come to a setpoint (R46). -/
def Cell.warming (k : Cell) (d : StepDef) : Cell :=
  { k with
    state := .starting, setpoint := some d.setpoint, band := some d.band, soakTime := some d.soak, soak := .out, soakTimer := none }

/-- R76, R46: the cell STARTING, and the setpoint of its lot's step sent. -/
def startCell (c : CellNo) (s : State) : State := sendSetpoint c (s.modCell c fun k => { k with state := .starting })

/-- R76, R77, R84, R85: a tally and the step's program asked for. -/
def askFor (c : CellNo) (id : Nat) (p : Port) (d : StepDef) (s : State) : State :=
  serve p (setRequest p (some d.program) (askTally c id s))

theorem startCell_eq (hk : s.cell? c = some k) (hd : s.currentStep? c = some d) (hset : k.setpoint ≠ some d.setpoint) :
    startCell c s = send k.handlerPort (.setpoint d.setpoint) ((s.modCell c fun k => { k with state := .starting }).modCell c fun k =>
      { k with setpoint := some d.setpoint, band := some d.band, soakTime := some d.soak, soak := .out, soakTimer := none }) := by
  unfold startCell sendSetpoint
  rw [show (s.modCell c fun k => { k with state := .starting }).currentStep? c = some d from hd]
  exact writeSetpoint_new (k := { k with state := .starting }) (by rw [modCell_cell, hk]; rfl) hset

theorem startCell_cell (hk : s.cell? c = some k) (hd : s.currentStep? c = some d) (hset : k.setpoint ≠ some d.setpoint) :
    (startCell c s).cell? c = some (k.warming d) ∧ ∀ e, e ≠ c → (startCell c s).cell? e = s.cell? e := by
  rw [startCell_eq hk hd hset]
  refine ⟨?_, fun e he => ?_⟩
  · unfold State.cell?; rw [send_cells]
    refine (modCell_cell _ c _).trans ?_
    rw [modCell_cell, hk]; rfl
  · unfold State.cell?; rw [send_cells]
    exact (modCell_other _ he _).trans (modCell_other _ he _)

theorem startCell_sends (hk : s.cell? c = some k) (hd : s.currentStep? c = some d) (hset : k.setpoint ≠ some d.setpoint)
    (hp : s.inService k.handlerPort = true) : .setpoint d.setpoint ∈ (startCell c s).ports[k.handlerPort].out := by
  rw [startCell_eq hk hd hset]
  unfold send
  rw [if_pos (show State.inService (State.modCell (State.modCell ..) ..) _ = true from hp), modPort_self]
  exact List.mem_append_right _ List.mem_cons_self

theorem startCell_frame (hk : s.cell? c = some k) (hd : s.currentStep? c = some d) (hset : k.setpoint ≠ some d.setpoint) :
    (startCell c s).lots = s.lots ∧ (startCell c s).tallies = s.tallies ∧ (startCell c s).tallyWait = s.tallyWait
      ∧ (startCell c s).pass = s.pass := by
  rw [startCell_eq hk hd hset, send_lots, send_tallies, send_tallyWait, send_pass]
  exact ⟨rfl, rfl, rfl, rfl⟩

theorem SameInputs.startCell (h : SameInputs s t) : SameInputs s (startCell c t) := h.modCell.sendSetpoint

theorem SameInputs.askFor {n : Nat} (h : SameInputs s t) : SameInputs s (askFor c n p d t) := h.askTally.setRequest.serve

theorem askFor_cells {n : Nat} : (askFor c n p d s).cells = s.cells ∧ (askFor c n p d s).pass = s.pass := by
  obtain ⟨ls, ts, w, h⟩ := askTally_exists (c := c) (s := s) (n := n)
  obtain ⟨ss, ps, r, m, hs⟩ := serve_exists (p := p) (s := setRequest p (some d.program) (askTally c n s))
  unfold askFor
  rw [hs, h]; exact ⟨rfl, rfl⟩

theorem askFor_request {n : Nat} : (askFor c n p d s).slots[p].request = some d.program := by
  unfold askFor
  rw [serve_request]
  unfold setRequest
  rw [modSlot_self]

theorem askFor_tally {n : Nat} (hl : t.lots = s.lots) (ht : t.tallies = s.tallies) (hw : t.tallyWait = s.tallyWait) :
    (askFor c n p d t).lots = (askTally c n s).lots ∧ (askFor c n p d t).tallies = (askTally c n s).tallies
      ∧ (askFor c n p d t).tallyWait = (askTally c n s).tallyWait := by
  obtain ⟨ss, ps, r, m, hs⟩ := serve_exists (p := p) (s := setRequest p (some d.program) (askTally c n t))
  unfold askFor
  rw [hs]; exact askTally_congr hl ht hw

/-- What a start leaves. -/
structure Started (c : CellNo) (k : Cell) (l : Lot) (d : StepDef) (s v : State) : Prop where
  inputs : SameInputs s v
  cell : ∃ x w, v.cell? c = some { k.warming d with causes := x, waiting := w }
  request : v.slots[k.testerPort].request = some d.program
  setpoint : .setpoint d.setpoint ∈ v.ports[k.handlerPort].out
  tallies : v.tallies = (askTally c l.id s).tallies
  tallyWait : v.tallyWait = (askTally c l.id s).tallyWait
  pass : v.pass = s.pass
  lots : s.noSegment → v.lots = (askTally c l.id s).lots
  segments : s.noSegment → v.noSegment
  steady : ∀ {P : State → Prop}, Steady P → P s → P v

theorem startLot_eq (hk : s.cell? c = some k) (hl : s.currentLot? c = some l) (hd : s.currentStep? c = some d) (hn : k.noChanges)
    (hset : k.setpoint ≠ some d.setpoint) (hm : (askFor c l.id k.testerPort d (startCell c s)).marginSteady k.testerPort) :
    ∃ x w, startLot c s =
        (reportCell c (some k.state) (writeSets c x w (computeMargin k.testerPort (askFor c l.id k.testerPort d (startCell c s)))),
          [.refresh c])
      ∧ (computeMargin k.testerPort (askFor c l.id k.testerPort d (startCell c s))).cell? c = some (k.warming d) := by
  have cell : (computeMargin k.testerPort (askFor c l.id k.testerPort d (startCell c s))).cell? c = some (k.warming d) := by
    rw [← (startCell_cell hk hd hset).1]
    unfold State.cell?
    rw [computeMargin_cells, askFor_cells.1]
  let m := consultMargin k.testerPort (askFor c l.id k.testerPort d (startCell c s))
  let x := m.1.deriveCauses c ((m.1.cell? c).getD k)
  let w := m.1.deriveWaiting c ((m.1.cell? c).getD k)
  have quiet : leaveRunning c (reportCell c (some k.state) (writeSets c x w m.1)) = (reportCell c (some k.state) (writeSets c x w m.1), []) := by
    refine leaveRunning_quiet (k := { k.warming d with causes := x, waiting := w }) ?_ hn
    rw [reportCell_cell, writeSets_cell, show m.1.cell? c = _ from cell]; rfl
  refine ⟨x, w, ?_, cell⟩
  have hc : s.current? c = some l.id := (currentLot_id hl).1
  unfold startLot
  split
  next k' id d' hk' hc' hd' =>
    cases hk.symm.trans hk'
    cases hc.symm.trans hc'
    cases hd.symm.trans hd'
    extract_lets s₁ s₂ m' k₂ s₃ r
    have hr : r = (reportCell c (some k.state) (writeSets c x w m.1), []) := quiet
    have hm' : m'.2 = [] := consultMargin_quiet hm
    rw [hr, hm']; rfl
  next h => exact absurd hd (h k l.id d hk hc)

theorem started_of {a : State} {x : Causes} {w : Waiting} {y : Option CellState} (hi : SameInputs s a) (hm : a.marginSteady k.testerPort)
    (hk : a.cell? c = some (k.warming d)) (hr : a.slots[k.testerPort].request = some d.program)
    (ho : .setpoint d.setpoint ∈ a.ports[k.handlerPort].out) (hp : ∀ {P : State → Prop}, Steady P → P s → P a)
    (hl : a.lots = (askTally c l.id s).lots) (ht : a.tallies = (askTally c l.id s).tallies)
    (hw : a.tallyWait = (askTally c l.id s).tallyWait) (hpass : a.pass = s.pass)
    (hn : s.noSegment → a.noSegment) :
    Started c k l d s (reportCell c y (writeSets c x w (computeMargin k.testerPort a))) where
  inputs := (hi.consultMargin hm).writeSets.reportCell
  cell := ⟨x, w, by
    rw [reportCell_cell, writeSets_cell]
    unfold State.cell? at hk ⊢
    rw [computeMargin_cells, hk]; rfl⟩
  request := by
    obtain ⟨y, hy⟩ := computeMargin_slot (p := k.testerPort) (s := a) k.testerPort
    rw [reportCell_slots]
    exact (congrArg Slot.request hy).trans hr
  setpoint := by
    rw [reportCell_ports]
    exact ((SameInputs.refl a).consultMargin hm).out ho
  tallies := (reportCell_tallies ..).trans (computeMargin_tallies.1.trans ht)
  tallyWait := (reportCell_tallyWait ..).trans (computeMargin_tallies.2.1.trans hw)
  pass := (reportCell_pass ..).trans (computeMargin_tallies.2.2.trans hpass)
  lots h := (reportCell_lots ..).trans ((computeMargin_lots (hn h)).trans hl)
  segments h e k' hk' := by
    rw [reportCell_cell] at hk'
    have kept {e : CellNo} : (computeMargin k.testerPort a).cell? e = a.cell? e := by unfold State.cell?; rw [computeMargin_cells]
    by_cases he : e = c
    · subst he
      rw [writeSets_cell, kept, hk] at hk'
      cases hk'
      exact (hn h e _ hk :)
    · exact hn h e k' (kept.symm.trans ((modCell_other _ he _).symm.trans hk'))
  steady calm h := calm.reportCell (calm.writeSets (calm.computeMargin (hp calm h)))

theorem startLot_starts (hk : s.cell? c = some k) (hl : s.currentLot? c = some l) (hd : s.stepDef? l l.step = some d)
    (hn : k.noChanges) (hset : k.setpoint ≠ some d.setpoint) (hm : s.marginSteady k.testerPort)
    (hp : s.inService k.handlerPort = true) : ∃ v, startLot c s = (v, [.refresh c]) ∧ Started c k l d s v := by
  have hs : s.currentStep? c = some d := by unfold State.currentStep?; rw [hl]; exact hd
  obtain ⟨cell, others⟩ := startCell_cell hk hs hset
  obtain ⟨lots, tallies, tallyWait, pass⟩ := startCell_frame hk hs hset
  have asked : SameInputs s (askFor c l.id k.testerPort d (startCell c s)) := (SameInputs.refl s).startCell.askFor
  have steady := asked.marginSteady hm
  obtain ⟨x, w, eq, -⟩ := startLot_eq hk hl hs hn hset steady
  obtain ⟨hlots, htallies, hwait⟩ := askFor_tally (c := c) (n := l.id) (p := k.testerPort) (d := d) lots tallies tallyWait
  refine ⟨_, eq, started_of asked steady ?_ askFor_request ?_
    (fun calm h => calm.serve (calm.setRequest (calm.askTally (calm.sendSetpoint (calm.modCell h))))) hlots htallies hwait
    (askFor_cells.2.trans pass) fun h e k' hk' => ?_⟩
  · unfold State.cell? at cell ⊢
    rw [askFor_cells.1]; exact cell
  · exact (SameInputs.refl (startCell c s)).askFor.out (startCell_sends hk hs hset hp)
  · unfold State.cell? at hk' others
    rw [askFor_cells.1] at hk'
    by_cases he : e = c
    · subst he
      cases cell.symm.trans hk'
      exact h e k hk
    · exact h e k' ((others e he).symm.trans hk')

/-! ### The judgement of a STARTING cell (R47) -/

/-- R47: nothing makes the unfed lot of a STARTING cell leave entry 0. -/
def State.fit (s : State) (c : CellNo) (k : Cell) (l : Lot) : Prop :=
  s.inService k.handlerPort = true ∧ s.inService k.testerPort = true ∧ (∀ g, s.product? l.product = some g → g.kit = k.kit)
    ∧ s.slots[k.testerPort].barred = false ∧ s.director c = true

theorem fit_of_eligible (hk : s.cell? c = some k) (h : s.eligible c l = true) : s.fit c k l := by
  unfold State.eligible at h
  rw [hk] at h
  split at h
  next k' g d hk' hg _ =>
    cases hk'
    simp only [Bool.and_eq_true, Bool.not_eq_true', beq_iff_eq] at h
    obtain ⟨⟨⟨⟨⟨⟨⟨⟨⟨hdir, -⟩, hh⟩, ht⟩, -⟩, hkit⟩, hbar⟩, -⟩, -⟩, -⟩ := h
    exact ⟨hh, ht, fun g' hg' => by cases hg.symm.trans hg'; exact hkit.symm, hbar, hdir⟩
  · cases h

theorem SameInputs.fit {k' : Cell} {l' : Lot} (h : SameInputs s t) (hb : sameBody k k') (hl : sameRoute l l') (hf : s.fit c k l) :
    t.fit c k' l' := by
  obtain ⟨hh, ht, hg, hbar, hd⟩ := hf
  obtain ⟨bh, bt, -, bk, -⟩ := hb
  have barred {q : Port} (hq : q = k.testerPort) : t.slots[q].barred = s.slots[k.testerPort].barred := by
    obtain ⟨-, -, hb, -⟩ := h.slot q
    rw [hb]; subst hq; rfl
  refine ⟨by rw [h.inService, bh]; exact hh, by rw [h.inService, bt]; exact ht, fun g hp => ?_, by rw [barred bt]; exact hbar,
    by rw [h.director]; exact hd⟩
  rw [bk]
  rw [h.product?, hl.2.1] at hp
  exact hg g hp

theorem leavesUnfed_fit (hl : s.currentLot? c = some l) (h : s.fit c k l) : s.leavesUnfed c (s.deriveCauses c k) = false := by
  obtain ⟨hh, ht, hg, hbar, hd⟩ := h
  have kit : ((s.product? l.product).any fun g => g.kit != k.kit) = false := by
    rcases hp : s.product? l.product with _ | g
    · rfl
    · rw [Option.any_some, hg g hp]; simp
  unfold State.leavesUnfed State.deriveCauses
  rw [hl]; dsimp only
  rw [hh, ht, kit, hbar, hd]; rfl

/-! ### What a consultation marks (R96) -/

/-- A lot record with the record of one of its steps changed. -/
def Lot.withStep (l : Lot) (i : Nat) (f : StepRec → StepRec) : Lot :=
  if h : i < 6 then { l with steps := l.steps.set i (f l.steps[i]) } else l

theorem withStep_same (i : Nat) (f : StepRec → StepRec) : l.withStep i f = { l with steps := (l.withStep i f).steps } := by
  unfold Lot.withStep; split <;> rfl

theorem withStep_stepRec (i j : Nat) (f : StepRec → StepRec) :
    (l.withStep i f).stepRec j = if j = i ∧ i < 6 then f (l.stepRec j) else l.stepRec j := by
  unfold Lot.withStep
  by_cases hi : i < 6
  · rw [dif_pos hi]
    unfold Lot.stepRec
    by_cases hj : j < 6
    · rw [dif_pos hj, dif_pos hj]
      by_cases he : j = i
      · subst he; rw [if_pos ⟨rfl, hi⟩]; simp
      · rw [if_neg fun h => he h.1]; simp [Ne.symm he]
    · rw [dif_neg hj, dif_neg hj, if_neg fun (h : j = i ∧ i < 6) => hj (h.1 ▸ h.2)]
  · rw [dif_neg hi, if_neg fun h => hi h.2]

theorem modStep_lot (n i m : Nat) (f : StepRec → StepRec) :
    (s.modStep n i f).lot? m = (s.lot? m).map fun l => if m = n then l.withStep i f else l := by
  unfold State.modStep
  exact modLot_lot s (fun l => by split <;> rfl) m

/-- The lot records differ in the margins of their steps alone. -/
structure Marked (l l' : Lot) : Prop where
  record : l' = { l with steps := l'.steps }
  status : ∀ i, (l'.stepRec i).status = (l.stepRec i).status
  input : ∀ i, (l'.stepRec i).input = (l.stepRec i).input

theorem Marked.refl (l : Lot) : Marked l l := ⟨rfl, fun _ => rfl, fun _ => rfl⟩

theorem Marked.trans {l' l'' : Lot} (h : Marked l l') (h' : Marked l' l'') : Marked l l'' where
  record := by rw [h'.record, h.record]
  status i := (h'.status i).trans (h.status i)
  input i := (h'.input i).trans (h.input i)

theorem Marked.route {l' : Lot} (h : Marked l l') : sameRoute l l' := by rw [h.record]; exact ⟨rfl, rfl, rfl, rfl⟩

theorem Marked.tally {l' : Lot} (h : Marked l l') : l'.tally = l.tally := by rw [h.record]

/-- R96: a consultation marks steps, and changes nothing else of a lot. -/
theorem computeMargin_lot {n : Nat} (h : s.lot? n = some l) : ∃ l', (computeMargin p s).lot? n = some l' ∧ Marked l l' := by
  have marked (u : State) (hu : u.lot? n = some l) : ∃ l', (markExtended p u).lot? n = some l' ∧ Marked l l' := by
    have stays : ∃ l', u.lot? n = some l' ∧ Marked l l' := ⟨l, hu, .refl l⟩
    unfold markExtended
    split
    · exact stays
    split
    · exact stays
    split
    · exact stays
    next g _ _ _ _ =>
    split
    · rw [modStep_lot, hu, Option.map_some]
      by_cases hn : n = g.lot
      · refine ⟨_, rfl, ?_⟩
        rw [if_pos hn]
        exact ⟨withStep_same .., fun i => by rw [withStep_stepRec]; split <;> rfl, fun i => by rw [withStep_stepRec]; split <;> rfl⟩
      · exact ⟨l, by rw [if_neg hn], .refl l⟩
    · exact stays
  unfold computeMargin
  split
  · exact marked _ h
  · exact ⟨l, h, .refl l⟩

/-- What the judgement of a STARTING cell that must wait leaves. -/
structure Waits (c : CellNo) (k : Cell) (l : Lot) (s u : State) : Prop where
  inputs : SameInputs s u
  cell : ∃ x w, u.cell? c = some { k with causes := x, waiting := w } ∧ w.temp = true ∧ w.tally = !l.tally
  request : ∀ q : Port, u.slots[q].request = s.slots[q].request
  tallies : u.tallies = s.tallies
  tallyWait : u.tallyWait = s.tallyWait
  pass : u.pass = s.pass
  lot : ∀ {n m}, s.lot? n = some m → ∃ m', u.lot? n = some m' ∧ Marked m m'
  lots : s.noSegment → u.lots = s.lots
  steady : ∀ {P : State → Prop}, Steady P → P s → P u

theorem Waits.reportCell {u : State} {y : Option CellState} (h : Waits c k l s u) : Waits c k l s (reportCell c y u) where
  inputs := h.inputs.reportCell
  cell := by rw [reportCell_cell]; exact h.cell
  request q := by rw [reportCell_slots]; exact h.request q
  tallies := (reportCell_tallies ..).trans h.tallies
  tallyWait := (reportCell_tallyWait ..).trans h.tallyWait
  pass := (reportCell_pass ..).trans h.pass
  lot hm := by unfold State.lot?; rw [reportCell_lots]; exact h.lot hm
  lots hn := (reportCell_lots ..).trans (h.lots hn)
  steady calm hs := calm.reportCell (h.steady calm hs)

theorem Waits.places {u : State} (h : Waits c k l s u) : PlacesAre s.queues s.saves s.waitList u :=
  h.steady (steady_placesAre _ _ _) ⟨rfl, rfl, rfl⟩

theorem currentLot_consulted (hl : s.currentLot? c = some l) : ∃ l', (computeMargin p s).currentLot? c = some l' ∧ Marked l l' := by
  obtain ⟨hc, hlot⟩ := currentLot_id hl
  obtain ⟨hq, -, -⟩ : PlacesAre s.queues s.saves s.waitList (computeMargin p s) := (steady_placesAre _ _ _).computeMargin ⟨rfl, rfl, rfl⟩
  obtain ⟨l', hl', marked⟩ := computeMargin_lot (p := p) hlot
  exact ⟨l', currentLot_of (by rw [hq]; exact hc) hl', marked⟩

/-- R47: the judgement of a lot that nothing makes leave. -/
theorem refreshStarting_stays (stays : s.leavesUnfed c (s.deriveCauses c k) = false) (hs : s.stopped l = false) :
    ∃ u, refreshStarting c k l s = (u, if (s.deriveWaiting c k).isEmpty && !(s.deriveCauses c k).atHandler then [.feed c] else [])
      ∧ (u = writeSets c (s.deriveCauses c k) (s.deriveWaiting c k) s
        ∨ u = reportCell c (some .starting) (writeSets c (s.deriveCauses c k) (s.deriveWaiting c k) s)) := by
  unfold refreshStarting
  extract_lets causes waiting v w
  have hstay : s.leavesUnfed c causes = false := stays
  rw [hstay, hs]
  refine ⟨w, rfl, ?_⟩
  by_cases h : waiting = k.waiting
  · exact .inl (if_pos h)
  · exact .inr (if_neg h)

/-- R47: a STARTING cell whose chamber has not soaked waits. -/
theorem refresh_waits (hk : s.cell? c = some k) (hst : k.state = .starting) (hl : s.currentLot? c = some l) (hf : s.fit c k l)
    (hm : s.marginSteady k.testerPort) (hs : s.stopped l = false) (hsoak : k.soak ≠ .soaked) :
    ∃ u, refreshCell c s = (u, []) ∧ Waits c k l s u := by
  have inputs : SameInputs s (computeMargin k.testerPort s) := (SameInputs.refl s).consultMargin hm
  obtain ⟨l', hl', marked⟩ := currentLot_consulted (p := k.testerPort) hl
  have cell : (computeMargin k.testerPort s).cell? c = some k := by unfold State.cell? at hk ⊢; rw [computeMargin_cells, hk]
  have stays := leavesUnfed_fit hl' (inputs.fit (sameBody_refl k) marked.route hf)
  have stopped : (computeMargin k.testerPort s).stopped l = false := (inputs.stopped (sameRoute_refl l)).trans hs
  obtain ⟨waiting, hw, temp, tally⟩ : ∃ w, (computeMargin k.testerPort s).deriveWaiting c k = w ∧ w.temp = true ∧ w.tally = !l.tally := by
    refine ⟨_, rfl, ?_⟩
    unfold State.deriveWaiting
    rw [hl']
    exact ⟨by simpa using hsoak, congrArg (! ·) marked.tally⟩
  obtain ⟨u, judged, hu⟩ := refreshStarting_stays stays stopped
  have unfed : waiting.isEmpty = false := by simp [Waiting.isEmpty, temp]
  rw [hw] at hu
  rw [hw, unfed] at judged
  obtain ⟨causes, y, hu⟩ : ∃ x y, u = writeSets c x waiting (computeMargin k.testerPort s)
      ∨ u = reportCell c y (writeSets c x waiting (computeMargin k.testerPort s)) := ⟨_, _, hu⟩
  have told : refreshCell c s = (u, []) := by
    unfold refreshCell
    rw [hk]; dsimp only
    rw [hl]; dsimp only
    rw [hst, consultMargin_quiet hm]; dsimp only
    rw [show refreshStarting c k l (consultMargin k.testerPort s).1 = (u, []) from judged]; rfl
  have written : Waits c k l s (writeSets c causes waiting (computeMargin k.testerPort s)) :=
    { inputs := inputs.writeSets
      cell := ⟨causes, waiting, by rw [writeSets_cell, cell]; rfl, temp, tally⟩
      request q := by
        obtain ⟨m, hm⟩ := computeMargin_slot (p := k.testerPort) (s := s) q
        exact (congrArg Slot.request hm :)
      tallies := computeMargin_tallies.1
      tallyWait := computeMargin_tallies.2.1
      pass := computeMargin_tallies.2.2
      lot := computeMargin_lot
      lots := computeMargin_lots
      steady := fun calm h => calm.writeSets (calm.computeMargin h) }
  refine ⟨u, told, ?_⟩
  rcases hu with rfl | rfl
  · exact written
  · exact written.reportCell

/-- What a lot that has come to entry 0 finds when its cell must still bring its chamber to the setpoint (R76). -/
structure Comes (c : CellNo) (k : Cell) (l : Lot) (d : StepDef) (s u : State) : Prop where
  inputs : SameInputs s u
  cell : ∃ x w, u.cell? c = some { k.warming d with causes := x, waiting := w }
    ∧ (s.noSegment → (askTally c l.id s).lots = s.lots → w.tally = !l.tally)
  request : u.slots[k.testerPort].request = some d.program
  setpoint : .setpoint d.setpoint ∈ u.ports[k.handlerPort].out
  tallies : u.tallies = (askTally c l.id s).tallies
  tallyWait : u.tallyWait = (askTally c l.id s).tallyWait
  pass : u.pass = s.pass
  lots : s.noSegment → u.lots = (askTally c l.id s).lots
  steady : ∀ {P : State → Prop}, Steady P → P s → P u

theorem Comes.places {u : State} (h : Comes c k l d s u) : PlacesAre s.queues s.saves s.waitList u :=
  h.steady (steady_placesAre _ _ _) ⟨rfl, rfl, rfl⟩

/-- R76, R47: the start of a lot, with the judgement that follows it. -/
theorem start_comes (hk : s.cell? c = some k) (hl : s.currentLot? c = some l) (hd : s.stepDef? l l.step = some d) (hn : k.noChanges)
    (hset : k.setpoint ≠ some d.setpoint) (hm : s.marginSteady k.testerPort) (hf : s.fit c k l) (hs : s.stopped l = false) :
    ∃ u, (∀ fuel ns, run (fuel + 2) (.start c :: ns) s = run fuel ns u) ∧ Comes c k l d s u := by
  obtain ⟨v, started, hv⟩ := startLot_starts hk hl hd hn hset hm hf.1
  obtain ⟨hcur, hlot⟩ := currentLot_id hl
  obtain ⟨x, w, cell⟩ := hv.cell
  obtain ⟨queues, -, -⟩ := hv.steady (steady_placesAre s.queues s.saves s.waitList) ⟨rfl, rfl, rfl⟩
  obtain ⟨l', hlot', same⟩ := hv.inputs.lot hlot
  have current : v.currentLot? c = some l' := currentLot_of (by rw [queues]; exact hcur) hlot'
  obtain ⟨u, judged, hu⟩ := refresh_waits (k := { k.warming d with causes := x, waiting := w }) cell rfl current
    (hv.inputs.fit (sameBody_refl k) same hf) (hv.inputs.marginSteady hm) ((hv.inputs.stopped same).trans hs) (by simp [Cell.warming])
  obtain ⟨x', w', cell', -, tally⟩ := hu.cell
  refine ⟨u, fun fuel ns => ?_, ?_⟩
  · rw [run, show deliver (.start c) s = (v, [.refresh c]) from started]
    exact run_quiet judged
  · exact
      { inputs := hv.inputs.trans hu.inputs
        cell := ⟨x', w', cell', fun hseg hsame => by
          have : l' = l := by
            unfold State.lot? at hlot hlot'
            rw [hv.lots hseg, hsame] at hlot'
            exact Option.some.inj (hlot'.symm.trans hlot)
          rw [tally, this]⟩
        request := (hu.request _).trans hv.request
        setpoint := hu.inputs.out hv.setpoint
        tallies := hu.tallies.trans hv.tallies
        tallyWait := hu.tallyWait.trans hv.tallyWait
        pass := hu.pass.trans hv.pass
        lots := fun hseg => (hu.lots (hv.segments hseg)).trans (hv.lots hseg)
        steady := fun calm h => hu.steady calm (hv.steady calm h) }

end
end Sys2Proof.Machine
end

