-- ==== Sys2Proof/Proofs/FirstFeed.lean ====
section
-- In order: the check's memory bound leaves no room for a thread per proof.
set_option Elab.async false
/-! ## The first feed

What stands when the soak of a lot that waited for its temperature alone ends (R47, R78), and what its feed leaves. -/

namespace Sys2Proof.Machine

section
variable {s t u v : State} {c : CellNo} {p : Port} {k : Cell} {l : Lot} {g : Product} {d : StepDef}

theorem SameInputs.onlyTemp {k' : Cell} {l' : Lot} (h : SameInputs s t) (hb : sameBody k k') (hl : sameRoute l l')
    (ho : s.onlyTemp k l g d) : t.onlyTemp k' l' g d := by
  obtain ⟨⟨hh, ht, hmode, hg, hd, hkit, hbar, hon⟩, hpass, hsteady⟩ := ho
  obtain ⟨bh, bt, bm, bk, bs⟩ := hb
  have barred {q : Port} (hq : q = k.testerPort) : t.slots[q].barred = s.slots[k.testerPort].barred := by
    obtain ⟨-, -, hb, -⟩ := h.slot q
    rw [hb]; subst hq; rfl
  have steps : t.stepDef? l' l'.step = some d := by rw [h.stepDef? hl, hl.2.2.1]; exact hd
  refine ⟨⟨?_, ?_, bm.trans hmode, ?_, steps, bk.trans hkit, (barred bt).trans hbar, ?_⟩, ?_, ?_⟩
  · rw [h.inService, bh]; exact hh
  · rw [h.inService, bt]; exact ht
  · rw [h.product?, hl.2.1]; exact hg
  · unfold Cell.anyOn; rw [bs]; exact hon
  · rw [h.marginPasses, bt]; exact hpass
  · rw [bt]; exact h.marginSteady hsteady

/-! ### Readiness -/

/-- R47, R78: a STARTING cell waits for nothing. -/
structure FeedDue (c : CellNo) (k : Cell) (l : Lot) (g : Product) (d : StepDef) (s : State) : Prop where
  cell : s.cell? c = some k
  starting : k.state = .starting
  soaked : k.soak = .soaked
  current : s.currentLot? c = some l
  order : s.onlyTemp k l g d
  director : s.director c = true
  stopped : s.stopped l = false
  tally : l.tally = true
  active : s.activeCurrent k.testerPort d.program = true
  swap : s.slots[k.testerPort].swap = none

theorem FeedDue.of_same {k' : Cell} {l' : Lot} (r : FeedDue c k l g d s) (h : SameInputs s t) (hk : t.cell? c = some k') (hb : sameBody k k')
    (hst : k'.state = .starting) (hsoak : k'.soak = .soaked) (hl : t.currentLot? c = some l') (hm : Marked l l')
    (hs : ∀ q : Port, t.slots[q].swap = s.slots[q].swap) : FeedDue c k' l' g d t where
  cell := hk
  starting := hst
  soaked := hsoak
  current := hl
  order := h.onlyTemp hb hm.route r.order
  director := (h.director c).trans r.director
  stopped := (h.stopped hm.route).trans r.stopped
  tally := hm.tally.trans r.tally
  active := by
    have same {q : Port} (hq : q = k.testerPort) : t.activeCurrent q d.program = s.activeCurrent k.testerPort d.program := by
      obtain ⟨-, -, -, ha, -⟩ := h.slot q
      unfold State.activeCurrent
      rw [h.program?, ha]; subst hq; rfl
    exact (same hb.2.1).trans r.active
  swap := by
    have same {q : Port} (hq : q = k.testerPort) : t.slots[q].swap = s.slots[k.testerPort].swap := by rw [hs]; subst hq; rfl
    exact (same hb.2.1).trans r.swap

section
variable (r : FeedDue c k l g d s)
include r

theorem FeedDue.causes : s.deriveCauses c k = {} := by
  obtain ⟨⟨hh, ht, hmode, hg, hd, hkit, hbar, hon⟩, hpass, -⟩ := r.order
  unfold State.deriveCauses
  rw [r.current]; dsimp only
  rw [hbar]
  simp [hh, ht, hmode, hg, hd, hkit, hon, hpass, r.soaked]

theorem FeedDue.waiting : s.deriveWaiting c k = {} := by
  obtain ⟨⟨-, -, -, -, hd, -, -, hon⟩, hpass, -⟩ := r.order
  unfold State.deriveWaiting
  rw [r.current]; dsimp only
  rw [r.swap]
  simp [hd, hon, hpass, r.soaked, r.active, r.tally]

theorem FeedDue.mayFeed {m : Lot} (hs : s.stopped m = false) : s.mayFeed c k m = true := by
  unfold State.mayFeed
  rw [r.causes, r.waiting, r.starting, r.director, hs]; rfl

theorem FeedDue.consulted : ∃ l', Marked l l' ∧ FeedDue c k l' g d (computeMargin k.testerPort s) := by
  obtain ⟨-, -, steady⟩ := r.order
  obtain ⟨l', hl', marked⟩ := currentLot_consulted (p := k.testerPort) r.current
  have cell : (computeMargin k.testerPort s).cell? c = some k := by
    rw [← r.cell]; unfold State.cell?; rw [computeMargin_cells]
  have inputs : SameInputs s (computeMargin k.testerPort s) := (SameInputs.refl s).consultMargin steady
  refine ⟨l', marked, r.of_same inputs cell (sameBody_refl k) r.starting r.soaked hl' marked fun q => ?_⟩
  obtain ⟨m, hm⟩ := computeMargin_slot (p := k.testerPort) (s := s) q
  exact (congrArg Slot.swap hm :)

/-- R47: a cell that waits for nothing owes its feed. -/
theorem FeedDue.refresh : ∃ v l', refreshCell c s = (v, [.feed c]) ∧ Marked l l'
    ∧ FeedDue c { k with causes := {}, waiting := {} } l' g d v ∧ SameInputs s v ∧ v.queues = s.queues ∧ v.tallies = s.tallies := by
  obtain ⟨l', marked, due⟩ := r.consulted
  obtain ⟨-, -, steady⟩ := r.order
  have inputs : SameInputs s (computeMargin k.testerPort s) := (SameInputs.refl s).consultMargin steady
  have stays : (computeMargin k.testerPort s).leavesUnfed c ((computeMargin k.testerPort s).deriveCauses c k) = false := by
    unfold State.leavesUnfed; rw [due.causes, due.director]; rfl
  obtain ⟨u, judged, hu⟩ := refreshStarting_stays stays ((inputs.stopped (sameRoute_refl l)).trans r.stopped)
  rw [due.causes, due.waiting] at judged hu
  have told : refreshCell c s = (u, [.feed c]) := by
    unfold refreshCell
    rw [r.cell]; dsimp only
    rw [r.current]; dsimp only
    rw [r.starting, consultMargin_quiet steady]; dsimp only
    rw [show refreshStarting c k l (consultMargin k.testerPort s).1 = (u, [.feed c]) from judged]; rfl
  obtain ⟨queues, -, -⟩ : PlacesAre s.queues s.saves s.waitList (computeMargin k.testerPort s) :=
    (steady_placesAre _ _ _).computeMargin ⟨rfl, rfl, rfl⟩
  have written : FeedDue c { k with causes := {}, waiting := {} } l' g d (writeSets c {} {} (computeMargin k.testerPort s)) :=
    due.of_same (SameInputs.refl _).writeSets (by rw [writeSets_cell, due.cell]; rfl) ⟨rfl, rfl, rfl, rfl, rfl⟩ r.starting r.soaked
      due.current (.refl l') fun _ => rfl
  refine ⟨u, l', told, marked, ?_⟩
  rcases hu with rfl | rfl
  · exact ⟨written, inputs.writeSets, queues, computeMargin_tallies.1⟩
  · refine ⟨written.of_same (SameInputs.refl _).reportCell (by rw [reportCell_cell]; exact written.cell) (sameBody_refl _) r.starting
      r.soaked ?_ (.refl l') fun q => by rw [reportCell_slots], inputs.writeSets.reportCell, ?_, ?_⟩
    · obtain ⟨x, n, he⟩ := reportCell_exists c (some .starting) (writeSets c {} {} (computeMargin k.testerPort s))
      rw [he]; exact due.current
    · rw [reportCell_queues]; exact queues
    · rw [reportCell_tallies]; exact computeMargin_tallies.1

end

/-! ### The feed (R78) -/

/-- R78, R112, R113: the record of a cell that has been fed. -/
def Cell.fed (k : Cell) (l : Lot) (d : StepDef) (now : Nat) : Cell :=
  { k with
    state := .running, causes := {}, waiting := {}
    segment := some { lot := l.id, step := l.step, feedTime := now }
    lastSegment := some { lot := l.id, step := l.step, feedTime := now }
    segLoaded := 0, segBins := Vector.replicate 8 0, segJammed := 0
    sites := k.sites.map fun x => { x with
      expFirst := 1, expRetest := 1, run := 0, blank := if x.state = .on ∧ d.edges.getLsbD 0 = true then d.blank else 0 } }

/-- R11: the record of a step that has been fed. -/
def StepRec.fed (r : StepRec) (quantity : Nat) : StepRec :=
  if r.status = .pending then { r with status := .opened, input := some quantity } else r

theorem modCell_preempt (e : CellNo) (f : Cell → Cell) : (s.modCell e f).cells[c].preemptEnable = s.cells[c].preemptEnable := by
  by_cases h : c = e
  · subst h; simp [State.modCell, State.modCellRec]
  · have : e.val ≠ c.val := fun x => h (Fin.ext x.symm)
    simp [State.modCell, State.modCellRec, this]

theorem fireEdge_exists (e : Edge) (f : Nat → Site → Bool) (s : State) :
    ∃ cs : Vector CellRec 16, fireEdge e c f s = { s with cells := cs } ∧ cs[c].preemptEnable = s.cells[c].preemptEnable := by
  unfold fireEdge
  repeat' split
  any_goals exact ⟨s.cells, rfl, rfl⟩
  exact ⟨_, rfl, modCell_preempt c _⟩

/-- R112: the START edge of a lot's tally at the ON sites of its cell. -/
theorem fireEdge_start {tl : Tally} (hk : s.cell? c = some k) (hl : s.currentLot? c = some l) (ht : s.tally? l.id = some tl)
    (hd : s.stepDef? l tl.step = some d) (hseg : k.segment.isSome = true) :
    (fireEdge .start c (fun _ x => x.state == .on) s).cell? c = some { k with
      sites := k.sites.map fun x => if x.state = .on ∧ d.edges.getLsbD 0 = true then { x with blank := d.blank } else x } := by
  have indexed (h : Site → Site) : (k.sites.zipIdx.map fun x => h x.1) = k.sites.map h := by
    conv_rhs => rw [← List.zipIdx_map_fst 0 k.sites, List.map_map, Function.comp_def]
  unfold fireEdge
  rw [hk]; dsimp only
  rw [hl]; dsimp only
  rw [ht]; dsimp only
  rw [hd]; dsimp only
  rw [hseg, Bool.true_and]
  by_cases h : d.edges.getLsbD 0 = true
  · rw [if_pos (show d.edges.getLsbD Edge.start.bit = true from h), modCell_cell, hk, Option.map_some,
      indexed fun x => if (x.state == .on) = true then { x with blank := d.blank } else x]
    simp [h]
  · have off : (fun x : Site => if x.state = .on ∧ d.edges.getLsbD 0 = true then { x with blank := d.blank } else x) = id :=
      funext fun x => if_neg fun y => h y.2
    rw [if_neg (show ¬ d.edges.getLsbD Edge.start.bit = true from h), hk, off, List.map_id]

/-- R78 steps 1 and 2: D_LOT and D_FEED are sent. -/
def sendFeed (k : Cell) (l : Lot) (g : Product) (s : State) : State :=
  send k.handlerPort (.feed l.id l.step k.onMask g.bins g.retest)
    (send k.testerPort (.lot (l.id % 65536) l.step (s.channelMask k)) s)

/-- R78 step 3, R96: the step is open, and EXTENDED when the margin passes by extension. -/
def recordFeed (l : Lot) (extended : Bool) (s : State) : State :=
  if extended then (openStep l s).modStep l.id l.step fun r => { r with margin := .extended } else openStep l s

/-- R78 steps 4 to 7: the segment opens, the START edge is fired, and the cell is RUNNING with no program asked for. -/
def openFeed (c : CellNo) (p : Port) (l : Lot) (s : State) : State :=
  reportCell c (some .starting) (setRequest p none
    ((fireEdge .start c (fun _ x => x.state == .on) (openSegment c l s)).modCell c fun k =>
      { k with state := .running, causes := {}, waiting := {} }))

theorem FeedDue.feed (r : FeedDue c k l g d s) : ∃ l', Marked l l' ∧ FeedDue c k l' g d (computeMargin k.testerPort s)
    ∧ feedCell c s = (openFeed c k.testerPort l (recordFeed l (s.marginByExtension k.testerPort d)
        (sendFeed k l g (computeMargin k.testerPort s))), [.complete l.id, .preemptCheck c]) := by
  obtain ⟨l', marked, due⟩ := r.consulted
  obtain ⟨⟨-, -, -, hg, hd, -⟩, -, steady⟩ := r.order
  refine ⟨l', marked, due, ?_⟩
  have inputs : SameInputs s (computeMargin k.testerPort s) := (SameInputs.refl s).consultMargin steady
  have may : (consultMargin k.testerPort s).1.mayFeed c k l = true :=
    due.mayFeed ((inputs.stopped (sameRoute_refl l)).trans r.stopped)
  have extended : (consultMargin k.testerPort s).1.marginByExtension k.testerPort d = s.marginByExtension k.testerPort d := by
    obtain ⟨-, hc, -⟩ := inputs.slot k.testerPort
    show (computeMargin k.testerPort s).marginByExtension k.testerPort d = _
    unfold State.marginByExtension
    rw [hc, inputs.floorTime]
  unfold feedCell
  rw [r.cell]; dsimp only
  rw [r.current]; dsimp only
  rw [hg, hd]; dsimp only
  rw [if_pos may, extended, consultMargin_quiet steady]; rfl

theorem recordFeed_lot {m : Lot} {b : Bool} (hl : s.lot? l.id = some m) (hstep : l.step < 6) :
    ∃ l', (recordFeed l b s).lot? l.id = some l' ∧ l' = { m with steps := l'.steps }
      ∧ (l'.stepRec l.step).input = ((m.stepRec l.step).fed l.quantity).input
      ∧ (l'.stepRec l.step).status = ((m.stepRec l.step).fed l.quantity).status
      ∧ (b = true → (l'.stepRec l.step).margin = .extended) := by
  have opened : (openStep l s).lot? l.id = some (m.withStep l.step (·.fed l.quantity)) := by
    unfold openStep
    rw [modStep_lot, hl, Option.map_some, if_pos rfl]; rfl
  have same := withStep_same (l := m) l.step (·.fed l.quantity)
  have rec_ : (m.withStep l.step (·.fed l.quantity)).stepRec l.step = (m.stepRec l.step).fed l.quantity := by
    rw [withStep_stepRec, if_pos ⟨rfl, hstep⟩]
  unfold recordFeed
  cases b with
  | false => exact ⟨_, opened, same, by rw [rec_], by rw [rec_], fun h => nomatch h⟩
  | true =>
    rw [if_pos rfl, modStep_lot, opened, Option.map_some, if_pos rfl]
    refine ⟨_, rfl, ?_, ?_, ?_, fun _ => ?_⟩
    · rw [withStep_same, same]
    · rw [withStep_stepRec, if_pos ⟨rfl, hstep⟩, rec_]
    · rw [withStep_stepRec, if_pos ⟨rfl, hstep⟩, rec_]
    · rw [withStep_stepRec, if_pos ⟨rfl, hstep⟩]

theorem recordFeed_exists (b : Bool) : ∃ ls, recordFeed l b s = { s with lots := ls } := by
  unfold recordFeed
  cases b with
  | false => exact ⟨_, rfl⟩
  | true => exact ⟨_, rfl⟩

theorem openFeed_cell {m : Lot} {tl : Tally} (hk : s.cell? c = some k) (hl : s.currentLot? c = some m) (hid : m.id = l.id)
    (ht : s.tally? l.id = some tl) (hd : s.stepDef? m tl.step = some d) :
    (openFeed c p l s).cell? c = some (k.fed l d s.floorTime) := by
  have opened : (openSegment c l s).cell? c = some { k with
      segment := some { lot := l.id, step := l.step, feedTime := s.floorTime }
      lastSegment := some { lot := l.id, step := l.step, feedTime := s.floorTime }
      segLoaded := 0, segBins := Vector.replicate 8 0, segJammed := 0
      sites := k.sites.map fun x => { x with expFirst := 1, expRetest := 1, blank := 0, run := 0 } } := by
    unfold openSegment
    rw [modCell_cell, hk]; rfl
  have fired := fireEdge_start opened hl (by rw [hid]; exact ht) hd rfl
  unfold openFeed
  rw [reportCell_cell]
  refine (modCell_cell _ c _).trans ?_
  rw [fired, Option.map_some, List.map_map]
  unfold Cell.fed
  have sites : ((fun x : Site => if x.state = .on ∧ d.edges.getLsbD 0 = true then { x with blank := d.blank } else x)
      ∘ fun x : Site => { x with expFirst := 1, expRetest := 1, blank := 0, run := 0 }) = fun x : Site => { x with
      expFirst := 1, expRetest := 1, run := 0, blank := if x.state = .on ∧ d.edges.getLsbD 0 = true then d.blank else 0 } := by
    funext x
    dsimp only [Function.comp]
    split <;> rfl
  rw [sites]

theorem openFeed_frame : (openFeed c p l s).lots = s.lots ∧ (openFeed c p l s).ports = s.ports ∧ (openFeed c p l s).queues = s.queues
    ∧ (openFeed c p l s).tallies = s.tallies ∧ (openFeed c p l s).products = s.products
    ∧ (openFeed c p l s).cells[c].preemptEnable = s.cells[c].preemptEnable ∧ (openFeed c p l s).slots[p].request = none := by
  obtain ⟨cs, hf, hp⟩ := fireEdge_exists (c := c) .start (fun _ x => x.state == .on) (openSegment c l s)
  have preempt : cs[c].preemptEnable = s.cells[c].preemptEnable := hp.trans (modCell_preempt c _)
  obtain ⟨r, n, hr⟩ := reportCell_exists c (some .starting) (setRequest p none
    ((fireEdge .start c (fun _ x => x.state == .on) (openSegment c l s)).modCell c fun k =>
      { k with state := .running, causes := {}, waiting := {} }))
  unfold openFeed
  rw [hr, hf]
  refine ⟨rfl, rfl, rfl, rfl, rfl, (modCell_preempt c _).trans preempt, ?_⟩
  show (setRequest p none _).slots[p].request = none
  unfold setRequest
  rw [modSlot_self]

theorem mem_send {m : Down} (h : s.inService p = true) : m ∈ (send p m s).ports[p].out := by
  unfold send
  rw [if_pos h, modPort_self]
  exact List.mem_append_right _ List.mem_cons_self

theorem sendFeed_frame : (sendFeed k l g s).lots = s.lots ∧ (sendFeed k l g s).queues = s.queues ∧ (sendFeed k l g s).cells = s.cells
    ∧ (sendFeed k l g s).tallies = s.tallies ∧ (sendFeed k l g s).products = s.products
    ∧ (sendFeed k l g s).floorTime = s.floorTime := by
  unfold sendFeed
  simp only [send_lots, send_queues, send_cells, send_tallies, send_products, send_floorTime, and_self]

/-- What the first feed leaves. -/
structure Fed (c : CellNo) (k : Cell) (l : Lot) (g : Product) (d : StepDef) (s u : State) : Prop where
  cell : u.cell? c = some (k.fed l d s.floorTime)
  queues : u.queues = s.queues
  tallies : u.tallies = s.tallies
  preempt : u.cells[c].preemptEnable = s.cells[c].preemptEnable
  request : u.slots[k.testerPort].request = none
  handler : .feed l.id l.step k.onMask g.bins g.retest ∈ u.ports[k.handlerPort].out
  tester : .lot (l.id % 65536) l.step (s.channelMask k) ∈ u.ports[k.testerPort].out
  lot : ∃ l', u.lot? l.id = some l' ∧ l' = { l with steps := l'.steps }
    ∧ (l'.stepRec l.step).input = ((l.stepRec l.step).fed l.quantity).input
    ∧ (l'.stepRec l.step).status = ((l.stepRec l.step).fed l.quantity).status
    ∧ (s.marginByExtension k.testerPort d = true → (l'.stepRec l.step).margin = .extended)

theorem Marked.fed {l' : Lot} (h : Marked l l') (i n : Nat) :
    ((l'.stepRec i).fed n).input = ((l.stepRec i).fed n).input ∧ ((l'.stepRec i).fed n).status = ((l.stepRec i).fed n).status := by
  unfold StepRec.fed
  rw [h.status]
  split
  · exact ⟨rfl, rfl⟩
  · exact ⟨h.input i, h.status i⟩

theorem FeedDue.fed {tl : Tally} (r : FeedDue c k l g d s) (ht : s.tally? l.id = some tl) (hstep : tl.step = l.step) (hsix : l.step < 6) :
    ∃ u, feedCell c s = (u, [.complete l.id, .preemptCheck c]) ∧ Fed c k l g d s u := by
  obtain ⟨m, marked, due, told⟩ := r.feed
  obtain ⟨⟨hh, htp, -, -, hd, -⟩, -, steady⟩ := due.order
  have inputs : SameInputs s (computeMargin k.testerPort s) := (SameInputs.refl s).consultMargin r.order.2.2
  have hid : m.id = l.id := marked.route.1
  obtain ⟨hcur, hlot⟩ := currentLot_id due.current
  rw [hid] at hcur hlot
  obtain ⟨wqueues, -, -⟩ : PlacesAre s.queues s.saves s.waitList (computeMargin k.testerPort s) :=
    (steady_placesAre _ _ _).computeMargin ⟨rfl, rfl, rfl⟩
  generalize hw : computeMargin k.testerPort s = w at *
  have wtallies : w.tallies = s.tallies := hw ▸ computeMargin_tallies.1
  have wcells : w.cells = s.cells := hw ▸ computeMargin_cells
  obtain ⟨lots, queues, cells, tallies, products, floor⟩ := sendFeed_frame (k := k) (l := l) (g := g) (s := w)
  have sent : (sendFeed k l g w).lot? l.id = some m := by unfold State.lot?; rw [lots]; exact hlot
  obtain ⟨l', hl', same, input, status, extended⟩ := recordFeed_lot (b := s.marginByExtension k.testerPort d) sent hsix
  obtain ⟨ls, hrec⟩ := recordFeed_exists (l := l) (s := sendFeed k l g w) (s.marginByExtension k.testerPort d)
  generalize hb : recordFeed l (s.marginByExtension k.testerPort d) (sendFeed k l g w) = b at *
  obtain ⟨flots, fports, fqueues, ftallies, -, fpreempt, frequest⟩ := openFeed_frame (c := c) (p := k.testerPort) (l := l) (s := b)
  have bqueues : b.queues = w.queues := by rw [hrec]; exact queues
  have btallies : b.tallies = s.tallies := by rw [hrec]; exact tallies.trans wtallies
  have bcells : b.cells = s.cells := by rw [hrec]; exact cells.trans wcells
  have bfloor : b.floorTime = s.floorTime := by rw [hrec]; exact floor.trans inputs.floorTime
  have bports : b.ports = (sendFeed k l g w).ports := by rw [hrec]
  have bsteps : b.stepDef? l' tl.step = some d := by
    unfold State.stepDef? State.product? at hd ⊢
    rw [hrec, same, hstep]
    show (List.find? _ (sendFeed k l g w).products).bind _ = _
    rw [products, ← marked.route.2.2.1]; exact hd
  have bcurrent : b.currentLot? c = some l' := currentLot_of (by rw [bqueues]; exact hcur) hl'
  have hid' : l'.id = l.id := by rw [same]; exact hid
  obtain ⟨finput, fstatus⟩ := marked.fed l.step l.quantity
  refine ⟨_, told, ?_⟩
  exact
    { cell := by
        rw [← bfloor]
        refine openFeed_cell ?_ bcurrent hid' ?_ bsteps
        · unfold State.cell?; rw [bcells]; exact r.cell
        · unfold State.tally?; rw [btallies]; exact ht
      queues := fqueues.trans (bqueues.trans wqueues)
      tallies := ftallies.trans btallies
      preempt := fpreempt.trans (by rw [bcells])
      request := frequest
      handler := by
        rw [fports, bports]
        exact mem_send (SameInputs.refl w |>.send.inService _ |>.trans hh)
      tester := by
        have mask : w.channelMask k = s.channelMask k := by unfold State.channelMask; rw [(inputs.port k.testerPort).2]
        rw [fports, bports, ← mask]
        exact (SameInputs.refl _).send.out (mem_send htp)
      lot := ⟨l', by unfold State.lot? at hl' ⊢; rw [flots]; exact hl', by rw [same, marked.record], input.trans finput,
        status.trans fstatus, extended⟩ }

/-- R109: a tally that has not counted its input quantity is not complete. -/
theorem complete_quiet {tl : Tally} {n id : Nat} (hl : s.lot? id = some l) (ht : s.tally? id = some tl)
    (hi : (l.stepRec tl.step).input = some n) (hn : tl.n1 < n) : deliver (.complete id) s = (s, []) := by
  have open_ (w : BitVec 16) : tl.complete n w = false := by
    unfold Tally.complete
    rw [beq_false_of_ne (Nat.ne_of_lt hn)]; rfl
  show judgeComplete id s = _
  unfold judgeComplete
  rw [hl, ht]; dsimp only
  split
  next hin =>
    cases hin.symm.trans hi
    rw [open_]; rfl
  next => rfl

/-- R46: the soak of a cell that waited for its temperature alone has ended. -/
theorem feedDue_of_soak (hk : s.cell? c = some k) (hst : k.state = .starting) (hsoak : k.soak = .settling)
    (hl : s.currentLot? c = some l) (ho : s.onlyTemp k l g d) (hdir : s.director c = true) (hstop : s.stopped l = false)
    (ht : l.tally = true) (ha : s.activeCurrent k.testerPort d.program = true) (hs : s.slots[k.testerPort].swap = none) :
    FeedDue c { k with soak := .soaked, soakTimer := none } l g d
      (s.modCell c fun k => { k with soak := if k.soak = .settling then .soaked else k.soak, soakTimer := none }) where
  cell := by rw [modCell_cell, hk, Option.map_some, hsoak]; rfl
  starting := hst
  soaked := rfl
  current := hl
  order := (SameInputs.refl s).modCell.onlyTemp (sameBody_refl k) (sameRoute_refl l) ho
  director := ((SameInputs.refl s).modCell.director c).trans hdir
  stopped := hstop
  tally := ht
  active := ha
  swap := hs

end
end Sys2Proof.Machine

section
open Sys2Proof.Machine

/-- Settles O13: the end of the soak owes the feed, the feed owes a judgement of completeness that finds the tally short and a check of
preemption that finds it disabled. -/
theorem firstFeed : Obligations.FirstFeed := by
  intro c k l g d t channels s hk hst hsoak hdue hl ho hdir hstop htally hact hswap hsix hpre ht hstep hdata r n hn
  have due := feedDue_of_soak hk hst hsoak hl ho hdir hstop htally hact hswap
  have first : SameInputs s (s.modCell c fun k => { k with soak := if k.soak = .settling then .soaked else k.soak, soakTimer := none }) :=
    (SameInputs.refl s).modCell
  obtain ⟨v, l', refreshed, marked, due', inputs, queues, tallies⟩ := due.refresh
  obtain ⟨steps, rfl⟩ : ∃ x, l' = { l with steps := x } := ⟨_, marked.record⟩
  have inputs := first.trans inputs
  obtain ⟨u, fed, hu⟩ := due'.fed (tl := t) (by unfold State.tally? at ht ⊢; rw [tallies]; exact ht) hstep hsix
  obtain ⟨m, hm, same, input, status, extended⟩ := hu.lot
  obtain ⟨finput, fstatus⟩ := marked.fed l.step l.quantity
  have input : (m.stepRec l.step).input = if r.status = .pending then some n else r.input := by
    refine input.trans (finput.trans ?_)
    show (if _ then _ else _ : StepRec).input = if _ then some (if _ then _ else _) else _
    split <;> rfl
  have quantity : (m.stepRec t.step).input = some n := by
    rw [hstep, input]
    by_cases hp : r.status = .pending
    · rw [if_pos hp]
    · rw [if_neg hp]
      have hn : t.n1 < r.input.getD 0 := by rwa [show n = r.input.getD 0 from if_neg hp] at hn
      rw [show n = r.input.getD 0 from if_neg hp]
      cases h : r.input with
      | none => rw [h] at hn; exact absurd hn (Nat.not_lt_zero _)
      | some x => rfl
  have counted : u.tally? l.id = some t := by unfold State.tally? at ht ⊢; rw [hu.tallies, tallies]; exact ht
  have unpreempted : u.cells[c].preemptEnable = false := by rw [hu.preempt, (inputs.enable c).2]; exact hpre
  refine ⟨u, ?_, ?_, hu.queues.trans queues, hu.request, hu.handler, ?_, m, hm, ?_, input, ?_, fun h => extended ?_⟩
  · show onExpiry ((s.cell? c).any fun k => expired k.soakTimer s.elapsed) s _ = _
    rw [hk, Option.any_some, hdue]
    refine settle_of_run (fuel := 4) (by decide) ?_
    rw [run, show deliver (.refresh c) _ = (v, [.feed c]) from refreshed]; dsimp only [List.cons_append, List.nil_append]
    rw [run, show deliver (.feed c) v = _ from fed]; dsimp only [List.cons_append, List.nil_append]
    exact (run_quiet (complete_quiet hm counted quantity hn)).trans (run_quiet (preemptCheck_quiet (meetsPreemption_disabled unpreempted)))
  · rw [hu.cell, inputs.floorTime]; rfl
  · have mask : v.channelMask { k with soak := .soaked, soakTimer := none, causes := {}, waiting := {} }
        = siteMask (·.state == .on) (k.sites.take channels) := by
      obtain ⟨x, a, w, b, y, z, hx⟩ := hdata
      unfold State.channelMask
      dsimp only
      rw [(inputs.port k.testerPort).2, hx]
    rw [← mask]; exact hu.tester
  · rw [same]
  · refine status.trans (fstatus.trans ?_)
    show (if _ then _ else _ : StepRec).status = _
    split <;> rfl
  · obtain ⟨-, hc, -⟩ := inputs.slot k.testerPort
    show v.marginByExtension k.testerPort d = true
    unfold State.marginByExtension at h ⊢
    rw [hc, inputs.floorTime]; exact h

end
end

