-- ==== Sys2Proof/Proofs/TallyWait.lean ====
section
-- In order: the check's memory bound leaves no room for a thread per proof.
set_option Elab.async false
/-! ## The tally wait order (R77) -/

namespace Sys2Proof.Machine

section
variable {s t u : State} {c : CellNo} {k : Cell} {l m : Lot} {g : Product} {d : StepDef} {order : List CellNo}

/-! ### A freed tally is given out -/

theorem fit_of_onlyTemp (h : s.onlyTemp k l g d) (hd : s.director c = true) : s.fit c k l := by
  obtain ⟨⟨hh, ht, -, hg, -, hkit, hbar, -⟩, -, -⟩ := h
  exact ⟨hh, ht, fun g' hg' => by cases hg.symm.trans hg'; exact hkit.symm, hbar, hd⟩

theorem SameInputs.leaveGroup (h : SameInputs s t) : SameInputs s (leaveGroup m t) := by
  unfold Machine.leaveGroup
  split
  · exact h
  next g _ =>
    have left : SameInputs s (t.modGroup g fun x => { x with
      lots := x.lots.filter (· != m.id)
      product := if (x.lots.filter (· != m.id)).isEmpty then none else x.product }) := h.same rfl
    exact left.modLot

theorem SameInputs.freeTally {id : Nat} (h : SameInputs s t) : SameInputs s (freeTally id t) := by
  have freed : SameInputs s { t with tallies := t.tallies.filter (·.lot != id) } := h.same rfl
  exact freed.modLot

/-- R77: the first cell of the order is served. -/
theorem tallyFreed_serves {id : Nat} (h : s.tallyWait = c :: order) (hlen : s.tallies.length < 48) (hc : s.current? c = some id) :
    tallyFreed s = (giveTally id { s with tallyWait := order }, [.refresh c]) := by
  unfold tallyFreed
  rw [h]; dsimp only
  rw [if_pos (show s.tallies.length < Config.maxTallies from hlen), hc]

theorem giveTally_eq {id : Nat} (hl : s.lot? id = some l) : ∃ ls, giveTally id s = { s with
      lots := ls, tallies := s.tallies ++ [{ lot := id, step := l.step }] }
    ∧ (giveTally id s).lot? id = some { l with tally := true } := by
  have found (v : State) := modLot_lot v (n := id) (f := fun l => { l with tally := true }) (fun _ => rfl) id
  unfold giveTally
  rw [hl]
  refine ⟨_, rfl, (found _).trans ?_⟩
  show (s.lot? id).map _ = _
  rw [hl]; simp

/-- What serves the first cell of the order when the tally of a lot that is dropped goes to it. -/
theorem dropTally_serves (hm : s.lot? m.id = some m) (hmt : m.tally = true) (hne : m.id ≠ l.id) (hw : s.tallyWait = c :: order)
    (hlen : (s.tallies.filter (·.lot != m.id)).length < 48) (hl : s.currentLot? c = some l) :
    ∃ v, deliver .tallyFreed (dropTally m (leaveGroup m s)).1 = (v, [.refresh c]) ∧ SameInputs s v
      ∧ v.lot? l.id = some { l with tally := true } ∧ v.queues = s.queues ∧ v.cells = s.cells ∧ v.tallyWait = order
      ∧ v.tallies = s.tallies.filter (·.lot != m.id) ++ [{ lot := l.id, step := l.step }] := by
  obtain ⟨hcur, hlot⟩ := currentLot_id hl
  obtain ⟨x₁, gs, h₁, hl₁, ho₁, -⟩ := leaveGroup_eq hm
  obtain ⟨x₂, h₂, -, ho₂⟩ := dropTally_eq rfl hl₁
  rw [hmt, if_pos rfl] at h₂
  have dropped : (dropTally m (leaveGroup m s)).1 = freeTally m.id (leaveGroup m s) := by unfold dropTally; rw [hmt]; rfl
  have freed : SameInputs s (dropTally m (leaveGroup m s)).1 := by rw [dropped]; exact (SameInputs.refl s).leaveGroup.freeTally
  generalize (dropTally m (leaveGroup m s)).1 = w at *
  have lot : w.lot? l.id = some l := (ho₂ _ hne.symm).trans ((ho₁ _ hne.symm).trans hlot)
  obtain ⟨x₃, h₃, given⟩ := giveTally_eq (s := { w with tallyWait := order }) lot
  refine ⟨giveTally l.id { w with tallyWait := order }, tallyFreed_serves (by rw [h₂, h₁]; exact hw) (by rw [h₂, h₁]; exact hlen)
    (by rw [h₂, h₁]; exact hcur), ?_, given, ?_⟩
  · have waits : SameInputs s { w with tallyWait := order } := freed.same rfl
    exact waits.giveTally
  · rw [h₃, h₂, h₁]
    exact ⟨rfl, rfl, rfl, rfl⟩

/-- R18, R77: a LOT_DROP frees a tally for the first cell of the order. -/
theorem lotDrop_serves {b : List Byte} (ha : s.asks Kind.lotDrop b) (hb : b.length = 4) (hm : s.lot? (u32 b 0) = some m)
    (hst : m.state = .waiting ∨ m.state = .held ∨ m.state = .complete) (hmt : m.tally = true) (hne : m.id ≠ l.id)
    (hw : s.tallyWait = c :: order) (hlen : (s.tallies.filter (·.lot != m.id)).length < 48) (hk : s.cell? c = some k)
    (hks : k.state = .starting) (hl : s.currentLot? c = some l) (ht : s.tally? l.id = none) (ho : s.onlyTemp k l g d)
    (hd : s.director c = true) (hs : s.stopped l = false) (hsoak : k.soak ≠ .soaked) :
    ∃ u : State, exec .lotDrop s = .next (u.replied (.plain .ok))
      ∧ u.lot? m.id = none ∧ u.tally? m.id = none ∧ u.tallyWait = order
      ∧ (∃ l', u.lot? l.id = some l' ∧ l' = { l with tally := true, steps := l'.steps })
      ∧ u.tally? l.id = some { lot := l.id, step := l.step }
      ∧ ∃ k', u.cell? c = some k' ∧ k'.state = .starting ∧ k'.waiting.tally = false ∧ k'.waiting.temp = true := by
  have fits : bodyFits Kind.lotDrop b = true := by simp [bodyFits, Kind.lotDrop, hb]
  have hid : m.id = u32 b 0 := lot_id hm
  rw [← hid] at hm
  obtain ⟨v, freed, inputs, lot, queues, cells, tallyWait, tallies⟩ := dropTally_serves hm hmt hne hw hlen hl
  have current : v.currentLot? c = some { l with tally := true } := currentLot_of (by rw [queues]; exact (currentLot_id hl).1) lot
  have same : sameRoute l { l with tally := true } := ⟨rfl, rfl, rfl, rfl⟩
  obtain ⟨w, judged, hw'⟩ := refresh_waits (s := v) (by unfold State.cell?; rw [cells]; exact hk) hks current
    (inputs.fit (sameBody_refl k) same (fit_of_onlyTemp ho hd)) (inputs.marginSteady ho.2.2) ((inputs.stopped same).trans hs) hsoak
  obtain ⟨m', hm', -⟩ := (inputs.trans hw'.inputs).lot hm
  obtain ⟨r, n, rest⟩ := dropRest_eq hm'
  have last : deliver (.dropRest m.id) w = ((dropRest m.id w).1, []) := by
    show dropRest m.id w = _
    unfold dropRest; split <;> rfl
  have free : ¬ (m.state = .queued ∨ m.state = .active ∨ m.state = .saved) := by
    rcases hst with hst | hst | hst <;> simp [hst]
  have found (n : Nat) : (dropRest m.id w).1.lot? n = if n = m.id then none else w.lot? n := by
    rw [rest]
    unfold State.lot?
    exact find_remove Lot.id m.id w.lots n
  have remaining : (dropRest m.id w).1.tallies = s.tallies.filter (·.lot != m.id) ++ [{ lot := l.id, step := l.step }] := by
    rw [rest]; exact hw'.tallies.trans tallies
  obtain ⟨x, y, cell, temp, tally⟩ := hw'.cell
  obtain ⟨l', hl', marked⟩ := hw'.lot lot
  refine ⟨(dropRest m.id w).1, ?_, (found _).trans (if_pos rfl), ?_, ?_, ⟨l', ?_, marked.record⟩, ?_,
    { k with causes := x, waiting := y }, ?_, hks, tally, temp⟩
  · refine (takeRequest_fits ha (ofKind_self _ _) fits).trans ?_
    rw [← hid, hm]
    refine (if_neg free).trans ?_
    have owed : (dropTally m (leaveGroup m s)).2 = [.tallyFreed] := by unfold dropTally; rw [hmt]; rfl
    dsimp only
    rw [owed]
    refine answered_of_run (fuel := 3) (by decide) ?_
    show run 3 [.tallyFreed, .dropRest m.id] _ = _
    rw [run, freed]
    exact (run_quiet (show deliver (.refresh c) v = (w, []) from judged)).trans (run_quiet last)
  · unfold State.tally?
    rw [remaining]
    simp [List.find?_append, hne.symm]
  · rw [rest]; exact hw'.tallyWait.trans tallyWait
  · rw [found, if_neg hne.symm]; exact hl'
  · unfold State.tally? at ht ⊢
    rw [remaining, List.find?_append]
    have none : (s.tallies.filter (·.lot != m.id)).find? (·.lot == l.id) = none :=
      List.find?_eq_none.mpr fun x hx => List.find?_eq_none.mp ht x (List.mem_filter.mp hx).1
    rw [none]
    simp
  · rw [rest]; exact cell

/-! ### A lot placed with no tally free -/

/-- R96: with no segment open a consultation writes the margin alone. -/
theorem computeMargin_alone {p : Port} (h : s.noSegment) : ∃ ss, computeMargin p s = { s with slots := ss } := by
  obtain ⟨ls, ss, he⟩ := computeMargin_exists (p := p) (s := s)
  have same : ls = s.lots := by rw [← computeMargin_lots (p := p) h, he]
  exact ⟨ss, by rw [he, same]⟩

/-- R95: a consultation leaves the margin steady. -/
theorem marginSteady_computed {p : Port} : (computeMargin p s).marginSteady p := by
  rw [marginSteady_iff]
  intro x hu hx
  obtain ⟨m, hm⟩ := computeMargin_slot (p := p) (s := s) p
  have hu' : s.slots[p].use = .inUse := (congrArg Slot.use hm).symm.trans hu
  have hx' : s.slots[p].cal = some x := (congrArg Slot.cal hm).symm.trans hx
  have computed : (computeMargin p s).slots[p].margin = some (x.margin s.floorTime) := by
    unfold computeMargin
    rw [hu', hx']; dsimp only
    rw [markExtended_slots, modSlot_self]
  obtain ⟨ls, ss, he⟩ := computeMargin_exists (p := p) (s := s)
  have floor : (computeMargin p s).floorTime = s.floorTime := by rw [he]
  rw [floor]
  unfold Slot.told
  rw [computed]; rfl

/-- R64: eligibility does not read the margins told. -/
theorem eligible_consulted {p : Port} (h : s.noSegment) (e : CellNo) : (computeMargin p s).eligible e l = s.eligible e l := by
  obtain ⟨ss, he⟩ := computeMargin_alone (p := p) h
  have slot (q : Port) : ∃ m, ss[q] = { s.slots[q] with margin := m } := by
    obtain ⟨m, hm⟩ := computeMargin_slot (p := p) (s := s) q
    rw [he] at hm; exact ⟨m, hm⟩
  have barred (q : Port) : ({ s with slots := ss } : State).slots[q].barred = s.slots[q].barred := by
    obtain ⟨m, hm⟩ := slot q
    show ss[q].barred = _
    rw [hm]
  have passes (q : Port) (d : StepDef) : ({ s with slots := ss } : State).marginPasses q d = s.marginPasses q d := by
    obtain ⟨m, hm⟩ := slot q
    unfold State.marginPasses
    dsimp only
    rw [hm]
  have cell : ({ s with slots := ss } : State).cell? e = s.cell? e := rfl
  have product : ({ s with slots := ss } : State).product? l.product = s.product? l.product := rfl
  have step : ({ s with slots := ss } : State).stepDef? l l.step = s.stepDef? l l.step := rfl
  rw [he]
  unfold State.eligible
  rw [cell, product, step]
  cases s.cell? e with
  | none => rfl
  | some k =>
    cases s.product? l.product with
    | none => rfl
    | some g =>
      cases s.stepDef? l l.step with
      | none => rfl
      | some d =>
        dsimp only
        rw [barred, passes]; rfl

/-- One cell of the consultation of R95. -/
def consultOne (r : Told) (c : CellNo) : Told :=
  match r.1.cell? c with
  | none => r
  | some k => ((consultMargin k.testerPort r.1).1, r.2 ++ (consultMargin k.testerPort r.1).2)

theorem consultAll_eq (s : State) : consultAll s = allCells.foldl consultOne (s, []) := rfl

theorem consultOne_none {r : Told} {e : CellNo} (h : r.1.cell? e = none) : consultOne r e = r := by unfold consultOne; rw [h]

theorem consultOne_some {r : Told} (h : r.1.cell? c = some k) :
    consultOne r c = ((consultMargin k.testerPort r.1).1, r.2 ++ (consultMargin k.testerPort r.1).2) := by unfold consultOne; rw [h]

/-- R95: with one cell formed its tester alone is consulted. -/
theorem consultAll_one (hk : s.cell? c = some k) (h : ∀ e, e ≠ c → s.cell? e = none) :
    consultAll s = consultMargin k.testerPort s := by
  have skip (cs : List CellNo) (hc : c ∉ cs) (r : Told) (hr : r.1.cells = s.cells) : cs.foldl consultOne r = r := by
    induction cs with
    | nil => rfl
    | cons e cs ih =>
      have he : r.1.cell? e = none := by
        unfold State.cell?
        rw [hr]; exact h e fun x => hc (x ▸ List.mem_cons_self)
      rw [List.foldl_cons, consultOne_none he]
      exact ih fun x => hc (List.mem_cons_of_mem _ x)
  obtain ⟨before, after, split⟩ := List.append_of_mem (show c ∈ allCells from List.mem_ofFn.mpr ⟨c, rfl⟩)
  have once : (before ++ c :: after).Nodup := split ▸ (by decide : allCells.Nodup)
  obtain ⟨-, hafter, hbefore⟩ := List.nodup_append.mp once
  have hb : c ∉ before := fun x => hbefore c x c List.mem_cons_self rfl
  have ha : c ∉ after := (List.nodup_cons.mp hafter).1
  rw [consultAll_eq, split, List.foldl_append, skip before hb (s, []) rfl, List.foldl_cons, consultOne_some hk, List.nil_append]
  exact skip after ha _ computeMargin_cells

theorem noSegment_of_one (hk : s.cell? c = some k) (h : ∀ e, e ≠ c → s.cell? e = none) (hseg : k.segment = none) : s.noSegment := by
  intro e k' hk'
  by_cases he : e = c
  · subst he
    cases hk.symm.trans hk'
    exact hseg
  · rw [h e he] at hk'; cases hk'

theorem eligible_formed {e : CellNo} (h : s.eligible e l = true) : ∃ k, s.cell? e = some k := by
  unfold State.eligible at h
  split at h
  next k _ _ hk _ _ => exact ⟨k, hk⟩
  · cases h

theorem eligibleCells_one (h : ∀ e, e ≠ c → s.cell? e = none) (he : s.eligible c l = true) : s.eligibleCells l = [c] := by
  have only : (fun e => s.eligible e l) = (· == c) := by
    funext e
    by_cases hc : e = c
    · subst hc; rw [he, beq_self_eq_true]
    · rw [beq_false_of_ne hc, Bool.eq_false_iff]
      intro x
      obtain ⟨k, hk⟩ := eligible_formed x
      rw [h e hc] at hk; cases hk
  unfold State.eligibleCells
  rw [only]
  clear h he only
  revert c
  decide

/-- R67: the lot comes to entry 0 of the one cell that is eligible for it, which is idle. -/
def placed (c : CellNo) (id : Nat) (s : State) : State :=
  ((s.leaveWait id).modQueue c fun q => { q with current := some id }).moveLot id .active (.queue c 0)

theorem judgeWaiting_places (hk : s.cell? c = some k) (h : ∀ e, e ≠ c → s.cell? e = none) (hseg : k.segment = none)
    (hq : s.queues[c] = {}) (he : s.eligible c l = true) :
    judgeWaiting l s = (placed c l.id (computeMargin k.testerPort s), .start c :: (consultMargin k.testerPort s).2) := by
  have alone := noSegment_of_one hk h hseg
  have cells (e : CellNo) : (computeMargin k.testerPort s).cell? e = s.cell? e := by unfold State.cell?; rw [computeMargin_cells]
  obtain ⟨queues, -, -⟩ : PlacesAre s.queues s.saves s.waitList (computeMargin k.testerPort s) :=
    (steady_placesAre _ _ _).computeMargin ⟨rfl, rfl, rfl⟩
  have one : (computeMargin k.testerPort s).eligibleCells l = [c] :=
    eligibleCells_one (fun e x => (cells e).trans (h e x)) ((eligible_consulted alone c).trans he)
  have room : (computeMargin k.testerPort s).queues[c].isFull = false := by rw [queues, hq]; rfl
  have free : (computeMargin k.testerPort s).current? c = none := by unfold State.current?; rw [queues, hq]
  unfold judgeWaiting
  rw [consultAll_one hk h]
  extract_lets m w cells
  have chosen : w.choose l (cells.filter fun c => !w.queues[c].isFull) = some c := by
    show (computeMargin k.testerPort s).choose l (((computeMargin k.testerPort s).eligibleCells l).filter
      fun c => !(computeMargin k.testerPort s).queues[c].isFull) = some c
    rw [one, List.filter_cons_of_pos (by rw [room]; rfl)]; rfl
  have first : placeLot c l.id w = (placed c l.id (computeMargin k.testerPort s), [.start c]) := by
    show placeLot c l.id (computeMargin k.testerPort s) = _
    unfold placeLot
    rw [free]; rfl
  rw [chosen]; dsimp only
  rw [first]; rfl

/-- What the placement leaves. -/
structure PlacedFirst (c : CellNo) (l : Lot) (s a : State) : Prop where
  inputs : SameInputs s a
  cells : a.cells = s.cells
  lot : a.lot? l.id = some { l with state := .active, location := .queue c 0 }
  queue : a.queues[c] = { current := some l.id, behind := s.queues[c].behind }
  tallies : a.tallies = s.tallies
  tallyWait : a.tallyWait = s.tallyWait
  pass : a.pass = s.pass

theorem placed_placed (hl : s.lot? l.id = some l) : PlacedFirst c l s (placed c l.id s) where
  inputs := (SameInputs.refl s).leaveWait.modQueue.moveLot
  cells := by unfold placed; rw [moveLot_cells]; rfl
  lot := by
    unfold placed
    rw [moveLot_lot]
    show (s.lot? l.id).map _ = _
    rw [hl, Option.map_some, if_pos rfl]
  queue := by
    unfold placed; rw [moveLot_queues, modQueue_self]; rfl
  tallies := by unfold placed; rw [moveLot_eq]; rfl
  tallyWait := by unfold placed; rw [moveLot_eq]; rfl
  pass := by unfold placed; rw [moveLot_eq]; rfl

theorem eligibilityChanged_quiet (hq : s.queues[c].behind = []) (h : s.outOfChamber c = false) :
    eligibilityChanged c s = (s.trigger, []) := by
  have unconsulted : consultForQueue c s = (s, []) := by
    unfold consultForQueue
    split
    · rfl
    · rw [hq]; rfl
  have ineligible : s.ineligible c = [] := by unfold State.ineligible; rw [hq]; rfl
  unfold eligibilityChanged
  rw [unconsulted]
  dsimp only
  rw [ineligible, List.foldl_nil, ite_self, h]; rfl

theorem outOfChamber_fits (hk : s.cell? c = some k) (hl : s.currentLot? c = some l) (hd : s.stepDef? l l.step = some d)
    (h : s.inChamber k.handlerPort d = true) : s.outOfChamber c = false := by
  unfold State.outOfChamber State.currentStep?
  rw [hk, hl, Option.any_some, Option.bind_some, hd, Option.any_some, h]
  simp

theorem endPass_quiet (hm : s.pass.making = true) (hr : s.pass.remaining = []) (hc : s.pass.changed = []) :
    endPass s = ({ s with pass := { s.pass with making := false, changed := [] } }, []) := by
  unfold endPass
  rw [if_pos ⟨hm, hr⟩, hc]; rfl

theorem eligible_inChamber (hk : s.cell? c = some k) (hd : s.stepDef? l l.step = some d) (h : s.eligible c l = true) :
    s.inChamber k.handlerPort d = true := by
  unfold State.eligible at h
  rw [hk, hd] at h
  split at h
  next k' g d' hk' _ hd' =>
    cases hk'
    cases hd'
    simp only [Bool.and_eq_true] at h
    obtain ⟨⟨⟨⟨⟨⟨⟨⟨⟨-, -⟩, -⟩, -⟩, hi⟩, -⟩, -⟩, -⟩, -⟩, -⟩ := h
    exact hi
  · cases h

/-- What stands when a lot has been started with no tally free. -/
def State.joinedWait (s u : State) (c : CellNo) (l : Lot) : Prop :=
  u.lot? l.id = some { l with state := .active, location := .queue c 0 } ∧ u.tallies = s.tallies ∧ u.tallyWait = s.tallyWait ++ [c]
    ∧ ∃ k', u.cell? c = some k' ∧ k'.state = .starting ∧ k'.waiting.tally = true

theorem cellOfTester_one (hk : s.cell? c = some k) (h : ∀ e, e ≠ c → s.cell? e = none) : s.cellOfTester? k.testerPort = some c := by
  have only : (fun e => (s.cell? e).any fun x => x.testerPort == k.testerPort) = (· == c) := by
    funext e
    by_cases hc : e = c
    · subst hc; rw [hk, Option.any_some, beq_self_eq_true, beq_self_eq_true]
    · rw [beq_false_of_ne hc, h e hc]; rfl
  unfold State.cellOfTester?
  rw [only]
  clear hk h only
  revert c
  decide

/-- R95: the cell of a tester whose margin has changed is judged again. -/
theorem told_rests (hk : s.cell? c = some k) (hst : k.state = .starting) (h : ∀ e, e ≠ c → s.cell? e = none)
    (hl : s.currentLot? c = some l) (hq : s.queues[c].behind = []) (hf : s.fit c k l)
    (hm : s.marginSteady k.testerPort) (hs : s.stopped l = false) (hsoak : k.soak ≠ .soaked) (hd : s.stepDef? l l.step = some d)
    (hi : s.inChamber k.handlerPort d = true) :
    ∃ u, (∀ n ns, run (n + 3) (.testerTold k.testerPort :: ns) s = run n ns u.trigger) ∧ Waits c k l s u := by
  obtain ⟨u, judged, hu⟩ := refresh_waits hk hst hl hf hm hs hsoak
  obtain ⟨x, y, cell, -⟩ := hu.cell
  obtain ⟨queues, -, -⟩ := hu.places
  obtain ⟨hcur, hlot⟩ := currentLot_id hl
  obtain ⟨l', hl', marked⟩ := hu.lot hlot
  have current : u.currentLot? c = some l' := currentLot_of (by rw [queues]; exact hcur) hl'
  have step : u.stepDef? l' l'.step = some d := by rw [hu.inputs.stepDef? marked.route, marked.route.2.2.1]; exact hd
  have inside : u.outOfChamber c = false := outOfChamber_fits cell current step ((hu.inputs.inChamber _ _).trans hi)
  have owed : deliver (.testerTold k.testerPort) s = (s, [.refresh c, .eligibility c]) := by
    unfold deliver
    dsimp only
    rw [cellOfTester_one hk h]
  refine ⟨u, fun n ns => ?_, hu⟩
  rw [run, owed]
  refine (run_quiet (show deliver (.refresh c) s = (u, []) from judged)).trans ?_
  exact run_quiet (show deliver (.eligibility c) u = _ from eligibilityChanged_quiet (by rw [queues]; exact hq) inside)

theorem askTally_waits {id : Nat} (hl : s.lot? id = some l) (ht : l.tally = false) (hlen : 48 ≤ s.tallies.length)
    (hc : c ∉ s.tallyWait) : askTally c id s = { s with tallyWait := s.tallyWait ++ [c] } := by
  unfold askTally
  rw [hl, Option.any_some, ht, if_neg Bool.false_ne_true, if_neg (show ¬ s.tallies.length < Config.maxTallies from Nat.not_lt.mpr hlen),
    if_neg (by simpa using hc)]

/-- R77: the lot of a cell that has joined the order is judged to wait for a tally. -/
theorem comes_joins (hk : s.cell? c = some k) (h : ∀ e, e ≠ c → s.cell? e = none) (hseg : k.segment = none) {a u : State}
    (ha : PlacedFirst c l s a) (ht : l.tally = false) (hlen : 48 ≤ s.tallies.length) (hc : c ∉ s.tallyWait)
    (hu : Comes c k { l with state := .active, location := .queue c 0 } d a u) :
    s.joinedWait u c l ∧ ∃ x y, u.cell? c = some { k.warming d with causes := x, waiting := y } := by
  have alone : a.noSegment := by
    unfold State.noSegment State.cell?
    rw [ha.cells]; exact noSegment_of_one hk h hseg
  have asked : askTally c l.id a = { a with tallyWait := a.tallyWait ++ [c] } :=
    askTally_waits ha.lot ht (by rw [ha.tallies]; exact hlen) (by rw [ha.tallyWait]; exact hc)
  obtain ⟨x, y, cell, tally⟩ := hu.cell
  have lots : u.lots = a.lots := (hu.lots alone).trans (by show (askTally c l.id a).lots = _; rw [asked])
  refine ⟨⟨?_, ?_, ?_, _, cell, rfl, ?_⟩, x, y, cell⟩
  · unfold State.lot?; rw [lots]; exact ha.lot
  · refine hu.tallies.trans ?_
    show (askTally c l.id a).tallies = _
    rw [asked]; exact ha.tallies
  · refine hu.tallyWait.trans ?_
    show (askTally c l.id a).tallyWait = _
    rw [asked, ha.tallyWait]
  · refine (tally alone ?_).trans ?_
    · show (askTally c l.id a).lots = _
      rw [asked]
    · show (!l.tally) = true
      rw [ht]; rfl

theorem State.joinedWait.congr {u v : State} (h : s.joinedWait u c l) (hl : v.lots = u.lots) (ht : v.tallies = u.tallies)
    (hw : v.tallyWait = u.tallyWait) (hc : ∃ k', v.cell? c = some k' ∧ k'.state = .starting ∧ k'.waiting.tally = true) :
    s.joinedWait v c l := by
  obtain ⟨lot, tallies, tallyWait, -⟩ := h
  exact ⟨by unfold State.lot? at lot ⊢; rw [hl]; exact lot, ht.trans tallies, hw.trans tallyWait, hc⟩

/-- The last lot of a pass's reading is taken. -/
def State.readOut (s : State) : State := { s with pass := { s.pass with remaining := [] } }

theorem passStep_one {id : Nat} (hr : s.pass.remaining = [id]) (hl : s.lot? id = some l) (hst : l.state = .waiting) :
    passStep s = ((judgeWaiting l s.readOut).1, (judgeWaiting l s.readOut).2 ++ [.passEnd]) := by
  have found : s.readOut.lot? id = some l := hl
  unfold passStep
  rw [hr]; dsimp only
  rw [show ({ s with pass := { s.pass with remaining := [] } } : State) = s.readOut from rfl, found]; dsimp only
  rw [if_pos hst]

/-- What stands when the lot has come to entry 0. -/
theorem placed_starts (hlot : s.lot? l.id = some l) (hs : s.stopped l = false) (hd : s.stepDef? l l.step = some d)
    (he : s.eligible c l = true) (hk : s.cell? c = some k) (hn : k.noChanges) (hset : k.setpoint ≠ some d.setpoint)
    (hm : s.marginSteady k.testerPort) :
    ∃ u, (∀ n ns, run (n + 2) (.start c :: ns) (placed c l.id s) = run n ns u)
      ∧ Comes c k { l with state := .active, location := .queue c 0 } d (placed c l.id s) u := by
  have ha := placed_placed (c := c) hlot
  have same : sameRoute l { l with state := .active, location := .queue c 0 } := ⟨rfl, rfl, rfl, rfl⟩
  refine start_comes ?_ (currentLot_of (by rw [ha.queue]) ha.lot) ?_ hn hset (ha.inputs.marginSteady hm)
    (ha.inputs.fit (sameBody_refl k) same (fit_of_eligible hk he)) ((ha.inputs.stopped same).trans hs)
  · unfold State.cell?; rw [ha.cells]; exact hk
  · exact (ha.inputs.stepDef? same _).trans hd

/-- R95: the end of a pass whose placement changed a margin. -/
theorem joined_told {a u : State} (ha : PlacedFirst c l s a) (hu : Comes c k { l with state := .active, location := .queue c 0 } d a u)
    (hj : s.joinedWait u c l) (hw : ∃ x y, u.cell? c = some { k.warming d with causes := x, waiting := y })
    (hk : s.cell? c = some k) (h : ∀ e, e ≠ c → s.cell? e = none) (hseg : k.segment = none) (hq : s.queues[c].behind = [])
    (hm : s.marginSteady k.testerPort) (hs : s.stopped l = false) (hd : s.stepDef? l l.step = some d) (he : s.eligible c l = true)
    (ht : l.tally = false) :
    ∃ v, (∀ n ns, run (n + 3) (.testerTold k.testerPort :: ns) u = run n ns v.trigger) ∧ s.joinedWait v c l ∧ v.pass = s.pass := by
  obtain ⟨x, y, cell⟩ := hw
  have inputs : SameInputs s u := ha.inputs.trans hu.inputs
  have same : sameRoute l { l with state := .active, location := .queue c 0 } := ⟨rfl, rfl, rfl, rfl⟩
  obtain ⟨queues, -, -⟩ := hu.places
  have current : u.currentLot? c = some { l with state := .active, location := .queue c 0 } :=
    currentLot_of (by rw [queues, ha.queue]) hj.1
  have others : ∀ e, e ≠ c → u.cell? e = none := fun e x => inputs.noCell (h e x)
  obtain ⟨v, rests, hv⟩ := told_rests (k := { k.warming d with causes := x, waiting := y }) cell rfl others current
    (by rw [queues, ha.queue]; exact hq) (inputs.fit (sameBody_refl k) same (fit_of_eligible hk he)) (inputs.marginSteady hm)
    ((inputs.stopped same).trans hs) (by simp [Cell.warming]) ((inputs.stepDef? same _).trans hd)
    ((inputs.inChamber k.handlerPort d).trans (eligible_inChamber hk hd he))
  obtain ⟨x', y', cell', -, tally⟩ := hv.cell
  refine ⟨v, rests, hj.congr (hv.lots (noSegment_of_one cell others hseg)) hv.tallies hv.tallyWait ⟨_, cell', rfl, ?_⟩,
    hv.pass.trans (hu.pass.trans ha.pass)⟩
  refine tally.trans ?_
  show (!l.tally) = true
  rw [ht]; rfl

/-- R66: the end of a pass after which nothing is to be checked. -/
theorem joined_ends {u v : State} (hj : s.joinedWait u c l) (hm : v.pass.making = true) (hr : v.pass.remaining = [])
    (hch : v.pass.changed = []) (hv : ∃ x, v = { u with pass := x }) :
    ∃ w, (∀ n, run (n + 1) [.passEnd] v = some w) ∧ s.joinedWait w c l := by
  obtain ⟨x, rfl⟩ := hv
  have ended : deliver .passEnd _ = _ := endPass_quiet hm hr hch
  refine ⟨_, fun n => (run_quiet ended).trans (run_nil n _), hj.congr rfl rfl rfl hj.2.2.2⟩

/-- R66 to R68, R76, R77: the judgement that places the lot. -/
theorem judgeWaiting_joins (hm : s.pass.making = true) (hr : s.pass.remaining = []) (hch : s.pass.changed = [])
    (hlot : s.lot? l.id = some l) (hs : s.stopped l = false) (ht : l.tally = false) (hlen : 48 ≤ s.tallies.length)
    (hc : c ∉ s.tallyWait) (hd : s.stepDef? l l.step = some d) (he : s.eligible c l = true) (hk : s.cell? c = some k)
    (hn : k.noChanges) (hq : s.queues[c] = {}) (h : ∀ e, e ≠ c → s.cell? e = none) (hset : k.setpoint ≠ some d.setpoint)
    (hseg : k.segment = none) :
    ∃ u, run 6 ((judgeWaiting l s).2 ++ [.passEnd]) (judgeWaiting l s).1 = some u ∧ s.joinedWait u c l := by
  have alone := noSegment_of_one hk h hseg
  have steady := marginSteady_computed (s := s) (p := k.testerPort)
  have eligible := (eligible_consulted (l := l) (p := k.testerPort) alone c).trans he
  obtain ⟨ss, hw⟩ := computeMargin_alone (p := k.testerPort) alone
  have owed : (consultMargin k.testerPort s).2 = [] ∨ (consultMargin k.testerPort s).2 = [.testerTold k.testerPort] := by
    unfold consultMargin
    dsimp only
    split
    · exact .inr rfl
    · exact .inl rfl
  rw [judgeWaiting_places hk h hseg hq he]
  rw [hw] at steady eligible ⊢
  dsimp only
  obtain ⟨u, starts, hu⟩ := placed_starts (s := { s with slots := ss }) hlot hs hd eligible hk hn hset steady
  have ha := placed_placed (s := { s with slots := ss }) (c := c) hlot
  obtain ⟨hj, hcell⟩ := comes_joins (s := { s with slots := ss }) hk h hseg ha ht hlen hc hu
  rw [List.cons_append, starts 4]
  rcases owed with owed | owed
  · rw [owed]
    have pass : u.pass = s.pass := hu.pass.trans ha.pass
    obtain ⟨w, ends, joined⟩ := joined_ends (v := u) hj (by rw [pass]; exact hm) (by rw [pass]; exact hr) (by rw [pass]; exact hch)
      ⟨u.pass, rfl⟩
    exact ⟨w, ends 3, joined⟩
  · rw [owed]
    obtain ⟨v, rests, joined, pass⟩ := joined_told (s := { s with slots := ss }) ha hu hj hcell hk h hseg (by rw [hq]) steady hs hd eligible ht
    obtain ⟨w, ends, joined⟩ := joined_ends (v := v.trigger) joined (by rw [← hm, ← pass]; rfl) (by rw [← hr, ← pass]; rfl)
      (by rw [← hch, ← pass]; rfl) ⟨_, rfl⟩
    exact ⟨w, (rests 1 _).trans (ends 0), joined⟩

end
end Sys2Proof.Machine


section
open Sys2Proof.Machine

/-- Settles O32. -/
theorem tallyWaitOrder : Obligations.TallyWaitOrder := by
  refine ⟨fun c k l d s hm hp hw hl hlw hs ht hlen hc hd he hk _ hn hq h hset hseg => ?_,
    fun c k m l g d order s b ha hb hm hst hmt hne hw hlen hk hks _ hl _ ht ho hd hs hsoak =>
      lotDrop_serves ha hb hm hst hmt hne hw hlen hk hks hl ht ho hd hs hsoak⟩
  obtain ⟨u, passed, hu⟩ := judgeWaiting_joins (s := (beginPass s).readOut) rfl rfl rfl hl hs ht hlen hc hd he hk hn hq h hset hseg
  refine ⟨u, ?_, hu⟩
  show execAssignmentPass s = _
  unfold execAssignmentPass
  rw [hm, if_neg Bool.false_ne_true, if_pos hp, passStep_one (s := beginPass s) hw hl hlw]
  generalize judgeWaiting l (beginPass s).readOut = r at passed ⊢
  exact settle_of_run (fuel := 6) (by decide) passed

end
end

