-- ==== Sys2Proof/Proofs/Departure.lean ====
section
-- In order: the check's memory bound leaves no room for a thread per proof.
set_option Elab.async false
/-! ## The current lot leaves and another comes (R53, R74, R75) -/

namespace Sys2Proof.Machine

section
variable {s t b u : State} {c : CellNo} {k : Cell} {m l : Lot} {d : StepDef}

/-! ### A lot comes to an emptied queue -/

/-- What stands when a lot has come to entry 0. -/
structure AtEntry (c : CellNo) (l : Lot) (t b : State) : Prop where
  inputs : SameInputs t b
  cells : b.cells = t.cells
  queue : b.queues[c] = { current := some l.id, behind := [] }
  saves : b.saves = t.saves
  waitList : b.waitList = t.waitList
  lot : b.lot? l.id = some { l with state := .active, location := .queue c 0 }
  others : ∀ n, n ≠ l.id → b.lot? n = t.lot? n

theorem toEntry0_atEntry (hl : t.lot? l.id = some l) : AtEntry c l t (toEntry0 c l.id [] t) := by
  have queue : ((t.modQueue c fun _ => { current := some l.id, behind := [] }).moveLot l.id .active (.queue c 0)).queues[c]
      = { current := some l.id, behind := [] } := by rw [moveLot_queues, modQueue_self]
  unfold toEntry0
  exact
    { inputs := (SameInputs.refl t).modQueue.moveLot.renumber
      cells := by rw [renumber_cells, moveLot_cells]; rfl
      queue := by rw [renumber_queues]; exact queue
      saves := by rw [renumber_saves, moveLot_saves]; rfl
      waitList := by rw [renumber_waitList, moveLot_waitList]; rfl
      lot := by
        rw [renumber_current (by rw [queue]; simp [DispatchQueue.entries]) (by rw [queue]), moveLot_lot]
        show ((t.lot? l.id).map _).map _ = _
        rw [hl, Option.map_some, if_pos rfl]; rfl
      others := fun n hn => by
        rw [renumber_other (by rw [queue]; simpa [DispatchQueue.entries] using hn), moveLot_lot]
        show (t.lot? n).map _ = _
        simp [hn] }

theorem AtEntry.trigger (h : AtEntry c l t b) : AtEntry c l t b.trigger :=
  ⟨h.inputs.trigger, h.cells, h.queue, h.saves, h.waitList, h.lot, h.others⟩

/-- The lot has come to entry 0 and is started, with nothing behind it. -/
def State.startsLot (u : State) (c : CellNo) (k : Cell) (l : Lot) (d : StepDef) : Prop :=
  u.queues[c] = { current := some l.id, behind := [] } ∧ u.holdsLot l.id .active (.queue c 0)
    ∧ u.slots[k.testerPort].request = some d.program ∧ .setpoint d.setpoint ∈ u.ports[k.handlerPort].out
    ∧ ∃ k', u.cell? c = some k' ∧ k'.state = .starting ∧ k'.setpoint = some d.setpoint ∧ k'.segment = none ∧ k'.purpose = none

/-- R74, R76: a lot that has come to entry 0 of a cell with neither segment nor purpose is started. -/
theorem AtEntry.starts (hb : AtEntry c l t b) (hk : t.cell? c = some k) (hseg : k.segment = none) (hpur : k.purpose = none)
    (hd : t.stepDef? l l.step = some d) (hn : k.noChanges) (hset : k.setpoint ≠ some d.setpoint) (hm : t.marginSteady k.testerPort)
    (he : t.eligible c l = true) (hs : t.stopped l = false) :
    ∃ u, (∀ n ns, run (n + 2) (.start c :: ns) b = run n ns u) ∧ u.startsLot c k l d ∧ u.saves = t.saves ∧ u.waitList = t.waitList
      ∧ ∀ {n st loc}, n ≠ l.id → t.holdsLot n st loc → u.holdsLot n st loc := by
  have same : sameRoute l { l with state := .active, location := .queue c 0 } := ⟨rfl, rfl, rfl, rfl⟩
  obtain ⟨u, starts, hu⟩ := start_comes (s := b) (l := { l with state := .active, location := .queue c 0 })
    (by unfold State.cell?; rw [hb.cells]; exact hk) (currentLot_of (by rw [hb.queue]) hb.lot) ((hb.inputs.stepDef? same _).trans hd) hn hset
    (hb.inputs.marginSteady hm) (hb.inputs.fit (sameBody_refl k) same (fit_of_eligible hk he)) ((hb.inputs.stopped same).trans hs)
  obtain ⟨queues, saves, waitList⟩ := hu.places
  obtain ⟨x, w, cell, -⟩ := hu.cell
  refine ⟨u, starts, ⟨?_, ?_, hu.request, hu.setpoint, _, cell, rfl, rfl, hseg, hpur⟩, saves.trans hb.saves, waitList.trans hb.waitList,
    fun {n st loc} hn hh => ?_⟩
  · rw [queues]; exact hb.queue
  · exact hu.steady (steady_standsAt l.id .active (.queue c 0)) ⟨_, hb.lot, rfl, rfl⟩
  · obtain ⟨r, hr, hst, hloc⟩ := hh
    exact hu.steady (steady_standsAt n st loc) ⟨r, (hb.others n hn).trans hr, hst, hloc⟩

/-! ### The current lot leaves -/

/-- R53: the record of a cell whose current lot has left. -/
def Cell.cleared (k : Cell) : Cell :=
  { k with segment := none, withdrawTimer := none, drainTimer := none, causes := {}, waiting := {}, purpose := none }

/-- What stands when the current lot has left entry 0. -/
structure Vacated (c : CellNo) (k : Cell) (m : Lot) (s t : State) : Prop where
  inputs : SameInputs s t
  cell : t.cell? c = some k.cleared
  queue : t.queues[c] = { s.queues[c] with current := none }
  others : ∀ n, n ≠ m.id → t.lot? n = s.lot? n

theorem clearCurrent_vacates (hk : s.cell? c = some k) : Vacated c k m s (clearCurrent c s) where
  inputs := (SameInputs.refl s).clearCurrent
  cell := (modCell_cell _ c _).trans (congrArg _ hk)
  queue := modQueue_self s c fun q => { q with current := none }
  others _ _ := rfl

/-- R72: the current lot leaves for the save context. -/
theorem leave_saved (hk : s.cell? c = some k) (hc : s.queues[c].current = some m.id) (hm : s.lot? m.id = some m) :
    ∃ t, deliver (.leave c .saved none) s = (t, [.fill c true]) ∧ Vacated c k m s t ∧ t.saves[c] = some m.id
      ∧ t.holdsLot m.id .saved (.save c) := by
  have v := clearCurrent_vacates (m := m) hk
  have told : deliver (.leave c .saved none) s
      = ((((clearCurrent c s).setSave c (some m.id)).moveLot m.id .saved (.save c)).trigger, [.fill c true]) := by
    show leaveCell c .saved none s = _
    have current : s.current? c = some m.id := hc
    unfold leaveCell
    rw [hk, current]; rfl
  refine ⟨_, told, ⟨v.inputs.setSave.moveLot.trigger, ?_, ?_, fun n hn => ?_⟩, ?_, ?_⟩
  · show (((clearCurrent c s).setSave c (some m.id)).moveLot m.id .saved (.save c)).cell? c = _
    unfold State.cell?
    rw [moveLot_cells]; exact v.cell
  · show (((clearCurrent c s).setSave c (some m.id)).moveLot m.id .saved (.save c)).queues[c] = _
    rw [moveLot_queues]; exact v.queue
  · show (((clearCurrent c s).setSave c (some m.id)).moveLot m.id .saved (.save c)).lot? n = _
    rw [moveLot_lot]
    show (s.lot? n).map _ = _
    simp [hn]
  · show (((clearCurrent c s).setSave c (some m.id)).moveLot m.id .saved (.save c)).saves[c] = _
    rw [moveLot_saves]; simp [State.setSave]
  · exact holdsLot_moveLot_self (s := (clearCurrent c s).setSave c (some m.id)) (inTable_iff.mpr (by
      show (s.lot? m.id).isSome
      rw [hm]; rfl))

theorem mem_joinWait (id : Nat) : id ∈ (s.joinWait id).waitList := (mem_insertAsc ..).mpr (.inl rfl)

/-- R136: a lot without a stopping hold goes WAITING. -/
theorem toWaiting_free (hl : s.lot? l.id = some l) (hs : s.stopped l = false) :
    s.toWaiting l.id = (s.moveLot l.id .waiting .absent).joinWait l.id := by
  have moved : ((s.moveLot l.id .waiting .absent).joinWait l.id).lot? l.id = some { l with state := .waiting, location := .absent } := by
    show (s.moveLot l.id .waiting .absent).lot? l.id = _
    rw [moveLot_lot, hl, Option.map_some, if_pos rfl]
  have free : ((s.moveLot l.id .waiting .absent).joinWait l.id).stopped { l with state := .waiting, location := .absent } = false :=
    ((SameInputs.refl s).moveLot.joinWait.stopped ⟨rfl, rfl, rfl, rfl⟩).trans hs
  unfold State.toWaiting
  dsimp only
  rw [moved]; dsimp only
  rw [free, if_neg Bool.false_ne_true]

/-- R51: the current lot leaves for the wait list. -/
theorem leave_waiting (hk : s.cell? c = some k) (hc : s.queues[c].current = some m.id) (hm : s.lot? m.id = some m)
    (hs : s.stopped m = false) :
    ∃ t, deliver (.leave c .waiting none) s = (t, [.fill c false]) ∧ Vacated c k m s t ∧ t.saves = s.saves
      ∧ t.holdsLot m.id .waiting .absent ∧ m.id ∈ t.waitList := by
  have v := clearCurrent_vacates (m := m) hk
  have hm' : (clearCurrent c s).lot? m.id = some m := hm
  have moved := toWaiting_free hm' ((v.inputs.stopped (sameRoute_refl m)).trans hs)
  have told : deliver (.leave c .waiting none) s = (((clearCurrent c s).toWaiting m.id).trigger, [.fill c false]) := by
    show leaveCell c .waiting none s = _
    have current : s.current? c = some m.id := hc
    unfold leaveCell
    rw [hk, current]; rfl
  refine ⟨_, told, ⟨v.inputs.toWaiting.trigger, ?_, ?_, fun n hn => ?_⟩, ?_, ?_, ?_⟩
  · show ((clearCurrent c s).toWaiting m.id).cell? c = _
    rw [moved]
    show ((clearCurrent c s).moveLot m.id .waiting .absent).cell? c = _
    unfold State.cell?
    rw [moveLot_cells]; exact v.cell
  · show ((clearCurrent c s).toWaiting m.id).queues[c] = _
    rw [toWaiting_queues]; exact v.queue
  · exact toWaiting_lot (s := clearCurrent c s) m.id none n hn
  · exact toWaiting_saves (s := clearCurrent c s) m.id none
  · show ((clearCurrent c s).toWaiting m.id).holdsLot m.id .waiting .absent
    rw [moved]
    exact holdsLot_moveLot_self (s := clearCurrent c s) (inTable_iff.mpr (by rw [hm']; rfl))
  · show m.id ∈ ((clearCurrent c s).toWaiting m.id).waitList
    rw [moved]; exact mem_joinWait _

/-! ### The emptied entry is filled -/

/-- R74 case 1: the HOT lot moves up when the lot it preempts has been saved. -/
theorem fill_moves (hk : t.cell? c = some k) (hq : t.queues[c] = { current := none, behind := [l.id] }) (hd : t.director c = true)
    (hv : t.saves[c] = some m.id) : deliver (.fill c true) t = ((toEntry0 c l.id [] t).trigger, [.start c]) := by
  have empty : t.current? c = none := by unfold State.current?; rw [hq]
  show fillEntry c true t = _
  unfold fillEntry
  rw [hk, empty]; dsimp only
  rw [hd, if_pos rfl, hv]; dsimp only
  rw [if_pos rfl]
  unfold moveUp
  rw [hq]

/-- R72, R74, R76: a lot is saved for the HOT lot behind it, which is started. -/
theorem saved_starts (hk : s.cell? c = some k) (hq : s.queues[c] = { current := some m.id, behind := [l.id] })
    (hm : s.lot? m.id = some m) (hl : s.lot? l.id = some l) (hne : m.id ≠ l.id) (hd : s.stepDef? l l.step = some d) (hn : k.noChanges)
    (hset : k.setpoint ≠ some d.setpoint) (hst : s.marginSteady k.testerPort) (he : s.eligible c l = true) (hs : s.stopped l = false) :
    ∃ u, (∀ n ns, run (n + 4) (.leave c .saved none :: ns) s = run n ns u) ∧ u.startsLot c k l d ∧ u.saves[c] = some m.id
      ∧ u.holdsLot m.id .saved (.save c) := by
  obtain ⟨t, left, v, saves, saved⟩ := leave_saved hk (by rw [hq]) hm
  have dir : s.director c = true := by obtain ⟨-, -, -, -, hdir⟩ := fit_of_eligible hk he; exact hdir
  have hl' : t.lot? l.id = some l := (v.others _ hne.symm).trans hl
  have filled := fill_moves (l := l) v.cell (by rw [v.queue, hq]) ((v.inputs.director c).trans dir) saves
  obtain ⟨u, starts, hu, hsaves, -, others⟩ := (toEntry0_atEntry (c := c) hl').trigger.starts v.cell rfl rfl
    ((v.inputs.stepDef? (sameRoute_refl l) _).trans hd) hn hset (v.inputs.marginSteady hst)
    ((v.inputs.eligible (sameRoute_refl l) c).trans he) ((v.inputs.stopped (sameRoute_refl l)).trans hs)
  refine ⟨u, fun n ns => ?_, hu, by rw [hsaves]; exact saves, others hne saved⟩
  rw [run, left, List.cons_append, List.nil_append, run, filled]
  exact starts n ns

/-! ### The saved lot is restored (R75) -/

theorem fill_restores (hk : t.cell? c = some k) (hq : t.queues[c] = {}) (hv : t.saves[c] = some l.id) (hl : t.lot? l.id = some l)
    (hs : t.stopped l = false) (hst : t.marginSteady k.testerPort) (he : t.eligible c l = true) :
    deliver (.fill c false) t = (toEntry0 c l.id [] ((computeMargin k.testerPort t).setSave c none), [.start c, .preemptCheck c]) := by
  obtain ⟨-, -, -, -, dir⟩ := fit_of_eligible hk he
  have empty : t.current? c = none := by unfold State.current?; rw [hq]
  have eligible : (consultMargin k.testerPort t).1.eligible c l = true :=
    (((SameInputs.refl t).consultMargin hst).eligible (sameRoute_refl l) c).trans he
  have behind : (consultMargin k.testerPort t).1.queues[c].behind = [] := by
    obtain ⟨queues, -, -⟩ := (steady_placesAre t.queues t.saves t.waitList).computeMargin (p := k.testerPort) ⟨rfl, rfl, rfl⟩
    show (computeMargin k.testerPort t).queues[c].behind = []
    rw [queues, hq]
  show fillEntry c false t = _
  unfold fillEntry
  rw [hk, empty]; dsimp only
  rw [dir, if_pos rfl, hv]; dsimp only
  rw [if_neg Bool.false_ne_true]
  unfold restoreLot
  rw [hl]; dsimp only
  rw [hs, if_neg Bool.false_ne_true, if_pos eligible, behind, consultMargin_quiet hst]; rfl

theorem restored_starts (hk : s.cell? c = some k) (hq : s.queues[c] = { current := some m.id, behind := [] }) (hv : s.saves[c] = some l.id)
    (hm : s.lot? m.id = some m) (hl : s.lot? l.id = some l) (hne : m.id ≠ l.id) (hd : s.stepDef? l l.step = some d) (hn : k.noChanges)
    (hset : k.setpoint ≠ some d.setpoint) (hst : s.marginSteady k.testerPort) (hms : s.stopped m = false) (he : s.eligible c l = true)
    (hs : s.stopped l = false) :
    ∃ u, (∀ n ns, run (n + 5) (.leave c .waiting none :: ns) s = run n ns u) ∧ u.startsLot c k l d ∧ u.saves[c] = none
      ∧ u.holdsLot m.id .waiting .absent ∧ m.id ∈ u.waitList := by
  obtain ⟨t, left, v, saves, gone, waits⟩ := leave_waiting hk (by rw [hq]) hm hms
  have steady := v.inputs.marginSteady hst
  have route := sameRoute_refl l
  have filled := fill_restores v.cell (by rw [v.queue, hq]) (by rw [saves]; exact hv) ((v.others _ hne.symm).trans hl)
    ((v.inputs.stopped route).trans hs) steady ((v.inputs.eligible route c).trans he)
  obtain ⟨l', hl', marked⟩ := computeMargin_lot (p := k.testerPort) ((v.others _ hne.symm).trans hl)
  obtain ⟨x, rfl⟩ : ∃ x, l' = { l with steps := x } := ⟨_, marked.record⟩
  have inputs : SameInputs s ((computeMargin k.testerPort t).setSave c none) :=
    v.inputs.trans ((SameInputs.refl t).consultMargin steady).setSave
  have cell : ((computeMargin k.testerPort t).setSave c none).cell? c = some k.cleared := by
    rw [← v.cell]
    show (computeMargin k.testerPort t).cell? c = _
    unfold State.cell?
    rw [computeMargin_cells]
  obtain ⟨queues, -, waitList⟩ := (steady_placesAre t.queues t.saves t.waitList).computeMargin (p := k.testerPort) ⟨rfl, rfl, rfl⟩
  have stands : ((computeMargin k.testerPort t).setSave c none).holdsLot m.id .waiting .absent :=
    (steady_standsAt m.id .waiting .absent).computeMargin gone
  obtain ⟨u, starts, hu, hsaves, hwait, others⟩ := (toEntry0_atEntry (c := c) (t := (computeMargin k.testerPort t).setSave c none)
    (l := { l with steps := x }) hl').starts cell rfl rfl ((inputs.stepDef? route _).trans hd) hn hset (inputs.marginSteady hst)
    ((inputs.eligible route c).trans he) ((inputs.stopped route).trans hs)
  have unpreempted : u.meetsPreemption c = false := by
    unfold State.meetsPreemption
    rw [hu.1]; simp
  refine ⟨u, fun n ns => ?_, hu, ?_, others hne stands, ?_⟩
  · rw [run, left, List.cons_append, List.nil_append, run, filled, List.cons_append, List.cons_append, List.nil_append]
    exact (starts (n + 1) _).trans (run_quiet (preemptCheck_quiet unpreempted))
  · rw [hsaves]; simp [State.setSave]
  · rw [hwait]
    show m.id ∈ (computeMargin k.testerPort t).waitList
    rw [waitList]; exact waits

/-! ### The saved lot is not restored -/

/-- R53, R75: the saved lot leaves the save context for the wait list, or for HELD under a stopping hold. -/
def unsave (c : CellNo) (l : Lot) (s : State) : State :=
  if s.stopped l then (s.setSave c none).moveLot l.id .held .absent else (s.setSave c none).toWaiting l.id

/-- What stands when the saved lot has left. -/
structure Unsaved (c : CellNo) (l : Lot) (s t : State) : Prop where
  cells : t.cells = s.cells
  queues : t.queues = s.queues
  saves : t.saves[c] = none
  lot : t.holdsLot l.id (if s.stopped l = true then .held else .waiting) .absent
  others : ∀ {n st loc}, n ≠ l.id → s.holdsLot n st loc → t.holdsLot n st loc
  waits : s.stopped l = false → l.id ∈ t.waitList

theorem unsave_unsaved (hl : s.lot? l.id = some l) : Unsaved c l s (unsave c l s) := by
  have hl' : (s.setSave c none).lot? l.id = some l := hl
  have saves : (s.setSave c none).saves[c] = none := by simp [State.setSave]
  have present : (s.setSave c none).inTable l.id := inTable_iff.mpr (by rw [hl']; rfl)
  unfold unsave
  by_cases hs : s.stopped l = true
  · rw [if_pos hs]
    exact
      { cells := by rw [moveLot_cells]; rfl
        queues := by rw [moveLot_queues]; rfl
        saves := by rw [moveLot_saves]; exact saves
        lot := by rw [if_pos hs]; exact holdsLot_moveLot_self present
        others := fun hn hh => holdsLot_moveLot.mpr (by rw [if_neg hn]; exact hh)
        waits := fun h => absurd hs (by rw [h]; exact Bool.false_ne_true) }
  · have free : s.stopped l = false := Bool.eq_false_iff.mpr hs
    have moved := toWaiting_free hl' (((SameInputs.refl s).setSave.stopped (sameRoute_refl l)).trans free)
    rw [if_neg hs]
    exact
      { cells := by
          rw [moved]
          show ((s.setSave c none).moveLot l.id .waiting .absent).cells = _
          rw [moveLot_cells]; rfl
        queues := by rw [toWaiting_queues]; rfl
        saves := by rw [toWaiting_saves]; exact saves
        lot := by
          rw [if_neg hs, moved]
          exact holdsLot_moveLot_self (s := s.setSave c none) present
        others := fun {n st loc} hn hh => by
          obtain ⟨r, hr, h⟩ := hh
          exact ⟨r, (toWaiting_lot l.id none n hn).trans hr, h⟩
        waits := fun _ => by rw [moved]; exact mem_joinWait _ }

theorem goIdle_idles (hk : s.cell? c = some k) (hn : k.noChanges) :
    ∃ u, goIdle c s = (u, []) ∧ (∃ k', u.cell? c = some k' ∧ k'.state = .idle) ∧ ∀ {P : State → Prop}, Steady P → P s → P u := by
  have cell : (reportCell c (some k.state) (setRequest k.testerPort none (s.modCell c fun k => { k with state := .idle }))).cell? c
      = some { k with state := .idle } := by
    rw [reportCell_cell]
    exact (modCell_cell s c _).trans (congrArg _ hk)
  have told : goIdle c s
      = (reportCell c (some k.state) (setRequest k.testerPort none (s.modCell c fun k => { k with state := .idle })), []) := by
    unfold goIdle
    rw [hk]
    exact leaveRunning_quiet cell hn
  refine ⟨_, told, ⟨_, cell, rfl⟩, fun calm h => ?_⟩
  have kept := calm.goIdle (c := c) h
  rw [told] at kept
  exact kept

/-- R53, R74, R75: entry 0 of a cell with nothing to take it. -/
theorem fill_idles (hk : t.cell? c = some k) (hq : t.queues[c] = {}) (hv : t.saves[c] = some l.id) (hl : t.lot? l.id = some l)
    (hst : t.marginSteady k.testerPort) (he : t.eligible c l = false ∨ t.stopped l = true) :
    ∃ w l', deliver (.fill c false) t = goIdle c (unsave c l' w) ∧ (w = t ∨ w = computeMargin k.testerPort t) ∧ w.lot? l.id = some l'
      ∧ Marked l l' := by
  have empty : t.current? c = none := by unfold State.current?; rw [hq]
  have idle (w : State) (hw : w.queues[c] = {}) : moveUp c w = goIdle c w := by unfold moveUp; rw [hw]
  have filled : deliver (.fill c false) t = if t.director c then restoreLot c k l.id t else goIdle c (emptySave c t) := by
    show fillEntry c false t = _
    unfold fillEntry
    rw [hk, empty]; dsimp only
    rw [hv]; dsimp only
    rw [if_neg Bool.false_ne_true]
  rw [filled]
  by_cases hd : t.director c = true
  · rw [if_pos hd]
    unfold restoreLot
    rw [hl]; dsimp only
    by_cases hs : t.stopped l = true
    · refine ⟨t, l, ?_, .inl rfl, hl, .refl l⟩
      rw [if_pos hs, idle _ (by rw [moveLot_queues]; exact hq)]
      unfold unsave
      rw [if_pos hs]
    · have inputs : SameInputs t (computeMargin k.testerPort t) := (SameInputs.refl t).consultMargin hst
      obtain ⟨l', hl', marked⟩ := computeMargin_lot (p := k.testerPort) hl
      have ineligible : (consultMargin k.testerPort t).1.eligible c l = false :=
        (inputs.eligible (sameRoute_refl l) c).trans (he.resolve_right hs)
      have free : (computeMargin k.testerPort t).stopped l' = false := (inputs.stopped marked.route).trans (Bool.eq_false_iff.mpr hs)
      obtain ⟨queues, -, -⟩ := (steady_placesAre t.queues t.saves t.waitList).computeMargin (p := k.testerPort) ⟨rfl, rfl, rfl⟩
      refine ⟨_, l', ?_, .inr rfl, hl', marked⟩
      rw [if_neg hs, ineligible, if_neg Bool.false_ne_true, consultMargin_quiet hst, List.append_nil]
      unfold unsave
      rw [free, if_neg Bool.false_ne_true, marked.route.1]
      exact idle _ (by
        rw [toWaiting_queues]
        show (computeMargin k.testerPort t).queues[c] = {}
        rw [queues]; exact hq)
  · rw [if_neg hd]
    refine ⟨t, l, ?_, .inl rfl, hl, .refl l⟩
    unfold emptySave unsave
    rw [hv]; dsimp only
    rw [hl]

theorem unsaved_idles (hk : s.cell? c = some k) (hq : s.queues[c] = { current := some m.id, behind := [] }) (hv : s.saves[c] = some l.id)
    (hm : s.lot? m.id = some m) (hl : s.lot? l.id = some l) (hne : m.id ≠ l.id) (hn : k.noChanges) (hst : s.marginSteady k.testerPort)
    (hms : s.stopped m = false) (he : s.eligible c l = false ∨ s.stopped l = true) :
    ∃ u, (∀ n ns, run (n + 2) (.leave c .waiting none :: ns) s = run n ns u) ∧ u.saves[c] = none ∧ u.queues[c] = {}
      ∧ u.holdsLot m.id .waiting .absent ∧ u.holdsLot l.id (if s.stopped l = true then .held else .waiting) .absent
      ∧ (s.stopped l = false → l.id ∈ u.waitList) ∧ ∃ k', u.cell? c = some k' ∧ k'.state = .idle := by
  obtain ⟨t, left, v, saves, gone, -⟩ := leave_waiting hk (by rw [hq]) hm hms
  have route := sameRoute_refl l
  have steady := v.inputs.marginSteady hst
  have emptied : t.queues[c] = {} := by rw [v.queue, hq]
  obtain ⟨w, l', filled, hw, hl', marked⟩ := fill_idles v.cell emptied (by rw [saves]; exact hv) ((v.others _ hne.symm).trans hl) steady
    (by rw [v.inputs.eligible route, v.inputs.stopped route]; exact he)
  have keeps {P : State → Prop} (calm : Steady P) (h : P t) : P w := by
    rcases hw with rfl | rfl
    · exact h
    · exact calm.computeMargin h
  have inputs : SameInputs s w := by
    rcases hw with rfl | rfl
    · exact v.inputs
    · exact v.inputs.trans ((SameInputs.refl t).consultMargin steady)
  have cells : w.cells = t.cells := by
    rcases hw with rfl | rfl
    · rfl
    · exact computeMargin_cells
  have stopped : w.stopped l' = s.stopped l := inputs.stopped marked.route
  obtain ⟨x, rfl⟩ : ∃ x, l' = { l with steps := x } := ⟨_, marked.record⟩
  have un := unsave_unsaved (c := c) (l := { l with steps := x }) hl'
  have cell : (unsave c { l with steps := x } w).cell? c = some k.cleared := by
    rw [← v.cell]
    unfold State.cell?
    rw [un.cells, cells]
  obtain ⟨queues, -, -⟩ := keeps (steady_placesAre t.queues t.saves t.waitList) ⟨rfl, rfl, rfl⟩
  obtain ⟨u, idles, idle, calm⟩ := goIdle_idles cell hn
  obtain ⟨uqueues, usaves, uwait⟩ := calm (steady_placesAre _ _ _) ⟨rfl, rfl, rfl⟩
  refine ⟨u, fun n ns => ?_, ?_, ?_, ?_, ?_, fun h => ?_, idle⟩
  · rw [run, left, List.cons_append, List.nil_append]
    exact run_quiet (filled.trans idles)
  · rw [usaves]; exact un.saves
  · rw [uqueues, un.queues, queues]; exact emptied
  · exact calm (steady_standsAt m.id .waiting .absent) (un.others hne (keeps (steady_standsAt m.id .waiting .absent) gone))
  · rw [← stopped]
    exact calm (steady_standsAt l.id _ .absent) un.lot
  · rw [uwait]; exact un.waits (stopped.trans h)

end
end Sys2Proof.Machine
end

