-- ==== Sys2Proof/Proofs/Preemption.lean ====
section
-- In order: the check's memory bound leaves no room for a thread per proof.
set_option Elab.async false
/-! ## Preemption (R70 to R73) -/

namespace Sys2Proof.Machine

section
variable {s t u : State} {c : CellNo} {k : Cell} {m l : Lot} {d : StepDef}

/-! ### A raise at entry 1 -/

theorem SameInputs.insertBehind {n : Nat} (h : SameInputs s t) : SameInputs s (t.insertBehind c n) := h.modQueue.renumber

theorem modQueue_twice (f g : DispatchQueue → DispatchQueue) (h : g (f s.queues[c]) = s.queues[c]) :
    ((s.modQueue c f).modQueue c g).queues = s.queues := by
  have set : ((s.modQueue c f).modQueue c g).queues = s.queues.set c (g (f s.queues[c])) := by simp [State.modQueue]
  rw [set, h]
  simp

/-- What stands when the lot at entry 1 has been raised to HOT. -/
structure Raised (c : CellNo) (m l : Lot) (s v : State) : Prop where
  inputs : SameInputs s v
  cells : v.cells = s.cells
  slots : v.slots = s.slots
  queues : v.queues = s.queues
  saves : v.saves = s.saves
  lot : v.lot? l.id = some { l with priority := .hot }
  current : v.lot? m.id = some { m with location := .queue c 0 }

theorem resort_raised (hq : s.queues[c] = { current := some m.id, behind := [l.id] }) (hm : s.lot? m.id = some m)
    (hl : s.lot? l.id = some l) (hne : m.id ≠ l.id) (hst : l.state = .queued) (hloc : l.location = .queue c 1) :
    Raised c m l s (resort l (s.modLot l.id fun l => { l with priority := .hot })).trigger := by
  obtain ⟨record, others⟩ := lot_withPriority (x := .hot) hl
  generalize hu : (s.modLot l.id fun l => { l with priority := .hot }) = u at *
  have inputs : SameInputs s u := hu ▸ (SameInputs.refl s).modLot
  have cells : u.cells = s.cells := hu ▸ rfl
  have slots : u.slots = s.slots := hu ▸ rfl
  have queues : u.queues = s.queues := hu ▸ rfl
  have saves : u.saves = s.saves := hu ▸ rfl
  obtain ⟨v, hv, vq, vl, vi, vc, vs, vv⟩ : ∃ v : State, resort l u = v.renumber c ∧ v.queues = s.queues ∧ v.lots = u.lots ∧ SameInputs u v
      ∧ v.cells = u.cells ∧ v.slots = u.slots ∧ v.saves = u.saves := by
    refine ⟨(u.modQueue c fun q => { q with behind := q.behind.filter (· != l.id) }).modQueue c fun q =>
      { q with behind := insertAsc (u.modQueue c fun q => { q with behind := q.behind.filter (· != l.id) }).waitKeyOf l.id q.behind },
      by unfold resort; rw [hst, hloc]; rfl, (modQueue_twice _ _ ?_).trans queues, rfl, (SameInputs.refl u).modQueue.modQueue, rfl, rfl, rfl⟩
    rw [queues, hq]
    simp [insertAsc]
  have self : v.queues[c] = { current := some m.id, behind := [l.id] } := by rw [vq]; exact hq
  have nodup : v.queues[c].entries.Nodup := by rw [self]; simpa [DispatchQueue.entries] using hne
  have found (n : Nat) : v.lot? n = u.lot? n := by unfold State.lot?; rw [vl]
  rw [hv]
  exact
    { inputs := (inputs.trans vi).renumber.trigger
      cells := (renumber_cells v c).trans (vc.trans cells)
      slots := by
        show (v.renumber c).slots = _
        rw [renumber_eq, relocate_frame]; exact vs.trans slots
      queues := (renumber_queues v c).trans vq
      saves := (renumber_saves v c).trans (vv.trans saves)
      lot := by
        show (v.renumber c).lot? l.id = _
        rw [renumber_behind (n := 0) (by rw [self]; exact List.nodup_singleton _) (by rw [self]; rfl), found, record, Option.map_some]
        rw [show Location.queue c (0 + 1) = l.location from hloc.symm]
      current := by
        show (v.renumber c).lot? m.id = _
        rw [renumber_current nodup (by rw [self]), found, others _ hne, hm]; rfl }

theorem meetsPreemption_raised (h : Raised c m l s t) (hq : s.queues[c] = { current := some m.id, behind := [l.id] })
    (hmp : m.priority = .normal) (hp : s.cells[c].preemptEnable = true) (hv : s.saves[c] = none) : t.meetsPreemption c = true := by
  have current : t.currentLot? c = some { m with location := .queue c 0 } := currentLot_of (by rw [h.queues, hq]) h.current
  have hot : t.isHot l.id = true := by unfold State.isHot; rw [h.lot]; rfl
  unfold State.meetsPreemption
  rw [current, h.queues, hq, h.cells, hp, h.saves, hv, Option.any_some, hmp]
  simp [hot]

/-- R50, R70: a RUNNING cell is drained for the HOT lot. -/
theorem drain_preempts (hk : s.cell? c = some k) (hst : k.state = .running) (hseg : k.segment.isSome = true) (hn : k.noChanges)
    (hl : k.causes.handlerLink = false) (hp : s.inService k.handlerPort = true) :
    ∃ u, deliver (.drain c .preempt) s = (u, []) ∧ u.queues = s.queues ∧ u.saves = s.saves ∧ u.lots = s.lots
      ∧ .stop ∈ u.ports[k.handlerPort].out
      ∧ u.cell? c = some { k with
          state := .draining, purpose := some .preempt, withdrawTimer := none
          drainTimer := some { start := s.elapsed, limit := s.params.drain } } := by
  have cell : (reportCell c (some k.state) (send k.handlerPort .stop (s.modCell c fun k =>
      { k with state := .draining, purpose := some .preempt, withdrawTimer := none, drainTimer := some (s.timer s.params.drain) }))).cell? c
      = some { k with
          state := .draining, purpose := some .preempt, withdrawTimer := none
          drainTimer := some { start := s.elapsed, limit := s.params.drain } } := by
    rw [reportCell_cell]
    unfold State.cell?
    rw [send_cells]
    exact (modCell_cell s c _).trans (congrArg _ hk)
  have told : deliver (.drain c .preempt) s = (reportCell c (some k.state) (send k.handlerPort .stop (s.modCell c fun k =>
      { k with state := .draining, purpose := some .preempt, withdrawTimer := none, drainTimer := some (s.timer s.params.drain) })), []) := by
    show drainCell c .preempt s = _
    unfold drainCell
    rw [hk]; dsimp only
    rw [if_pos ⟨.inl hst, hseg⟩]
    unfold enterDrain
    rw [hk]; dsimp only
    rw [leaveRunning_quiet cell hn, hl]; rfl
  refine ⟨_, told, ?_, ?_, ?_, ?_, cell⟩
  · rw [reportCell_queues, send_queues]; rfl
  · rw [reportCell_saves, send_saves]; rfl
  · rw [reportCell_lots, send_lots]; rfl
  · rw [reportCell_ports]; exact mem_send (by exact hp)

section
variable {b : List Byte} (ha : s.asks Kind.lotPriority b) (hb : b.length = 5) (hid : u32 b 0 = l.id) (hx : u8 b 4 = 2)
  (hp : l.priority = .normal) (hmp : m.priority = .normal) (hst : l.state = .queued) (hloc : l.location = .queue c 1)
  (hq : s.queues[c] = { current := some m.id, behind := [l.id] }) (hpre : s.cells[c].preemptEnable = true) (hv : s.saves[c] = none)
  (hm : s.lot? m.id = some m) (hl : s.lot? l.id = some l) (hne : m.id ≠ l.id)
include ha hb hid hx hp hmp hst hloc hq hpre hv hm hl hne

/-- R17, R70: the raise owes a check of preemption, whose conditions hold. -/
theorem lotPriority_raises : ∃ v, exec .lotPriority s = answered (.plain .ok) [.preemptCheck c] v ∧ Raised c m l s v
    ∧ v.meetsPreemption c = true := by
  have raised := resort_raised hq hm hl hne hst hloc
  have guard : s.guardsSave l = false := by unfold State.guardsSave; rw [hst]
  have checks : priorityChecks l .hot = [.preemptCheck c] := by unfold priorityChecks; rw [hloc]; rfl
  refine ⟨_, ?_, raised, meetsPreemption_raised raised hq hmp hpre hv⟩
  rw [lotPriority_changes ha hb hid (by rw [hx]; rfl) hl (fun _ => guard) (by rw [hp]; decide), checks]

/-- R50, R70: the cell that is RUNNING. -/
theorem lotPriority_drains (hk : s.cell? c = some k) (hn : k.noChanges) (hr : k.state = .running) (hseg : k.segment.isSome = true)
    (hi : s.inService k.handlerPort = true) (hlink : k.causes.handlerLink = false) :
    ∃ u : State, exec .lotPriority s = .next (u.replied (.plain .ok)) ∧ u.queues = s.queues ∧ u.saves = s.saves
      ∧ u.lot? l.id = some { l with priority := .hot } ∧ .stop ∈ u.ports[k.handlerPort].out
      ∧ u.cell? c = some { k with
          state := .draining, purpose := some .preempt, withdrawTimer := none
          drainTimer := some { start := s.elapsed, limit := s.params.drain } } := by
  obtain ⟨v, taken, raised, meets⟩ := lotPriority_raises ha hb hid hx hp hmp hst hloc hq hpre hv hm hl hne
  have cell : v.cell? c = some k := by unfold State.cell?; rw [raised.cells]; exact hk
  obtain ⟨u, drained, queues, saves, lots, stop, hcell⟩ := drain_preempts cell hr hseg hn hlink ((raised.inputs.inService _).trans hi)
  have check : deliver (.preemptCheck c) v = (v, [.drain c .preempt]) := by
    show checkPreempt c v = _
    unfold checkPreempt
    rw [cell]; dsimp only
    rw [meets, if_pos rfl, hr]
  refine ⟨u, ?_, queues.trans raised.queues, saves.trans raised.saves, ?_, stop, ?_⟩
  · rw [taken]
    refine answered_of_run (fuel := 2) (by decide) ?_
    rw [run, check]
    exact (run_quiet drained).trans (run_nil _ _)
  · unfold State.lot?; rw [lots]; exact raised.lot
  · rw [hcell, raised.inputs.elapsed, raised.inputs.params]

/-- R72 to R74, R76: the cell that is STARTING. -/
theorem lotPriority_saves (hk : s.cell? c = some k) (hn : k.noChanges) (hd : s.stepDef? l l.step = some d)
    (hset : k.setpoint ≠ some d.setpoint) (hsteady : s.marginSteady k.testerPort) (hr : k.state = .starting)
    (hswap : s.slots[k.testerPort].swap = none) (he : s.eligible c l = true) (hs : s.stopped l = false) :
    ∃ u : State, exec .lotPriority s = .next (u.replied (.plain .ok)) ∧ u.startsLot c k l d ∧ u.saves[c] = some m.id
      ∧ u.holdsLot m.id .saved (.save c) := by
  obtain ⟨v, taken, raised, meets⟩ := lotPriority_raises ha hb hid hx hp hmp hst hloc hq hpre hv hm hl hne
  have cell : v.cell? c = some k := by unfold State.cell?; rw [raised.cells]; exact hk
  have swap : v.slots[k.testerPort].swap = none := by rw [raised.slots]; exact hswap
  have route : sameRoute l { l with priority := .hot } := ⟨rfl, rfl, rfl, rfl⟩
  obtain ⟨u, starts, hu⟩ := saved_starts (l := { l with priority := .hot }) (m := { m with location := .queue c 0 }) cell
    (by rw [raised.queues]; exact hq) raised.current raised.lot hne ((raised.inputs.stepDef? route _).trans hd) hn hset
    (raised.inputs.marginSteady hsteady) ((raised.inputs.eligible route c).trans he) ((raised.inputs.stopped route).trans hs)
  have check : deliver (.preemptCheck c) v = (v, [.leave c .saved none]) := by
    show checkPreempt c v = _
    unfold checkPreempt
    rw [cell]; dsimp only
    rw [meets, if_pos rfl, hr]; dsimp only
    rw [swap]; rfl
  refine ⟨u, ?_, hu⟩
  rw [taken]
  refine answered_of_run (fuel := 5) (by decide) ?_
  rw [run, check]
  exact (starts 0 []).trans (run_nil _ _)

end

/-! ### The end of a drain (R51) -/

/-- R146: the counts of a message added to the totals of a segment and of its step. -/
def addCounts (c : CellNo) (x : Counts) (m : Lot) (i : Nat) (s : State) : State :=
  (s.modCell c (addToSegment x)).modStep m.id i (addToStep x)

/-- R51: the segment of a drain that has ended with PARTIAL counts is closed. -/
def closeDrain (c : CellNo) (x : Counts) (m : Lot) (i : Nat) (s : State) : State :=
  (addCounts c x m i s).modCell c fun k => { k with segment := none, drainTimer := none }

section
variable {p : Port} {msg : CountsMsg} {x : Counts} {i now : Nat}

theorem hCounts_drains (hh : s.hears p c k) (hx : countsOf msg = some x) (hlast : x.last = false) (hst : k.state = .draining)
    (hseg : k.segment = some { lot := m.id, step := i, feedTime := now }) (hov : totalsOverflow (m.stepRec i) x = false)
    (hm : s.lot? m.id = some m) :
    exec (.hCounts p msg) s = settle [.leave c ((addCounts c x m i s).drainDest c m k.purpose) none] (closeDrain c x m i s) := by
  obtain ⟨hserves, hlock, hcell, hk⟩ := hh
  have told : takeCounts p c x s = (closeDrain c x m i s, [.leave c ((addCounts c x m i s).drainDest c m k.purpose) none]) := by
    unfold takeCounts
    rw [hk]; dsimp only
    rw [hseg]; dsimp only
    rw [hm]; dsimp only
    rw [hlast, hov, if_neg Bool.false_ne_true, if_pos hst, if_neg Bool.false_ne_true]; rfl
  show execHCounts p msg s = _
  unfold execHCounts
  rw [hx]; dsimp only
  unfold takeHandler takeMessage forCell
  rw [hlock, hserves, hcell]
  show settle (takeCounts p c x s).2 (takeCounts p c x s).1 = _
  rw [told]

theorem addCounts_inputs : SameInputs s (addCounts c x m i s) := (SameInputs.refl s).modCell.modStep

theorem closeDrain_inputs : SameInputs s (closeDrain c x m i s) := addCounts_inputs.modCell

theorem closeDrain_cell (hk : s.cell? c = some k) :
    (closeDrain c x m i s).cell? c = some { addToSegment x k with segment := none, drainTimer := none } := by
  have added : (addCounts c x m i s).cell? c = some (addToSegment x k) := (modCell_cell s c _).trans (congrArg _ hk)
  exact (modCell_cell _ c _).trans (congrArg _ added)

theorem closeDrain_current (hm : s.lot? m.id = some m) : ∃ ss, (closeDrain c x m i s).lot? m.id = some { m with steps := ss } := by
  refine ⟨(m.withStep i (addToStep x)).steps, ?_⟩
  rw [← withStep_same]
  show ((s.modCell c (addToSegment x)).modStep m.id i (addToStep x)).lot? m.id = _
  rw [modStep_lot]
  show (s.lot? m.id).map _ = _
  rw [hm, Option.map_some, if_pos rfl]

theorem closeDrain_other {n : Nat} (hn : n ≠ m.id) : (closeDrain c x m i s).lot? n = s.lot? n := by
  show ((s.modCell c (addToSegment x)).modStep m.id i (addToStep x)).lot? n = _
  rw [modStep_lot]
  show (s.lot? n).map _ = _
  simp [hn]

theorem drainDest_free (hs : s.stopped m = false) (purpose : Option Purpose) :
    (addCounts c x m i s).drainDest c m purpose
      = if purpose = some .preempt ∧ s.queues[c].behind.head?.any (addCounts c x m i s).isHot then .saved else .waiting := by
  unfold State.drainDest
  rw [addCounts_inputs.stopped (sameRoute_refl m), hs, if_neg Bool.false_ne_true]; rfl

variable (hh : s.hears p c k) (hx : countsOf msg = some x) (hlast : x.last = false) (hst : k.state = .draining)
  (hseg : k.segment = some { lot := m.id, step := i, feedTime := now }) (hov : totalsOverflow (m.stepRec i) x = false)
  (hms : s.stopped m = false) (hm : s.lot? m.id = some m)
include hh hx hlast hst hseg hov hms hm

/-- R51: with nothing queued the lot whose drain has ended leaves for the wait list. -/
theorem hCounts_waits (hq : s.queues[c].behind = []) : exec (.hCounts p msg) s = settle [.leave c .waiting none] (closeDrain c x m i s) := by
  have dest : (addCounts c x m i s).drainDest c m k.purpose = .waiting := by
    rw [drainDest_free hms, if_neg fun h => by rw [hq] at h; simp at h]
  rw [hCounts_drains hh hx hlast hst hseg hov hm, dest]

variable (hl : s.lot? l.id = some l) (hne : m.id ≠ l.id) (hn : k.noChanges) (hsteady : s.marginSteady k.testerPort)
include hl hne hn hsteady

/-- R51, R72 to R74: a drain of purpose PREEMPT has ended. -/
theorem hCounts_saves (hd : s.stepDef? l l.step = some d) (hset : k.setpoint ≠ some d.setpoint)
    (hq : s.queues[c] = { current := some m.id, behind := [l.id] }) (hpur : k.purpose = some .preempt) (hhot : l.priority = .hot)
    (he : s.eligible c l = true) (hs : s.stopped l = false) :
    ∃ u : State, exec (.hCounts p msg) s = .next (transmit u) ∧ u.startsLot c k l d ∧ u.saves[c] = some m.id
      ∧ u.holdsLot m.id .saved (.save c) := by
  obtain ⟨ss, hm'⟩ := closeDrain_current (c := c) (x := x) (i := i) hm
  have inputs := closeDrain_inputs (s := s) (c := c) (x := x) (m := m) (i := i)
  have route := sameRoute_refl l
  have hl' : (closeDrain c x m i s).lot? l.id = some l := (closeDrain_other hne.symm).trans hl
  have hot : (addCounts c x m i s).isHot l.id = true := by
    have : (addCounts c x m i s).lot? l.id = some l := hl'
    unfold State.isHot
    rw [this, Option.any_some, hhot]; rfl
  have dest : (addCounts c x m i s).drainDest c m k.purpose = .saved := by
    rw [drainDest_free hms, if_pos ⟨hpur, by rw [hq]; simpa using hot⟩]
  have taken := hCounts_drains hh hx hlast hst hseg hov hm
  rw [dest] at taken
  obtain ⟨-, -, -, hk⟩ := hh
  obtain ⟨u, starts, hu⟩ := saved_starts (m := { m with steps := ss }) (closeDrain_cell (x := x) (m := m) (i := i) hk) hq hm' hl' hne
    ((inputs.stepDef? route _).trans hd) hn hset (inputs.marginSteady hsteady) ((inputs.eligible route c).trans he)
    ((inputs.stopped route).trans hs)
  exact ⟨u, taken.trans (settle_of_run (fuel := 4) (by decide) ((starts 0 []).trans (run_nil _ _))), hu⟩

section
variable (hq : s.queues[c].behind = []) (hc : s.queues[c].current = some m.id) (hv : s.saves[c] = some l.id)
include hq hc hv

/-- R51, R75: the saved lot is restored. -/
theorem hCounts_restores (hd : s.stepDef? l l.step = some d) (hset : k.setpoint ≠ some d.setpoint) (he : s.eligible c l = true)
    (hs : s.stopped l = false) :
    ∃ u : State, exec (.hCounts p msg) s = .next (transmit u) ∧ u.startsLot c k l d ∧ u.saves[c] = none
      ∧ u.holdsLot m.id .waiting .absent ∧ m.id ∈ u.waitList := by
  obtain ⟨ss, hm'⟩ := closeDrain_current (c := c) (x := x) (i := i) hm
  have inputs := closeDrain_inputs (s := s) (c := c) (x := x) (m := m) (i := i)
  have route := sameRoute_refl l
  have queue : s.queues[c] = { current := some m.id, behind := [] } := by rw [← hq, ← hc]
  have taken := hCounts_waits hh hx hlast hst hseg hov hms hm hq
  obtain ⟨-, -, -, hk⟩ := hh
  obtain ⟨u, starts, hu⟩ := restored_starts (m := { m with steps := ss }) (closeDrain_cell (x := x) (m := m) (i := i) hk) queue hv hm'
    ((closeDrain_other hne.symm).trans hl) hne ((inputs.stepDef? route _).trans hd) hn hset (inputs.marginSteady hsteady)
    ((inputs.stopped ⟨rfl, rfl, rfl, rfl⟩).trans hms) ((inputs.eligible route c).trans he) ((inputs.stopped route).trans hs)
  exact ⟨u, taken.trans (settle_of_run (fuel := 5) (by decide) ((starts 0 []).trans (run_nil _ _))), hu⟩

/-- R51, R75: the saved lot is not restored, and the cell has nothing to do. -/
theorem hCounts_idles (he : s.eligible c l = false ∨ s.stopped l = true) :
    ∃ u : State, exec (.hCounts p msg) s = .next (transmit u) ∧ u.saves[c] = none ∧ u.queues[c] = {}
      ∧ u.holdsLot m.id .waiting .absent ∧ u.holdsLot l.id (if s.stopped l = true then .held else .waiting) .absent
      ∧ (s.stopped l = false → l.id ∈ u.waitList) ∧ ∃ k', u.cell? c = some k' ∧ k'.state = .idle := by
  obtain ⟨ss, hm'⟩ := closeDrain_current (c := c) (x := x) (i := i) hm
  have inputs := closeDrain_inputs (s := s) (c := c) (x := x) (m := m) (i := i)
  have route := sameRoute_refl l
  have queue : s.queues[c] = { current := some m.id, behind := [] } := by rw [← hq, ← hc]
  have taken := hCounts_waits hh hx hlast hst hseg hov hms hm hq
  obtain ⟨-, -, -, hk⟩ := hh
  obtain ⟨u, idles, hu⟩ := unsaved_idles (m := { m with steps := ss }) (closeDrain_cell (x := x) (m := m) (i := i) hk) queue hv hm'
    ((closeDrain_other hne.symm).trans hl) hne hn (inputs.marginSteady hsteady) ((inputs.stopped ⟨rfl, rfl, rfl, rfl⟩).trans hms)
    (by rw [inputs.eligible route, inputs.stopped route]; exact he)
  rw [inputs.stopped route] at hu
  exact ⟨u, taken.trans (settle_of_run (fuel := 2) (by decide) ((idles 0 []).trans (run_nil _ _))), hu⟩

end
end

end
end Sys2Proof.Machine

section
open Sys2Proof.Machine

/-- Settles O51, by the request that raises the lot and by where the counts find the queue and the save context. -/
theorem preemptionAndSaveContext : Obligations.PreemptionAndSaveContext := by
  intro c k m l d s hk hcur hl hne hd hn hset hsteady starts
  obtain ⟨hc, hm⟩ := currentLot_id hcur
  refine ⟨fun b ha hb hid hx hp hmp hst hloc hq hpre hv => ⟨fun hr hseg hi hlink => ?_, fun hr hswap he hs => ?_⟩,
    fun p msg x i now hh hx hlast hst hseg hov hms => ⟨fun hq hpur hv hhot he hs => ?_, fun hq hv => ⟨fun he hs => ?_, fun he => ?_⟩⟩⟩
  · exact lotPriority_drains ha hb hid hx hp hmp hst hloc hq hpre hv hm hl hne hk hn hr hseg hi hlink
  · exact lotPriority_saves ha hb hid hx hp hmp hst hloc hq hpre hv hm hl hne hk hn hd hset hsteady hr hswap he hs
  · exact hCounts_saves hh hx hlast hst hseg hov hms hm hl hne hn hsteady hd hset (by rw [← hq, ← hc]) hpur hhot he hs
  · exact hCounts_restores hh hx hlast hst hseg hov hms hm hl hne hn hsteady hq hc hv hd hset he hs
  · exact hCounts_idles hh hx hlast hst hseg hov hms hm hl hne hn hsteady hq hc hv he

end
end

