-- ==== Sys2Proof/Proofs/PortFrames.lean ====
section
-- In order: the check's memory bound leaves no room for a thread per proof.
set_option Elab.async false
/-! ## The frames of the lanes

What a step on an empty queue sends, what the up-checker takes, and the frames and messages that are discarded. -/

namespace Sys2Proof.Machine

section
variable {s : State} {p : Port} {r : PortRec}

/-! ### Down (R20, R34) -/

theorem idleLanes_port (s : State) (p : Port) : (idleLanes s).ports[p] = laneSends s.ports[p] := by simp [idleLanes]

theorem laneSends_still (h : r.out = [] ∨ r.state = .absent) : laneSends r = r := by
  unfold laneSends PortRec.transmits
  rcases h with h | h
  · rw [h]; dsimp only; split <;> rfl
  · rw [h]; rfl

theorem laneSends_checkFrames {next n : Nat} {rest : List Down} (hr : r.state ≠ .absent) (h : r.out = .checkFrames next n :: rest) :
    laneSends r = { r with out := if next + 1 < n then .checkFrames (next + 1) n :: rest else rest } := by
  have : r.transmits = true := by simpa [PortRec.transmits] using hr
  unfold laneSends
  rw [if_pos this, h]

theorem laneSends_message {d : Down} {rest : List Down} (hr : r.state ≠ .absent) (h : r.out = d :: rest)
    (hd : ∀ next n, d ≠ .checkFrames next n) : laneSends r = { r with out := rest } := by
  have : r.transmits = true := by simpa [PortRec.transmits] using hr
  unfold laneSends
  rw [if_pos this, h]
  cases d with
  | checkFrames next n => exact absurd rfl (hd next n)
  | _ => rfl

/-- A step on an empty queue with nothing to send. -/
theorem idleLanes_still (h : ∀ p : Port, s.ports[p].out = []) : idleLanes s = s := by
  have same : s.ports.map laneSends = s.ports := by
    refine Vector.ext fun i hi => ?_
    rw [Vector.getElem_map]
    exact laneSends_still (.inl (h ⟨i, hi⟩))
  unfold idleLanes
  rw [same]

/-! ### Up: the checker (R26) -/

section
variable {k : CheckRec} {index : BitVec 16} {pattern : BitVec 32} {b : Byte}

theorem take_bad (h : checkFrameChecks index pattern b = false) :
    k.take (.check index pattern b) = { k with upErrors := k.upErrors + 1 } := by
  simp [CheckRec.take, h]

/-- R26: an index from the expected one to below N is taken. -/
theorem take_forward (h : checkFrameChecks index pattern b = true) (hlo : k.expected ≤ index.toNat) (hhi : index.toNat < k.frames) :
    k.take (.check index pattern b) = { k with
      expected := index.toNat + 1
      upErrors := k.upErrors + (index.toNat - k.expected) + if pattern = checkPattern index.toNat then 0 else 1 } := by
  simp [CheckRec.take, h, hlo, hhi]

/-- R26: any other index is an error. -/
theorem take_outside (h : checkFrameChecks index pattern b = true) (ho : index.toNat < k.expected ∨ k.frames ≤ index.toNat) :
    k.take (.check index pattern b) = { k with upErrors := k.upErrors + 1 } := by
  have : ¬ (k.expected ≤ index.toNat ∧ index.toNat < k.frames) := by omega
  simp [CheckRec.take, h, this]

end

/-! ### Messages and frames discarded (R33, R35) -/

/-- R33: on a lane that is not locked no message is taken. -/
theorem takeMessage_unlocked {taken : Bool} {f : Told} (h : s.ports[p].controlLock = false) : takeMessage p taken s f = .next s := by
  unfold takeMessage; rw [h]; rfl

/-- R33: a message out of place only counts. -/
theorem takeMessage_ignored {f : Told} (h : s.ports[p].controlLock = true) :
    takeMessage p false s f = .next (transmit (countIgnored p s)) := by
  unfold takeMessage; rw [h]; exact settle_nil _

theorem takeMessage_taken {f : Told} (h : s.ports[p].controlLock = true) : takeMessage p true s f = settle f.2 f.1 := by
  unfold takeMessage; rw [h]; rfl

theorem takeHandler_taken {f : Told} (hl : s.ports[p].controlLock = true) (h : s.serves p .handler = true) :
    takeHandler p true s f = settle f.2 f.1 := by
  unfold takeHandler
  rw [h]; exact takeMessage_taken hl

theorem takeTester_taken {f : Told} (hl : s.ports[p].controlLock = true) (h : s.serves p .tester = true) :
    takeTester p true s f = settle f.2 f.1 := by
  unfold takeTester
  rw [h]; exact takeMessage_taken hl

/-- R33: the condition under which a message of a port is taken, apart from its lane's lock. -/
def State.takes (s : State) : Instr → Bool
  | .checkArmed p => s.ports[p].state == .checking && s.ports[p].check.any fun k => !k.armed
  | .checkResult p _ => s.ports[p].state == .checking && s.ports[p].check.any (·.result.isNone)
  | .announce p _ => s.ports[p].state == .awaitAnnounce
  | .hStatus p mode => s.serves p .handler && (modeOf mode).isSome
  | .hKit p _ flag => s.serves p .handler && (flagOf flag.toNat).isSome
  | .hPhase p phase => s.serves p .handler && (phaseOf phase).isSome
  | .hCounts p m => s.serves p .handler && (countsOf m).isSome
  | .hTemp p _ => s.serves p .handler
  | .hDock p _ => s.serves p .handler
  | .hIndex p _ => s.serves p .handler
  | .hClean p _ => s.serves p .handler
  | .tHeadtemp p _ => s.serves p .tester
  | .tCal p _ => s.serves p .tester
  | .tLoaded p _ _ _ ok => s.serves p .tester && (okFail ok).isSome
  | .tSwapped p => s.serves p .tester
  | _ => false

/-- R33: every control-lane message is a message of its port, taken when its condition holds. -/
theorem exec_message {i : Instr} {kind : Byte} {body : List Byte} (h : messageOf i = some (p, kind, body)) (s : State) :
    ∃ f, exec i s = takeMessage p (s.takes i) s f := by
  have handler (q : Port) (f : Told) : takeHandler q true s f = takeMessage q (s.serves q .handler) s f := by
    unfold takeHandler; rw [Bool.and_true]
  have tester (q : Port) (f : Told) : takeTester q true s f = takeMessage q (s.serves q .tester) s f := by
    unfold takeTester; rw [Bool.and_true]
  cases i <;> simp only [messageOf, Option.some.injEq, Prod.mk.injEq, reduceCtorEq] at h <;> obtain ⟨rfl, rfl, rfl⟩ := h
  case checkArmed => exact ⟨_, rfl⟩
  case announce => exact ⟨_, rfl⟩
  case checkResult q down =>
    show ∃ f, execCheckResult q down s = takeMessage q (_ && Option.any _ _) s f
    unfold execCheckResult
    cases s.ports[q].check with
    | none => exact ⟨_, by rw [Option.any_none, Bool.and_false]⟩
    | some k => exact ⟨_, rfl⟩
  case hStatus q mode =>
    show ∃ f, execHStatus q mode s = takeMessage q (_ && Option.isSome _) s f
    unfold execHStatus
    cases modeOf mode <;> exact ⟨_, rfl⟩
  case hKit q x flag =>
    show ∃ f, execHKit q x flag s = takeMessage q (_ && Option.isSome _) s f
    unfold execHKit
    cases flagOf flag.toNat <;> exact ⟨_, rfl⟩
  case hPhase q phase =>
    show ∃ f, execHPhase q phase s = takeMessage q (_ && Option.isSome _) s f
    unfold execHPhase
    cases phaseOf phase <;> exact ⟨_, rfl⟩
  case hCounts q m =>
    show ∃ f, execHCounts q m s = takeMessage q (_ && Option.isSome _) s f
    unfold execHCounts
    cases countsOf m <;> exact ⟨_, rfl⟩
  case tLoaded q g v x ok =>
    show ∃ f, execTLoaded q g v x ok s = takeMessage q (_ && Option.isSome _) s f
    unfold execTLoaded
    cases okFail ok <;> exact ⟨_, rfl⟩
  case hTemp q t => exact ⟨_, handler q _⟩
  case hDock q n => exact ⟨_, handler q _⟩
  case hIndex q m => exact ⟨_, handler q _⟩
  case hClean q m => exact ⟨_, handler q _⟩
  case tHeadtemp q t => exact ⟨_, tester q _⟩
  case tCal q t => exact ⟨_, tester q _⟩
  case tSwapped q => exact ⟨_, tester q _⟩

/-- R33: a message whose condition does not hold only counts. -/
theorem exec_ignored {i : Instr} {kind : Byte} {body : List Byte} (h : messageOf i = some (p, kind, body))
    (hl : s.ports[p].controlLock = true) (ht : s.takes i = false) : exec i s = .next (transmit (countIgnored p s)) := by
  obtain ⟨f, hf⟩ := exec_message h s
  rw [hf, ht]; exact takeMessage_ignored hl

/-- R33: where a message that is taken finds its port. -/
theorem takes_place {i : Instr} {kind : Byte} {body : List Byte} (h : messageOf i = some (p, kind, body)) (ht : s.takes i = true) :
    (s.ports[p].state = .checking ∧ kind.toNat < 0x05) ∨ (s.ports[p].state = .awaitAnnounce ∧ kind = 0x05)
      ∨ (s.ports[p].state = .inService ∧ s.ports[p].role = some .handler ∧ 0x10 ≤ kind.toNat ∧ kind.toNat ≤ 0x17)
      ∨ (s.ports[p].state = .inService ∧ s.ports[p].role = some .tester ∧ 0x20 ≤ kind.toNat) := by
  have serves {q : Port} {x : Role} (hs : s.serves q x = true) : s.ports[q].state = .inService ∧ s.ports[q].role = some x := by
    obtain ⟨hi, hr⟩ := Bool.and_eq_true_iff.mp hs
    exact ⟨beq_iff_eq.mp hi, beq_iff_eq.mp hr⟩
  have checks {q : Port} {b : Bool} (hs : (s.ports[q].state == .checking && b) = true) : s.ports[q].state = .checking :=
    beq_iff_eq.mp (Bool.and_eq_true_iff.mp hs).1
  have handler {q : Port} (k : Byte) (hs : s.serves q .handler = true) (hk : 0x10 ≤ k.toNat ∧ k.toNat ≤ 0x17) :
      s.ports[q].state = .inService ∧ s.ports[q].role = some .handler ∧ 0x10 ≤ k.toNat ∧ k.toNat ≤ 0x17 :=
    ⟨(serves hs).1, (serves hs).2, hk⟩
  cases i <;> simp only [messageOf, Option.some.injEq, Prod.mk.injEq, reduceCtorEq] at h <;> obtain ⟨rfl, rfl, rfl⟩ := h
  case checkArmed => exact .inl ⟨checks ht, by decide⟩
  case checkResult => exact .inl ⟨checks ht, by decide⟩
  case announce => exact .inr (.inl ⟨beq_iff_eq.mp ht, rfl⟩)
  case hStatus => exact .inr (.inr (.inl (handler 0x10 (Bool.and_eq_true_iff.mp ht).1 (by decide))))
  case hTemp => exact .inr (.inr (.inl (handler 0x11 ht (by decide))))
  case hKit => exact .inr (.inr (.inl (handler 0x12 (Bool.and_eq_true_iff.mp ht).1 (by decide))))
  case hDock => exact .inr (.inr (.inl (handler 0x13 ht (by decide))))
  case hIndex => exact .inr (.inr (.inl (handler 0x14 ht (by decide))))
  case hClean => exact .inr (.inr (.inl (handler 0x15 ht (by decide))))
  case hPhase => exact .inr (.inr (.inl (handler 0x16 (Bool.and_eq_true_iff.mp ht).1 (by decide))))
  case hCounts => exact .inr (.inr (.inl (handler 0x17 (Bool.and_eq_true_iff.mp ht).1 (by decide))))
  case tHeadtemp => exact .inr (.inr (.inr ⟨(serves ht).1, (serves ht).2, by decide⟩))
  case tCal => exact .inr (.inr (.inr ⟨(serves ht).1, (serves ht).2, by decide⟩))
  case tLoaded =>
    obtain ⟨hs, -⟩ := Bool.and_eq_true_iff.mp ht
    exact .inr (.inr (.inr ⟨(serves hs).1, (serves hs).2, by decide⟩))
  case tSwapped => exact .inr (.inr (.inr ⟨(serves ht).1, (serves ht).2, by decide⟩))

/-- R33: a message with a value its layout does not define is not taken. -/
theorem takes_undefined {i : Instr}
    (h : (∃ mode : Byte, i = .hStatus p mode ∧ mode ≠ 1 ∧ mode ≠ 2) ∨ (∃ phase : Byte, i = .hPhase p phase ∧ phase ≠ 1 ∧ phase ≠ 2)
      ∨ (∃ (kit : BitVec 16) (flag : Byte), i = .hKit p kit flag ∧ flag ≠ 0 ∧ flag ≠ 1)
      ∨ (∃ (g : BitVec 16) (v : Byte) (x : BitVec 32) (ok : Byte), i = .tLoaded p g v x ok ∧ ok ≠ 1 ∧ ok ≠ 2)
      ∨ (∃ m : CountsMsg, i = .hCounts p m ∧ m.flag ≠ 1 ∧ m.flag ≠ 2)) : s.takes i = false := by
  have undefined {α : Type} {b : Bool} {x : Option α} (hx : x = none) : (b && x.isSome) = false := by simp [hx]
  rcases h with ⟨mode, rfl, h₁, h₂⟩ | ⟨phase, rfl, h₁, h₂⟩ | ⟨kit, flag, rfl, h₀, h₁⟩ | ⟨g, v, x, ok, rfl, h₁, h₂⟩ | ⟨m, rfl, h₁, h₂⟩
  · exact undefined (by unfold modeOf; rw [if_neg h₁, if_neg h₂])
  · exact undefined (by unfold phaseOf; rw [if_neg h₁, if_neg h₂])
  · have h₀ : flag.toNat ≠ 0 := fun h => h₀ (BitVec.eq_of_toNat_eq h)
    have h₁ : flag.toNat ≠ 1 := fun h => h₁ (BitVec.eq_of_toNat_eq h)
    exact undefined (by unfold flagOf; rw [if_neg h₀, if_neg h₁])
  · exact undefined (by unfold okFail; rw [if_neg h₁, if_neg h₂])
  · exact undefined (by unfold countsOf endFlag; rw [if_neg h₁, if_neg h₂])

/-- R35: a frame of the result lane that is neither judged nor delivered. -/
theorem resultLaneDiscard_counts {f : UpFrame} (hl : s.ports[p].resultLock = true) (ha : s.ports[p].state ≠ .absent)
    (hc : s.ports[p].state ≠ .checking) (hd : s.delivers p f = false) :
    exec (.resultLaneDiscard p f) s = .next (transmit (countDiscarded p s)) := by
  show execResultLaneDiscard p f s = _
  unfold execResultLaneDiscard
  dsimp only
  rw [hl, hd, if_neg (by simpa using ⟨ha, hc⟩)]
  exact settle_nil _

theorem resultRecord_counts {bytes : BitVec 64} (hl : s.ports[p].resultLock = true) (hc : s.ports[p].state ≠ .checking)
    (hd : s.serves p .tester = false) : exec (.resultRecord p bytes) s = .next (transmit (countDiscarded p s)) := by
  show execResultRecord p bytes s = _
  unfold execResultRecord
  rw [hl, hd, if_neg (by decide), if_neg hc]
  exact settle_nil _

/-! ### A handler in no cell (R37, R56) -/

theorem forCell_outside {f : CellNo → Told} (h : s.outside p) : forCell p s f = (countIgnored p s, []) := by
  unfold forCell; rw [outside_handler h]

section
variable (hs : s.serves p .handler = true) (hl : s.ports[p].controlLock = true) (ho : s.outside p)
include hs hl ho

/-- R56: a message for a cell that a handler in no cell sends only counts. -/
theorem takeHandler_outside (b : Bool) (f : CellNo → Told) : takeHandler p b s (forCell p s f) = .next (transmit (countIgnored p s)) := by
  rw [forCell_outside ho]
  unfold takeHandler
  rw [hs, Bool.true_and]
  cases b with
  | false => exact takeMessage_ignored hl
  | true => rw [takeMessage_taken hl]; exact settle_nil _

theorem hStatus_outside {b : Byte} {m : Mode} (hm : modeOf b = some m) : exec (.hStatus p b) s = .next (transmit (portMode p m s)) := by
  show execHStatus p b s = _
  unfold execHStatus
  rw [hm]; dsimp only
  rw [takeHandler_taken hl hs]
  unfold takeStatus; dsimp only
  rw [show (portMode p m s).cellOfHandler? p = none from outside_handler ho]
  exact settle_nil _

theorem hKit_outside {x : BitVec 16} {flag : Byte} (hf : flag = 0 ∨ flag = 1) :
    exec (.hKit p x flag) s = .next (transmit (portKit p x.toNat s)) := by
  obtain ⟨b, hb⟩ : ∃ b, flagOf flag.toNat = some b := by
    rcases hf with rfl | rfl
    · exact ⟨false, rfl⟩
    · exact ⟨true, rfl⟩
  show execHKit p x flag s = _
  unfold execHKit
  rw [hb]; dsimp only
  rw [takeHandler_taken hl hs]
  unfold takeKit; dsimp only
  rw [show (portKit p x.toNat s).cellOfHandler? p = none from outside_handler ho]
  exact settle_nil _

end

/-- A change of a port record that gives the same record. -/
theorem modPort_congr {f g : PortRec → PortRec} (h : f s.ports[p] = g s.ports[p]) : s.modPort p f = s.modPort p g := by
  unfold State.modPort; rw [h]

end
end Sys2Proof.Machine

section
open Sys2Proof Sys2Proof.Machine

/-- Settles O2. -/
theorem emptyQueueSendsLaneFrames : Obligations.EmptyQueueSendsLaneFrames := by
  intro s hq
  have idle : step s = .next (idleLanes s) := by unfold step; rw [hq]
  refine ⟨⟨idleLanes s, idle, rfl, fun p => ?_⟩, fun h => by rw [idle, idleLanes_still h]⟩
  rw [idleLanes_port]
  exact ⟨laneSends_still, fun _ _ _ => laneSends_checkFrames, fun _ _ => laneSends_message⟩

/-- Settles O28. -/
theorem upCheckerTable : Obligations.UpCheckerTable := by
  intro k
  refine ⟨fun _ => rfl, fun _ _ _ => take_bad, fun index pattern b h => ⟨fun he hn hp => ?_, fun he hn hp => ?_, fun hlo hn hp => ?_,
    fun hlo hn hp => ?_, take_outside h⟩, decide_eq_true_iff⟩
  · rw [take_forward h he.ge hn, if_pos hp, he, Nat.sub_self]; rfl
  · rw [take_forward h he.ge hn, if_neg hp, he, Nat.sub_self]
  · rw [take_forward h hlo.le hn, if_pos hp]; rfl
  · rw [take_forward h hlo.le hn, if_neg hp]

/-- Settles O34. -/
theorem discardedFrames : Obligations.DiscardedFrames := by
  intro p s f
  refine ⟨fun hl => ⟨?_, takeMessage_ignored hl⟩, fun hl => ⟨?_, takeMessage_unlocked hl⟩, fun hl => ⟨fun h => ?_, fun index pattern b hi hr => ?_⟩,
    fun hl => ⟨?_, ?_, fun bytes => ?_⟩⟩
  · show execBadFrame p s = _
    unfold execBadFrame; rw [if_pos hl]; exact settle_nil _
  · show execBadFrame p s = _
    unfold execBadFrame; rw [hl]; rfl
  · have idle : s.ports[p].state ≠ .absent ∧ s.ports[p].state ≠ .checking ∧ s.serves p .tester = false := by
      rcases h with h | h | h | ⟨h, hr⟩
      · simp only [State.serves, State.inService, h]; exact ⟨nofun, nofun, rfl⟩
      · simp only [State.serves, State.inService, h]; exact ⟨nofun, nofun, rfl⟩
      · simp only [State.serves, State.inService, h]; exact ⟨nofun, nofun, rfl⟩
      · simp only [State.serves, State.inService, h, hr]; exact ⟨nofun, nofun, rfl⟩
    obtain ⟨ha, hc, hd⟩ := idle
    refine ⟨resultLaneDiscard_counts hl ha hc ?_, fun bytes => resultRecord_counts hl hc hd⟩
    cases f with
    | record bytes => exact hd
    | check index pattern b => rfl
  · exact resultLaneDiscard_counts hl (by rw [hi]; decide) (by rw [hi]; decide) rfl
  · show execResultLaneDiscard p f s = _
    unfold execResultLaneDiscard; dsimp only; rw [hl]; exact if_pos (.inl rfl)
  · show execCheckFrame p f s = _
    unfold execCheckFrame; dsimp only; rw [hl]; exact if_pos (.inl rfl)
  · show execResultRecord p bytes s = _
    unfold execResultRecord; rw [hl]; rfl

/-- Settles O35: a message is taken in few places, and counts in every other. -/
theorem outOfPlaceMessagesOnlyCount : Obligations.OutOfPlaceMessagesOnlyCount := by
  intro i p kind body s h
  refine ⟨fun hl => ?_, fun hl => ?_⟩
  · obtain ⟨f, hf⟩ := exec_message h s
    rw [hf, takeMessage_unlocked hl]
  have counts (out : s.takes i = true → False) : exec i s = .next (transmit (countIgnored p s)) :=
    exec_ignored h hl (Bool.eq_false_iff.mpr out)
  have place (ht : s.takes i = true) := takes_place h ht
  have five : kind ≠ 0x05 → kind.toNat ≠ 0x05 := fun hk he => hk (BitVec.eq_of_toNat_eq he)
  refine ⟨fun hs => counts fun ht => ?_, fun hs hk => counts fun ht => ?_, fun hs hk => counts fun ht => ?_, fun hs hk => counts fun ht => ?_,
    fun hs hr hlo hhi => counts fun ht => ?_, fun hs hr hk => counts fun ht => ?_, fun hs hu => ?_⟩
  · rcases hs with hs | hs
    · rcases place ht with ⟨e, -⟩ | ⟨e, -⟩ | ⟨e, -⟩ | ⟨e, -⟩ <;> cases hs.symm.trans e
    · rcases place ht with ⟨e, -⟩ | ⟨e, -⟩ | ⟨e, -⟩ | ⟨e, -⟩ <;> cases hs.symm.trans e
  · rcases place ht with ⟨e, hlt⟩ | ⟨e, -⟩ | ⟨e, -⟩ | ⟨e, -⟩
    · omega
    all_goals cases hs.symm.trans e
  · rcases place ht with ⟨e, -⟩ | ⟨e, he⟩ | ⟨e, -⟩ | ⟨e, -⟩
    · cases hs.symm.trans e
    · exact hk he
    all_goals cases hs.symm.trans e
  · rcases place ht with ⟨e, -⟩ | ⟨e, -⟩ | ⟨-, -, hlo, -⟩ | ⟨-, -, hlo⟩
    · cases hs.symm.trans e
    · cases hs.symm.trans e
    · omega
    · omega
  · rcases place ht with ⟨e, -⟩ | ⟨e, -⟩ | ⟨-, e, -⟩ | ⟨-, -, hk⟩
    · cases hs.symm.trans e
    · cases hs.symm.trans e
    · cases hr.symm.trans e
    · omega
  · rcases place ht with ⟨e, -⟩ | ⟨e, -⟩ | ⟨-, -, -, hhi⟩ | ⟨-, e, -⟩
    · cases hs.symm.trans e
    · cases hs.symm.trans e
    · omega
    · cases hr.symm.trans e
  · exact exec_ignored h hl (takes_undefined hu)

/-- Settles O37. -/
theorem handlerFactsOutsideCell : Obligations.HandlerFactsOutsideCell := by
  intro p s hs hl ho
  refine ⟨fun sites lo hi kit dock mode hd => ⟨fun b m hm => ?_, fun x flag hf => ?_⟩, fun temp => takeHandler_outside hs hl ho true _,
    fun mask => takeHandler_outside hs hl ho true _, fun mask => takeHandler_outside hs hl ho true _, fun phase => ?_, fun m => ?_⟩
  · rw [hStatus_outside hs hl ho hm]
    exact congrArg (fun u => Host.Outcome.next (transmit u)) (modPort_congr (by rw [hd]; rfl))
  · rw [hKit_outside hs hl ho hf]
    exact congrArg (fun u => Host.Outcome.next (transmit u)) (modPort_congr (by rw [hd]; rfl))
  · show execHPhase p phase s = _
    unfold execHPhase
    split
    · unfold takeHandler; rw [Bool.and_false]; exact takeMessage_ignored hl
    · exact takeHandler_outside hs hl ho true _
  · show execHCounts p m s = _
    unfold execHCounts
    split
    · unfold takeHandler; rw [Bool.and_false]; exact takeMessage_ignored hl
    · exact takeHandler_outside hs hl ho true _

end
end

