-- ==== Sys2Proof/Proofs/Shell.lean ====
section
-- In order: the check's memory bound leaves no room for a thread per proof.
set_option Elab.async false
/-! ## What a command may change at all

Around the tables that the blocks work on stands a shell: the queue, the straps, the counters of seconds and frames, the parameters, the
products, the catalog, the stray counts, the pins and the groups. Few commands change a part of it. -/

namespace Sys2Proof.Machine

/-- A state with everything blanked but the shell. -/
def State.shell (s : State) : State := { s.outer with unanswered := [], sending := none, freeCount := 0 }

theorem shell_of_outer {s t : State} (h : t.outer = s.outer) : t.shell = s.shell := by unfold State.shell; rw [h]

section
variable (s : State)

/-! ### The operations -/

variable {s} in
theorem outer_ite {q : Prop} [Decidable q] {a b : State} (ha : a.outer = s.outer) (hb : b.outer = s.outer) :
    (if q then a else b).outer = s.outer := by split <;> assumption

theorem outer_slots (x : Vector Slot 32) : ({ s with slots := x } : State).outer = s.outer := rfl

theorem shell_transmit : (transmit s).shell = s.shell := by rw [transmit_eq]; rfl
theorem shell_answer (r : Reply) : (answer r s).shell = s.shell := rfl

theorem outer_reportPort (p : Port) (x : PortState) (e : Option LastCheck) : (reportPort p x e s).outer = s.outer := outer_place _ _

theorem outer_beginCheck (p : Port) (b : Bool) (n : Nat) (r : CheckReturn) : (beginCheck p b n r s).outer = s.outer :=
  outer_reportPort _ _ _ _

theorem outer_trainedCheck (p : Port) : (trainedCheck p s).outer = s.outer := by
  unfold trainedCheck; dsimp only
  split
  · exact outer_beginCheck ..
  · rfl

theorem outer_enterTraining (p : Port) (x : PortState) (e : Option LastCheck) : (enterTraining p x e s).outer = s.outer :=
  (outer_trainedCheck _ p).trans (outer_reportPort ..)

theorem shell_clearCheck (p : Port) (e : Option LastCheck) : (clearCheck p e s).shell = s.shell := by
  unfold clearCheck; dsimp only
  split <;> rfl

theorem outer_parkTester (p : Port) : (parkTester p s).outer = s.outer := by
  unfold parkTester
  extract_lets t loaded swapped s₁ s₂
  have h₂ : s₂.outer = s.outer := outer_ite (outer_reportLoad s₁ ..) rfl
  exact outer_ite ((outer_reportLoad s₂ ..).trans h₂) h₂

theorem outer_departed (p : Port) (r : Option Role) (n : Option Nat) : (departed p r n s).1.outer = s.outer := by
  unfold departed; dsimp only
  split
  · rfl
  · exact (outer_claims _ _).trans (outer_parkTester s p)
  · rfl

theorem outer_enterFaulted (p : Port) (x : FaultCause) (e : Option LastCheck) : (enterFaulted p x e s).1.outer = s.outer :=
  (outer_departed ..).trans (outer_place _ _)

theorem outer_awaitAnnounce (p : Port) (e : Option LastCheck) : (awaitAnnounce p e s).outer = s.outer := outer_reportPort _ _ _ _

theorem outer_returnToService (p : Port) (e : Option LastCheck) : (returnToService p e s).1.outer = s.outer := by
  unfold returnToService; dsimp only
  split
  · exact outer_enterFaulted ..
  · exact outer_reportPort _ _ _ _

theorem outer_endCheck (p : Port) (k : CheckRec) (b : Bool) (n : Nat) : (endCheck p k b n s).1.outer = s.outer := by
  unfold endCheck; dsimp only
  split
  · exact outer_enterFaulted _ _ _ _
  split
  · exact outer_returnToService _ _ _
  · exact outer_awaitAnnounce _ _ _

theorem outer_judgeCheck (p : Port) : (judgeCheck p s).1.outer = s.outer := by
  unfold judgeCheck
  split
  · rfl
  split
  · rfl
  split
  · exact outer_endCheck ..
  · rfl

theorem outer_upChecker (p : Port) (f : UpFrame) : (upChecker p f s).1.outer = s.outer := outer_judgeCheck _ p

theorem outer_presenceRose (p : Port) : (presenceRose p s).outer = s.outer := by
  unfold presenceRose
  split
  · exact outer_enterTraining _ _ _ _
  · rfl

theorem shell_presenceFell (p : Port) : (presenceFell p s).1.shell = s.shell := by
  unfold presenceFell; dsimp only
  split
  · rfl
  · exact (shell_of_outer ((outer_departed ..).trans ((outer_reportPort ..).trans (outer_modPort ..)))).trans (shell_clearCheck s p _)

theorem shell_lockLoss (p : Port) (b : Bool) (lane : Lane) : (lockLoss p b lane s).1.shell = s.shell := by
  unfold lockLoss; dsimp only
  split
  · exact (shell_of_outer ((outer_enterTraining ..).trans (outer_modPort ..))).trans
      ((shell_clearCheck ..).trans (shell_of_outer (outer_modPort ..)))
  · rfl

theorem outer_resizeSites (c : CellNo) (n : Nat) : (resizeSites c n s).outer = s.outer := by
  unfold resizeSites; dsimp only
  split
  · rfl
  split
  · exact outer_fireEdge ..
  · rfl

theorem outer_refreshHandler (c : CellNo) (n kit : Nat) (m : Mode) : (refreshHandler c n kit m s).1.outer = s.outer :=
  (outer_changeMode ..).trans (outer_resizeSites _ c n)

theorem outer_takeClaim (p : Port) (n : Nat) : (takeClaim p n s).1.outer = s.outer := by
  unfold takeClaim; dsimp only
  split <;> rfl

theorem outer_handlerAnnounced (p : Port) (n kit dock : Nat) (m : Mode) : (handlerAnnounced p n kit dock m s).1.outer = s.outer := by
  unfold handlerAnnounced; dsimp only
  split
  · exact outer_takeClaim ..
  split
  · exact (outer_refreshHandler ..).trans (outer_takeClaim ..)
  · exact outer_takeClaim ..

theorem outer_releaseParked (p : Port) (n : Nat) : (releaseParked p n s).outer = s.outer := by
  unfold releaseParked; exact outer_slots s _

theorem outer_setUpTester (p : Port) (n : Nat) (k : Calibration) : (setUpTester p n k s).outer = s.outer := by
  unfold setUpTester
  rw [outer_computeMargin, outer_modSlot, outer_releaseParked, outer_parkTester]

theorem outer_announced (p : Port) (n : Nat) (d : AnnounceData) : (announced p n d s).1.outer = s.outer := by
  unfold announced
  split
  · exact outer_handlerAnnounced ..
  · dsimp only
    exact outer_setUpTester ..

theorem outer_takeAnnounce (p : Port) (m : AnnounceMsg) : (takeAnnounce p m s).1.outer = s.outer := by
  unfold takeAnnounce; dsimp only
  split
  · exact outer_enterFaulted ..
  split
  · exact outer_enterFaulted ..
  split
  · exact outer_enterFaulted ..
  · exact (outer_announced ..).trans (outer_reportPort _ _ _ _)

theorem outer_takeStatus (p : Port) (m : Mode) : (takeStatus p m s).1.outer = s.outer := by
  unfold takeStatus; dsimp only
  split
  · rfl
  · exact outer_changeMode ..

theorem outer_takeKit (p : Port) (n : Nat) (b : Bool) : (takeKit p n b s).1.outer = s.outer := by
  unfold takeKit kitForCell; dsimp only
  split
  · rfl
  split
  · rfl
  split
  · dsimp only
    split
    · exact outer_fireEdge ..
    · rfl
  · rfl

theorem outer_takeIndex (c : CellNo) (m : Byte) : (takeIndex c m s).1.outer = s.outer := by
  unfold takeIndex; dsimp only
  split
  · rfl
  · refine (outer_modCell ..).trans ?_
    split
    · exact outer_makeChanges ..
    · rfl

theorem outer_takeClean (c : CellNo) (m : Byte) : (takeClean c m s).1.outer = s.outer := by
  unfold takeClean; dsimp only
  split
  · exact outer_fireEdge ..
  · rfl

theorem outer_takeCounts (p : Port) (c : CellNo) (x : Counts) : (takeCounts p c x s).1.outer = s.outer := by
  unfold takeCounts endDrain; dsimp only
  repeat' split
  all_goals rfl

theorem outer_forceSite (c : CellNo) (i : Nat) (b : Bool) : (forceSite c i b s).1.outer = s.outer := by
  unfold forceSite
  repeat' split
  any_goals rfl
  · exact (outer_settleSite ..).trans (outer_setTarget ..)
  · exact (outer_settleSite ..).trans (outer_setTarget ..)

theorem outer_countFailure (p : Port) (o : LoadOutcome) (x : Option (Nat × Nat)) : (countFailure p o x s).1.outer = s.outer := by
  unfold countFailure barTester; dsimp only
  split <;> simp

theorem outer_takeLoaded (p : Port) (g v x : Nat) (ok : Bool) : (takeLoaded p g v x ok s).1.outer = s.outer := by
  have judged : (judgeLoaded p g v x ok s).1.outer = s.outer := by
    unfold judgeLoaded; dsimp only
    split
    · exact outer_reportLoad ..
    split
    · exact outer_reportLoad ..
    split
    · exact outer_countFailure _ _ _ _
    split
    · exact outer_countFailure _ _ _ _
    · exact outer_reportLoad ..
  unfold takeLoaded; dsimp only
  split
  · split
    · exact judged
    · rfl
  · rfl

theorem outer_takeSwapped (p : Port) : (takeSwapped p s).1.outer = s.outer := by
  unfold takeSwapped; dsimp only
  split
  · rfl
  · exact outer_reportLoad ..

theorem outer_loadTimedOut (p : Port) (g v : Nat) : (loadTimedOut p g v s).1.outer = s.outer := by
  unfold loadTimedOut; dsimp only
  split
  · exact outer_countFailure _ _ _ _
  · exact outer_reportLoad ..

theorem outer_staleSlot (n : Nat) (p : Port) : (staleSlot n s p).outer = s.outer := by
  unfold staleSlot
  split
  · split
    · exact outer_reportLoad ..
    · rfl
  · rfl

theorem outer_resort (l : Lot) : (resort l s).outer = s.outer := by
  unfold resort
  split
  · rfl
  · exact (outer_insertBehind ..).trans (outer_modQueue ..)
  · rfl

theorem outer_placeLot (c : CellNo) (n : Nat) : (placeLot c n s).1.outer = s.outer := by
  unfold placeLot; dsimp only
  split
  · exact outer_moveLot ..
  · unfold noteChanged
    split
    · exact (outer_renumber ..).trans (outer_moveLot ..)
    · exact (outer_renumber ..).trans (outer_moveLot ..)

end
end Sys2Proof.Machine
end

