-- ==== Sys2Proof/Proofs/OwnCommands.lean ====
section
-- In order: the check's memory bound leaves no room for a thread per proof.
set_option Elab.async false
/-! ## What each command may change of the shell -/

namespace Sys2Proof.Machine

/-- Each next state of an outcome has the shell of a state that meets a condition. -/
def Shows (Q : State → Prop) (o : Host.Outcome State Fault Refusal) : Prop := ∀ t, o = .next t → ∃ u, Q u ∧ t.shell = u.shell

section
variable {Q : State → Prop} {s u : State}

theorem shows_next (h : Q s) : Shows Q (.next s) := by
  rintro t ⟨⟩
  exact ⟨s, h, rfl⟩

theorem shows_settle {ns : List Notice} (h : Q u) : Shows Q (settle ns u) := by
  intro t ht
  unfold settle at ht
  split at ht
  next v hv => cases ht; exact ⟨u, h, (shell_transmit v).trans (shell_of_outer (outer_run hv))⟩
  next => cases ht

theorem shows_answered {r : Reply} {ns : List Notice} (h : Q u) : Shows Q (answered r ns u) := by
  intro t ht
  unfold answered at ht
  split at ht
  next v hv => cases ht; exact ⟨u, h, (shell_transmit _).trans ((shell_answer v r).trans (shell_of_outer (outer_run hv)))⟩
  next => cases ht

theorem shows_refuse {x : Status} (h : Q s) : Shows Q (refuse x s) := shows_answered h

theorem shows_takeRequest {mine : Byte → List Byte → Bool} {f : List Byte → Host.Outcome State Fault Refusal} (h : Q s)
    (hf : ∀ b, Shows Q (f b)) : Shows Q (takeRequest mine s f) := by
  unfold takeRequest
  split
  · exact shows_next h
  split
  · split
    · exact hf _
    · exact shows_refuse h
  · exact shows_next h

/-! ### The commands that leave the shell as it is -/

/-- The commands that may change a part of the shell. -/
def reachesShell : Instr → Bool
  | .powerOn _ _ _ => true
  | .restartFull _ => true
  | .restartFloor => true
  | .productPut => true
  | .productDrop => true
  | .programPut => true
  | .programDrop => true
  | .paramSet => true
  | .secondAdvance => true
  | .clockSet => true
  | .hostFrame _ => true
  | .frameTruncated => true
  | .resultRecord _ _ => true
  | .presenceRise _ => true
  | .presenceFall _ => true
  | .groupOpen => true
  | .groupClose => true
  | .groupAdd => true
  | .groupRemove => true
  | .groupRelease => true
  | .lotDrop => true
  | _ => false

section
variable (hQ : ∀ {u : State}, u.shell = s.shell → Q u)
include hQ

theorem shows_kept {ns : List Notice} (h : u.outer = s.outer) : Shows Q (settle ns u) := shows_settle (hQ (shell_of_outer h))

theorem shows_replied {r : Reply} {ns : List Notice} (h : u.outer = s.outer := by rfl) : Shows Q (answered r ns u) :=
  shows_answered (hQ (shell_of_outer h))

theorem shows_denied {x : Status} : Shows Q (refuse x s) := shows_refuse (hQ rfl)

theorem shows_request {mine : Byte → List Byte → Bool} {f : List Byte → Host.Outcome State Fault Refusal}
    (hf : ∀ b, Shows Q (f b)) : Shows Q (takeRequest mine s f) := shows_takeRequest (hQ rfl) hf

theorem shows_same : Shows Q (.next s) := shows_next (hQ rfl)

theorem shows_takeMessage {p : Port} {b : Bool} {r : Told} (h : r.1.outer = s.outer) : Shows Q (takeMessage p b s r) := by
  unfold takeMessage
  split
  · exact shows_same hQ
  split
  · exact shows_kept hQ h
  · exact shows_kept hQ (outer_countIgnored s p)

theorem shows_takeHandler {p : Port} {b : Bool} {r : Told} (h : r.1.outer = s.outer) : Shows Q (takeHandler p b s r) :=
  shows_takeMessage hQ h

theorem shows_takeTester {p : Port} {b : Bool} {r : Told} (h : r.1.outer = s.outer) : Shows Q (takeTester p b s r) :=
  shows_takeMessage hQ h

omit hQ in
theorem outer_forCell {p : Port} {f : CellNo → Told} (hf : ∀ c, (f c).1.outer = s.outer) : (forCell p s f).1.outer = s.outer := by
  unfold forCell
  split
  · exact hf _
  · exact outer_countIgnored s p

theorem shows_onExpiry {b : Bool} {r : Told} (h : r.1.outer = s.outer) : Shows Q (onExpiry b s r) := by
  unfold onExpiry
  split
  · exact shows_kept hQ h
  · exact shows_same hQ

/-! #### The host link -/

theorem shows_frameSent : Shows Q (execFrameSent s) := by
  have left : (reportLeft { s with sending := none }).shell = s.shell := by
    unfold reportLeft; dsimp only
    split
    · exact (shell_of_outer (outer_place _ _)).trans rfl
    · rfl
  unfold execFrameSent
  split
  · exact shows_same hQ
  · exact shows_settle (hQ rfl)
  · refine shows_settle (hQ ?_)
    split
    · exact left
    · rfl

theorem shows_requestUnknownKind : Shows Q (execRequestUnknownKind s) := by
  unfold execRequestUnknownKind
  split
  · exact shows_same hQ
  split
  · exact shows_same hQ
  · exact shows_replied hQ

theorem shows_status : Shows Q (execStatus s) := shows_request hQ fun b => by
  split
  · exact shows_replied hQ
  · exact shows_replied hQ

/-! #### Ports -/

theorem shows_lockGained {p : Port} {lane : Lane} {n : Nat} : Shows Q (execLockGained p lane n s) := by
  unfold execLockGained
  split
  · exact shows_same hQ
  · exact shows_kept hQ (outer_trainedCheck _ p)

theorem shows_lockLost {p : Port} {lane : Lane} {x : LockLoss} {b : Bool} : Shows Q (execLockLost p lane x b s) := by
  unfold execLockLost
  extract_lets locked
  split
  · exact shows_same hQ
  · exact shows_settle (hQ (shell_lockLoss s p b lane))

theorem shows_checkResult {p : Port} {n : BitVec 16} : Shows Q (execCheckResult p n s) := by
  unfold execCheckResult
  split
  · exact shows_takeMessage hQ rfl
  · refine shows_takeMessage hQ ?_
    unfold takeCheckResult
    split
    · exact outer_judgeCheck _ p
    · exact outer_endCheck ..

theorem shows_checkFrame {p : Port} {f : UpFrame} : Shows Q (execCheckFrame p f s) := by
  unfold execCheckFrame; dsimp only
  split
  · exact shows_same hQ
  · exact shows_kept hQ (outer_upChecker s p f)

theorem shows_checkTimerExpiry {p : Port} : Shows Q (execCheckTimerExpiry p s) := by
  unfold execCheckTimerExpiry; dsimp only
  split
  · exact shows_same hQ
  split
  · exact shows_kept hQ (outer_endCheck ..)
  · exact shows_same hQ

theorem shows_announceTimerExpiry {p : Port} : Shows Q (execAnnounceTimerExpiry p s) := by
  unfold execAnnounceTimerExpiry; dsimp only
  split
  · exact shows_kept hQ (outer_enterFaulted ..)
  · exact shows_same hQ

theorem shows_badFrame {p : Port} : Shows Q (execBadFrame p s) := by
  unfold execBadFrame
  split
  · exact shows_kept hQ (outer_modPort ..)
  · exact shows_same hQ

theorem shows_resultLaneDiscard {p : Port} {f : UpFrame} : Shows Q (execResultLaneDiscard p f s) := by
  unfold execResultLaneDiscard; dsimp only
  split
  · exact shows_same hQ
  · exact shows_kept hQ (outer_modPort ..)

theorem shows_portReset : Shows Q (execPortReset s) := shows_request hQ fun b => by
  split
  · exact shows_replied hQ
  split
  · exact shows_replied hQ (outer_enterTraining _ _ _ _)
  · exact shows_replied hQ

theorem shows_portCheck : Shows Q (execPortCheck s) := shows_request hQ fun b => by
  dsimp only
  repeat' split
  any_goals exact shows_denied hQ
  all_goals exact shows_replied hQ (outer_beginCheck ..)

/-! #### Cells -/

theorem shows_hStatus {p : Port} {m : Byte} : Shows Q (execHStatus p m s) := by
  unfold execHStatus
  split
  · exact shows_takeHandler hQ rfl
  · exact shows_takeHandler hQ (outer_takeStatus ..)

theorem shows_hKit {p : Port} {x : BitVec 16} {b : Byte} : Shows Q (execHKit p x b s) := by
  unfold execHKit
  split
  · exact shows_takeHandler hQ rfl
  · exact shows_takeHandler hQ (outer_takeKit ..)

theorem shows_hPhase {p : Port} {x : Byte} : Shows Q (execHPhase p x s) := by
  unfold execHPhase
  split
  · exact shows_takeHandler hQ rfl
  · exact shows_takeHandler hQ (outer_forCell fun c => outer_modCell ..)

theorem shows_hCounts {p : Port} {m : CountsMsg} : Shows Q (execHCounts p m s) := by
  unfold execHCounts
  split
  · exact shows_takeHandler hQ rfl
  · exact shows_takeHandler hQ (outer_forCell fun c => outer_takeCounts ..)

theorem shows_cellSet : Shows Q (execCellSet s) := shows_request hQ fun b => by
  split
  · exact shows_replied hQ (outer_modCellRec ..)
  · exact shows_replied hQ

theorem shows_siteForce : Shows Q (execSiteForce s) := shows_request hQ fun b => by
  dsimp only
  repeat' split
  any_goals exact shows_denied hQ
  exact shows_replied hQ (outer_forceSite ..)

theorem shows_cellQuery : Shows Q (execCellQuery s) := shows_request hQ fun b => by
  split
  · exact shows_replied hQ
  · exact shows_replied hQ

/-! #### The evaluator and the program loader -/

theorem shows_runningEvaluation {c : CellNo} {i : Fin 8} : Shows Q (execRunningEvaluation c i s) := by
  unfold execRunningEvaluation
  split
  · exact shows_same hQ
  · exact shows_kept hQ rfl

theorem shows_tally {c : CellNo} : Shows Q (execTally c s) := by
  unfold execTally
  split
  · exact shows_same hQ
  · exact shows_kept hQ rfl

theorem shows_siteMonitor {c : CellNo} {i : Fin 8} : Shows Q (execSiteMonitor c i s) := by
  unfold execSiteMonitor
  split
  · exact shows_same hQ
  split
  · exact shows_kept hQ rfl
  · exact shows_same hQ

theorem shows_tallyQuery : Shows Q (execTallyQuery s) := shows_request hQ fun b => by
  repeat' split
  all_goals exact shows_replied hQ

theorem shows_testerClear : Shows Q (execTesterClear s) := shows_request hQ fun b => by
  dsimp only
  split
  · exact shows_replied hQ
  split
  · exact shows_replied hQ
  · exact shows_replied hQ (outer_reportLoad ..)

theorem shows_tLoaded {p : Port} {n : BitVec 16} {v : Byte} {x : BitVec 32} {y : Byte} : Shows Q (execTLoaded p n v x y s) := by
  unfold execTLoaded
  split
  · exact shows_takeTester hQ rfl
  · exact shows_takeTester hQ (outer_takeLoaded ..)

theorem shows_loadTimerExpiry {p : Port} : Shows Q (execLoadTimerExpiry p s) := by
  unfold execLoadTimerExpiry; dsimp only
  split
  · split
    · exact shows_kept hQ (outer_loadTimedOut ..)
    · exact shows_same hQ
  · exact shows_same hQ

omit hQ in
theorem outer_barTester {p : Port} : (barTester p s).outer = s.outer := (outer_reportLoad ..).trans (outer_modSlot ..)

theorem shows_swapTimerExpiry {p : Port} : Shows Q (execSwapTimerExpiry p s) := by
  unfold execSwapTimerExpiry; dsimp only
  split
  · exact shows_kept hQ (outer_barTester.trans ((outer_reportLoad ..).trans (outer_modSlot ..)))
  · exact shows_same hQ

theorem shows_barred {p : Port} : Shows Q (execBarred p s) := by
  unfold execBarred; dsimp only
  split
  · exact shows_kept hQ outer_barTester
  · exact shows_same hQ

/-! #### Lots, holds and groups -/

theorem shows_lotEnter : Shows Q (execLotEnter s) := shows_request hQ fun b => by
  dsimp only
  repeat' split
  any_goals exact shows_denied hQ
  exact shows_replied hQ (outer_place ..)

theorem shows_lotQuery : Shows Q (execLotQuery s) := shows_request hQ fun b => by
  split
  · exact shows_replied hQ
  · exact shows_replied hQ

theorem shows_lotPriority : Shows Q (execLotPriority s) := shows_request hQ fun b => by
  repeat' split
  any_goals exact shows_denied hQ
  exact shows_replied hQ ((outer_trigger ..).trans (outer_resort ..))

theorem shows_holdPlace : Shows Q (execHoldPlace s) := shows_request hQ fun b => by
  dsimp only
  repeat' split
  all_goals exact shows_replied hQ

theorem shows_clear : Shows Q (execClear s) := shows_request hQ fun b => by
  have accepted {h : Hold} : (acceptCounts h (deleteHold h s)).outer = s.outer := by
    unfold acceptCounts
    split <;> rfl
  repeat' split
  any_goals exact shows_denied hQ
  exact shows_replied hQ accepted

theorem shows_retestStep : Shows Q (execRetestStep s) := shows_request hQ fun b => by
  dsimp only
  repeat' split
  any_goals exact shows_denied hQ
  refine shows_replied hQ ?_
  unfold rejoin
  exact outer_ite (outer_dropTally ..) (outer_dropTally ..)

theorem shows_scrap : Shows Q (execScrap s) := shows_request hQ fun b => by
  dsimp only
  repeat' split
  any_goals exact shows_denied hQ
  refine shows_answered (hQ ?_)
  unfold scrapUnits
  split <;> rfl

theorem shows_holdDisposeOverflow : Shows Q (execHoldDisposeOverflow s) := shows_request hQ fun b => by
  repeat' split
  any_goals exact shows_denied hQ
  exact shows_replied hQ ((outer_returnLot ..).trans (outer_reportCleared ..))

theorem shows_holdList : Shows Q (execHoldList s) := shows_request hQ fun b => by
  split
  · exact shows_replied hQ
  · exact shows_replied hQ

theorem shows_groupQuery : Shows Q (execGroupQuery s) := shows_request hQ fun b => by
  split
  · exact shows_replied hQ
  split
  · exact shows_replied hQ
  · exact shows_replied hQ

omit hQ in
theorem outer_consultAll : (consultAll s).1.outer = s.outer := by
  have consulted (cs : List CellNo) (r : Told) : (cs.foldl consultOne r).1.outer = r.1.outer := by
    induction cs generalizing r with
    | nil => rfl
    | cons c cs ih =>
      refine (ih _).trans ?_
      unfold consultOne
      split
      · rfl
      · exact outer_consultMargin ..
  rw [consultAll_eq]
  exact consulted _ _

omit hQ in
theorem outer_noteChanged {c : CellNo} {b : State} (h : u.outer = s.outer) : (noteChanged c b u).outer = s.outer :=
  outer_ite h ((outer_pass ..).trans h)

omit hQ in
theorem outer_judgeWaiting {l : Lot} : (judgeWaiting l s).1.outer = s.outer := by
  unfold judgeWaiting
  extract_lets m s₁ cells
  have h₁ : s₁.outer = s.outer := outer_consultAll
  clear_value cells s₁ m
  split
  · exact (outer_placeLot ..).trans h₁
  split
  · split
    · split
      · exact outer_noteChanged ((outer_placeLot ..).trans ((outer_toWaiting ..).trans ((outer_removeBehind ..).trans h₁)))
      · exact h₁
    · exact h₁
  · exact h₁

omit hQ in
theorem outer_passStep : (passStep s).1.outer = s.outer := by
  unfold passStep
  split
  · rfl
  next n rest _ =>
    extract_lets x t
    have ht : t.outer = s.outer := outer_pass s _
    clear_value t
    split
    · exact ht
    split
    · dsimp only
      exact outer_judgeWaiting.trans ht
    · exact ht

theorem shows_assignmentPass : Shows Q (execAssignmentPass s) := by
  unfold execAssignmentPass
  split
  · exact shows_kept hQ outer_passStep
  split
  · exact shows_kept hQ outer_passStep
  · exact shows_same hQ

/-- Most commands leave the shell as it is. -/
theorem exec_quiet {i : Instr} (hi : reachesShell i = false) : Shows Q (exec i s) := by
  cases i with
  | frameSent => exact shows_frameSent hQ
  | requestUnknownKind => exact shows_requestUnknownKind hQ
  | status => exact shows_status hQ
  | hourRollover => exact shows_kept hQ rfl
  | lockGained p lane n => exact shows_lockGained hQ
  | lockLost p lane x b => exact shows_lockLost hQ
  | checkArmed p => exact shows_takeMessage hQ rfl
  | checkResult p n => exact shows_checkResult hQ
  | checkFrame p f => exact shows_checkFrame hQ
  | checkTimerExpiry p => exact shows_checkTimerExpiry hQ
  | announce p m => exact shows_takeMessage hQ (outer_takeAnnounce ..)
  | announceTimerExpiry p => exact shows_announceTimerExpiry hQ
  | badFrame p => exact shows_badFrame hQ
  | unknownMessageKind p => exact shows_takeMessage hQ rfl
  | resultLaneDiscard p f => exact shows_resultLaneDiscard hQ
  | portReset => exact shows_portReset hQ
  | portCheck => exact shows_portCheck hQ
  | hStatus p m => exact shows_hStatus hQ
  | hTemp p t => exact shows_takeHandler hQ (outer_forCell fun c => outer_modCell ..)
  | hKit p x b => exact shows_hKit hQ
  | hDock p n => exact shows_takeHandler hQ (outer_takeClaim ..)
  | hIndex p m => exact shows_takeHandler hQ (outer_forCell fun c => outer_takeIndex ..)
  | hClean p m => exact shows_takeHandler hQ (outer_forCell fun c => outer_takeClean ..)
  | hPhase p x => exact shows_hPhase hQ
  | hCounts p m => exact shows_hCounts hQ
  | soakTimerExpiry c => exact shows_onExpiry hQ (outer_modCell ..)
  | staleTimerExpiry c => exact shows_onExpiry hQ (outer_modCell ..)
  | withdrawTimerExpiry c => exact shows_onExpiry hQ rfl
  | drainTimerExpiry c => exact shows_onExpiry hQ rfl
  | cellSet => exact shows_cellSet hQ
  | siteForce => exact shows_siteForce hQ
  | cellQuery => exact shows_cellQuery hQ
  | runningEvaluation c i => exact shows_runningEvaluation hQ
  | tally c => exact shows_tally hQ
  | siteMonitor c i => exact shows_siteMonitor hQ
  | tallyQuery => exact shows_tallyQuery hQ
  | testerClear => exact shows_testerClear hQ
  | tHeadtemp p t => exact shows_takeTester hQ (outer_computeMargin ..)
  | tCal p t => exact shows_takeTester hQ (outer_computeMargin ..)
  | tLoaded p n v x y => exact shows_tLoaded hQ
  | tSwapped p => exact shows_takeTester hQ (outer_takeSwapped ..)
  | loadTimerExpiry p => exact shows_loadTimerExpiry hQ
  | swapTimerExpiry p => exact shows_swapTimerExpiry hQ
  | barred p => exact shows_barred hQ
  | lotEnter => exact shows_lotEnter hQ
  | lotQuery => exact shows_lotQuery hQ
  | lotQueryListing => exact shows_request hQ fun b => shows_replied hQ
  | lotPriority => exact shows_lotPriority hQ
  | holdPlace => exact shows_holdPlace hQ
  | clear => exact shows_clear hQ
  | retestStep => exact shows_retestStep hQ
  | scrap => exact shows_scrap hQ
  | holdDisposeOverflow => exact shows_holdDisposeOverflow hQ
  | holdList => exact shows_holdList hQ
  | groupQuery => exact shows_groupQuery hQ
  | assignmentPass => exact shows_assignmentPass hQ
  | _ => exact Bool.noConfusion (show true = false from hi)

end
end
end Sys2Proof.Machine
end

