-- ==== Sys2Proof/Proofs/ShellCommands.lean ====
section
-- In order: the check's memory bound leaves no room for a thread per proof.
set_option Elab.async false
/-! ## The commands that reach the shell, each with its part of it -/

namespace Sys2Proof.Machine

/-- A state that a command may lead to from `s`, as far as the shell tells. -/
def Only (c : Instr) (s t : State) : Prop :=
  t.pending = s.pending
    ∧ ((∀ a r b, c ≠ .powerOn a r b) → t.rate = s.rate)
    ∧ (clearsAll c = false →
        t.strict = s.strict
          ∧ (c ∉ [.productPut, .productDrop] → t.products = s.products)
          ∧ (c ∉ [.programPut, .programDrop] → t.catalog = s.catalog)
          ∧ (c ≠ .paramSet → t.params = s.params)
          ∧ (c ≠ .secondAdvance → t.elapsed = s.elapsed)
          ∧ (c ∉ [.secondAdvance, .clockSet] → t.floorTime = s.floorTime)
          ∧ ((∀ b, c ≠ .hostFrame b) → c ≠ .frameTruncated → t.rx = s.rx ∧ t.frames = s.frames)
          ∧ ((∀ p r, c ≠ .resultRecord p r) → t.strays = s.strays)
          ∧ ((∀ p, c ≠ .presenceRise p ∧ c ≠ .presenceFall p) → t.pins = s.pins)
          ∧ (c ∉ [.groupOpen, .groupClose, .groupAdd, .groupRemove, .groupRelease, .lotDrop, .restartFloor] → t.groups = s.groups))

section
variable {c : Instr} {s t u : State}

/-- The shell is all that `Only` looks at. -/
theorem Only.of_shell (h : Only c s u) (ht : t.shell = u.shell) : Only c s t := by
  have pending : t.pending = u.pending := (congrArg State.pending ht :)
  have rate : t.rate = u.rate := (congrArg State.rate ht :)
  have strict : t.strict = u.strict := (congrArg State.strict ht :)
  have products : t.products = u.products := (congrArg State.products ht :)
  have catalog : t.catalog = u.catalog := (congrArg State.catalog ht :)
  have params : t.params = u.params := (congrArg State.params ht :)
  have elapsed : t.elapsed = u.elapsed := (congrArg State.elapsed ht :)
  have floorTime : t.floorTime = u.floorTime := (congrArg State.floorTime ht :)
  have rx : t.rx = u.rx := (congrArg State.rx ht :)
  have frames : t.frames = u.frames := (congrArg State.frames ht :)
  have strays : t.strays = u.strays := (congrArg State.strays ht :)
  have pins : t.pins = u.pins := (congrArg State.pins ht :)
  have groups : t.groups = u.groups := (congrArg State.groups ht :)
  unfold Only
  rw [pending, rate, strict, products, catalog, params, elapsed, floorTime, rx, frames, strays, pins, groups]
  exact h

theorem only_same (h : u.shell = s.shell) : Only c s u := by
  have rest : Only c s s := ⟨rfl, fun _ => rfl, fun _ => ⟨rfl, fun _ => rfl, fun _ => rfl, fun _ => rfl, fun _ => rfl, fun _ => rfl,
    fun _ _ => ⟨rfl, rfl⟩, fun _ => rfl, fun _ => rfl, fun _ => rfl⟩⟩
  exact rest.of_shell h

/-! ### One part changed by its own commands -/

theorem only_products {x : List Product} (hc : c ∈ [.productPut, .productDrop]) : Only c s { s with products := x } :=
  ⟨rfl, fun _ => rfl, fun _ => ⟨rfl, (absurd hc ·), fun _ => rfl, fun _ => rfl, fun _ => rfl, fun _ => rfl,
    fun _ _ => ⟨rfl, rfl⟩, fun _ => rfl, fun _ => rfl, fun _ => rfl⟩⟩

theorem only_catalog {x : List Program} (hc : c ∈ [.programPut, .programDrop]) : Only c s { s with catalog := x } :=
  ⟨rfl, fun _ => rfl, fun _ => ⟨rfl, fun _ => rfl, (absurd hc ·), fun _ => rfl, fun _ => rfl, fun _ => rfl,
    fun _ _ => ⟨rfl, rfl⟩, fun _ => rfl, fun _ => rfl, fun _ => rfl⟩⟩

theorem only_params {x : Params} : Only .paramSet s { s with params := x } :=
  ⟨rfl, fun _ => rfl, fun _ => ⟨rfl, fun _ => rfl, fun _ => rfl, (absurd rfl ·), fun _ => rfl, fun _ => rfl,
    fun _ _ => ⟨rfl, rfl⟩, fun _ => rfl, fun _ => rfl, fun _ => rfl⟩⟩

theorem only_advance : Only .secondAdvance s (advance s) :=
  ⟨rfl, fun _ => rfl, fun _ => ⟨rfl, fun _ => rfl, fun _ => rfl, fun _ => rfl, (absurd rfl ·), fun h => absurd (by decide) h,
    fun _ _ => ⟨rfl, rfl⟩, fun _ => rfl, fun _ => rfl, fun _ => rfl⟩⟩

theorem only_floorTime {x : Nat} : Only .clockSet s { s with floorTime := x } :=
  ⟨rfl, fun _ => rfl, fun _ => ⟨rfl, fun _ => rfl, fun _ => rfl, fun _ => rfl, fun _ => rfl, fun h => absurd (by decide) h,
    fun _ _ => ⟨rfl, rfl⟩, fun _ => rfl, fun _ => rfl, fun _ => rfl⟩⟩

theorem only_received {x : List (Byte × Nat)} {y : FrameCounters} {z : List HostEntry} (hc : (∃ b, c = .hostFrame b) ∨ c = .frameTruncated) :
    Only c s { s with rx := x, frames := y, unanswered := z } := by
  refine ⟨rfl, fun _ => rfl, fun _ => ⟨rfl, fun _ => rfl, fun _ => rfl, fun _ => rfl, fun _ => rfl, fun _ => rfl, fun h₁ h₂ => ?_,
    fun _ => rfl, fun _ => rfl, fun _ => rfl⟩⟩
  rcases hc with ⟨b, h⟩ | h
  · exact absurd h (h₁ b)
  · exact absurd h h₂

theorem only_strays {p : Port} {r : BitVec 64} {x : Vector Nat 32} : Only (.resultRecord p r) s { s with strays := x } :=
  ⟨rfl, fun _ => rfl, fun _ => ⟨rfl, fun _ => rfl, fun _ => rfl, fun _ => rfl, fun _ => rfl, fun _ => rfl,
    fun _ _ => ⟨rfl, rfl⟩, fun h => absurd rfl (h p r), fun _ => rfl, fun _ => rfl⟩⟩

theorem only_pins {p : Port} {x : Pins} (hc : c = .presenceRise p ∨ c = .presenceFall p) : Only c s { s with pins := x } := by
  refine ⟨rfl, fun _ => rfl, fun _ => ⟨rfl, fun _ => rfl, fun _ => rfl, fun _ => rfl, fun _ => rfl, fun _ => rfl,
    fun _ _ => ⟨rfl, rfl⟩, fun _ => rfl, fun h => ?_, fun _ => rfl⟩⟩
  rcases hc with hc | hc
  · exact absurd hc (h p).1
  · exact absurd hc (h p).2

theorem only_groups {x : Vector Group 16}
    (hc : c ∈ [.groupOpen, .groupClose, .groupAdd, .groupRemove, .groupRelease, .lotDrop, .restartFloor]) :
    Only c s { s with groups := x } :=
  ⟨rfl, fun _ => rfl, fun _ => ⟨rfl, fun _ => rfl, fun _ => rfl, fun _ => rfl, fun _ => rfl, fun _ => rfl,
    fun _ _ => ⟨rfl, rfl⟩, fun _ => rfl, fun _ => rfl, (absurd hc ·)⟩⟩

theorem only_restart {strict : Bool} (hp : t.pending = s.pending) (hr : t.rate = s.rate) : Only (.restartFull strict) s t :=
  ⟨hp, fun _ => hr, fun h => Bool.noConfusion (show true = false from h)⟩

theorem only_powerOn {strict : Bool} {rate : BitVec 2} {b : BitVec 32} (hp : t.pending = s.pending) : Only (.powerOn strict rate b) s t :=
  ⟨hp, fun h => absurd rfl (h strict rate b), fun h => Bool.noConfusion (show true = false from h)⟩

/-! ### Resets -/

theorem outer_samplePresence (s : State) : (samplePresence s).outer = s.outer := by
  unfold samplePresence
  refine outer_foldl s _ (fun s p => ?_) _
  split
  · exact outer_presenceRose s p
  · rfl

/-! ### The groups -/

/-- A state whose shell differs from that of `s` in the groups alone. -/
def Regrouped (s t : State) : Prop := ∃ x, t.shell = ({ s with groups := x } : State).shell

theorem regrouped_of_outer (h : t.outer = s.outer) : Regrouped s t := ⟨s.groups, shell_of_outer h⟩

/-- The groups are written on a state whose shell differs in the groups alone. -/
theorem Regrouped.groups (h : Regrouped s t) (x : Vector Group 16) : Regrouped s { t with groups := x } := by
  obtain ⟨y, hy⟩ := h
  exact ⟨x, congrArg (fun u : State => ({ u with groups := x } : State)) hy⟩

theorem Regrouped.modGroup (h : Regrouped s t) (g : Fin 16) (f : Group → Group) : Regrouped s (t.modGroup g f) := h.groups _

theorem Regrouped.outer (h : Regrouped s t) (hu : u.outer = t.outer) : Regrouped s u := by
  obtain ⟨y, hy⟩ := h
  exact ⟨y, (shell_of_outer hu).trans hy⟩

theorem only_regrouped (hc : c ∈ [.groupOpen, .groupClose, .groupAdd, .groupRemove, .groupRelease, .lotDrop, .restartFloor])
    (h : Regrouped s t) : Only c s t := by
  obtain ⟨x, hx⟩ := h
  exact (only_groups hc).of_shell hx

theorem regrouped_clearFloor (h : t.outer = s.outer) : Regrouped s (clearFloor t) := by
  have cleared : (clearFloor t).shell = ({ t with groups := Vector.replicate 16 {} } : State).shell := rfl
  obtain ⟨y, hy⟩ := (regrouped_of_outer h).groups (Vector.replicate 16 {})
  exact ⟨y, cleared.trans hy⟩

theorem regrouped_restartFloor (s : State) : Regrouped s (restartFloor s) := by
  have stopped : (allCells.foldl stopFed s).outer = s.outer := by
    refine outer_foldl s _ (fun s c => ?_) _
    unfold stopFed
    split
    · rfl
    · exact outer_ite (outer_send ..) rfl
  have idled (t : State) : (allCells.foldl idleCell t).outer = t.outer := by
    refine outer_foldl t _ (fun s c => ?_) _
    unfold idleCell
    split
    · rfl
    · exact outer_ite rfl (outer_reportCell ..)
  exact (regrouped_clearFloor stopped).outer (idled _)

theorem regrouped_leaveGroup (l : Lot) (s : State) : Regrouped s (leaveGroup l s) := by
  unfold leaveGroup
  split
  · exact regrouped_of_outer rfl
  · exact ((regrouped_of_outer rfl).modGroup _ _).outer (outer_modLot ..)

theorem regrouped_addToGroup (g : Fin 16) (l : Lot) (s : State) : Regrouped s (addToGroup g l s) :=
  ((regrouped_of_outer rfl).modGroup _ _).outer (outer_modLot ..)

theorem outer_clearGroupIds (lots : List Nat) (s : State) : (clearGroupIds lots s).outer = s.outer :=
  outer_foldl s _ (fun s n => outer_modLot s n _) lots

theorem regrouped_releaseGroup (g : Fin 16) (s : State) : Regrouped s (releaseGroup g s) := by
  have released : (s.groups[g].lots.foldl releaseLot s).outer = s.outer := by
    refine outer_foldl s _ (fun s n => ?_) _
    unfold releaseLot
    split
    · rfl
    · exact outer_place ..
  exact ((regrouped_of_outer released).modGroup g _).outer ((outer_place ..).trans (outer_resetEntrySeq _))

/-! ### Reception -/

/-- A state whose shell differs from that of `s` in the receiver's part alone. -/
def Heard (s t : State) : Prop := ∃ x y, t.shell = ({ s with rx := x, frames := y } : State).shell

theorem heard_scanFrames (n : Nat) (l : Machine.Received) {t : State} (h : Heard s t) : Heard s (scanFrames n l t) := by
  have written (x) {t : State} (h : Heard s t) : Heard s { t with rx := x } := by
    obtain ⟨_, y, hy⟩ := h
    exact ⟨x, y, congrArg (fun u : State => ({ u with rx := x } : State)) hy⟩
  have counted (y) {t : State} (h : Heard s t) : Heard s { t with frames := y } := by
    obtain ⟨x, _, hx⟩ := h
    exact ⟨x, y, congrArg (fun u : State => ({ u with frames := y } : State)) hx⟩
  have accepted {kind tag : Byte} {body : List Byte} {t : State} (h : Heard s t) : Heard s (acceptFrame kind tag body t) := by
    unfold acceptFrame
    split
    · exact h
    split
    · exact h
    · exact counted _ h
  induction n generalizing l t with
  | zero => exact written l h
  | succ n ih =>
    unfold scanFrames
    split
    · exact written [] h
    split
    · exact written _ h
    · exact ih _ (counted _ h)
    · exact ih _ (counted _ h)
    · exact ih _ (accepted (counted _ h))

theorem only_receive {l : Machine.Received} {y : FrameCounters} (hc : (∃ b, c = .hostFrame b) ∨ c = .frameTruncated) :
    Only c s (receive l { s with frames := y }) := by
  have start : Heard s { s with frames := y } := ⟨s.rx, y, rfl⟩
  obtain ⟨x, y, h⟩ := heard_scanFrames (l.length + 1) l start
  exact (only_received (z := s.unanswered) hc).of_shell h

/-! ### Result intake -/

/-- A state whose shell differs from that of `s` in the stray counts alone. -/
def Strayed (s t : State) : Prop := ∃ x, t.shell = ({ s with strays := x } : State).shell

theorem strayed_of_outer (h : t.outer = s.outer) : Strayed s t := ⟨s.strays, shell_of_outer h⟩

theorem strayed_countStray (h : t.outer = s.outer) (p : Port) : Strayed s (countStray p t) :=
  ⟨_, congrArg (fun u : State => ({ u with strays := t.strays.set p (sat32 (t.strays[p] + 1)) } : State)) (shell_of_outer h)⟩

theorem outer_countFirst (n : CellNo) (l : Lot) (i : Nat) (b : Fin 16) (k : Nat) (d : StepDef) (s : State) :
    (countFirst n l i b k d s).1.outer = s.outer := by
  unfold countFirst; dsimp only
  split <;> rfl

theorem strayed_takeSorted (p : Port) (n : CellNo) (k : Cell) (l : Lot) (t : Tally) (g : Product) (d : StepDef) (r : BitVec 64)
    (s : State) : Strayed s (takeSorted p n k l t g d r s).1 := by
  unfold takeSorted; dsimp only
  split
  case h_2 => exact strayed_countStray rfl p
  case h_7 => exact strayed_of_outer (outer_countFirst ..)
  all_goals exact strayed_of_outer rfl

theorem strayed_intake (p : Port) (r : BitVec 64) (s : State) : Strayed s (intake p r s).1 := by
  unfold intake
  split
  · exact strayed_countStray rfl p
  split
  · split
    · exact strayed_takeSorted ..
    · exact strayed_countStray rfl p
  · exact strayed_countStray rfl p

theorem only_strayed {p : Port} {r : BitVec 64} (h : Strayed s t) : Only (.resultRecord p r) s t := by
  obtain ⟨x, hx⟩ := h
  exact only_strays.of_shell hx

/-! ## Each command that reaches the shell -/

theorem shows_productPut : Shows (Only .productPut s) (execProductPut s) := shows_request only_same fun b => by
  dsimp only
  repeat' split
  any_goals exact shows_denied only_same
  · exact shows_answered (only_products (by decide))
  · exact shows_answered (only_products (by decide))

theorem shows_productDrop : Shows (Only .productDrop s) (execProductDrop s) := shows_request only_same fun b => by
  repeat' split
  any_goals exact shows_denied only_same
  exact shows_answered (only_products (by decide))

theorem outer_staleSlots (n : Nat) (s : State) : (allPorts.foldl (staleSlot n) s).outer = s.outer :=
  outer_foldl s _ (fun s p => outer_staleSlot s n p) _

theorem shows_programPut : Shows (Only .programPut s) (execProgramPut s) := shows_request only_same fun b => by
  have catalog {x : List Program} : Only .programPut s { s with catalog := x } := only_catalog (by decide)
  dsimp only
  repeat' split
  any_goals exact shows_denied only_same
  · exact shows_answered catalog
  · exact shows_answered catalog
  · unfold revise; dsimp only
    exact shows_answered (catalog.of_shell (shell_of_outer (outer_staleSlots _ _)))

theorem shows_programDrop : Shows (Only .programDrop s) (execProgramDrop s) := shows_request only_same fun b => by
  have catalog {x : List Program} : Only .programDrop s { s with catalog := x } := only_catalog (by decide)
  split
  · exact shows_denied only_same
  split
  · exact shows_denied only_same
  · exact shows_answered (catalog.of_shell (shell_of_outer (outer_staleSlots _ _)))

theorem shows_paramSet : Shows (Only .paramSet s) (execParamSet s) := shows_request only_same fun b => by
  repeat' split
  any_goals exact shows_denied only_same
  exact shows_answered only_params

theorem shows_secondAdvance : Shows (Only .secondAdvance s) (execSecondAdvance s) := shows_settle only_advance

theorem shows_clockSet : Shows (Only .clockSet s) (execClockSet s) :=
  shows_request only_same fun _ => shows_answered only_floorTime

theorem shows_frameTruncated : Shows (Only .frameTruncated s) (execFrameTruncated s) := by
  unfold execFrameTruncated
  split
  · exact shows_same only_same
  split
  · exact shows_settle (only_receive (.inr rfl))
  · exact shows_same only_same

theorem shows_resultRecord {p : Port} {r : BitVec 64} : Shows (Only (.resultRecord p r) s) (execResultRecord p r s) := by
  unfold execResultRecord
  split
  · exact shows_same only_same
  split
  · exact shows_kept only_same (outer_upChecker ..)
  split
  · exact shows_settle (only_strayed (strayed_intake ..))
  · exact shows_kept only_same rfl

theorem shows_groupOpen : Shows (Only .groupOpen s) (execGroupOpen s) := shows_request only_same fun b => by
  repeat' split
  any_goals exact shows_denied only_same
  exact shows_answered (only_regrouped (by decide) ((regrouped_of_outer rfl).modGroup _ _))

theorem shows_groupClose : Shows (Only .groupClose s) (execGroupClose s) := shows_request only_same fun b => by
  repeat' split
  any_goals exact shows_denied only_same
  exact shows_answered (only_regrouped (by decide) ((regrouped_of_outer (outer_clearGroupIds ..)).modGroup _ _))

theorem shows_groupAdd : Shows (Only .groupAdd s) (execGroupAdd s) := shows_request only_same fun b => by
  repeat' split
  any_goals exact shows_denied only_same
  · exact shows_replied only_same
  · exact shows_answered (only_regrouped (by decide) (regrouped_addToGroup ..))

theorem shows_groupRemove : Shows (Only .groupRemove s) (execGroupRemove s) := shows_request only_same fun b => by
  repeat' split
  any_goals exact shows_denied only_same
  exact shows_answered (only_regrouped (by decide) (regrouped_leaveGroup ..))

theorem shows_groupRelease : Shows (Only .groupRelease s) (execGroupRelease s) := shows_request only_same fun b => by
  repeat' split
  any_goals exact shows_denied only_same
  · exact shows_replied only_same
  · exact shows_replied only_same
  · exact shows_answered (only_regrouped (by decide) (regrouped_releaseGroup ..))

theorem shows_lotDrop : Shows (Only .lotDrop s) (execLotDrop s) := shows_request only_same fun b => by
  dsimp only
  repeat' split
  any_goals exact shows_denied only_same
  exact shows_answered (only_regrouped (by decide) ((regrouped_leaveGroup ..).outer (outer_dropTally ..)))

theorem shows_restartFloor : Shows (Only .restartFloor s) (execRestartFloor s) := shows_request only_same fun b => by
  split
  · exact shows_answered (only_regrouped (by decide) (regrouped_restartFloor s))
  · exact shows_denied only_same

theorem shows_restartFull {strict : Bool} : Shows (Only (.restartFull strict) s) (execRestartFull strict s) :=
  shows_request only_same fun _ => by
    unfold restartFull
    exact shows_answered (only_restart ((outer_pending (outer_samplePresence _)).trans rfl) ((outer_rate (outer_samplePresence _)).trans rfl))

theorem shows_powerOn {strict : Bool} {rate : BitVec 2} {b : BitVec 32} :
    Shows (Only (.powerOn strict rate b) s) (execPowerOn strict rate b s) := by
  unfold execPowerOn
  exact shows_settle (only_powerOn ((outer_pending (outer_samplePresence _)).trans rfl))

theorem shows_hostFrame {b : List Byte} : Shows (Only (.hostFrame b) s) (execHostFrame b s) :=
  shows_settle (only_receive (y := s.frames) (.inl ⟨b, rfl⟩))

theorem shows_presenceRise {p : Port} : Shows (Only (.presenceRise p) s) (execPresenceRise p s) :=
  shows_settle ((only_pins (.inl rfl)).of_shell (shell_of_outer (outer_presenceRose _ p)))

theorem shows_presenceFall {p : Port} : Shows (Only (.presenceFall p) s) (execPresenceFall p s) :=
  shows_settle ((only_pins (.inr rfl)).of_shell (shell_presenceFell _ p))

/-- What every command may change at all. -/
theorem exec_only (c : Instr) (s : State) : Shows (Only c s) (exec c s) := by
  cases c with
  | powerOn strict rate b => exact shows_powerOn
  | restartFull strict => exact shows_restartFull
  | restartFloor => exact shows_restartFloor
  | productPut => exact shows_productPut
  | productDrop => exact shows_productDrop
  | programPut => exact shows_programPut
  | programDrop => exact shows_programDrop
  | paramSet => exact shows_paramSet
  | secondAdvance => exact shows_secondAdvance
  | clockSet => exact shows_clockSet
  | hostFrame b => exact shows_hostFrame
  | frameTruncated => exact shows_frameTruncated
  | resultRecord p r => exact shows_resultRecord
  | presenceRise p => exact shows_presenceRise
  | presenceFall p => exact shows_presenceFall
  | groupOpen => exact shows_groupOpen
  | groupClose => exact shows_groupClose
  | groupAdd => exact shows_groupAdd
  | groupRemove => exact shows_groupRemove
  | groupRelease => exact shows_groupRelease
  | lotDrop => exact shows_lotDrop
  | _ => exact exec_quiet only_same rfl

end
end Sys2Proof.Machine

section
open Sys2Proof Sys2Proof.Machine

/-- Settles O8, by the shell of each command's next state. -/
theorem onlyTheirCommandsChange : Obligations.OnlyTheirCommandsChange := by
  intro c s t h
  obtain ⟨u, only, same⟩ := exec_only c s t h
  exact only.of_shell same

end
end

