-- ==== Sys2Proof/Proofs/PortDepartures.lean ====
section
-- In order: the check's memory bound leaves no room for a thread per proof.
set_option Elab.async false
/-! ## What a departure leaves, and the changes of presence -/

namespace Sys2Proof.Machine

/-- R91: the slot record of a tester that has departed. -/
def Slot.park (t : Slot) : Slot := { t with use := .parked, active := none, staged := .empty, swap := none, request := none }

/-- R37: what the departure of a port with a role and an equipment id leaves of the claims. -/
def partedClaims (p : Port) (role : Option Role) (equip : Option Nat) (l : List Claim) : List Claim :=
  match role with
  | none => l
  | some .handler => l.filter (·.port != p)
  | some .tester => l.map fun x => if some x.tester = equip then { x with status := .waiting } else x

/-- R32, R37, R91: what the departure of a port leaves, but for the reports of operations that were in flight. -/
def State.parted (s : State) (p : Port) (role : Option Role) (equip : Option Nat) : State :=
  { s with
    slots := if role = some .tester then s.slots.set p s.slots[p].park else s.slots
    claims := partedClaims p role equip s.claims }

section
variable {s t : State} {p : Port} {role : Option Role} {equip : Option Nat}

/-! ### States that differ in reports alone -/

/-- A state that differs from `s` in the report queue alone. -/
def Reported (s t : State) : Prop := ∃ r n, t = { s with reports := r, dropped := n }

theorem Reported.refl (s : State) : Reported s s := ⟨s.reports, s.dropped, rfl⟩

theorem Reported.place (h : Reported s t) (x : Report) : Reported s (place x t) := by
  obtain ⟨r, n, rfl⟩ := h
  obtain ⟨r, n, h⟩ := place_exists x { s with reports := r, dropped := n }
  exact ⟨r, n, h⟩

theorem Reported.ite {q : Prop} [Decidable q] {u : State} (ht : Reported s t) (hu : Reported s u) : Reported s (if q then t else u) := by
  split <;> assumption

theorem parted_place (x : Report) : (place x s).parted p role equip = place x (s.parted p role equip) :=
  apply_ite (fun u : State => u.parted p role equip) (s.reports.length < Config.maxReports) _ _

/-! ### Departures (R32, R37, R91) -/

theorem parkTester_reported : Reported (s.modSlot p Slot.park) (parkTester p s) := by
  unfold parkTester
  extract_lets t loaded swapped s₁ s₂
  have h₂ : Reported (s.modSlot p Slot.park) s₂ := .ite ((Reported.refl s₁).place _) (.refl s₁)
  exact .ite (h₂.place _) h₂

theorem parkTester_idle (h : s.slots[p].inFlight = false) : parkTester p s = s.modSlot p Slot.park := by
  obtain ⟨loading, swap⟩ := (Bool.or_eq_false_iff.mp h : _ ∧ _)
  unfold parkTester
  extract_lets t loaded swapped s₁ s₂
  have h₂ : s₂ = s₁ := if_neg (Bool.not_eq_true _ ▸ loading)
  exact (if_neg (Bool.not_eq_true _ ▸ swap)).trans h₂

theorem departed_reported : Reported (s.parted p role equip) (departed p role equip s).1 := by
  unfold departed
  rcases role with _ | _ | _
  · exact .refl s
  · exact .refl _
  · obtain ⟨r, n, h⟩ := parkTester_reported (s := s) (p := p)
    dsimp only
    rw [h]
    exact ⟨r, n, rfl⟩

theorem departed_idle (h : s.slots[p].inFlight = false) : (departed p role equip s).1 = s.parted p role equip := by
  unfold departed
  rcases role with _ | _ | _
  · rfl
  · rfl
  · dsimp only
    rw [parkTester_idle h]
    rfl

theorem parkTester_cells : (parkTester p s).cells = s.cells := by
  obtain ⟨r, n, h⟩ := parkTester_reported (s := s) (p := p)
  rw [h]; rfl

/-- A port of no cell owes the cell manager nothing. -/
theorem departed_outside (h : s.outside p) : (departed p role equip s).2 = [] := by
  unfold departed
  rcases role with _ | _ | _
  · rfl
  · exact congrArg (fun x : Option CellNo => match x with | some c => [Notice.dissolve c .handlerGone] | none => []) (outside_handler h)
  · have apart : ({ parkTester p s with claims := (parkTester p s).claims.map fun x => if some x.tester = equip then { x with status := .waiting } else x }
        : State).outside p := fun c k hk => h c k (by rw [← hk]; exact congrArg (fun x : Vector CellRec 16 => x[c].formed) parkTester_cells.symm)
    dsimp only
    rw [outside_tester apart]

theorem reportPort_reported {x : PortState} {e : Option LastCheck} : Reported s (reportPort p x e s) := (Reported.refl s).place _

/-- A departure reported: the state that the reports leave, and nothing owed for a port of no cell. -/
theorem departed_told (h : t.outside p) (hs : Reported s t) :
    ∃ r n, departed p role equip t = ({ s.parted p role equip with reports := r, dropped := n }, []) := by
  obtain ⟨r, n, rfl⟩ := hs
  obtain ⟨r, n, left⟩ := departed_reported (s := { s with reports := r, dropped := n }) (p := p) (role := role) (equip := equip)
  exact ⟨r, n, Prod.ext left (departed_outside h)⟩

/-! ### Training (R22, R25) -/

theorem reportPort_ports {x : PortState} {e : Option LastCheck} : (reportPort p x e s).ports = s.ports := place_ports ..

theorem enterTraining_stays {x : PortState} {e : Option LastCheck} (h : (s.ports[p].controlLock && s.ports[p].resultLock) = false) :
    enterTraining p x e s = reportPort p x e s := by
  unfold enterTraining trainedCheck
  rw [reportPort_ports]
  refine if_neg fun ⟨_, control, result⟩ => ?_
  rw [control, result] at h
  cases h

theorem enterTraining_checks {x : PortState} {e : Option LastCheck} (ht : s.ports[p].state = .training)
    (h : (s.ports[p].controlLock && s.ports[p].resultLock) = true) :
    enterTraining p x e s = beginCheck p true 1024 .training (reportPort p x e s) := by
  unfold enterTraining trainedCheck
  rw [reportPort_ports]
  exact if_pos ⟨ht, (Bool.and_eq_true_iff.mp h).1, (Bool.and_eq_true_iff.mp h).2⟩

/-! ### Presence (R20) -/

theorem modPort_twice (f g : PortRec → PortRec) : (s.modPort p f).modPort p g = s.modPort p fun r => g (f r) := by
  simp [State.modPort]

/-- The port record when a check has ended, or none was in progress. -/
def PortRec.checkGone (r : PortRec) (ended : Option LastCheck) : PortRec :=
  { r with check := none, last := ended.or r.last, announceTimer := none, checkTimer := none, out := r.out.filter fun d => !d.ofCheck }

theorem clearCheck_eq (ended : Option LastCheck) :
    ∃ n, clearCheck p ended s = { s.modPort p (fun r => r.checkGone ended) with freeCount := n } := by
  unfold clearCheck; dsimp only
  split
  · exact ⟨_, rfl⟩
  · exact ⟨s.freeCount, rfl⟩

theorem abandonedCheck_none (h : s.ports[p].check = none) : abandonedCheck s p = none := by
  unfold abandonedCheck; rw [h]; rfl

/-- R22, log entry 6: what the last check field shows of a check abandoned. -/
theorem abandonedCheck_some {k : CheckRec} (h : s.ports[p].check = some k) :
    ∃ n, abandonedCheck s p = some (k.last .abandoned n) ∧ ∀ m, k.result = some m → n = m := by
  unfold abandonedCheck; rw [h]
  refine ⟨_, rfl, fun m hm => ?_⟩
  rw [hm]; rfl

/-- R20: the port record after a fall. -/
def PortRec.fallen (r : PortRec) (ended : Option LastCheck) : PortRec :=
  { last := ended.or r.last, badFrames := r.badFrames, ignored := r.ignored, discarded := r.discarded }

/-- R20: what a fall leaves of the port record. -/
theorem clearCheck_fallen (ended : Option LastCheck) : ∃ n, (clearCheck p ended s).modPort p (fun r =>
    { r with state := .absent, controlLock := false, resultLock := false, role := none, equip := none, data := none,
             fault := none, checkFailed := false, out := [] })
    = { s.modPort p (fun r => r.fallen ended) with freeCount := n } := by
  obtain ⟨n, cleared⟩ := clearCheck_eq (s := s) (p := p) ended
  refine ⟨n, ?_⟩
  have fallen := modPort_twice (s := s) (p := p) (fun r => r.checkGone ended) (fun r =>
    { r with state := .absent, controlLock := false, resultLock := false, role := none, equip := none, data := none,
             fault := none, checkFailed := false, out := [] })
  rw [cleared]
  exact congrArg (fun u : State => ({ s with ports := u.ports, freeCount := n } : State)) fallen

/-- R20, R32: a fall at a port of no cell. -/
theorem presenceFell_outside (h : s.ports[p].state ≠ .absent) (apart : s.outside p) :
    ∃ n r d, presenceFell p s =
      ({ s with
          ports := s.ports.set p (s.ports[p].fallen (abandonedCheck s p))
          slots := if s.ports[p].role = some .tester then s.slots.set p s.slots[p].park else s.slots
          claims := partedClaims p s.ports[p].role s.ports[p].equip s.claims
          freeCount := n, reports := r, dropped := d }, []) := by
  unfold presenceFell
  rw [if_neg h]
  obtain ⟨n, fallen⟩ := clearCheck_fallen (s := s) (p := p) (abandonedCheck s p)
  dsimp only
  rw [fallen]
  have still : (reportPort p s.ports[p].state (abandonedCheck s p)
      { s.modPort p (fun r => r.fallen (abandonedCheck s p)) with freeCount := n }).outside p := by
    obtain ⟨r, d, told⟩ := reportPort_reported (s := { s.modPort p (fun r => r.fallen (abandonedCheck s p)) with freeCount := n })
      (p := p) (x := s.ports[p].state) (e := abandonedCheck s p)
    rw [told]
    exact apart
  obtain ⟨r, d, told⟩ := departed_told (role := s.ports[p].role) (equip := s.ports[p].equip) still reportPort_reported
  exact ⟨n, r, d, told⟩

theorem ports_set_self (x : PortRec) : (s.ports.set p x)[p] = x := by simp

theorem ports_set_other {q : Port} (h : q ≠ p) (x : PortRec) : (s.ports.set p x)[q] = s.ports[q] := modPort_other s h fun _ => x

theorem slots_set_self (x : Slot) : (s.slots.set p x)[p] = x := by simp

theorem slots_set_other {q : Port} (h : q ≠ p) (x : Slot) : (s.slots.set p x)[q] = s.slots[q] := modSlot_other s h fun _ => x

end
end Sys2Proof.Machine

section
open Sys2Proof Sys2Proof.Machine

/-- Settles O26, by what a departure leaves of the state. -/
theorem presenceChanges : Obligations.PresenceChanges := by
  intro p s r
  refine ⟨fun h => ?_, fun h unlocked => ?_, fun h => ?_, fun h apart => ?_⟩
  · show execPresenceRise p s = _
    unfold execPresenceRise presenceRose
    rw [if_neg h, settle_nil]
  · show execPresenceRise p s = _
    unfold execPresenceRise presenceRose
    rw [if_pos h, settle_nil, enterTraining_stays]
    · unfold reportPort reportPortAs portReport
      rw [modPort_self]
      rfl
    · rw [modPort_self]
      exact unlocked
  · show execPresenceFall p s = _
    unfold execPresenceFall presenceFell
    rw [if_pos h]
    exact settle_nil _
  · obtain ⟨n, rs, d, fell⟩ := presenceFell_outside (s := { s with pins := s.pins.setPresence p false }) h apart
    have ran : exec (.presenceFall p) s = settle (presenceFell p { s with pins := s.pins.setPresence p false }).2
      (presenceFell p { s with pins := s.pins.setPresence p false }).1 := rfl
    have last : (s.ports.set p (r.fallen (abandonedCheck s p)))[p] = r.fallen (abandonedCheck s p) := ports_set_self _
    rw [ran, fell, settle_nil]
    refine ⟨_, rfl, rfl, ?_, fun q hq => ⟨?_, ?_⟩, fun none => ?_, fun k some => ?_, fun other => ?_, fun tester => ?_, ?_⟩
    · exact last.trans (congrArg (fun x : PortRec => ({ last := x.last, badFrames := r.badFrames, ignored := r.ignored, discarded := r.discarded } : PortRec)) last.symm)
    · exact ports_set_other hq _
    · dsimp only
      split
      · exact slots_set_other hq _
      · rfl
    · refine (congrArg PortRec.last last).trans ?_
      rw [abandonedCheck_none none]
      rfl
    · obtain ⟨n, hn, free⟩ := abandonedCheck_some some
      refine ⟨n, (congrArg PortRec.last last).trans ?_, free⟩
      rw [hn]
      rfl
    · exact congrArg (·[p]) (if_neg other)
    · exact (congrArg (·[p]) (if_pos tester)).trans (slots_set_self _)
    · rfl

end
end

