-- ==== Sys2Proof/Proofs/PortFaults.lean ====
section
-- In order: the check's memory bound leaves no room for a thread per proof.
set_option Elab.async false
/-! ## Ports that come to FAULTED (R23, R29) -/

namespace Sys2Proof.Machine

section
variable {s : State} {p : Port} {role : Option Role} {equip : Option Nat}

/-- A departure at a port of no cell with nothing in flight, and one of a port without a role. -/
theorem departed_settled (h : role.isSome → s.outside p ∧ s.slots[p].inFlight = false) :
    departed p role equip s = (s.parted p role equip, []) := by
  rcases hr : role with _ | x
  · rfl
  · obtain ⟨apart, idle⟩ := h (by rw [hr]; rfl)
    exact Prod.ext (departed_idle idle) (departed_outside apart)

/-- R23, R32: what the entry to FAULTED leaves of the state. -/
def State.faulted (s : State) (p : Port) (cause : FaultCause) (ended : Option LastCheck) : State :=
  place (.portState p s.ports[p].state .faulted s.ports[p].role s.ports[p].equip (some cause) s.ports[p].checkFailed ended none)
    (({ s with ports := s.ports.set p { s.ports[p] with
          state := .faulted, fault := some cause, announceTimer := none, checkTimer := none, role := none, equip := none
          data := none } } : State).parted p s.ports[p].role s.ports[p].equip)

theorem enterFaulted_settled {cause : FaultCause} {ended : Option LastCheck}
    (h : s.ports[p].role.isSome → s.outside p ∧ s.slots[p].inFlight = false) :
    enterFaulted p cause ended s = (s.faulted p cause ended, []) := by
  have same (x : PortRec) : (s.ports.set p x)[p] = x := ports_set_self x
  unfold enterFaulted reportPortAs
  dsimp only
  rw [departed_settled, parted_place]
  · unfold State.faulted State.modPort
    dsimp only
    rw [same]
    rfl
  · rw [place_slots]
    exact fun hr => ⟨fun c k hk => (h hr).1 c k (by rw [← hk]; unfold State.cell?; rw [place_cells]; rfl), (h hr).2⟩

/-! ### Announces that are judged to fail (R29) -/

theorem announce_taken {msg : AnnounceMsg} (hl : s.ports[p].controlLock = true) (hs : s.ports[p].state = .awaitAnnounce) :
    exec (.announce p msg) s = settle (takeAnnounce p msg s).2 (takeAnnounce p msg s).1 := by
  show execAnnounce p msg s = _
  unfold execAnnounce
  rw [hs]
  exact takeMessage_taken hl

theorem takeAnnounce_unread {msg : AnnounceMsg} (h : announceData msg = none) : takeAnnounce p msg s = enterFaulted p .badAnnounce none s := by
  unfold takeAnnounce
  rw [h]

theorem takeAnnounce_foreign {msg : AnnounceMsg} {role : Role} {id : Nat} {d : AnnounceData} (h : announceData msg = some (role, id, d))
    (hr : s.ports[p].role.isSome) (hk : ¬ (s.ports[p].role = some role ∧ s.ports[p].equip = some id)) :
    takeAnnounce p msg s = enterFaulted p .badAnnounce none s := by
  have other : (s.ports[p].role == some role && s.ports[p].equip == some id) = false := by
    rw [← Bool.not_eq_true, Bool.and_eq_true, beq_iff_eq, beq_iff_eq]
    exact hk
  unfold takeAnnounce
  rw [h]
  dsimp only
  rw [hr, other]
  rfl

theorem duplicate_iff : s.duplicate p equip = true
    ↔ ∃ q : Port, q ≠ p ∧ s.ports[q].state = .inService ∧ equip.isSome ∧ s.ports[q].equip = equip := by
  unfold State.duplicate State.inService
  rw [List.any_eq_true]
  refine exists_congr fun q => ?_
  rw [Bool.and_eq_true, Bool.and_eq_true, Bool.and_eq_true, beq_iff_eq, beq_iff_eq, bne_iff_ne, and_assoc, and_assoc]
  exact and_iff_right (List.mem_finRange q)

theorem takeAnnounce_twin {msg : AnnounceMsg} {role : Role} {id : Nat} {d : AnnounceData} (h : announceData msg = some (role, id, d))
    (hk : s.ports[p].role = none ∨ (s.ports[p].role = some role ∧ s.ports[p].equip = some id)) (twin : s.duplicate p (some id) = true) :
    takeAnnounce p msg s = enterFaulted p .duplicateId none s := by
  have own : (s.ports[p].role.isSome && !(s.ports[p].role == some role && s.ports[p].equip == some id)) = false := by
    rcases hk with hr | ⟨hr, he⟩
    · rw [hr]; rfl
    · rw [hr, he]; simp
  unfold takeAnnounce
  rw [h]
  dsimp only
  rw [own, twin]
  rfl

end
end Sys2Proof.Machine

section
open Sys2Proof Sys2Proof.Machine

/-- Settles O33, by what the entry to FAULTED leaves of the state. -/
theorem announceFaults : Obligations.AnnounceFaults := by
  intro p s r faulted
  refine ⟨fun msg hl hs => ?_, fun hs free => ?_⟩
  · have elsewhere : (r.state == .awaitAnnounce) = false := beq_eq_false_iff_ne.mpr hs
    show takeMessage p (r.state == .awaitAnnounce) s _ = _
    rw [elsewhere]
    exact takeMessage_ignored hl
  · have goes {cause : FaultCause} : settle (enterFaulted p cause none s).2 (enterFaulted p cause none s).1 = faulted cause := by
      rw [enterFaulted_settled free, settle_nil]
      unfold State.faulted
      rw [hs]
      rfl
    refine ⟨fun hl => ⟨fun msg h => ?_, fun msg role id d h => ⟨fun hr foreign => ?_, fun q hk hq hi he => ?_⟩⟩, fun due => ?_⟩
    · rw [announce_taken hl hs, takeAnnounce_unread h]
      exact goes
    · rw [announce_taken hl hs, takeAnnounce_foreign h hr foreign]
      exact goes
    · rw [announce_taken hl hs, takeAnnounce_twin h hk (duplicate_iff.mpr ⟨q, hq, hi, rfl, he⟩)]
      exact goes
    · show execAnnounceTimerExpiry p s = _
      unfold execAnnounceTimerExpiry
      rw [if_pos ⟨hs, due⟩]
      exact goes

end
end

