-- ==== Sys2Proof/Proofs/CellTimers.lean ====
section
-- In order: the check's memory bound leaves no room for a thread per proof.
set_option Elab.async false
/-! ## Readings of the chamber, and the timers of a cell (R46, R49, R50) -/

namespace Sys2Proof.Machine

section
variable {s : State} {c : CellNo} {k : Cell} {p : Port}

/-! ### A cell record written twice -/

theorem modCell_twice (f g : Cell → Cell) : (s.modCell c f).modCell c g = s.modCell c fun k => g (f k) := by
  simp [State.modCell, State.modCellRec, Function.comp_def]

theorem modCell_congr {f g : Cell → Cell} (hk : s.cell? c = some k) (h : f k = g k) : s.modCell c f = s.modCell c g := by
  have formed : s.cells[c].formed = some k := hk
  unfold State.modCell State.modCellRec
  dsimp only
  rw [formed, Option.map_some, Option.map_some, h]

theorem next_congr {t : State} (h : s = t) : (.next (transmit s) : Host.Outcome State Fault Refusal) = .next (transmit t) := by rw [h]

/-! ### A cell without a current lot -/

theorem currentLot_none (h : s.queues[c].current = none) : s.currentLot? c = none := by
  unfold State.currentLot? State.current?
  rw [h]; rfl

/-- R45: without a current lot both sets are empty. -/
theorem refreshCell_empty (hk : s.cell? c = some k) (h : s.queues[c].current = none) : refreshCell c s = (writeSets c {} {} s, []) := by
  unfold refreshCell
  rw [hk, currentLot_none h]

/-- R45: a change of the record of a cell without a current lot, which is told. -/
theorem settle_refresh_empty {f : Cell → Cell} (hk : s.cell? c = some k) (h : s.queues[c].current = none) :
    settle [.refresh c] (s.modCell c f) = .next (transmit (s.modCell c fun k => { f k with causes := {}, waiting := {} })) := by
  have formed : (s.modCell c f).cell? c = some (f k) := by rw [modCell_cell, hk]; rfl
  have told : deliver (.refresh c) (s.modCell c f) = (s.modCell c fun k => { f k with causes := {}, waiting := {} }, []) :=
    (refreshCell_empty formed h).trans (congrArg (·, []) (modCell_twice ..))
  exact settle_of_run (fuel := 1) (by decide) ((run_quiet told).trans (run_nil ..))

theorem onExpiry_due {f : Told} : onExpiry true s f = settle f.2 f.1 := rfl

theorem onExpiry_not {f : Told} : onExpiry false s f = .next s := rfl

/-! ### Readings (R33, R46) -/

theorem clampTemp_inRange (t : Int) : inRange (clampTemp t) := by
  unfold inRange clampTemp
  omega

theorem clampTemp_id {t : Int} (h : inRange t) : clampTemp t = t := by
  unfold inRange at h
  unfold clampTemp
  omega

section
variable {v : Int} {now : Nat} {sp : Int} {band time : Nat}

theorem soakReading_unset (h : k.setpoint = none) : k.soakReading v now = k := by
  unfold Cell.soakReading
  rw [h]

section
variable (hs : k.setpoint = some sp) (hb : k.band = some band) (ht : k.soakTime = some time)
include hs hb ht

theorem soakReading_outside (h : band < (v - sp).natAbs) : k.soakReading v now = { k with soak := .out, soakTimer := none } := by
  unfold Cell.soakReading inBand
  rw [hs, hb, ht]
  exact if_neg (by rw [decide_eq_true_eq]; omega)

theorem soakReading_settled (h : (v - sp).natAbs ≤ band) (ho : k.soak ≠ .out) : k.soakReading v now = k := by
  unfold Cell.soakReading inBand
  rw [hs, hb, ht]
  dsimp only
  rw [if_pos (decide_eq_true h)]
  split
  next h => exact absurd h ho
  next => rfl

theorem soakReading_enters (h : (v - sp).natAbs ≤ band) (ho : k.soak = .out) : k.soakReading v now =
    if time = 0 then { k with soak := .soaked } else { k with soak := .settling, soakTimer := some { start := now, limit := time } } := by
  unfold Cell.soakReading inBand
  rw [hs, hb, ht]
  dsimp only
  rw [if_pos (decide_eq_true h), ho]

end
end

theorem forCell_formed {f : CellNo → Told} (h : s.cellOfHandler? p = some c) : forCell p s f = f c := by
  unfold forCell
  rw [h]

/-- R45, R46: a reading in a cell without a current lot. -/
theorem hTemp_empty {temp : BitVec 16} (hh : s.hears p c k) (hq : s.queues[c].current = none) :
    exec (.hTemp p temp) s = .next (transmit (s.modCell c fun _ =>
      { k.soakReading (tempOf temp) s.elapsed with
        temp := some (tempOf temp), staleTimer := some { start := s.elapsed, limit := s.params.stale }, causes := {}, waiting := {} })) := by
  obtain ⟨hserves, hlock, hcell, hk⟩ := hh
  show takeHandler p true s _ = _
  rw [takeHandler_taken hlock hserves, forCell_formed hcell]
  exact (settle_refresh_empty hk hq).trans (next_congr (modCell_congr hk rfl))

/-! ### The withdraw timer (R49, R50) -/

/-- R50: a fed PAUSED cell whose handler link is up drains for the withdrawal of its lot. -/
theorem drain_withdraws (hk : s.cell? c = some k) (hst : k.state = .paused) (hseg : k.segment.isSome) (hl : k.causes.handlerLink = false)
    (hn : k.noChanges) : deliver (.drain c .withdraw) s =
      (place (.cellState c (some .paused) (some .draining) k.handlerId k.testerId s.queues[c].current (some .withdraw) k.causes
            k.waiting none)
          (send k.handlerPort .stop (s.modCell c fun k =>
            { k with
              state := .draining, purpose := some .withdraw, withdrawTimer := none
              drainTimer := some { start := s.elapsed, limit := s.params.drain } })), []) := by
  have cell : (send k.handlerPort .stop (s.modCell c fun k =>
        { k with state := .draining, purpose := some .withdraw, withdrawTimer := none
                 drainTimer := some (s.timer s.params.drain) })).cell? c
      = some { k with
          state := .draining, purpose := some .withdraw, withdrawTimer := none
          drainTimer := some (s.timer s.params.drain) } := by
    unfold State.cell?
    rw [send_cells]
    exact (modCell_cell s c _).trans (congrArg _ hk)
  have queue : (send k.handlerPort .stop (s.modCell c fun k =>
        { k with state := .draining, purpose := some .withdraw, withdrawTimer := none
                 drainTimer := some (s.timer s.params.drain) })).current? c = s.queues[c].current := by
    unfold State.current?
    rw [send_queues]; rfl
  show drainCell c .withdraw s = _
  unfold drainCell
  rw [hk]; dsimp only
  rw [if_pos ⟨.inr hst, hseg⟩]
  unfold enterDrain
  rw [hk]; dsimp only
  rw [leaveRunning_quiet ((reportCell_cell ..).trans cell) hn, hl, hst]
  unfold reportCell
  rw [cell, queue]
  rfl

end
end Sys2Proof.Machine

section
open Sys2Proof Sys2Proof.Machine

/-- Settles O39, by what the refresh of a cell without a current lot does, and the drain of a fed one. -/
theorem chamberAndCellTimers : Obligations.ChamberAndCellTimers := by
  refine ⟨?_, fun c k s hk => ?_⟩
  · intro p c k s temp hserves hlock hcell hk hq v read becomes
    have reading {x : Cell} (h : k.soakReading v s.elapsed = x) : becomes { x with
        temp := some v, staleTimer := some { start := s.elapsed, limit := s.params.stale }, causes := {}, waiting := {} } := by
      subst h
      exact hTemp_empty ⟨hserves, hlock, hcell, hk⟩ hq
    refine ⟨⟨clampTemp_inRange _, fun h => clampTemp_id h⟩, fun unset => reading (soakReading_unset unset),
      fun sp band soak hs hb ht => ⟨fun out => reading (soakReading_outside hs hb ht out), fun within ho hz => ?_,
        fun within ho hz => ?_, fun within ho => reading (soakReading_settled hs hb ht within ho)⟩⟩
    · exact reading ((soakReading_enters hs hb ht within ho).trans (if_pos hz))
    · exact reading ((soakReading_enters hs hb ht within ho).trans (if_neg hz))
  · have due (f : Cell → Bool) : (s.cell? c).any f = f k := by rw [hk]; rfl
    refine ⟨fun hq => ⟨fun h => ?_, fun h => ?_⟩, fun h => ?_, fun h => ?_, fun h => ?_, fun h => ?_, fun hst h hseg hl hn => ?_⟩
    · show onExpiry _ s _ = _
      rw [due, h]
      exact settle_refresh_empty hk hq
    · show onExpiry _ s _ = _
      rw [due, h]
      exact settle_refresh_empty hk hq
    · show onExpiry _ s _ = _
      rw [due, h]
      rfl
    · show onExpiry _ s _ = _
      rw [due, h]
      rfl
    · have still : (k.state == .paused && expired k.withdrawTimer s.elapsed) = false := by
        rcases h with h | h
        · rw [beq_eq_false_iff_ne.mpr h, Bool.false_and]
        · rw [h, Bool.and_false]
      show onExpiry _ s _ = _
      rw [due, still]
      rfl
    · have still : (k.state == .draining && expired k.drainTimer s.elapsed) = false := by
        rcases h with h | h
        · rw [beq_eq_false_iff_ne.mpr h, Bool.false_and]
        · rw [h, Bool.and_false]
      show onExpiry _ s _ = _
      rw [due, still]
      rfl
    · show onExpiry _ s _ = _
      rw [due, hst, h]
      exact settle_of_run (fuel := 1) (by decide) ((run_quiet (drain_withdraws hk hst hseg hl hn)).trans (run_nil ..))

end
end

