-- ==== Sys2Proof/Proofs/CellRefresh.lean ====
section
-- In order: the check's memory bound leaves no room for a thread per proof.
set_option Elab.async false
/-! ## The sets of a cell derived again, by its state (R42, R45, R48, R52) -/

namespace Sys2Proof.Machine

/-- R45: what the state of a cell with a current lot makes of the sets derived again. -/
def actBy (c : CellNo) (k : Cell) (l : Lot) (s : State) : Told :=
  match k.state with
  | .starting => refreshStarting c k l s
  | .running => refreshRunning c k s
  | .paused => refreshPaused c k s
  | .draining => refreshDraining c k s
  | .manual => (writeSets c (s.deriveCauses c k) {} s, [])
  | .idle => (writeSets c (s.deriveCauses c k) {} s, [])

section
variable {s t : State} {c : CellNo} {k : Cell} {l l' : Lot} {p : Port} {x : Causes}

theorem SameInputs.deriveCauses (h : SameInputs s t) (hl : s.currentLot? c = some l) (hl' : t.currentLot? c = some l')
    (hr : sameRoute l l') (k : Cell) : t.deriveCauses c k = s.deriveCauses c k := by
  obtain ⟨-, hproduct, hstep, -⟩ := id hr
  have barred : t.slots[k.testerPort].barred = s.slots[k.testerPort].barred := (h.slot k.testerPort).2.2.1
  have passes : t.marginPasses k.testerPort = s.marginPasses k.testerPort := funext fun d => h.marginPasses k.testerPort d
  unfold State.deriveCauses
  rw [hl, hl']
  dsimp only
  rw [h.inService, h.inService, h.strict, (h.enable c).1, h.product?, h.stepDef? hr, hproduct, hstep, passes, barred]

/-! ### A cell with a current lot and a steady margin -/

section
variable (hk : s.cell? c = some k) (hl : s.currentLot? c = some l) (hm : s.marginSteady k.testerPort)

include hl in
theorem consulted_lot : ∃ l', (computeMargin p s).currentLot? c = some l' ∧ Marked l l' := currentLot_consulted hl

include hl hm in
theorem consulted_causes (k' : Cell) : (computeMargin k.testerPort s).deriveCauses c k' = s.deriveCauses c k' := by
  obtain ⟨l', hl', marked⟩ := currentLot_consulted (p := k.testerPort) hl
  exact ((SameInputs.refl s).consultMargin hm).deriveCauses hl hl' marked.route k'

include hk in
theorem consulted_cell : (computeMargin p s).cell? c = some k := by
  unfold State.cell?
  rw [computeMargin_cells]
  exact hk

include hk hl hm

theorem refreshCell_lot : refreshCell c s = actBy c k l (computeMargin k.testerPort s) := by
  unfold refreshCell
  rw [hk, hl]
  dsimp only
  rw [consultMargin_quiet hm, List.append_nil]
  rfl

theorem refreshCell_manual (h : k.state = .manual) :
    refreshCell c s = (writeSets c (s.deriveCauses c k) {} (computeMargin k.testerPort s), []) := by
  rw [refreshCell_lot hk hl hm, ← consulted_causes hl hm]
  unfold actBy
  rw [h]

theorem refreshCell_running (h : k.state = .running) : refreshCell c s = refreshRunning c k (computeMargin k.testerPort s) := by
  rw [refreshCell_lot hk hl hm]
  unfold actBy
  rw [h]

theorem refreshCell_paused (h : k.state = .paused) : refreshCell c s = refreshPaused c k (computeMargin k.testerPort s) := by
  rw [refreshCell_lot hk hl hm]
  unfold actBy
  rw [h]

theorem refreshCell_draining (h : k.state = .draining) :
    refreshCell c s = (writeSets c (s.deriveCauses c k) {} (computeMargin k.testerPort s),
      if (s.deriveCauses c k).handlerLink then [.countsLost c] else []) := by
  rw [refreshCell_lot hk hl hm, ← consulted_causes hl hm]
  unfold actBy
  rw [h]
  rfl

theorem refreshCell_starting (h : k.state = .starting) : refreshCell c s = refreshStarting c k l (computeMargin k.testerPort s) := by
  rw [refreshCell_lot hk hl hm]
  unfold actBy
  rw [h]

end

/-! ### The link of a port, told to its cell -/

theorem outOfChamber_unstarted (hk : s.cell? c = some k) (h : k.state ≠ .starting) : s.outOfChamber c = false := by
  unfold State.outOfChamber
  rw [hk, Option.any_some, beq_eq_false_iff_ne.mpr h, Bool.false_and]

/-- R42, R65: the two notices of a link, where nothing is queued and the cell does not wait for its start. -/
theorem run_links {u : State} {fuel : Nat} {ns : List Notice} (ht : refreshCell c s = (u, [])) (hq : u.queues[c].behind = [])
    (ho : u.outOfChamber c = false) : run (fuel + 2) (.refresh c :: .eligibility c :: ns) s = run fuel ns u.trigger :=
  (run_quiet (n := .refresh c) ht).trans (run_quiet (n := .eligibility c) (eligibilityChanged_quiet hq ho))

/-- R45, R65: the notices of a link to a cell that has nothing to do. -/
theorem links_idle {fuel : Nat} {ns : List Notice} (hk : s.cell? c = some k) (hi : k.state = .idle) (hc : s.queues[c].current = none) (hq : s.queues[c].behind = []) :
    run (fuel + 2) (.refresh c :: .eligibility c :: ns) s
      = run fuel ns { s.modCell c fun k => { k with causes := {}, waiting := {} } with pass := { s.pass with pending := true } } := by
  have cell : (writeSets c {} {} s).cell? c = some { k with causes := {}, waiting := {} } := by rw [writeSets_cell, hk]; rfl
  exact run_links (refreshCell_empty hk hc) hq (outOfChamber_unstarted cell (by rw [hi]; decide))

/-- R45, R65: the notices of a link to a MANUAL cell. -/
theorem links_manual (hk : s.cell? c = some k) (hl : s.currentLot? c = some l) (hm : s.marginSteady k.testerPort)
    (hi : k.state = .manual) (hq : s.queues[c].behind = []) : ∃ u,
    (∀ fuel ns, run (fuel + 2) (.refresh c :: .eligibility c :: ns) s = run fuel ns u) ∧ u.ports = s.ports ∧ u.claims = s.claims
      ∧ u.slots = (computeMargin k.testerPort s).slots
      ∧ u.cell? c = some { k with causes := s.deriveCauses c k, waiting := {} } := by
  obtain ⟨ls, ss, consulted⟩ := computeMargin_exists (p := k.testerPort) (s := s)
  have cell : (writeSets c (s.deriveCauses c k) {} (computeMargin k.testerPort s)).cell? c
      = some { k with causes := s.deriveCauses c k, waiting := {} } := by
    rw [writeSets_cell, consulted_cell hk]; rfl
  have told := refreshCell_manual hk hl hm hi
  rw [consulted] at told cell ⊢
  exact ⟨_, fun _ _ => run_links told hq (outOfChamber_unstarted cell (by rw [hi]; decide)), rfl, rfl, rfl, cell⟩

/-- R45: the link causes of a cell with a lot. -/
theorem deriveCauses_links (hl : s.currentLot? c = some l) (k : Cell) :
    (s.deriveCauses c k).handlerLink = !s.inService k.handlerPort ∧ (s.deriveCauses c k).testerLink = !s.inService k.testerPort := by
  unfold State.deriveCauses
  rw [hl]
  exact ⟨rfl, rfl⟩

end
end Sys2Proof.Machine
end

