-- ==== Sys2Proof/Proofs/PortRequests.lean ====
section
-- In order: the check's memory bound leaves no room for a thread per proof.
set_option Elab.async false
/-! ## PORT_RESET and PORT_CHECK (R23, R28) -/

namespace Sys2Proof.Machine

/-- R25: the port record of a check that starts at a time of the elapsed-seconds counter. -/
def PortRec.startCheck (now : Nat) (latched : Bool) (frames : Nat) (ret : CheckReturn) (r : PortRec) : PortRec :=
  { r with
    state := .checking, check := some { latched := latched, frames := frames, ret := ret }, announceTimer := none
    checkTimer := some { start := now, limit := 10 }, out := r.out ++ [.checkBegin frames] }

/-- R28: what is judged once the port and the latch are defined. -/
def judgePortCheck (p : Port) (latched : Bool) (n : Nat) (s : State) : Host.Outcome State Fault Refusal :=
  match checkReturn s.ports[p].state with
  | none => refuse .wrongState s
  | some ret =>
    if s.cellBusy p then refuse .wrongState s
    else if s.ports[p].role = some .tester ∧ s.slots[p].inFlight then refuse .wrongState s
    else answered (.plain .ok) (if ret = .inService then linkDown p (beginCheck p latched n ret s) else []) (beginCheck p latched n ret s)

section
variable {s t : State} {p : Port} {b : List Byte} {latched : Bool} {n : Nat} {ret : CheckReturn}

theorem portOf_val (p : Port) : portOf p.val = some p := dif_pos p.isLt

theorem portOf_none {n : Nat} (h : 32 ≤ n) : portOf n = none := dif_neg (by omega)

theorem beginCheck_eq : beginCheck p latched n ret s
    = place (portReport p s.ports[p].state .checking s.ports[p]) (s.modPort p (PortRec.startCheck s.elapsed latched n ret)) := by
  unfold beginCheck reportPort reportPortAs portReport
  rw [modPort_self]
  rfl

/-- A state reached by a change of a port's record and reports alone. -/
theorem reported_frame {f : PortRec → PortRec} (h : Reported (s.modPort p f) t) :
    t.ports = (s.modPort p f).ports ∧ t.cells = s.cells ∧ t.queues = s.queues ∧ t.lots = s.lots ∧ t.slots = s.slots
      ∧ t.floorTime = s.floorTime ∧ t.elapsed = s.elapsed ∧ t.pass = s.pass := by
  obtain ⟨r, d, rfl⟩ := h
  exact ⟨rfl, rfl, rfl, rfl, rfl, rfl, rfl, rfl⟩

theorem beginCheck_reported :
    Reported (s.modPort p (PortRec.startCheck s.elapsed latched n ret)) (beginCheck p latched n ret s) := by
  rw [beginCheck_eq]
  exact (Reported.refl _).place _

/-! ### PORT_RESET -/

theorem portReset_foreign (ha : s.asks Kind.portReset b) (hb : b.length = 1) (hp : 32 ≤ u8 b 0) :
    exec .portReset s = .next (s.replied (.plain .malformed)) := by
  have fits : bodyFits Kind.portReset b = true := by simp [bodyFits, Kind.portReset, hb]
  refine (takeRequest_fits ha (ofKind_self ..) fits).trans ?_
  rw [portOf_none hp]
  exact refuse_eq ..

theorem portReset_taken (ha : s.asks Kind.portReset b) (hb : b.length = 1) (hp : u8 b 0 = p.val) :
    exec .portReset s =
      if s.ports[p].state = .faulted then
        answered (.plain .ok) [] (enterTraining p .faulted none (s.modPort p fun r => { r with state := .training, fault := none }))
      else refuse .wrongState s := by
  have fits : bodyFits Kind.portReset b = true := by simp [bodyFits, Kind.portReset, hb]
  refine (takeRequest_fits ha (ofKind_self ..) fits).trans ?_
  rw [hp, portOf_val]

/-- R22, R23: what a PORT_RESET leaves of a port that is FAULTED. -/
def State.retrained (s : State) (p : Port) : State :=
  place (portReport p .faulted .training s.ports[p]) (s.modPort p fun r => { r with state := .training, fault := none })

theorem retrained_reported : Reported (s.modPort p fun r => { r with state := .training, fault := none }) (s.retrained p) :=
  (Reported.refl _).place _

theorem reportPort_retrained :
    reportPort p .faulted none (s.modPort p fun r => { r with state := .training, fault := none }) = s.retrained p := by
  unfold reportPort reportPortAs State.retrained portReport
  rw [modPort_self]
  rfl

theorem portReset_trains (ha : s.asks Kind.portReset b) (hb : b.length = 1) (hp : u8 b 0 = p.val) (hs : s.ports[p].state = .faulted)
    (hl : (s.ports[p].controlLock && s.ports[p].resultLock) = false) : exec .portReset s = .next ((s.retrained p).replied (.plain .ok)) := by
  rw [portReset_taken ha hb hp, if_pos hs, answered_nil, enterTraining_stays (by rw [modPort_self]; exact hl), reportPort_retrained]

theorem portReset_checks (ha : s.asks Kind.portReset b) (hb : b.length = 1) (hp : u8 b 0 = p.val) (hs : s.ports[p].state = .faulted)
    (hl : (s.ports[p].controlLock && s.ports[p].resultLock) = true) :
    exec .portReset s = .next ((place (portReport p .training .checking s.ports[p])
      ((s.retrained p).modPort p (PortRec.startCheck s.elapsed true 1024 .training))).replied (.plain .ok)) := by
  obtain ⟨ports, -, -, -, -, -, now, -⟩ := reported_frame (s := s) (p := p) retrained_reported
  have record : (s.retrained p).ports[p] = { s.ports[p] with state := .training, fault := none } := by rw [ports, modPort_self]
  rw [portReset_taken ha hb hp, if_pos hs, answered_nil, enterTraining_checks (by rw [modPort_self]) (by rw [modPort_self]; exact hl), reportPort_retrained,
    beginCheck_eq, record, now]
  rfl

/-! ### PORT_CHECK -/

section
variable (ha : s.asks Kind.portCheck b) (hb : b.length = 4) (hp : u8 b 0 = p.val)
include ha hb

theorem portCheck_foreign (hp : 32 ≤ u8 b 0) : exec .portCheck s = .next (s.replied (.plain .malformed)) := by
  have fits : bodyFits Kind.portCheck b = true := by simp [bodyFits, Kind.portCheck, hb]
  refine (takeRequest_fits ha (ofKind_self ..) fits).trans ?_
  rw [portOf_none hp]
  exact refuse_eq ..

include hp

theorem portCheck_malformed (h : u16 b 1 = 0 ∨ 1 < u8 b 3) : exec .portCheck s = .next (s.replied (.plain .malformed)) := by
  have fits : bodyFits Kind.portCheck b = true := by simp [bodyFits, Kind.portCheck, hb]
  refine (takeRequest_fits ha (ofKind_self ..) fits).trans ?_
  rw [hp, portOf_val, ← refuse_eq]
  rcases h with h | h
  · rcases flagOf (u8 b 3) with _ | latched
    · rfl
    · exact if_pos h
  · have undefined : flagOf (u8 b 3) = none := by
      unfold flagOf
      rw [if_neg (by omega), if_neg (by omega)]
    rw [undefined]

section
variable (hn : u16 b 1 ≠ 0) (hf : u8 b 3 ≤ 1)
include hn hf

theorem portCheck_judged : exec .portCheck s = judgePortCheck p (decide (u8 b 3 = 1)) (u16 b 1) s := by
  have fits : bodyFits Kind.portCheck b = true := by simp [bodyFits, Kind.portCheck, hb]
  have flag : flagOf (u8 b 3) = some (decide (u8 b 3 = 1)) := by
    unfold flagOf
    split
    next h => rw [h]; rfl
    next h => rw [if_pos (by omega)]; exact congrArg some (decide_eq_true (by omega)).symm
  refine Eq.trans (takeRequest_fits ha (ofKind_self ..) fits) ?_
  rw [hp, portOf_val, flag]
  exact if_neg hn

theorem portCheck_unfit (h : (s.ports[p].state ≠ .awaitAnnounce ∧ s.ports[p].state ≠ .inService)
      ∨ (s.ports[p].role = some .tester ∧ s.slots[p].inFlight = true) ∨ s.cellBusy p = true) :
    exec .portCheck s = .next (s.replied (.plain .wrongState)) := by
  rw [portCheck_judged ha hb hp hn hf, ← refuse_eq]
  unfold judgePortCheck
  rcases h with ⟨ha, hi⟩ | h | h
  · have unfit : checkReturn s.ports[p].state = none := by
      unfold checkReturn
      split
      next h => exact absurd h ha
      next h => exact absurd h hi
      next => rfl
    rw [unfit]
  · split
    · rfl
    · rw [if_pos h, ite_self]
  · split
    · rfl
    · exact if_pos h

theorem portCheck_starts (hr : checkReturn s.ports[p].state = some ret) (hc : s.cellBusy p = false)
    (ht : ¬ (s.ports[p].role = some .tester ∧ s.slots[p].inFlight = true)) :
    exec .portCheck s = answered (.plain .ok)
      (if ret = .inService then linkDown p (beginCheck p (decide (u8 b 3 = 1)) (u16 b 1) ret s) else [])
      (beginCheck p (decide (u8 b 3 = 1)) (u16 b 1) ret s) := by
  rw [portCheck_judged ha hb hp hn hf]
  unfold judgePortCheck
  rw [hr]
  dsimp only
  rw [if_neg (by rw [hc]; decide), if_neg ht]

end
end

/-! ### The start in a cell -/

theorem cellBusy_outside (h : s.outside p) : s.cellBusy p = false := by
  unfold State.cellBusy
  rw [outside_port h]; rfl

theorem cellBusy_idle {c : CellNo} {k : Cell} (hc : s.cellOfPort? p = some c) (hk : s.cell? c = some k)
    (h : k.state = .idle ∨ k.state = .manual) : s.cellBusy p = false := by
  unfold State.cellBusy
  rw [hc, Option.bind_some, hk, Option.any_some]
  rcases h with h | h <;> rw [h] <;> rfl

theorem linkDown_told {c : CellNo} (hc : s.cellOfPort? p = some c) (h : t.cells = s.cells) :
    linkDown p t = [.refresh c, .eligibility c] := by
  have there : t.cellOfPort? p = some c := by
    rw [← hc]
    unfold State.cellOfPort? State.cell?
    rw [h]
  unfold linkDown
  rw [there]

theorem marginSteady_congr {q : Port} (hs : t.slots = s.slots) (hf : t.floorTime = s.floorTime) (h : s.marginSteady q) :
    t.marginSteady q := by
  rw [marginSteady_iff] at h ⊢
  rw [hs, hf]
  exact h

end
end Sys2Proof.Machine

section
open Sys2Proof Sys2Proof.Machine

/-- Settles O36, by the judgement of each request and the notices that a link owes to its cell. -/
theorem portResetAndCheck : Obligations.PortResetAndCheck := by
  refine ⟨fun s b hp => ⟨fun ha hb => portReset_foreign ha hb hp, fun ha hb => portCheck_foreign ha hb hp⟩, fun p s b hp => ?_⟩
  intro r reset check
  refine ⟨fun ha hb => ⟨fun hs => ?_, portReset_trains ha hb hp, portReset_checks ha hb hp⟩, fun ha hb =>
    ⟨portCheck_malformed ha hb hp, fun hn hf => ⟨fun hs hi => portCheck_unfit ha hb hp hn hf (.inl ⟨hs, hi⟩),
      fun hr hi => portCheck_unfit ha hb hp hn hf (.inr (.inl ⟨hr, hi⟩)), fun hc => portCheck_unfit ha hb hp hn hf (.inr (.inr hc)),
      fun ret hr apart free => ?_, fun c k hr hc hk hq free => ?_⟩⟩⟩
  · rw [portReset_taken ha hb hp, if_neg hs]
    exact refuse_eq ..
  · have started : checkReturn r.state = some ret := by
      rcases hr with ⟨hs, rfl⟩ | ⟨hs, rfl⟩ <;> rw [hs] <;> rfl
    have alone : linkDown p (beginCheck p (decide (u8 b 3 = 1)) (u16 b 1) ret s) = [] := by
      obtain ⟨-, cells, -⟩ := reported_frame (beginCheck_reported (s := s) (p := p) (latched := decide (u8 b 3 = 1)) (n := u16 b 1) (ret := ret))
      unfold linkDown
      rw [outside_port fun e k hk => apart e k (by rw [← hk]; unfold State.cell?; rw [cells])]
    rw [portCheck_starts ha hb hp hn hf started (cellBusy_outside apart) free, alone, ite_self, answered_nil, beginCheck_eq]
    rfl
  · intro started
    have ret : checkReturn s.ports[p].state = some .inService := by
      rw [show s.ports[p].state = .inService from hr]; rfl
    have began : beginCheck p (decide (u8 b 3 = 1)) (u16 b 1) .inService s = started := by
      rw [beginCheck_eq, show s.ports[p].state = .inService from hr]
      rfl
    obtain ⟨ports, cells, queues, lots, slots, floor, -, pass⟩ :=
      reported_frame (s := s) (p := p) (t := started) ((Reported.refl _).place _)
    have taken (h : k.state = .idle ∨ k.state = .manual) :
        exec .portCheck s = answered (.plain .ok) [.refresh c, .eligibility c] started := by
      rw [portCheck_starts ha hb hp hn hf ret (cellBusy_idle hc hk h) free, if_pos rfl, began, linkDown_told hc cells]
    have there : started.cell? c = some k := by unfold State.cell?; rw [cells]; exact hk
    have behind : started.queues[c].behind = [] := by rw [queues]; exact hq
    refine ⟨fun hi hcur => ?_, fun l hi hl hm => ?_⟩
    · have ran := links_idle (fuel := 0) (ns := []) there hi (by rw [queues]; exact hcur) behind
      rw [taken (.inl hi), answered_of_run (by decide) (ran.trans (run_nil ..)), pass]
    · have lot : started.currentLot? c = some l := by
        unfold State.currentLot? State.current? State.lot?
        rw [queues, lots]
        exact hl
      obtain ⟨u, ran, uports, -, -, ucell⟩ := links_manual there lot (marginSteady_congr slots floor hm) hi behind
      obtain ⟨handler, tester⟩ := deriveCauses_links lot k
      have away {q : Port} (h : q = p) : started.inService q = false := by
        subst h
        unfold State.inService
        rw [ports, modPort_self]
        rfl
      refine ⟨u, _, ?_, uports, ucell, rfl, fun h => ?_, fun h => ?_⟩
      · rw [taken (.inr hi), answered_of_run (by decide) ((ran 0 []).trans (run_nil ..))]
      · rw [handler, away h]; rfl
      · rw [tester, away h]; rfl

end
end

