-- ==== Sys2Proof/Proofs/CheckEnds.lean ====
section
-- In order: the check's memory bound leaves no room for a thread per proof.
set_option Elab.async false
/-! ## The frames of a link check, and how it ends (R25 to R28) -/

namespace Sys2Proof.Machine

/-- R27: the port record of a check that has ended. -/
def PortRec.checkEnded (x : LastCheck) (failed : Bool) (r : PortRec) : PortRec :=
  { r with check := none, last := some x, checkTimer := none, checkFailed := failed, out := r.out.filter fun d => !d.ofCheck }

section
variable {s u w : State} {p : Port} {k : CheckRec} {f : UpFrame} {down : Nat} {pass : Bool} {x : LastCheck}

/-! ### The up-checker -/

theorem take_keeps (k : CheckRec) (f : UpFrame) :
    (k.take f).result = k.result ∧ (k.take f).frames = k.frames ∧ (k.take f).latched = k.latched ∧ (k.take f).ret = k.ret
      ∧ (k.take f).armed = k.armed := by
  unfold CheckRec.take
  split
  · exact ⟨rfl, rfl, rfl, rfl, rfl⟩
  · dsimp only
    split
    · exact ⟨rfl, rfl, rfl, rfl, rfl⟩
    split
    · exact ⟨rfl, rfl, rfl, rfl, rfl⟩
    · exact ⟨rfl, rfl, rfl, rfl, rfl⟩

/-- R27: a check that is not complete, or has no CHECK_RESULT, goes on. -/
theorem judgeCheck_goes (h : s.ports[p].check = some k) (hw : k.result = none ∨ k.expected < k.frames) : judgeCheck p s = (s, []) := by
  unfold judgeCheck
  rw [h]
  dsimp only
  split
  · rfl
  next r hr =>
    have incomplete : k.complete = false := by
      rcases hw with hw | hw
      · rw [hw] at hr; cases hr
      · unfold CheckRec.complete
        exact decide_eq_false (by omega)
    rw [incomplete]; rfl

theorem judgeCheck_ends (h : s.ports[p].check = some k) (hr : k.result = some down) (hc : k.frames ≤ k.expected) :
    judgeCheck p s = endCheck p k (k.upErrors == 0 && down == 0) down s := by
  unfold judgeCheck
  rw [h]
  dsimp only
  rw [hr]
  exact if_pos (decide_eq_true hc)

/-! ### Commands during a check -/

section
variable (hs : s.ports[p].state = .checking) (hk : s.ports[p].check = some k)
include hs hk

theorem checkArmed_first (hl : s.ports[p].controlLock = true) (ha : k.armed = false) :
    exec (.checkArmed p) s = .next (transmit (s.modPort p fun r =>
      { r with check := some { k with armed := true }, out := r.out ++ [.checkFrames 0 k.frames] })) := by
  show takeMessage p _ s _ = _
  rw [hs, hk, Option.any_some, ha]
  refine (takeMessage_taken hl).trans ((settle_nil _).trans ?_)
  dsimp only
  rw [modPort_congr]
  rw [hk]
  rfl

theorem checkArmed_again (hl : s.ports[p].controlLock = true) (ha : k.armed = true) :
    exec (.checkArmed p) s = .next (transmit (countIgnored p s)) := by
  show takeMessage p _ s _ = _
  rw [hs, hk, Option.any_some, ha]
  exact takeMessage_ignored hl

omit hs in
theorem checkResult_again {d : BitVec 16} (hl : s.ports[p].controlLock = true) (hr : k.result.isSome) :
    exec (.checkResult p d) s = .next (transmit (countIgnored p s)) := by
  have taken : (s.ports[p].state == .checking && k.result.isNone) = false := by
    rw [Option.isNone_eq_false_iff.mpr hr, Bool.and_false]
  show execCheckResult p d s = _
  unfold execCheckResult
  rw [hk]
  dsimp only
  rw [taken]
  exact takeMessage_ignored hl

theorem checkResult_taken {d : BitVec 16} (hl : s.ports[p].controlLock = true) (hr : k.result = none) :
    exec (.checkResult p d) s = settle (takeCheckResult p k d.toNat s).2 (takeCheckResult p k d.toNat s).1 := by
  show execCheckResult p d s = _
  unfold execCheckResult
  rw [hk]
  dsimp only
  rw [hs, hr]
  exact takeMessage_taken hl

omit hk in
theorem upFrame_taken (hl : s.ports[p].resultLock = true) :
    exec (.checkFrame p f) s = settle (upChecker p f s).2 (upChecker p f s).1 := by
  show execCheckFrame p f s = _
  unfold execCheckFrame
  refine if_neg ?_
  rw [hl, hs]
  decide

omit hk in
theorem upRecord_taken {bytes : BitVec 64} (hl : s.ports[p].resultLock = true) :
    exec (.resultRecord p bytes) s = settle (upChecker p (.record bytes) s).2 (upChecker p (.record bytes) s).1 := by
  show execResultRecord p bytes s = _
  unfold execResultRecord
  rw [if_neg (by rw [hl]; decide), if_pos hs]

omit hs in
theorem upChecker_eq : upChecker p f s = judgeCheck p (s.modPort p fun r => { r with check := some (k.take f) }) := by
  unfold upChecker
  rw [modPort_congr (g := fun r => { r with check := some (k.take f) }) (by rw [hk]; rfl)]

omit hs in
theorem upChecker_goes (hw : k.result = none ∨ (k.take f).expected < k.frames) :
    upChecker p f s = (s.modPort p fun r => { r with check := some (k.take f) }, []) := by
  obtain ⟨hr, hf, -⟩ := take_keeps k f
  rw [upChecker_eq hk, judgeCheck_goes (k := k.take f) (by rw [modPort_self]) (by rw [hr, hf]; exact hw)]

end

/-! ### The end of a check (R27) -/

/-- R27: where a check that has ended, with a last check field, leads its port. -/
def afterCheck (p : Port) (latched : Bool) (ret : CheckReturn) (pass : Bool) (x : LastCheck) (s : State) : Told :=
  if latched && !pass then enterFaulted p .checkFailed (some x) s
  else
    match ret with
    | .inService => returnToService p (some x) s
    | _ => (awaitAnnounce p (some x) s, [])

theorem endCheck_eq (k : CheckRec) (x : LastCheck) (hx : k.last (if pass then .pass else .fail) down = x) : endCheck p k pass down s =
    afterCheck p k.latched k.ret pass x (s.modPort p fun r => r.checkEnded x (if k.latched then !pass else r.checkFailed)) := by
  subst hx
  rfl

/-- R26: the record of a check in progress is written before its end. -/
theorem endCheck_written (k : CheckRec) (g : Option CheckRec) (x : LastCheck) (hx : k.last (if pass then .pass else .fail) down = x) :
    endCheck p k pass down (s.modPort p fun r => { r with check := g }) =
      afterCheck p k.latched k.ret pass x (s.modPort p fun r => r.checkEnded x (if k.latched then !pass else r.checkFailed)) := by
  rw [endCheck_eq k x hx, modPort_twice]
  rfl

/-- R25 to R27: a command that ends a check with an outcome and its two error counts. -/
def endsCheck (i : Instr) (s : State) (p : Port) (k : CheckRec) (pass : Bool) (up down : Nat) : Prop :=
  (∃ d : BitVec 16, i = .checkResult p d ∧ s.ports[p].controlLock = true ∧ k.result = none ∧ up = k.upErrors
      ∧ if k.armed then k.frames ≤ k.expected ∧ down = d.toNat ∧ pass = (up == 0 && down == 0) else down = k.frames ∧ pass = false)
    ∨ (∃ f, i = .checkFrame p f ∧ s.ports[p].resultLock = true ∧ k.result = some down ∧ k.frames ≤ (k.take f).expected
      ∧ up = (k.take f).upErrors ∧ pass = (up == 0 && down == 0))
    ∨ (i = .checkTimerExpiry p ∧ expired s.ports[p].checkTimer s.elapsed = true ∧ up = k.upErrors + (k.frames - k.expected)
      ∧ down = k.result.getD k.frames ∧ pass = false)

/-- R27: the last check field that an end leaves. -/
def CheckRec.ends (k : CheckRec) (pass : Bool) (up down : Nat) : LastCheck :=
  { outcome := if pass then .pass else .fail, latched := k.latched, frames := k.frames, upErrors := up, downErrors := down }

/-- R27: the state in which a check has ended and its port has not moved yet. -/
def State.ended (s : State) (p : Port) (k : CheckRec) (pass : Bool) (x : LastCheck) : State :=
  s.modPort p fun r => r.checkEnded x (if k.latched then !pass else r.checkFailed)

theorem check_ends {i : Instr} {up : Nat} (hs : s.ports[p].state = .checking) (hk : s.ports[p].check = some k)
    (h : endsCheck i s p k pass up down) :
    exec i s = settle (afterCheck p k.latched k.ret pass (k.ends pass up down) (s.ended p k pass (k.ends pass up down))).2
      (afterCheck p k.latched k.ret pass (k.ends pass up down) (s.ended p k pass (k.ends pass up down))).1 := by
  obtain ⟨d, rfl, hl, hr, rfl, h⟩ | ⟨f, rfl, hl, hr, hc, rfl, rfl⟩ | ⟨rfl, due, rfl, rfl, rfl⟩ := h
  · rw [checkResult_taken hs hk hl hr]
    unfold takeCheckResult
    split at h
    next armed =>
      obtain ⟨hc, rfl, rfl⟩ := h
      rw [if_pos armed, judgeCheck_ends (k := { k with result := some d.toNat }) (by rw [modPort_self]) rfl hc]
      exact congrArg (fun r : Told => settle r.2 r.1) (endCheck_written { k with result := some d.toNat } _ _ rfl)
    next unarmed =>
      obtain ⟨rfl, rfl⟩ := h
      rw [if_neg unarmed, endCheck_eq _ (k.ends false k.upErrors k.frames) rfl]
      rfl
  · obtain ⟨result, frames, latched, ret, -⟩ := take_keeps k f
    have last : (k.take f).last (if ((k.take f).upErrors == 0 && down == 0) = true then .pass else .fail) down
        = k.ends ((k.take f).upErrors == 0 && down == 0) (k.take f).upErrors down := by
      unfold CheckRec.last CheckRec.ends
      rw [frames, latched]
    rw [upFrame_taken hs hl, upChecker_eq hk, judgeCheck_ends (by rw [modPort_self]) (result.trans hr) (by rw [frames]; exact hc),
      endCheck_written _ _ _ last, latched, ret]
    rfl
  · show execCheckTimerExpiry p s = _
    unfold execCheckTimerExpiry
    rw [hk]
    dsimp only
    rw [if_pos due]
    unfold expireCheck
    rw [endCheck_eq _ (k.ends false (k.upErrors + (k.frames - k.expected)) (k.result.getD k.frames)) rfl]
    rfl

/-! ### Where an end leads -/

section
variable {latched : Bool} {ret : CheckReturn}

theorem afterCheck_fails (hl : latched = true) (hp : pass = false) :
    afterCheck p latched ret pass x s = enterFaulted p .checkFailed (some x) s := by
  subst hl hp
  rfl

theorem afterCheck_awaits (h : latched = false ∨ pass = true) (hr : ret ≠ .inService) :
    afterCheck p latched ret pass x s = (awaitAnnounce p (some x) s, []) := by
  unfold afterCheck
  rw [if_neg (by rcases h with h | h <;> simp [h])]
  split
  · exact absurd rfl hr
  · rfl

theorem afterCheck_returns (h : latched = false ∨ pass = true) (hr : ret = .inService) :
    afterCheck p latched ret pass x s = returnToService p (some x) s := by
  subst hr
  exact if_neg (by rcases h with h | h <;> simp [h])

end

section
variable {latched : Bool} {ret : CheckReturn} {cause : FaultCause} {flag : Bool}

/-- R23, R27: the state in which the end of a check has sent its port to FAULTED. -/
theorem faulted_ended : (s.modPort p fun r => r.checkEnded x flag).faulted p cause (some x) =
    place (.portState p s.ports[p].state .faulted s.ports[p].role s.ports[p].equip (some cause) flag (some x) none)
      (({ s with ports := s.ports.set p { s.ports[p].checkEnded x flag with
            state := .faulted, fault := some cause, announceTimer := none, role := none, equip := none
            data := none } } : State).parted p s.ports[p].role s.ports[p].equip) := by
  have rewritten (y : PortRec) : (s.modPort p fun r => r.checkEnded x flag).ports.set p y = s.ports.set p y := by simp [State.modPort]
  unfold State.faulted
  rw [modPort_self, rewritten]
  rfl

theorem settle_faults (hr : s.ports[p].role.isSome → s.outside p ∧ s.slots[p].inFlight = false) :
    settle (enterFaulted p cause (some x) (s.modPort p fun r => r.checkEnded x flag)).2
      (enterFaulted p cause (some x) (s.modPort p fun r => r.checkEnded x flag)).1 =
    .next (transmit (place (.portState p s.ports[p].state .faulted s.ports[p].role s.ports[p].equip (some cause) flag (some x) none)
      (({ s with ports := s.ports.set p { s.ports[p].checkEnded x flag with
            state := .faulted, fault := some cause, announceTimer := none, role := none, equip := none
            data := none } } : State).parted p s.ports[p].role s.ports[p].equip))) := by
  rw [enterFaulted_settled (by rw [modPort_self]; exact hr), settle_nil, faulted_ended]

theorem reportPort_moved (g : PortRec → PortRec) (st : PortState) (now : PortState)
    (hg : ∀ r, (g r).state = now ∧ (g r).role = r.role ∧ (g r).equip = r.equip ∧ (g r).checkFailed = r.checkFailed)
    (hn : now ≠ .faulted) :
    reportPort p st (some x) ((s.modPort p fun r => r.checkEnded x flag).modPort p g) =
      place (.portState p st now s.ports[p].role s.ports[p].equip none flag (some x) none)
        (s.modPort p fun r => g (r.checkEnded x flag)) := by
  obtain ⟨state, role, equip, failed⟩ := hg (s.ports[p].checkEnded x flag)
  unfold reportPort reportPortAs
  rw [modPort_twice, modPort_self]
  dsimp only
  rw [state, role, equip, failed, if_neg hn]
  rfl

theorem awaitAnnounce_ended : awaitAnnounce p (some x) (s.modPort p fun r => r.checkEnded x flag) =
    place (.portState p s.ports[p].state .awaitAnnounce s.ports[p].role s.ports[p].equip none flag (some x) none)
      (s.modPort p fun r => { r.checkEnded x flag with
        state := .awaitAnnounce, announceTimer := some { start := s.elapsed, limit := 10 } }) := by
  unfold awaitAnnounce
  rw [modPort_self]
  exact reportPort_moved (fun r => { r with state := .awaitAnnounce, announceTimer := some { start := s.elapsed, limit := 10 } })
    _ .awaitAnnounce (fun r => ⟨rfl, rfl, rfl, rfl⟩) (by decide)

/-- R27: the state in which the end of a check has brought its port back to IN_SERVICE. -/
def State.returned (s : State) (p : Port) (x : LastCheck) (flag : Bool) : State :=
  place (.portState p s.ports[p].state .inService s.ports[p].role s.ports[p].equip none flag (some x) none)
    (s.modPort p fun r => { r.checkEnded x flag with state := .inService })

theorem returnToService_ended (h : s.duplicate p s.ports[p].equip = false) :
    returnToService p (some x) (s.modPort p fun r => r.checkEnded x flag) = (s.returned p x flag, linkUp p (s.returned p x flag)) := by
  have alone : (s.modPort p fun r => r.checkEnded x flag).duplicate p s.ports[p].equip = false := by
    rw [← Bool.not_eq_true, duplicate_iff] at h ⊢
    rintro ⟨q, hq, hi, hr⟩
    rw [modPort_other s hq] at hi hr
    exact h ⟨q, hq, hi, hr⟩
  unfold returnToService
  rw [modPort_self]
  dsimp only
  rw [show (s.ports[p].checkEnded x flag).equip = s.ports[p].equip from rfl, alone]
  rw [if_neg (by decide), reportPort_moved (fun r => { r with state := .inService }) _ .inService (fun r => ⟨rfl, rfl, rfl, rfl⟩) (by decide)]
  rfl

/-! ### The notices of a link that is up again (R27, R39, R85) -/

theorem deliver_service_none (h : s.slots[p].request = none) : deliver (.service p) s = (s, []) := by
  have served : serve p s = s := by unfold serve; dsimp only; rw [h]
  have unasked : s.requestActive p = false := by unfold State.requestActive; dsimp only; rw [h]; rfl
  show (serve p s, _) = _
  rw [served, unasked]

theorem deliver_judgeClaim_formed (h : ∀ y ∈ s.claims, y.port = p → y.status = .formed) : deliver (.judgeClaim p) s = (s, []) := by
  show judgeClaim p s = _
  unfold judgeClaim
  split
  · rfl
  next y hy => exact if_pos (h y (List.mem_of_find?_eq_some hy) (beq_iff_eq.mp (List.find?_some hy :)))

theorem deliver_retryClaims_formed {n : Nat} (h : ∀ y ∈ s.claims, y.tester = n → y.status = .formed) :
    deliver (.retryClaims n) s = (s, []) := by
  have settled : s.claims.filter (fun y => y.tester == n && y.status != .formed) = [] := by
    rw [List.filter_eq_nil_iff]
    intro y hy
    rw [Bool.and_eq_true, beq_iff_eq, bne_iff_ne]
    exact fun ⟨named, unformed⟩ => unformed (h y hy named)
  show (s, _) = _
  rw [settled]; rfl

/-- R27, R39, R85: the notices of a port back in service, when the ones to its cell come to rest and nothing else is asked for. -/
theorem settle_linkUp (hr : s.ports[p].role.isSome) (hq : s.slots[p].request = none)
    (hf : ∀ y ∈ s.claims, y.port = p ∨ y.tester = s.ports[p].equip.getD 0 → y.status = .formed)
    (hu : ∀ {fuel ns v}, run fuel ns u = some v → run (fuel + 2) (linkDown p s ++ ns) s = some v) (hc : u.claims = s.claims) :
    settle (linkUp p s) s = .next (transmit u) := by
  unfold linkUp
  obtain ⟨role, hrole⟩ := Option.isSome_iff_exists.mp hr
  rw [hrole]
  cases role with
  | handler =>
    refine settle_of_run (fuel := 3) (by decide) (hu (fuel := 1) ((run_quiet (deliver_judgeClaim_formed fun y hy h => ?_)).trans (run_nil ..)))
    exact hf y (hc ▸ hy) (.inl h)
  | tester =>
    refine settle_of_run (fuel := 4) (by decide) ((run_quiet (deliver_service_none hq)).trans
      (hu (fuel := 1) ((run_quiet (deliver_retryClaims_formed fun y hy h => ?_)).trans (run_nil ..))))
    exact hf y (hc ▸ hy) (.inr h)

theorem linkDown_outside (h : s.outside p) : linkDown p s = [] := by
  unfold linkDown
  rw [outside_port h]

theorem returned_reported {flag : Bool} :
    Reported (s.modPort p fun r => { r.checkEnded x flag with state := .inService }) (s.returned p x flag) := (Reported.refl _).place _

theorem returned_claims {flag : Bool} : (s.returned p x flag).claims = s.claims := place_claims ..

end

end
end Sys2Proof.Machine

section
open Sys2Proof Sys2Proof.Machine

/-- Settles O29, by the end of a check and where it leads its port. -/
theorem checkFramesAndEnds : Obligations.CheckFramesAndEnds := by
  refine ⟨fun p s k hs hk => ⟨fun hl => ⟨checkArmed_first hs hk hl, checkArmed_again hs hk hl, fun d ha hr hf => ?_,
    fun d hr => checkResult_again hk hl hr⟩, fun hl => ⟨fun f hw => ?_, fun bytes hw => ?_⟩⟩, fun p s k hs hk hr hret hlatch => ?_,
    fun p s k i pass up down hs hk => ?_⟩
  · rw [checkResult_taken hs hk hl hr]
    unfold takeCheckResult
    rw [if_pos ha, judgeCheck_goes (k := { k with result := some d.toNat }) (by rw [modPort_self]) (.inr hf), settle_nil]
  · rw [upFrame_taken hs hl, upChecker_goes hk hw, settle_nil]
  · rw [upRecord_taken hs hl, upChecker_goes (f := .record bytes) hk hw, settle_nil]
  · intro r passed went failed
    have moved (pass : Bool) (up down : Nat) : s.ended p k pass (k.ends pass up down)
        = s.modPort p fun r => r.checkEnded (k.ends pass up down) (!pass) := modPort_congr (by rw [hlatch]; rfl)
    have goes {i : Instr} (h : endsCheck i s p k true 0 0) : exec i s = went := by
      have last : k.ends true 0 0 = passed := by
        unfold CheckRec.ends
        rw [hlatch]
        rfl
      rw [check_ends hs hk h, afterCheck_awaits (.inr rfl) (by rw [hret]; decide), settle_nil]
      refine next_congr ((congrArg _ (moved true 0 0)).trans (awaitAnnounce_ended.trans ?_))
      rw [hs, hr, last]
      rfl
    have fails {i : Instr} {up down : Nat} (h : endsCheck i s p k false up down) : exec i s = failed up down := by
      have last : k.ends false up down
          = { outcome := .fail, latched := true, frames := k.frames, upErrors := up, downErrors := down } := by
        unfold CheckRec.ends
        rw [hlatch]
        rfl
      rw [check_ends hs hk h, afterCheck_fails hlatch rfl, moved, settle_faults (by rw [hr]; exact fun h => Bool.noConfusion h), hs, last]
      unfold State.parted
      rw [hr]
      exact congrArg (fun role : Option Role => (.next (transmit (place
        (.portState p .checking .faulted none s.ports[p].equip (some .checkFailed) true
          (some { outcome := .fail, latched := true, frames := k.frames, upErrors := up, downErrors := down }) none)
        { s with ports := s.ports.set p { s.ports[p].checkEnded
            { outcome := .fail, latched := true, frames := k.frames, upErrors := up, downErrors := down } true with
              state := .faulted, fault := some .checkFailed, announceTimer := none, role := role, equip := none, data := none } })) :
        Host.Outcome State Fault Refusal)) hr.symm
    have passes {up down : Nat} (h : up = 0) (h' : down = 0) : (up == 0 && down == 0) = true := by rw [h, h']; rfl
    have errs {up down : Nat} (h : up ≠ 0 ∨ down ≠ 0) : (up == 0 && down == 0) = false := by
      rw [Bool.and_eq_false_iff, beq_eq_false_iff_ne, beq_eq_false_iff_ne]
      exact h
    refine ⟨fun d hl hn => ⟨fun ha hf hu hd => goes (.inl ⟨d, rfl, hl, hn, hu.symm, ?_⟩), fun ha hf he => fails (.inl ⟨d, rfl, hl, hn, rfl, ?_⟩),
        fun ha => fails (.inl ⟨d, rfl, hl, hn, rfl, ?_⟩)⟩,
      fun f d hl hd hf => ⟨fun hu h0 => goes (.inr (.inl ⟨f, rfl, hl, h0 ▸ hd, hf, hu.symm, rfl⟩)),
        fun he => fails (.inr (.inl ⟨f, rfl, hl, hd, hf, rfl, (errs he).symm⟩))⟩,
      fun due => fails (.inr (.inr ⟨rfl, due, rfl, rfl, rfl⟩)), fun early => ?_⟩
    · rw [if_pos ha, hd]
      exact ⟨hf, rfl, rfl⟩
    · have down : d.toNat = 0 → d = 0 := fun h => BitVec.eq_of_toNat_eq h
      rw [if_pos ha]
      exact ⟨hf, rfl, (errs (he.imp_right (mt down))).symm⟩
    · rw [if_neg (by rw [ha]; decide)]
      exact ⟨rfl, rfl⟩
    · show execCheckTimerExpiry p s = _
      unfold execCheckTimerExpiry
      rw [hk]
      exact if_neg (by rw [early]; decide)
  · intro r ends x flag report ended back twin faulted
    have gone := check_ends hs hk ends
    have moved : s.ended p k pass x = s.modPort p fun r => r.checkEnded x flag := modPort_congr rfl
    have checking {cause : FaultCause} (free : r.role.isSome → s.outside p ∧ s.slots[p].inFlight = false) :
        settle (enterFaulted p cause (some x) (s.ended p k pass x)).2 (enterFaulted p cause (some x) (s.ended p k pass x)).1
          = faulted cause := by
      rw [moved, settle_faults free, hs]
      rfl
    refine ⟨fun hlatch hpass apart idle => ?_, fun clean => ⟨fun hret => ?_, fun hret same apart idle => ?_, fun hret alone hr hq hf => ?_⟩⟩
    · rw [gone, afterCheck_fails hlatch hpass]
      exact checking fun _ => ⟨apart, idle⟩
    · rw [gone, afterCheck_awaits clean hret, settle_nil]
      exact next_congr ((congrArg _ moved).trans (awaitAnnounce_ended.trans (by rw [hs]; rfl)))
    · have dup : (s.modPort p fun r => r.checkEnded x flag).duplicate p r.equip = true := by
        rw [duplicate_iff]
        obtain ⟨q, hq, hi, he, hr⟩ := same
        exact ⟨q, hq, by rw [modPort_other s hq]; exact hi, he, by rw [modPort_other s hq]; exact hr⟩
      have led : returnToService p (some x) (s.ended p k pass x) = enterFaulted p .duplicateId (some x) (s.ended p k pass x) := by
        unfold returnToService
        rw [moved, modPort_self]
        exact if_pos dup
      rw [gone, afterCheck_returns clean hret]
      exact (congrArg (fun r : Told => settle r.2 r.1) led).trans (checking fun _ => ⟨apart, idle⟩)
    · have single : s.duplicate p s.ports[p].equip = false := by
        rw [← Bool.not_eq_true, duplicate_iff]
        exact alone
      have returned : s.returned p x flag = back := by
        unfold State.returned
        rw [hs]
        rfl
      have taken : exec i s = settle (linkUp p back) back := by
        rw [gone, afterCheck_returns clean hret]
        refine (congrArg (fun u => settle (returnToService p (some x) u).2 (returnToService p (some x) u).1) moved).trans ?_
        rw [returnToService_ended single, returned]
      obtain ⟨ports, cells, queues, lots, slots, floor, -, pass⟩ := reported_frame (returned ▸ returned_reported : Reported _ back)
      have claims : back.claims = s.claims := returned ▸ returned_claims
      have record : back.ports[p] = { s.ports[p].checkEnded x flag with state := .inService } := by rw [ports, modPort_self]
      have served {u : State} (hu : ∀ {fuel ns v}, run fuel ns u = some v → run (fuel + 2) (linkDown p back ++ ns) back = some v)
          (hc : u.claims = s.claims) : exec i s = .next (transmit u) := by
        rw [taken]
        refine settle_linkUp (by rw [record]; exact hr) (by rw [slots]; exact hq) (fun y hy h => ?_) hu (hc.trans claims.symm)
        rw [record] at h
        exact hf y (claims ▸ hy) h
      refine ⟨fun apart => served (fun h => ?_) claims, fun c m hc hm hb => ?_⟩
      · have still : back.outside p := fun e k hk => apart e k (by rw [← hk]; unfold State.cell?; rw [cells])
        rw [linkDown_outside still]
        exact run_more h 2
      · have there : back.cell? c = some m := by unfold State.cell?; rw [cells]; exact hm
        have behind : back.queues[c].behind = [] := by rw [queues]; exact hb
        have down := linkDown_told hc cells
        refine ⟨fun hi hcur => served (fun h => ?_) ?_, fun l hi hl hsteady => ?_⟩
        · have ran {fuel ns} := links_idle (fuel := fuel) (ns := ns) there hi (by rw [queues]; exact hcur) behind
          rw [pass] at ran
          rw [down]
          exact ran.trans h
        · exact claims
        · have lot : back.currentLot? c = some l := by
            unfold State.currentLot? State.current? State.lot?
            rw [queues, lots]
            exact hl
          obtain ⟨u, ran, uports, uclaims, -, ucell⟩ := links_manual there lot (marginSteady_congr slots floor hsteady) hi behind
          obtain ⟨handler, tester⟩ := deriveCauses_links lot m
          have here {q : Port} (h : q = p) : back.inService q = true := by
            subst h
            unfold State.inService
            rw [record]
            rfl
          refine ⟨u, _, served (fun h => ?_) (uclaims.trans claims), uports, ucell, rfl, fun h => ?_, fun h => ?_⟩
          · rw [down]
            exact (ran _ _).trans h
          · rw [handler, here h]; rfl
          · rw [tester, here h]; rfl

end
end

