-- ==== Sys2Proof/Proofs/CellPauses.lean ====
section
-- In order: the check's memory bound leaves no room for a thread per proof.
set_option Elab.async false
/-! ## A RUNNING cell whose sets are derived again (R45, R48) -/

namespace Sys2Proof.Machine

/-- R48: the record of a cell that has paused for a cause set, with its withdraw timer. -/
def Cell.pausedAt (x : Causes) (t : Timer) (k : Cell) : Cell :=
  { k with state := .paused, causes := x, waiting := {}, withdrawTimer := some t }

/-- R48: the state in which a RUNNING cell has paused for a cause set. -/
def pausedFor (c : CellNo) (k : Cell) (x : Causes) (s : State) : State :=
  let w := s.modCell c (Cell.pausedAt x (s.timer s.params.withdraw))
  reportCell c (some .running) (if x.handlerLink then w else send k.handlerPort .halt w)

section
variable {s : State} {c : CellNo} {k : Cell} {l : Lot} {p : Port} {x : Causes}

theorem pausedFor_frame : (pausedFor c k x s).lots = s.lots ∧ (pausedFor c k x s).queues = s.queues
    ∧ (pausedFor c k x s).slots = s.slots ∧ (pausedFor c k x s).pass = s.pass ∧ (pausedFor c k x s).claims = s.claims := by
  unfold pausedFor
  dsimp only
  generalize hw : s.modCell c (Cell.pausedAt x (s.timer s.params.withdraw)) = w
  obtain ⟨r, n, reported⟩ := reportCell_exists c (some .running) (if x.handlerLink then w else send k.handlerPort .halt w)
  rw [reported]
  split
  · subst hw
    exact ⟨rfl, rfl, rfl, rfl, rfl⟩
  · dsimp only
    rw [send_lots, send_queues, send_slots, send_pass, send_claims, ← hw]
    exact ⟨rfl, rfl, rfl, rfl, rfl⟩

theorem pausedFor_cell (hk : s.cell? c = some k) :
    (pausedFor c k x s).cell? c = some (k.pausedAt x (s.timer s.params.withdraw)) := by
  have written := (modCell_cell s c (Cell.pausedAt x (s.timer s.params.withdraw))).trans (congrArg _ hk)
  unfold pausedFor
  rw [reportCell_cell]
  split
  · exact written
  · unfold State.cell?
    rw [send_cells]
    exact written

theorem pausedFor_halts (hx : x.handlerLink = false) (hp : s.inService k.handlerPort = true) :
    .halt ∈ (pausedFor c k x s).ports[k.handlerPort].out := by
  unfold pausedFor
  rw [reportCell_ports, hx]
  exact mem_send hp

theorem send_other {m : Down} {q : Port} (h : p ≠ q) : (send q m s).ports[p] = s.ports[p] := by
  unfold send
  split
  · exact modPort_other s h _
  · rfl

/-- R34: a message for a port that is not in service is not kept. -/
theorem send_unserved {m : Down} {q : Port} (h : s.inService q = false) : send q m s = s := by
  unfold send
  rw [h]; rfl

theorem pausedFor_port (h : p ≠ k.handlerPort ∨ s.inService p = false) : (pausedFor c k x s).ports[p] = s.ports[p] := by
  unfold pausedFor
  rw [reportCell_ports]
  split
  · rfl
  · rcases h with h | h
    · exact (send_other h).trans rfl
    · by_cases hp : p = k.handlerPort
      · subst hp
        exact (congrArg (fun u : State => u.ports[k.handlerPort]) (send_unserved (s := s.modCell c _) h)).trans rfl
      · exact (send_other hp).trans rfl

/-! ### The refresh -/

theorem enterPaused_written (hk : s.cell? c = some k) (hr : k.state = .running) (hn : k.noChanges) :
    enterPaused c (writeSets c x {} s) = (pausedFor c k x s, []) := by
  have written : (writeSets c x {} s).cell? c = some { k with causes := x, waiting := {} } := by rw [writeSets_cell, hk]; rfl
  have paused := modCell_twice (s := s) (c := c) (fun k => { k with causes := x, waiting := {} }) (fun k =>
    { k with state := .paused, withdrawTimer := some ((writeSets c x {} s).timer (writeSets c x {} s).params.withdraw) })
  have whole : reportCell c (some k.state) (if x.handlerLink then s.modCell c (Cell.pausedAt x (s.timer s.params.withdraw))
      else send k.handlerPort .halt (s.modCell c (Cell.pausedAt x (s.timer s.params.withdraw)))) = pausedFor c k x s := by
    rw [hr]
    rfl
  unfold enterPaused
  rw [written]
  dsimp only
  refine Eq.trans ?_ ((congrArg (leaveRunning c) whole).trans (leaveRunning_quiet (pausedFor_cell hk) hn))
  exact congrArg (fun w => leaveRunning c (reportCell c (some k.state) (if x.handlerLink then w else send k.handlerPort .halt w))) paused

section
variable (hk : s.cell? c = some k) (hl : s.currentLot? c = some l) (hm : s.marginSteady k.testerPort) (hr : k.state = .running)
include hk hl hm hr

theorem refreshCell_stays (hx : (s.deriveCauses c k).isEmpty = true) :
    refreshCell c s = (writeSets c (s.deriveCauses c k) {} (computeMargin k.testerPort s), []) := by
  rw [refreshCell_running hk hl hm hr]
  unfold refreshRunning
  rw [consulted_causes hl hm]
  exact if_pos hx

theorem refreshCell_pauses (hn : k.noChanges) (hx : (s.deriveCauses c k).isEmpty = false) :
    refreshCell c s = (pausedFor c k (s.deriveCauses c k) (computeMargin k.testerPort s), []) := by
  rw [refreshCell_running hk hl hm hr]
  unfold refreshRunning
  rw [consulted_causes hl hm]
  exact (if_neg (by rw [hx]; decide)).trans (enterPaused_written (consulted_cell hk) hr hn)

end

/-- R48, R65: the notices of a cell that pauses with nothing queued. -/
theorem links_paused {w : State} (ht : refreshCell c s = (pausedFor c k x w, [])) (hk : w.cell? c = some k) (hq : w.queues[c].behind = []) :
    ∃ u, (∀ fuel ns, run (fuel + 2) (.refresh c :: .eligibility c :: ns) s = run fuel ns u) ∧ u.lots = w.lots ∧ u.slots = w.slots
      ∧ u.ports = (pausedFor c k x w).ports ∧ u.pass.pending = true
      ∧ u.cell? c = some (k.pausedAt x (w.timer w.params.withdraw)) := by
  obtain ⟨lots, queues, slots, -, -⟩ := pausedFor_frame (c := c) (k := k) (x := x) (s := w)
  have cell := pausedFor_cell (x := x) hk
  generalize pausedFor c k x w = v at ht lots queues slots cell ⊢
  exact ⟨v.trigger, fun _ _ => run_links ht (by rw [queues]; exact hq) (outOfChamber_unstarted cell fun h => CellState.noConfusion h),
    lots, slots, rfl, rfl, cell⟩

end
end Sys2Proof.Machine
end

