-- ==== Sys2Proof/Proofs/Calibration.lean ====
section
-- In order: the check's memory bound leaves no room for a thread per proof.
set_option Elab.async false
/-! ## The calibration record of a tester, and its bar (R88, R92 to R96) -/

namespace Sys2Proof.Machine

/-- R96: a lot record whose step at an index is EXTENDED when a margin passes by extension alone, and else as it was. -/
def Lot.extendedAt (l : Lot) (i : Nat) (byExtension : Bool) (l' : Lot) : Prop :=
  l' = { l with steps := l'.steps } ∧ (∀ j, j ≠ i → l'.stepRec j = l.stepRec j)
    ∧ l'.stepRec i = { l.stepRec i with margin := if byExtension = true then .extended else (l.stepRec i).margin }

section
variable {s t : State} {c : CellNo} {k : Cell} {l l' l'' : Lot} {p : Port} {d : StepDef} {g : Segment} {b : Bool} {y : Calibration}

/-! ### The cell of a port -/

theorem cellOfTester_port (hc : s.cellOfTester? p = some c) (hk : s.cell? c = some k) : k.testerPort = p := by
  have found := List.find?_some hc
  rw [hk] at found
  exact beq_iff_eq.mp found

theorem cellOfHandler_port (hc : s.cellOfHandler? p = some c) (hk : s.cell? c = some k) : k.handlerPort = p := by
  have found := List.find?_some hc
  rw [hk] at found
  exact beq_iff_eq.mp found

theorem cellOfTester_congr (h : t.cells = s.cells) : t.cellOfTester? p = s.cellOfTester? p := by
  unfold State.cellOfTester? State.cell?
  rw [h]

/-! ### The mark EXTENDED (R96) -/

theorem extendedAt_none (l : Lot) (i : Nat) : l.extendedAt i false l := ⟨rfl, fun _ _ => rfl, rfl⟩

theorem extendedAt_marked (l : Lot) {i : Nat} (hi : i < 6) : l.extendedAt i true (l.withStep i fun r => { r with margin := .extended }) := by
  refine ⟨withStep_same .., fun j hj => ?_, ?_⟩
  · rw [withStep_stepRec, if_neg fun h => hj h.1]
  · rw [withStep_stepRec, if_pos ⟨rfl, hi⟩]
    rfl

theorem Lot.extendedAt.trans {i : Nat} (h : l.extendedAt i b l') (h' : l'.extendedAt i b l'') : l.extendedAt i b l'' := by
  obtain ⟨same, others, own⟩ := h
  obtain ⟨same', others', own'⟩ := h'
  refine ⟨by rw [same', same], fun j hj => (others' j hj).trans (others j hj), ?_⟩
  rw [own', own]
  cases b <;> rfl

/-- R94, R96: what the computation of the margin of a cell's tester makes of the lot of its open segment. -/
theorem computeMargin_extends (hc : s.cellOfTester? p = some c) (hk : s.cell? c = some k)
    (hseg : k.segment.map (fun g => (g.lot, g.step)) = some (l.id, l.step)) (hl : s.lot? l.id = some l)
    (hd : s.stepDef? l l.step = some d) (hi : l.step < 6) (hu : s.slots[p].use = .inUse) (hy : s.slots[p].cal = some y) :
    ∃ l', (computeMargin p s).lot? l.id = some l' ∧ l.extendedAt l.step (s.marginByExtension p d) l' := by
  obtain ⟨g, hg, hgl⟩ := Option.map_eq_some_iff.mp hseg
  obtain ⟨hlot, hstep⟩ := (Prod.mk.injEq .. ▸ hgl : g.lot = l.id ∧ g.step = l.step)
  have extension : (s.modSlot p fun t => { t with margin := some (y.margin s.floorTime) }).marginByExtension p d
      = s.marginByExtension p d := by
    unfold State.marginByExtension
    rw [modSlot_self]
    rfl
  unfold computeMargin markExtended
  rw [hu, hy]
  dsimp only
  rw [show (s.modSlot p fun t => { t with margin := some (y.margin s.floorTime) }).cellOfTester? p = some c from hc,
    Option.bind_some, show (s.modSlot p fun t => { t with margin := some (y.margin s.floorTime) }).cell? c = some k from hk]
  dsimp only
  rw [hg]
  dsimp only
  rw [hlot, hstep, show (s.modSlot p fun t => { t with margin := some (y.margin s.floorTime) }).lot? l.id = some l from hl,
    Option.bind_some, show (s.modSlot p fun t => { t with margin := some (y.margin s.floorTime) }).stepDef? l l.step = some d from hd]
  dsimp only
  rw [extension]
  cases s.marginByExtension p d with
  | true =>
    refine ⟨l.withStep l.step fun r => { r with margin := .extended }, ?_, extendedAt_marked l hi⟩
    rw [if_pos rfl, modStep_lot, show (s.modSlot p fun t => { t with margin := some (y.margin s.floorTime) }).lot? l.id = some l from hl]
    exact congrArg some (if_pos rfl)
  | false => exact ⟨l, hl, extendedAt_none l l.step⟩

theorem computeMargin_own (hu : s.slots[p].use = .inUse) (hy : s.slots[p].cal = some y) :
    (computeMargin p s).slots[p] = { s.slots[p] with margin := some (y.margin s.floorTime) } := by
  unfold computeMargin
  rw [hu, hy]
  dsimp only
  rw [markExtended_slots, modSlot_self]

theorem computeMargin_outside (h : s.cellOfTester? p = none) (hu : s.slots[p].use = .inUse) (hy : s.slots[p].cal = some y) :
    computeMargin p s = s.modSlot p fun t => { t with margin := some (y.margin s.floorTime) } := by
  unfold computeMargin markExtended
  rw [hu, hy]
  dsimp only
  rw [show (s.modSlot p fun t => { t with margin := some (y.margin s.floorTime) }).cellOfTester? p = none from h]
  rfl

/-- R45: a cell with nothing but its margin to stop it. -/
theorem deriveCauses_inOrder {pr : Product} (hl : s.currentLot? c = some l) (h : s.inOrder k l pr d) (hs : k.soak = .soaked) :
    s.deriveCauses c k = { cal := !s.marginPasses k.testerPort d } := by
  obtain ⟨handler, tester, mode, product, step, kit, barred, on⟩ := h
  unfold State.deriveCauses
  rw [hl]
  dsimp only
  rw [handler, tester, mode, product, step, Option.any_some, Option.any_some, barred, on, hs, kit]
  simp

/-! ### T_HEADTEMP and T_CAL (R93) -/

theorem modSlot_congr {f g : Slot → Slot} (h : f s.slots[p] = g s.slots[p]) : s.modSlot p f = s.modSlot p g := by
  unfold State.modSlot
  rw [h]

theorem modSlot_twice (f g : Slot → Slot) : (s.modSlot p f).modSlot p g = s.modSlot p fun t => g (f t) := by
  simp [State.modSlot]

/-- The state in which the calibration record of a tester has been written. -/
abbrev State.calibrated (s : State) (p : Port) (y : Calibration) : State := s.modSlot p fun t => { t with cal := some y }

theorem recalibrate_eq {f : Calibration → Calibration} {x : Calibration} (hx : s.slots[p].cal = some x) (hy : f x = y) :
    recalibrate p f s = (computeMargin p (s.calibrated p y),
      if (s.calibrated p y).marginSteady p then [] else [.testerTold p]) := by
  have written : (s.modSlot p fun t => { t with cal := t.cal.map f }) = s.calibrated p y :=
    modSlot_congr (by rw [hx, Option.map_some, hy])
  have margin : (s.calibrated p y).slots[p].margin = s.slots[p].margin := by rw [modSlot_self]
  unfold recalibrate
  dsimp only
  rw [written]
  refine Prod.ext rfl ?_
  unfold State.marginSteady marginDiffers
  rw [margin]
  cases h : (s.slots[p].margin.map fun m => (m.delta, m.age, m.used))
    != ((computeMargin p (s.calibrated p y)).slots[p].margin.map fun m => (m.delta, m.age, m.used)) <;> rfl

theorem deliver_testerTold_outside (h : s.cellOfTester? p = none) : deliver (.testerTold p) s = (s, []) := by
  show (s, _) = _
  rw [h]

theorem deliver_testerTold (h : s.cellOfTester? p = some c) : deliver (.testerTold p) s = (s, [.refresh c, .eligibility c]) := by
  show (s, _) = _
  rw [h]

/-- R93, R94: a new calibration of a tester in no cell. -/
theorem recalibrate_outside {f : Calibration → Calibration} {x : Calibration} (apart : s.outside p) (hu : s.slots[p].use = .inUse)
    (hx : s.slots[p].cal = some x) (hy : f x = y) : settle (recalibrate p f s).2 (recalibrate p f s).1 =
      .next (transmit (s.modSlot p fun t => { t with cal := some y, margin := some (y.margin s.floorTime) })) := by
  have computed : computeMargin p (s.calibrated p y) = s.modSlot p fun t => { t with cal := some y, margin := some (y.margin s.floorTime) } :=
    (computeMargin_outside (s := s.calibrated p y) (outside_tester apart) (by rw [modSlot_self]; exact hu) (by rw [modSlot_self])).trans
      (modSlot_twice ..)
  rw [recalibrate_eq hx hy]
  dsimp only
  split
  · rw [computed]
    exact settle_nil _
  · rw [computed]
    exact settle_of_run (fuel := 1) (by decide) ((run_quiet (deliver_testerTold_outside (s := s.modSlot p _) (outside_tester apart))).trans (run_nil ..))

/-! ### The margin of a RUNNING cell (R45, R48, R95, R96) -/

theorem cell_unset (hc : k.causes = {}) (hw : k.waiting = {}) : { k with causes := {}, waiting := {} } = k := by
  cases k
  cases hc
  cases hw
  rfl

section
variable {pr : Product} (hr : s.runsOn p c k l pr d) (hy : s.slots[p].cal = some y)
include hr hy

/-- R94, R96: what a RUNNING cell and its lot look like when the margin of its tester has been computed. -/
theorem runsOn_computed : ∃ l', (computeMargin p s).runsOn p c k l' pr d ∧ l.extendedAt l.step (s.marginByExtension p d) l'
    ∧ (computeMargin p s).slots[p].cal = some y ∧ (computeMargin p s).marginPasses p d = s.marginPasses p d
    ∧ (computeMargin p s).marginByExtension p d = s.marginByExtension p d ∧ (computeMargin p s).lot? l.id = some l' := by
  obtain ⟨hc, hk, hst, hl, horder, hsoak, hcauses, hwaiting, hn, hi, hq, hseg, hu⟩ := hr
  obtain ⟨handler, tester, mode, product, step, kit, barred, on⟩ := horder
  obtain ⟨hcur, hlot⟩ := currentLot_id hl
  obtain ⟨l', hl', extended⟩ := computeMargin_extends hc hk hseg hlot step hi hu hy
  have own := computeMargin_own hu hy
  have port := cellOfTester_port hc hk
  obtain ⟨ls, ss, computed⟩ := computeMargin_exists (p := p) (s := s)
  have same : l' = { l with steps := l'.steps } := extended.1
  have floor : (computeMargin p s).floorTime = s.floorTime := by rw [computed]
  have cal : (computeMargin p s).slots[p].cal = s.slots[p].cal := by rw [own]
  have products : (computeMargin p s).products = s.products := by rw [computed]
  refine ⟨l', ⟨(cellOfTester_congr computeMargin_cells).trans hc, consulted_cell hk, hst, currentLot_of ?_ hl',
    ⟨?_, ?_, mode, ?_, ?_, kit, ?_, on⟩, hsoak, hcauses, hwaiting, hn, ?_, ?_, ?_, ?_⟩, extended, cal.trans hy, ?_, ?_, hl'⟩
  · rw [computed]; exact hcur
  · rw [computed]; exact handler
  · rw [computed]; exact tester
  · rw [same]
    unfold State.product?
    rw [products]
    exact product
  · rw [same]
    unfold State.stepDef? State.product?
    rw [products]
    exact step
  · obtain ⟨m, hm⟩ := computeMargin_slot (p := p) (s := s) k.testerPort
    exact (congrArg Slot.barred hm).trans barred
  · rw [same]; exact hi
  · rw [computed]; exact hq
  · rw [same]; exact hseg
  · rw [own]; exact hu
  · unfold State.marginPasses
    rw [cal, floor]
  · unfold State.marginByExtension
    rw [cal, floor]

/-- R45, R48: a RUNNING cell whose margin has been told and passes runs on. -/
theorem runsOn_passes (hm : s.marginSteady p) (hp : s.marginPasses p d = true) : ∃ u, run 3 [.testerTold p] s = some u
    ∧ u.slots[p] = { s.slots[p] with margin := some (y.margin s.floorTime) }
    ∧ u.cell? c = some k ∧ u.lots = (computeMargin p s).lots := by
  obtain ⟨hc, hk, hst, hl, horder, hsoak, hcauses, hwaiting, hn, hi, hq, hseg, hu⟩ := hr
  have port := cellOfTester_port hc hk
  have behind : (computeMargin p s).queues[c].behind = [] := by
    obtain ⟨ls, ss, computed⟩ := computeMargin_exists (p := p) (s := s)
    rw [computed]
    exact hq
  have causes : s.deriveCauses c k = {} := by
    rw [deriveCauses_inOrder hl horder hsoak, port, hp]
    rfl
  have told := refreshCell_stays hk hl (port ▸ hm) hst (by rw [causes]; rfl)
  rw [port, causes] at told
  have cell : (writeSets c {} {} (computeMargin p s)).cell? c = some k := by
    rw [writeSets_cell, consulted_cell hk, Option.map_some, cell_unset hcauses hwaiting]
  have ran := run_links (fuel := 0) (ns := []) told behind (outOfChamber_unstarted cell (by rw [hst]; decide))
  refine ⟨(writeSets c {} {} (computeMargin p s)).trigger, ?_, computeMargin_own hu hy, cell, rfl⟩
  rw [run, deliver_testerTold hc]
  exact ran.trans (run_nil ..)

/-- R45, R48: a RUNNING cell whose margin has been told and fails pauses. -/
theorem runsOn_fails (hm : s.marginSteady p) (hp : s.marginPasses p d = false) : ∃ u, run 3 [.testerTold p] s = some u
    ∧ u.slots[p] = { s.slots[p] with margin := some (y.margin s.floorTime) }
    ∧ u.cell? c = some (k.pausedAt { cal := true } (s.timer s.params.withdraw))
    ∧ .halt ∈ u.ports[k.handlerPort].out ∧ u.lots = (computeMargin p s).lots := by
  obtain ⟨hc, hk, hst, hl, horder, hsoak, hcauses, hwaiting, hn, hi, hq, hseg, hu⟩ := hr
  have port := cellOfTester_port hc hk
  have causes : s.deriveCauses c k = { cal := true } := by
    rw [deriveCauses_inOrder hl horder hsoak, port, hp]
    rfl
  have told := refreshCell_pauses hk hl (port ▸ hm) hst hn (by rw [causes]; rfl)
  rw [port, causes] at told
  have behind : (computeMargin p s).queues[c].behind = [] := by
    obtain ⟨ls, ss, computed⟩ := computeMargin_exists (p := p) (s := s)
    rw [computed]
    exact hq
  have served : (computeMargin p s).inService k.handlerPort = true := by
    obtain ⟨ls, ss, computed⟩ := computeMargin_exists (p := p) (s := s)
    rw [computed]
    exact horder.1
  have clock : (computeMargin p s).timer (computeMargin p s).params.withdraw = s.timer s.params.withdraw := by
    obtain ⟨ls, ss, computed⟩ := computeMargin_exists (p := p) (s := s)
    rw [computed]
    rfl
  obtain ⟨u, ran, lots, slots, ports, -, cell⟩ := links_paused told (consulted_cell hk) behind
  rw [clock] at cell
  refine ⟨u, ?_, (congrArg (·[p]) slots).trans (computeMargin_own hu hy), cell, ports ▸ pausedFor_halts rfl served, lots⟩
  rw [run, deliver_testerTold hc]
  exact (ran 0 []).trans (run_nil ..)

/-- R45, R48: what a RUNNING cell makes of a margin that has been told. -/
theorem runsOn_told (hm : s.marginSteady p) : ∃ u, run 3 [.testerTold p] s = some u
    ∧ u.slots[p] = { s.slots[p] with margin := some (y.margin s.floorTime) } ∧ u.lots = (computeMargin p s).lots
    ∧ (s.marginPasses p d = false → u.cell? c = some (k.pausedAt { cal := true } (s.timer s.params.withdraw))
        ∧ .halt ∈ u.ports[k.handlerPort].out)
    ∧ (s.marginPasses p d = true → u.cell? c = some k) := by
  cases hp : s.marginPasses p d with
  | true =>
    obtain ⟨u, ran, own, cell, lots⟩ := runsOn_passes hr hy hm hp
    exact ⟨u, ran, own, lots, fun h => Bool.noConfusion h, fun _ => cell⟩
  | false =>
    obtain ⟨u, ran, own, cell, halts, lots⟩ := runsOn_fails hr hy hm hp
    exact ⟨u, ran, own, lots, fun _ => ⟨cell, halts⟩, fun h => Bool.noConfusion h⟩

end

/-- R95: a step that the margin does not pass is not passed by extension. -/
theorem byExtension_fails (h : s.marginPasses p d = false) : s.marginByExtension p d = false := by
  unfold State.marginPasses at h
  unfold State.marginByExtension
  rcases hc : s.slots[p].cal with _ | y
  · rfl
  · rw [hc, Option.any_some] at h
    rw [Option.any_some]
    unfold Calibration.passesByExtension
    rw [h, Bool.false_and]

theorem extendedAt_false (h : l.extendedAt l.step false l') (hl : l.step < 6) : l' = l := by
  obtain ⟨same, others, own⟩ := h
  have steps : l'.steps = l.steps := by
    ext i hi
    by_cases h : i = l.step
    · subst h
      unfold Lot.stepRec at own
      rw [dif_pos hl, dif_pos hl] at own
      rw [own]
      rfl
    · have := others i h
      unfold Lot.stepRec at this
      rw [dif_pos hi, dif_pos hi] at this
      rw [this]
  rw [same, steps]

/-- R45, R48, R93 to R96: a new calibration of the tester of a RUNNING cell. -/
theorem recalibrate_runs {pr : Product} {f : Calibration → Calibration} {x : Calibration} (hr : s.runsOn p c k l pr d)
    (hx : s.slots[p].cal = some x) (hy : f x = y) : ∃ u, settle (recalibrate p f s).2 (recalibrate p f s).1 = .next (transmit u)
      ∧ u.slots[p] = { s.slots[p] with cal := some y, margin := some (y.margin s.floorTime) }
      ∧ (s.calibrated p y).marginActs u c k l d := by
  have cal : (s.calibrated p y).slots[p].cal = some y := by rw [modSlot_self]
  have runs : (s.calibrated p y).runsOn p c k l pr d := by
    obtain ⟨hc, hk, hst, hl, ⟨handler, tester, mode, product, step, kit, barred, on⟩, hsoak, hcauses, hwaiting, hn, hi, hq, hseg, hu⟩ := hr
    refine ⟨hc, hk, hst, hl, ⟨handler, tester, mode, product, step, kit, ?_, on⟩, hsoak, hcauses, hwaiting, hn, hi, hq, hseg, ?_⟩
    · have port := cellOfTester_port hc hk
      subst port
      rw [modSlot_self]
      exact barred
    · rw [modSlot_self]; exact hu
  obtain ⟨l', runs', extended, cal', passes, byExt, hl'⟩ := runsOn_computed runs cal
  have port : k.testerPort = p := cellOfTester_port runs.1 runs.2.1
  have inUse : (s.calibrated p y).slots[p].use = .inUse := by
    obtain ⟨-, -, -, -, -, -, -, -, -, -, -, -, inUse⟩ := runs
    exact inUse
  have own : (computeMargin p (s.calibrated p y)).slots[p] = { s.slots[p] with cal := some y, margin := some (y.margin s.floorTime) } := by
    refine (computeMargin_own inUse cal).trans ?_
    rw [modSlot_self]
    rfl
  have step : l.step < 6 := by
    obtain ⟨-, -, -, -, -, -, -, -, -, step, -, -, -⟩ := runs
    exact step
  rw [recalibrate_eq hx hy]
  dsimp only
  by_cases steady : (s.calibrated p y).marginSteady p
  · rw [if_pos steady]
    exact ⟨_, settle_nil _, own, fun told => absurd (port ▸ steady) told, fun _ => ⟨runs'.2.1, l', hl', port ▸ extended⟩⟩
  · rw [if_neg steady]
    obtain ⟨l'', -, extended', -, -, -, hl''⟩ := runsOn_computed runs' cal'
    obtain ⟨u, ran, slot, lots, fails, lasts⟩ := runsOn_told runs' cal' marginSteady_computed
    rw [passes] at fails lasts
    obtain ⟨ls, ss, computed⟩ := computeMargin_exists (p := p) (s := s.calibrated p y)
    have same : l' = { l with steps := l'.steps } := extended.1
    have lot : u.lot? l.id = some l'' := by
      unfold State.lot?
      rw [lots]
      rw [same] at hl''
      exact hl''
    rw [byExt, show l'.step = l.step from by rw [same]] at extended'
    refine ⟨u, settle_of_run (by decide) ran, ?_, fun _ failing => ?_, fun passing => ?_⟩
    · refine slot.trans ?_
      rw [own, computed]
      rfl
    · rw [port] at failing
      have waiting : k.waiting = {} := by
        obtain ⟨-, -, -, -, -, -, -, waiting, -⟩ := runs
        exact waiting
      obtain ⟨cell, halts⟩ := fails failing
      have both := extended.trans extended'
      rw [byExtension_fails failing] at both
      refine ⟨cell.trans ?_, halts, ?_⟩
      · rw [computed]
        unfold Cell.pausedAt
        rw [waiting]
        rfl
      · rw [lot, extendedAt_false both step]
    · rw [port] at passing ⊢
      exact ⟨lasts passing, l'', lot, extended.trans extended'⟩

/-! ### TESTER_CLEAR and BARRED (R88, R92) -/

/-- R88: the slot record of a tester that TESTER_CLEAR has cleared. -/
def Slot.cleared (t : Slot) : Slot :=
  { t with barred := false, failures := 0, staged := if t.staged = .failed then .empty else t.staged }

theorem reportLoad_slots {o : LoadOutcome} {m : Option (Nat × Nat)} : (reportLoad p o m s).slots = s.slots := by
  unfold reportLoad
  dsimp only
  exact place_slots ..

theorem reportLoad_cellOfTester {o : LoadOutcome} {m : Option (Nat × Nat)} {q : Port} :
    (reportLoad p o m s).cellOfTester? q = s.cellOfTester? q := by
  refine cellOfTester_congr ?_
  unfold reportLoad
  dsimp only
  exact place_cells ..

theorem clear_answers (apart : s.outside p) (hr : s.slots[p].request = none) :
    answered (.plain .ok) (if s.slots[p].use = .inUse then [.testerTold p, .service p] else [])
      (reportLoad p .cleared none (s.modSlot p Slot.cleared))
      = .next ((reportLoad p .cleared none (s.modSlot p Slot.cleared)).replied (.plain .ok)) := by
  have told := deliver_testerTold_outside (s := reportLoad p .cleared none (s.modSlot p Slot.cleared))
    (reportLoad_cellOfTester.trans (outside_tester (s := s) apart))
  have served : deliver (.service p) (reportLoad p .cleared none (s.modSlot p Slot.cleared))
      = (reportLoad p .cleared none (s.modSlot p Slot.cleared), []) := by
    refine deliver_service_none ?_
    rw [reportLoad_slots, modSlot_self]
    exact hr
  split
  · exact answered_of_run (fuel := 2) (by decide) ((run_quiet told).trans ((run_quiet served).trans (run_nil ..)))
  · exact answered_nil ..

theorem barred_told (apart : s.outside p) (hu : s.slots[p].use = .inUse) (hf : 3 ≤ s.slots[p].failures)
    (hb : s.slots[p].barred = false) :
    execBarred p s = .next (transmit (reportLoad p .barred none (s.modSlot p fun t => { t with barred := true }))) := by
  have told := deliver_testerTold_outside (s := barTester p s) (reportLoad_cellOfTester.trans (outside_tester (s := s) apart))
  unfold execBarred
  dsimp only
  rw [if_pos ⟨hu, hf, by rw [hb]; rfl⟩]
  exact settle_of_run (fuel := 1) (by decide) ((run_quiet told).trans (run_nil ..))

theorem barred_untold (h : s.slots[p].use ≠ .inUse ∨ s.slots[p].failures < 3 ∨ s.slots[p].barred = true) :
    execBarred p s = .next s := by
  unfold execBarred
  dsimp only
  rw [if_neg]
  rintro ⟨inUse, failures, free⟩
  rcases h with h | h | h
  · exact h inUse
  · omega
  · rw [h] at free
    exact absurd free (by decide)

end

end Sys2Proof.Machine

section
open Sys2Proof Sys2Proof.Machine

/-- Settles O49: the calibration record and its margin by what a margin told makes of a RUNNING cell, and the bar by cases. -/
theorem calibrationAndTesterClear : Obligations.CalibrationAndTesterClear := by
  refine ⟨?_, ?_, ?_, ?_⟩
  · intro p s k temp hs hl apart hu hy head fresh
    refine ⟨(takeTester_taken hl hs).trans (recalibrate_outside apart hu hy rfl),
      (takeTester_taken hl hs).trans (recalibrate_outside apart hu hy rfl), ?_, ?_⟩
    · simp [fresh, Calibration.margin, Calibration.delta]
    · simp [fresh, Calibration.margin, Calibration.age]
  · intro p s x temp c k l g d hs hl hy hr becomes
    refine ⟨?_, ?_⟩
    · obtain ⟨u, settles, own, acts⟩ := recalibrate_runs (f := fun k => { k with headTemp := tempOf temp }) hr hy rfl
      exact ⟨u, (takeTester_taken hl hs).trans settles, own, acts⟩
    · obtain ⟨u, settles, own, acts⟩ := recalibrate_runs
        (f := fun k => { k with calTime := s.floorTime, calTemp := tempOf temp, headTemp := tempOf temp }) hr hy rfl
      exact ⟨u, (takeTester_taken hl hs).trans settles, own, acts⟩
  · intro s b ha hb
    have taken {f : List Byte → Host.Outcome State Fault Refusal} : takeRequest (ofKind Kind.testerClear) s f = f b :=
      takeRequest_fits ha (ofKind_self ..) (by simp [bodyFits, Kind.testerClear, hb])
    refine ⟨fun high => ?_, fun p hp => ⟨fun unused => ?_, fun used apart unasked => ?_⟩⟩
    · refine taken.trans ?_
      rw [portOf_none high]
      exact refuse_eq ..
    · refine taken.trans ?_
      rw [hp, portOf_val]
      exact (if_pos unused).trans (refuse_eq ..)
    · have spelled : s.modSlot p Slot.cleared = s.modSlot p fun t =>
          { t with barred := false, failures := 0, staged := match t.staged with | .failed => .empty | x => x } := by
        refine modSlot_congr ?_
        unfold Slot.cleared
        cases s.slots[p].staged <;> rfl
      refine taken.trans ?_
      rw [hp, portOf_val]
      refine Eq.trans ?_ (congrArg (fun t => Host.Outcome.next ((reportLoad p .cleared none t).replied (.plain .ok))) spelled)
      exact (if_neg used).trans (clear_answers apart unasked)
  · exact fun p s => ⟨barred_untold, fun hu hf hb apart => barred_told apart hu hf hb⟩

end
end

