-- ==== Sys2Proof/Proofs/SiteEdges.lean ====
section
-- In order: the check's memory bound leaves no room for a thread per proof.
set_option Elab.async false
/-! ## Blanking edges and the pending changes of sites (R58, R112) -/

namespace Sys2Proof.Machine

section
variable {s : State} {c : CellNo} {k k' k'' : Cell} {l : Lot} {p : Port} {d : StepDef} {t : Tally} {e : Edge} {mask : Byte}

/-! ### A cell record written whole -/

/-- The state in which a formed cell's record is another. -/
def State.withCell (s : State) (c : CellNo) (k : Cell) : State :=
  { s with cells := s.cells.set c { s.cells[c] with formed := some k } }

theorem modCell_whole {f : Cell → Cell} (hk : s.cell? c = some k) : s.modCell c f = s.withCell c (f k) := by
  have formed : s.cells[c].formed = some k := hk
  unfold State.modCell State.modCellRec State.withCell
  dsimp only
  rw [formed, Option.map_some]

theorem withCell_cell : (s.withCell c k).cell? c = some k := by simp [State.withCell, State.cell?]

theorem withCell_again : (s.withCell c k).withCell c k' = s.withCell c k' := by simp [State.withCell]

theorem modCell_same {f : Cell → Cell} (hk : s.cell? c = some k) (h : f k = k) : s.modCell c f = s := by
  have formed : s.cells[c].formed = some k := hk
  rw [modCell_whole hk, h]
  unfold State.withCell
  rw [← formed]
  exact congrArg (fun v => ({ s with cells := v } : State)) (Vector.set_getElem_self ..)

/-! ### The edges (R112) -/

/-- R112: the blanking counter of each affected site is set. -/
def Cell.blanked (affects : Nat → Site → Bool) (n : Nat) (k : Cell) : Cell :=
  { k with sites := k.sites.zipIdx.map fun x => if affects x.2 x.1 then { x.1 with blank := n } else x.1 }

/-- R112: the blanking counter of each ON site is set when the step has the edge. -/
def Cell.blankedOn (e : Edge) (d : StepDef) (k : Cell) : Cell :=
  { k with sites := k.sites.map fun x => if x.state = .on ∧ d.edges.getLsbD e.bit = true then { x with blank := d.blank } else x }

theorem map_zipIdx_fst {α β : Type} (h : α → β) (xs : List α) : (xs.zipIdx.map fun x => h x.1) = xs.map h := by
  conv_rhs => rw [← List.zipIdx_map_fst 0 xs, List.map_map, Function.comp_def]

section
variable (hk : s.cell? c = some k) (hl : s.currentLot? c = some l) (ht : s.tally? l.id = some t)
  (hd : s.stepDef? l t.step = some d) (hseg : k.segment.isSome = true)
include hk hl ht hd hseg

theorem fireEdge_blanks (f : Nat → Site → Bool) :
    fireEdge e c f s = if d.edges.getLsbD e.bit then s.modCell c (Cell.blanked f d.blank) else s := by
  unfold fireEdge
  rw [hk]; dsimp only
  rw [hl]; dsimp only
  rw [ht]; dsimp only
  rw [hd]; dsimp only
  rw [hseg, Bool.true_and]
  rfl

theorem fireEdge_on : fireEdge e c (fun _ x => x.state == .on) s = s.modCell c (Cell.blankedOn e d) := by
  rw [fireEdge_blanks hk hl ht hd hseg]
  by_cases h : d.edges.getLsbD e.bit = true
  · rw [if_pos h]
    refine modCell_congr hk ?_
    unfold Cell.blanked Cell.blankedOn
    rw [map_zipIdx_fst fun x : Site => if (x.state == .on) = true then { x with blank := d.blank } else x]
    simp [h]
  · have off : (fun x : Site => if x.state = .on ∧ d.edges.getLsbD e.bit = true then { x with blank := d.blank } else x) = id :=
      funext fun x => if_neg fun y => h y.2
    rw [if_neg h]
    refine (modCell_same hk ?_).symm
    unfold Cell.blankedOn
    rw [off, List.map_id]

theorem fireEdge_whole : fireEdge e c (fun _ x => x.state == .on) s = s.withCell c (k.blankedOn e d) :=
  (fireEdge_on hk hl ht hd hseg).trans (modCell_whole hk)

end

/-! ### The pending changes (R58) -/

/-- R58, R112: a site whose pending change, if it has one, is made in a fed cell. -/
def Site.changed (d : StepDef) (x : Site) : Site :=
  { x with
    state := x.target, change := none
    blank := if x.change = some .on ∧ d.edges.getLsbD 3 = true then d.blank else x.blank }

theorem Site.changed_none {x : Site} (h : x.change = none) : x.changed d = x := by
  obtain ⟨state, change⟩ := x
  cases h
  simp [Site.changed, Site.target]

/-- R58: a cell whose sites below a number have made their pending changes. -/
def Cell.changed (d : StepDef) (i : Nat) (k : Cell) : Cell := { k with sites := k.sites.modify i (Site.changed d) }

theorem changed_past {i : Nat} (h : k.sites[i]? = none) : k.changed d i = k := by
  unfold Cell.changed
  rw [List.modify_eq_self (List.getElem?_eq_none_iff.mp h)]

theorem changed_set {x : Site} {i : Nat} (h : k.sites[i]? = some x) : k.changed d i = { k with sites := k.sites.set i (x.changed d) } := by
  obtain ⟨short, rfl⟩ := List.getElem?_eq_some_iff.mp h
  unfold Cell.changed
  rw [List.modify_eq_set_get (Site.changed d) short]
  rfl

theorem changed_steady {x : Site} {i : Nat} (h : k.sites[i]? = some x) (hx : x.change = none) : k.changed d i = k := by
  obtain ⟨short, rfl⟩ := List.getElem?_eq_some_iff.mp h
  rw [changed_set h, Site.changed_none hx, List.set_getElem_self]

/-- R112: an edge at one site. -/
theorem blanked_one {i n : Nat} {y : Site} :
    Cell.blanked (fun j _ => j == i) n { k with sites := k.sites.set i y } = { k with sites := k.sites.set i { y with blank := n } } := by
  unfold Cell.blanked
  congr 1
  refine List.ext_getElem (by simp) fun j hj _ => ?_
  by_cases he : i = j
  · subst he
    simp
  · have apart : ¬ j = i := fun e => he e.symm
    simp [he, apart]

/-- R58, R112: the SITE_ON edge of a site that has come ON. -/
theorem fireEdge_siteOn {i : Nat} {y : Site} (hk : s.cell? c = some { k with sites := k.sites.set i y })
    (hl : s.currentLot? c = some l) (ht : s.tally? l.id = some t) (hd : s.stepDef? l t.step = some d) (hseg : k.segment.isSome = true) :
    fireEdge .siteOn c (fun j _ => j == i) s
      = s.withCell c { k with sites := k.sites.set i { y with blank := if d.edges.getLsbD 3 = true then d.blank else y.blank } } := by
  rw [fireEdge_blanks hk hl ht hd hseg]
  by_cases he : d.edges.getLsbD 3 = true
  · rw [if_pos (show d.edges.getLsbD Edge.siteOn.bit = true from he), if_pos he, modCell_whole hk, blanked_one]
  · rw [if_neg (show ¬ d.edges.getLsbD Edge.siteOn.bit = true from he), if_neg he]
    exact (modCell_same (f := id) hk rfl).symm.trans (modCell_whole hk)

section
variable (hk : s.cell? c = some k) (hl : s.currentLot? c = some l) (ht : s.tally? l.id = some t)
  (hd : s.stepDef? l t.step = some d) (hseg : k.segment.isSome = true)
include hk hl ht hd hseg

theorem makeChange_changes (i : Nat) :
    ∃ rs n, makeChange c s i = { s.withCell c (k.changed d i) with reports := rs, dropped := n } := by
  have unchanged (h : k.changed d i = k) : s = { s.withCell c (k.changed d i) with reports := s.reports, dropped := s.dropped } := by
    rw [h]
    exact ((modCell_whole (f := id) hk).symm.trans (modCell_same hk rfl)).symm
  unfold makeChange
  rw [hk]
  dsimp only
  cases hx : k.sites[i]? with
  | none => exact ⟨_, _, unchanged (changed_past hx)⟩
  | some x =>
    dsimp only
    cases hc : x.change with
    | none => exact ⟨_, _, unchanged (changed_steady hx hc)⟩
    | some st =>
      dsimp only
      rw [modCell_whole (f := fun k => { k with sites := k.sites.set i { x with state := st, change := none } }) hk]
      obtain ⟨rs, n, placed⟩ := place_exists (.siteChange c i x.state st)
        (s.withCell c { k with sites := k.sites.set i { x with state := st, change := none } })
      rw [placed, changed_set hx]
      refine ⟨rs, n, ?_⟩
      have target : x.target = st := by unfold Site.target; rw [hc]; rfl
      unfold Site.changed
      rw [hc, target]
      by_cases on : st = .on
      · rw [if_pos on]
        refine (fireEdge_siteOn (k := k) (s := { s.withCell c { k with sites := k.sites.set i { x with state := st, change := none } } with
          reports := rs, dropped := n }) withCell_cell hl ht hd hseg).trans ?_
        rw [on]
        simp [State.withCell]
      · rw [if_neg on, if_neg fun h => on (Option.some.inj h.1)]

end

/-- R58: a cell whose sites below a number have made their pending changes. -/
def Cell.changedBelow (d : StepDef) (n : Nat) (k : Cell) : Cell := (List.range n).foldl (fun k i => k.changed d i) k

theorem changedBelow_succ (n : Nat) : k.changedBelow d (n + 1) = (k.changedBelow d n).changed d n := by
  unfold Cell.changedBelow
  rw [List.range_succ, List.foldl_append]
  rfl

theorem changedBelow_sites (n j : Nat) :
    (k.changedBelow d n).sites[j]? = if j < n then k.sites[j]?.map (Site.changed d) else k.sites[j]? := by
  induction n with
  | zero => rfl
  | succ n ih =>
    rw [changedBelow_succ]
    show ((k.changedBelow d n).sites.modify n (Site.changed d))[j]? = _
    rw [List.getElem?_modify, ih]
    by_cases hj : n = j
    · subst hj
      simp
    · have : j < n + 1 ↔ j < n := by omega
      simp [hj, this]

theorem changedBelow_rest (n : Nat) : k.changedBelow d n = { k with sites := (k.changedBelow d n).sites } := by
  induction n with
  | zero => rfl
  | succ n ih =>
    rw [changedBelow_succ]
    unfold Cell.changed
    rw [ih]

/-- R58: every site of a cell of at most eight sites has made its change. -/
theorem changedBelow_all (h : k.sites.length ≤ 8) : k.changedBelow d 8 = { k with sites := k.sites.map (Site.changed d) } := by
  rw [changedBelow_rest]
  congr 1
  refine List.ext_getElem? fun j => ?_
  rw [changedBelow_sites, List.getElem?_map]
  split
  · rfl
  · rw [List.getElem?_eq_none (by omega)]
    rfl

section
variable (hk : s.cell? c = some k) (hl : s.currentLot? c = some l) (ht : s.tally? l.id = some t)
  (hd : s.stepDef? l t.step = some d) (hseg : k.segment.isSome = true)
include hk hl ht hd hseg

/-- R58: the pending changes of a fed cell, all made. -/
theorem makeChanges_changes (h : k.sites.length ≤ 8) : ∃ rs n,
    makeChanges c s = { s.withCell c { k with sites := k.sites.map (Site.changed d) } with reports := rs, dropped := n } := by
  have upTo (m : Nat) : ∃ rs n, (List.range m).foldl (makeChange c) s
      = { s.withCell c (k.changedBelow d m) with reports := rs, dropped := n } := by
    induction m with
    | zero => exact ⟨s.reports, s.dropped, ((modCell_whole (f := id) hk).symm.trans (modCell_same hk rfl)).symm⟩
    | succ m ih =>
      obtain ⟨rs, n, below⟩ := ih
      have fed : (k.changedBelow d m).segment.isSome = true := by rw [changedBelow_rest]; exact hseg
      obtain ⟨rs', n', next⟩ := makeChange_changes (s := { s.withCell c (k.changedBelow d m) with reports := rs, dropped := n })
        withCell_cell hl ht hd fed m
      refine ⟨rs', n', ?_⟩
      rw [List.range_succ, List.foldl_append, below, changedBelow_succ]
      refine next.trans ?_
      simp [State.withCell]
  obtain ⟨rs, n, all⟩ := upTo 8
  rw [changedBelow_all h] at all
  exact ⟨rs, n, all⟩

end

/-! ### A PAUSED cell that resumes (R49, R112) -/

/-- R49, R112: the record of a cell that has resumed. -/
def Cell.resumed (d : StepDef) (k : Cell) : Cell := Cell.blankedOn .resume d { k with state := .running, withdrawTimer := none }

/-- R49: the state in which a cell has resumed, but for the report. -/
def resumedAt (c : CellNo) (k : Cell) (l : Lot) (d : StepDef) (s : State) : State :=
  ((send k.handlerPort .continue_ s).withCell c (k.resumed d)).modTally l.id fun t => { t with divider := 0 }

theorem resumeRunning_resumes (hk : s.cell? c = some k) (hl : s.currentLot? c = some l) (ht : s.tally? l.id = some t)
    (hd : s.stepDef? l t.step = some d) (hseg : k.segment.isSome = true) :
    ∃ rs n, resumeRunning c s = ({ resumedAt c k l d s with reports := rs, dropped := n }, [.preemptCheck c]) := by
  obtain ⟨ps, sent⟩ := send_exists (p := k.handlerPort) .continue_ s
  have onward : s.modCell c (fun k => { k with state := .running, withdrawTimer := none })
      = s.withCell c { k with state := .running, withdrawTimer := none } := modCell_whole hk
  have message : send k.handlerPort .continue_ (s.withCell c { k with state := .running, withdrawTimer := none })
      = { s.withCell c { k with state := .running, withdrawTimer := none } with ports := ps } := by
    have ports : (send k.handlerPort .continue_ s).ports = ps := by rw [sent]
    unfold send at ports ⊢
    rw [show (s.withCell c { k with state := .running, withdrawTimer := none }).inService k.handlerPort = s.inService k.handlerPort from rfl]
    split at ports
    · next serves => rw [if_pos serves, ← ports]; rfl
    · next absent => rw [if_neg absent, ← ports]; rfl
  have edge : fireEdge .resume c (fun _ x => x.state == .on)
      { s.withCell c { k with state := .running, withdrawTimer := none } with ports := ps }
      = { s.withCell c (k.resumed d) with ports := ps } :=
    (fireEdge_whole (s := { s.withCell c { k with state := .running, withdrawTimer := none } with ports := ps })
      withCell_cell hl ht hd hseg).trans (by simp [State.withCell, Cell.resumed])
  obtain ⟨hcur, -⟩ := currentLot_id hl
  unfold resumeRunning
  rw [hk]
  dsimp only
  rw [onward, message, edge,
    show ({ s.withCell c (k.resumed d) with ports := ps } : State).current? c = some l.id from hcur]
  dsimp only
  obtain ⟨rs, n, reported⟩ := reportCell_exists (c := c) (x := some k.state)
    (s := ({ s.withCell c (k.resumed d) with ports := ps } : State).modTally l.id fun t => { t with divider := 0 })
  refine ⟨rs, n, ?_⟩
  rw [reported]
  unfold resumedAt
  rw [sent]
  rfl

theorem resumedAt_consulted {l' : Lot} {ls : List Lot} {ss : Vector Slot 32} (h : l'.id = l.id) :
    resumedAt c k l' d ({ s with lots := ls, slots := ss } : State) = { resumedAt c k l d s with lots := ls, slots := ss } := by
  unfold resumedAt
  rw [h]
  unfold send
  rw [show ({ s with lots := ls, slots := ss } : State).inService k.handlerPort = s.inService k.handlerPort from rfl]
  split <;> rfl

section
variable (c k l d s)

theorem resumedAt_cell : (resumedAt c k l d s).cell? c = some (k.resumed d) := withCell_cell (s := send k.handlerPort .continue_ s)

variable {c k l d s} in
theorem resumedAt_sends (h : s.inService k.handlerPort = true) : .continue_ ∈ (resumedAt c k l d s).ports[k.handlerPort].out :=
  mem_send (s := s) h

end

/-- R49: a PAUSED cell whose handler's link was up all along and whose cause set has emptied resumes. -/
theorem refreshCell_resumes (hk : s.cell? c = some k) (hl : s.currentLot? c = some l) (hm : s.marginSteady k.testerPort)
    (hp : k.state = .paused) (hx : k.causes.handlerLink = false) (hc : s.deriveCauses c k = {}) (ht : s.tally? l.id = some t)
    (hd : s.stepDef? l t.step = some d) (hseg : k.segment.isSome = true) :
    ∃ ls ss rs n, refreshCell c s = ({ resumedAt c { k with causes := {}, waiting := {} } l d (s.withCell c { k with causes := {}, waiting := {} }) with
      lots := ls, slots := ss, reports := rs, dropped := n }, [.preemptCheck c]) := by
  obtain ⟨l', hl', marked⟩ := currentLot_consulted (p := k.testerPort) hl
  obtain ⟨id, product, -⟩ := marked.route
  have causes := (consulted_causes hl hm k).trans hc
  have cell := consulted_cell (p := k.testerPort) hk
  obtain ⟨ls, ss, computed⟩ := computeMargin_exists (p := k.testerPort) (s := s)
  rw [refreshCell_paused hk hl hm hp]
  rw [computed] at hl' causes cell ⊢
  have sets : writeSets c {} {} { s with lots := ls, slots := ss }
      = { s.withCell c { k with causes := {}, waiting := {} } with lots := ls, slots := ss } := modCell_whole cell
  have onStep : s.stepDef? l' t.step = some d := by
    unfold State.stepDef? at hd ⊢
    rw [product]
    exact hd
  obtain ⟨rs, n, resumes⟩ := resumeRunning_resumes (s := { s.withCell c { k with causes := {}, waiting := {} } with lots := ls, slots := ss })
    withCell_cell hl' (by rw [id]; exact ht) onStep hseg
  rw [resumedAt_consulted id] at resumes
  unfold refreshPaused
  rw [hx, Bool.false_and]
  dsimp only
  rw [if_neg Bool.false_ne_true, cell, Option.getD_some, causes, sets]
  exact ⟨ls, ss, rs, n, (if_pos rfl).trans resumes⟩

/-! ### A PAUSED cell in any state of its lot (R49) -/

theorem fireEdge_sites (e : Edge) (f : Nat → Site → Bool) (hk : s.cell? c = some k) :
    ∃ xs, fireEdge e c f s = s.withCell c { k with sites := xs } := by
  have same : s = s.withCell c { k with sites := k.sites } := (modCell_same (f := id) hk rfl).symm.trans (modCell_whole hk)
  unfold fireEdge
  repeat' split
  any_goals exact ⟨_, same⟩
  exact ⟨_, modCell_whole hk⟩

theorem resumeRunning_exists (hk : s.cell? c = some k) : ∃ u k', resumeRunning c s = (u, [.preemptCheck c]) ∧ u.cell? c = some k'
    ∧ k'.causes = k.causes ∧ k'.state = .running ∧ u.queues = s.queues ∧ u.slots = s.slots ∧ u.claims = s.claims := by
  obtain ⟨ps, sent⟩ := send_exists (p := k.handlerPort) .continue_ (s.withCell c { k with state := .running, withdrawTimer := none })
  obtain ⟨xs, edge⟩ := fireEdge_sites (c := c) (k := { k with state := .running, withdrawTimer := none })
    (s := { s.withCell c { k with state := .running, withdrawTimer := none } with ports := ps }) .resume (fun _ x => x.state == .on) withCell_cell
  have onward : s.modCell c (fun k => { k with state := .running, withdrawTimer := none })
      = s.withCell c { k with state := .running, withdrawTimer := none } := modCell_whole hk
  unfold resumeRunning
  rw [hk]
  dsimp only
  rw [onward, sent, edge]
  generalize hw : State.withCell _ c _ = w
  have cell : w.cell? c = some { k with state := .running, withdrawTimer := none, sites := xs } := by rw [← hw]; exact withCell_cell
  have rest : w.queues = s.queues ∧ w.slots = s.slots ∧ w.claims = s.claims := by rw [← hw]; exact ⟨rfl, rfl, rfl⟩
  obtain ⟨queues, slots, claims⟩ := rest
  split
  · next id _ =>
    obtain ⟨rs, n, reported⟩ := reportCell_exists (c := c) (x := some k.state) (s := w.modTally id fun t => { t with divider := 0 })
    rw [reported]
    exact ⟨_, _, rfl, cell, rfl, rfl, queues, slots, claims⟩
  · obtain ⟨rs, n, reported⟩ := reportCell_exists (c := c) (x := some k.state) (s := w)
    rw [reported]
    exact ⟨_, _, rfl, cell, rfl, rfl, queues, slots, claims⟩

section
variable (hk : s.cell? c = some k) (hl : s.currentLot? c = some l) (hm : s.marginSteady k.testerPort) (hp : k.state = .paused)
  (hx : k.causes.handlerLink = false)
include hk hl hm hp hx

theorem refreshCell_paused_up : refreshCell c s = if (s.deriveCauses c k).isEmpty then
      resumeRunning c (writeSets c (s.deriveCauses c k) {} (computeMargin k.testerPort s))
    else (if s.deriveCauses c k = k.causes then writeSets c (s.deriveCauses c k) {} (computeMargin k.testerPort s)
      else reportCell c (some .paused) (writeSets c (s.deriveCauses c k) {} (computeMargin k.testerPort s)), []) := by
  rw [refreshCell_paused hk hl hm hp]
  unfold refreshPaused
  rw [hx, Bool.false_and]
  dsimp only
  rw [if_neg Bool.false_ne_true, consulted_cell hk, Option.getD_some, consulted_causes hl hm, Bool.false_and, if_neg Bool.false_ne_true]

theorem refreshCell_waits (hc : (s.deriveCauses c k).isEmpty = false) : ∃ rs n, refreshCell c s
    = ({ (computeMargin k.testerPort s).withCell c { k with causes := s.deriveCauses c k, waiting := {} } with
        reports := rs, dropped := n }, []) := by
  rw [refreshCell_paused_up hk hl hm hp hx, if_neg (by rw [hc]; decide)]
  have sets : writeSets c (s.deriveCauses c k) {} (computeMargin k.testerPort s)
      = (computeMargin k.testerPort s).withCell c { k with causes := s.deriveCauses c k, waiting := {} } := modCell_whole (consulted_cell hk)
  rw [sets]
  split
  · exact ⟨_, _, rfl⟩
  · obtain ⟨rs, n, reported⟩ := reportCell_exists (c := c) (x := some .paused)
      (s := (computeMargin k.testerPort s).withCell c { k with causes := s.deriveCauses c k, waiting := {} })
    exact ⟨rs, n, congrArg (·, []) reported⟩

theorem refreshCell_runs (hc : s.deriveCauses c k = {}) : ∃ u k', refreshCell c s = (u, [.preemptCheck c]) ∧ u.cell? c = some k'
    ∧ k'.causes = {} ∧ k'.state = .running ∧ u.queues = s.queues ∧ u.slots = (computeMargin k.testerPort s).slots ∧ u.claims = s.claims := by
  rw [refreshCell_paused_up hk hl hm hp hx, hc, if_pos (show ({} : Causes).isEmpty = true from rfl)]
  have cell : (writeSets c {} {} (computeMargin k.testerPort s)).cell? c = some { k with causes := {}, waiting := {} } := by
    rw [writeSets_cell, consulted_cell hk]
    rfl
  obtain ⟨u, k', resumes, cell', causes, state, queues, slots, claims⟩ := resumeRunning_exists cell
  obtain ⟨ls, ss, computed⟩ := computeMargin_exists (p := k.testerPort) (s := s)
  refine ⟨u, k', resumes, cell', causes, state, queues.trans ?_, slots, claims.trans ?_⟩
  · rw [computed]; rfl
  · rw [computed]; rfl

end

theorem Causes.empty_of {x : Causes} (h : x.isEmpty = true) : x = {} := by
  cases x
  unfold Causes.isEmpty at h
  simp only [Bool.not_eq_true', Bool.or_eq_false_iff] at h
  obtain ⟨⟨⟨⟨⟨⟨⟨rfl, rfl⟩, rfl⟩, rfl⟩, rfl⟩, rfl⟩, rfl⟩, rfl⟩ := h
  rfl

/-- R42, R49: what the two notices of a link make of a PAUSED cell whose handler's link was up, with nothing queued. -/
theorem links_paused_up (hk : s.cell? c = some k) (hl : s.currentLot? c = some l) (hm : s.marginSteady k.testerPort)
    (hp : k.state = .paused) (hx : k.causes.handlerLink = false) (hq : s.queues[c].behind = []) : ∃ u k',
    (∀ {fuel ns v}, run fuel ns u = some v → run (fuel + 3) (.refresh c :: .eligibility c :: ns) s = some v)
      ∧ u.cell? c = some k' ∧ k'.causes = s.deriveCauses c k ∧ u.slots = (computeMargin k.testerPort s).slots ∧ u.claims = s.claims
      ∧ ((s.deriveCauses c k).isEmpty = false → k' = { k with causes := k'.causes, waiting := {} })
      ∧ ∀ t d, s.deriveCauses c k = {} → s.tally? l.id = some t → s.stepDef? l t.step = some d → k.segment.isSome = true →
          s.inService k.handlerPort = true →
          .continue_ ∈ u.ports[k.handlerPort].out ∧ k' = Cell.resumed d { k with causes := {}, waiting := {} } := by
  cases he : (s.deriveCauses c k).isEmpty with
  | false =>
    obtain ⟨rs, n, told⟩ := refreshCell_waits hk hl hm hp hx he
    obtain ⟨ls, ss, computed⟩ := computeMargin_exists (p := k.testerPort) (s := s)
    rw [computed] at told ⊢
    refine ⟨State.trigger { ({ s with lots := ls, slots := ss } : State).withCell c { k with causes := s.deriveCauses c k, waiting := {} } with
      reports := rs, dropped := n }, { k with causes := s.deriveCauses c k, waiting := {} }, fun {fuel ns v} h => ?_, withCell_cell, rfl, rfl, rfl, fun _ => rfl,
      fun t d none => ?_⟩
    rotate_left
    · rw [none] at he
      exact absurd he (by decide)
    · have ran := run_links (fuel := fuel + 1) (ns := ns) told hq (outOfChamber_unstarted withCell_cell (by rw [hp]; decide))
      exact ran.trans (run_more h 1)
  | true =>
    have none := Causes.empty_of he
    obtain ⟨u, k', told, cell, causes, state, queues, slots, claims⟩ := refreshCell_runs hk hl hm hp hx none
    have behind : u.queues[c].behind = [] := by rw [queues]; exact hq
    have disabled : u.meetsPreemption c = false := by
      unfold State.meetsPreemption
      rw [behind]
      simp
    have quiet := eligibilityChanged_quiet (c := c) behind (outOfChamber_unstarted cell (by rw [state]; decide))
    refine ⟨u.trigger, k', fun {fuel ns v} h => ?_, cell, causes.trans none.symm, slots, claims, fun h => Bool.noConfusion h,
      fun t d _ ht hd hseg serves => ?_⟩
    · rw [run, show deliver (.refresh c) s = _ from told]
      exact (run_quiet (preemptCheck_quiet disabled)).trans ((run_quiet (n := .eligibility c) quiet).trans h)
    · obtain ⟨ls, ss, rs, n, resumes⟩ := refreshCell_resumes hk hl hm hp hx none ht hd hseg
      have same := (Prod.mk.inj (told.symm.trans resumes)).1
      refine ⟨?_, ?_⟩
      · have sends := resumedAt_sends (l := l) (d := d) (k := { k with causes := {}, waiting := {} }) (c := c)
          (s := s.withCell c { k with causes := {}, waiting := {} }) serves
        show .continue_ ∈ u.ports[k.handlerPort].out
        rw [congrArg State.ports same]
        exact sends
      · rw [congrArg (fun v : State => v.cell? c) same] at cell
        have resumed := resumedAt_cell (s.withCell c { k with causes := {}, waiting := {} }) c { k with causes := {}, waiting := {} } l d
        exact Option.some.inj (cell.symm.trans resumed)

end
end Sys2Proof.Machine
end

