-- ==== Sys2Proof/Proofs/IndexAndKit.lean ====
section
-- In order: the check's memory bound leaves no room for a thread per proof.
set_option Elab.async false
/-! ## H_INDEX, H_PHASE, H_CLEAN and H_KIT (R56, R58) -/

namespace Sys2Proof.Machine

section
variable {s : State} {c : CellNo} {k : Cell} {l : Lot} {p : Port} {d : StepDef} {g : Product} {t : Tally} {mask : Byte}

/-! ### H_INDEX -/

/-- R58: an index and its mismatches are counted. -/
def Cell.indexed (mask : Byte) (k : Cell) : Cell :=
  { k with lastMask := mask, indexCount := sat32 (k.indexCount + 1), mismatchCount := sat32 (k.mismatchCount + k.mismatches mask) }

theorem makeChanges_none (hk : s.cell? c = some k) (h : k.noChanges) : makeChanges c s = s := by
  have quiet := leaveRunning_quiet hk h
  unfold leaveRunning at quiet
  exact (Prod.mk.inj quiet).1

theorem onSetNotices_same : onSetNotices c s s = [] := if_pos rfl

theorem onSetNotices_cases (u v : State) : onSetNotices c u v = [] ∨ onSetNotices c u v = [.refresh c, .eligibility c] := by
  unfold onSetNotices
  split
  · exact .inl rfl
  · exact .inr rfl

theorem takeIndex_counts (hk : s.cell? c = some k) (h : k.state ≠ .running ∨ k.noChanges) :
    takeIndex c mask s = (s.modCell c (Cell.indexed mask), []) := by
  have settled : (if k.state = .running then makeChanges c s else s) = s := by
    split
    · next running => exact makeChanges_none hk (h.resolve_left fun n => n running)
    · rfl
  unfold takeIndex
  rw [hk]
  dsimp only
  rw [settled, onSetNotices_same]
  rfl

theorem anyOn_changed (d : StepDef) (sites : List Site) :
    (sites.map (Site.changed d)).any (·.state == .on) = (sites.map fun x => { x with state := x.target, change := none }).any (·.state == .on) := by
  rw [List.any_map, List.any_map]
  rfl

/-- R58: the record of a fed RUNNING cell at an index. -/
def Cell.atIndex (d : StepDef) (mask : Byte) (k : Cell) : Cell :=
  Cell.indexed mask { k with sites := k.sites.map (Site.changed d) }

theorem takeIndex_changes (hk : s.cell? c = some k) (hr : k.state = .running) (hl : s.currentLot? c = some l)
    (ht : s.tally? l.id = some t) (hd : s.stepDef? l t.step = some d) (hseg : k.segment.isSome = true) (h : k.sites.length ≤ 8) :
    ∃ rs n, (takeIndex c mask s).1 = { s.withCell c (k.atIndex d mask) with reports := rs, dropped := n }
      ∧ ((takeIndex c mask s).2 = [] ∨ (takeIndex c mask s).2 = [.refresh c, .eligibility c]) := by
  obtain ⟨rs, n, changed⟩ := makeChanges_changes hk hl ht hd hseg h
  refine ⟨rs, n, ?_, ?_⟩
  · unfold takeIndex
    rw [hk]
    dsimp only
    rw [if_pos hr, changed]
    refine (modCell_whole (s := { s.withCell c _ with reports := rs, dropped := n }) withCell_cell).trans ?_
    simp [State.withCell, Cell.atIndex, Cell.indexed]
  · unfold takeIndex
    rw [hk]
    dsimp only
    exact onSetNotices_cases ..

/-- R58: what stands in a cell record that is as it was but for the changes and the counts of an index. -/
theorem atIndex_eq : k.atIndex d mask = { k with
    sites := (k.atIndex d mask).sites, lastMask := mask, indexCount := min (k.indexCount + 1) 4294967295
    mismatchCount := min (k.mismatchCount + (k.atIndex d mask).mismatches mask) 4294967295 } := rfl

/-- R45: the cause set of a cell that the temperature alone could stop. -/
theorem deriveCauses_onlyTemp (hl : s.currentLot? c = some l) (h : s.onlyTemp k l g d) (hs : k.soak = .soaked) : s.deriveCauses c k = {} := by
  obtain ⟨inOrder, passes, -⟩ := h
  rw [deriveCauses_inOrder hl inOrder hs, passes]
  rfl

/-- R45, R58: a cell that runs on after an index. -/
theorem index_told {v : State} (hk : v.cell? c = some k) (hr : k.state = .running) (hl : v.currentLot? c = some l)
    (h : v.onlyTemp k l g d) (hs : k.soak = .soaked) (hc : k.causes = {}) (hw : k.waiting = {}) (hq : v.queues[c].behind = []) :
    ∃ ls ss, settle [.refresh c, .eligibility c] v
      = .next (transmit { v with lots := ls, slots := ss, pass := { v.pass with pending := true } }) := by
  have causes := deriveCauses_onlyTemp hl h hs
  obtain ⟨ls, ss, computed⟩ := computeMargin_exists (p := k.testerPort) (s := v)
  have told := refreshCell_stays hk hl h.2.2 hr (by rw [causes]; rfl)
  have sets : writeSets c {} {} (computeMargin k.testerPort v) = computeMargin k.testerPort v :=
    modCell_same (consulted_cell hk) (cell_unset hc hw)
  rw [causes, sets] at told
  have queued : (computeMargin k.testerPort v).queues[c].behind = [] := by rw [computed]; exact hq
  have ran := run_links (fuel := 0) (ns := []) told queued (outOfChamber_unstarted (consulted_cell hk) (by rw [hr]; decide))
  refine ⟨ls, ss, settle_of_run (by decide) (ran.trans ((run_nil ..).trans ?_))⟩
  rw [computed]
  rfl

/-- R58: an index of a RUNNING cell. -/
theorem index_runs (hk : s.cell? c = some k) (hr : k.state = .running) (hl : s.currentLot? c = some l) (h8 : k.sites.length ≤ 8)
    (h : s.onlyTemp { k with sites := k.sites.map fun x => { x with state := x.target, change := none } } l g d)
    (hs : k.soak = .soaked) (hc : k.causes = {}) (hw : k.waiting = {}) (hseg : k.segment.isSome = true)
    (ht : s.tally? l.id = some t) (hstep : t.step = l.step) (hq : s.queues[c].behind = []) :
    ∃ ls ss rs n b, settle (takeIndex c mask s).2 (takeIndex c mask s).1 = .next (transmit
      { s.withCell c (k.atIndex d mask) with lots := ls, slots := ss, reports := rs, dropped := n, pass := b }) := by
  obtain ⟨⟨handler, tester, mode, product, step, kit, barred, on⟩, passes, steady⟩ := h
  obtain ⟨rs, n, took, owed⟩ := takeIndex_changes (mask := mask) hk hr hl ht (by rw [hstep]; exact step) hseg h8
  rw [took]
  rcases owed with owed | owed
  · rw [owed]
    exact ⟨s.lots, s.slots, rs, n, s.pass, settle_nil _⟩
  · rw [owed]
    have left : State.onlyTemp { s.withCell c (k.atIndex d mask) with reports := rs, dropped := n } (k.atIndex d mask) l g d :=
      ⟨⟨handler, tester, mode, product, step, kit, barred, (anyOn_changed d k.sites).trans on⟩, passes,
        marginSteady_congr (s := s) (q := k.testerPort) rfl rfl steady⟩
    obtain ⟨ls, ss, told⟩ := index_told (v := { s.withCell c (k.atIndex d mask) with reports := rs, dropped := n })
      withCell_cell hr hl left hs hc hw hq
    exact ⟨ls, ss, rs, n, _, told⟩

/-! ### H_CLEAN (R56) -/

theorem takeClean_rests (hk : s.cell? c = some k) (hr : k.state ≠ .running) (hp : k.state ≠ .paused) (hm : k.state ≠ .manual) :
    takeClean c mask s = (s, []) := by
  have still : (s.cell? c).any firesEdges = false := by
    rw [hk, Option.any_some]
    unfold firesEdges
    rw [beq_eq_false_iff_ne.mpr hr, beq_eq_false_iff_ne.mpr hp, beq_eq_false_iff_ne.mpr hm]
    rfl
  unfold takeClean
  rw [still]
  rfl

theorem firesEdges_iff : firesEdges k = true ↔ k.state = .running ∨ k.state = .paused ∨ k.state = .manual := by
  unfold firesEdges
  rw [Bool.or_eq_true, Bool.or_eq_true, beq_iff_eq, beq_iff_eq, beq_iff_eq, or_assoc]

theorem takeClean_blanks (hk : s.cell? c = some k) (hf : k.state = .running ∨ k.state = .paused ∨ k.state = .manual)
    (hseg : k.segment.isSome = true) (hl : s.currentLot? c = some l) (ht : s.tally? l.id = some t)
    (hd : s.stepDef? l t.step = some d) (he : d.edges.getLsbD 4 = true) :
    takeClean c mask s = (s.modCell c (Cell.blanked (fun i _ => mask.getLsbD i) d.blank), []) := by
  unfold takeClean
  rw [hk, Option.any_some, firesEdges_iff.mpr hf, fireEdge_blanks hk hl ht hd hseg]
  exact congrArg (·, []) (if_pos he)

/-! ### H_KIT (R56) -/

theorem portKit_eq {x lo hi kit dock : _} {sites : _} {mode : _} (h : s.ports[p].data = some (.handler sites lo hi kit dock mode)) :
    portKit p x s = s.modPort p fun r => { r with data := some (.handler sites lo hi x dock mode) } := by
  refine modPort_congr ?_
  rw [h]
  rfl

theorem kitForCell_held {b : Bool} {n : Nat} (hk : s.cell? c = some k) (h : k.kit = n) : kitForCell c n b s
    = (if b && firesEdges k && s.fitsProduct c n then fireEdge .kit c (fun _ x => x.state == .on) s else s, []) := by
  unfold kitForCell
  rw [hk]
  exact if_pos h

theorem kitForCell_other {b : Bool} {n : Nat} (hk : s.cell? c = some k) (h : k.kit ≠ n) :
    kitForCell c n b s = (s.withCell c { k with kit := n }, [.refresh c, .eligibility c]) := by
  unfold kitForCell
  rw [hk]
  exact (if_neg h).trans (congrArg (·, _) (modCell_whole hk))

theorem fitsProduct_of {n : Nat} (hl : s.currentLot? c = some l) (hg : s.product? l.product = some g) :
    s.fitsProduct c n = (g.kit == n) := by
  unfold State.fitsProduct
  rw [hl, Option.bind_some, hg, Option.any_some]

theorem modPort_inService {f : PortRec → PortRec} {q : Port} (h : (f s.ports[p]).state = s.ports[p].state) :
    (s.modPort p f).inService q = s.inService q := by
  unfold State.inService
  by_cases hq : q = p
  · subst hq
    rw [modPort_self, h]
  · rw [modPort_other s hq]

theorem hKit_told {x : BitVec 16} {flag : Byte} {b : Bool} (hs : s.serves p .handler = true) (hl : s.ports[p].controlLock = true)
    (hc : s.cellOfHandler? p = some c) (hb : flagOf flag.toNat = some b) : exec (.hKit p x flag) s
      = settle (kitForCell c x.toNat b (portKit p x.toNat s)).2 (kitForCell c x.toNat b (portKit p x.toNat s)).1 := by
  have taken : takeKit p x.toNat b s = kitForCell c x.toNat b (portKit p x.toNat s) := by
    unfold takeKit
    dsimp only
    rw [show (portKit p x.toNat s).cellOfHandler? p = some c from hc]
  show execHKit p x flag s = _
  unfold execHKit
  rw [hb]
  dsimp only
  rw [taken]
  exact takeHandler_taken hl hs

/-! A kit that the cell holds. -/

section
variable {n : Nat} {b : Bool} (hk : s.cell? c = some k) (h : k.kit = n)
include hk h

theorem kit_rests (hb : b = false ∨ ¬ (k.state = .running ∨ k.state = .paused ∨ k.state = .manual)) : kitForCell c n b s = (s, []) := by
  have still : (b && firesEdges k && s.fitsProduct c n) = false := by
    rcases hb with hb | hb
    · rw [hb, Bool.false_and, Bool.false_and]
    · rw [Bool.eq_false_iff.mpr fun f => hb (firesEdges_iff.mp f), Bool.and_false, Bool.false_and]
  rw [kitForCell_held hk h, still]
  rfl

theorem kit_misfits (hl : s.currentLot? c = some l) (hg : s.product? l.product = some g) (hn : g.kit ≠ n) : kitForCell c n b s = (s, []) := by
  rw [kitForCell_held hk h, fitsProduct_of hl hg, beq_eq_false_iff_ne.mpr hn, Bool.and_false]
  rfl

theorem kit_blanks (hf : k.state = .running ∨ k.state = .paused ∨ k.state = .manual) (hl : s.currentLot? c = some l)
    (hg : s.product? l.product = some g) (hn : g.kit = n) (hseg : k.segment.isSome = true) (ht : s.tally? l.id = some t)
    (hd : s.stepDef? l t.step = some d) : kitForCell c n true s = (s.modCell c (Cell.blankedOn .kit d), []) := by
  rw [kitForCell_held hk h, fitsProduct_of hl hg, beq_iff_eq.mpr hn, firesEdges_iff.mpr hf]
  exact congrArg (·, []) (fireEdge_on hk hl ht hd hseg)

end

/-! A kit that is new to the cell. -/

theorem outOfChamber_empty (h : s.queues[c].current = none) : s.outOfChamber c = false := by
  unfold State.outOfChamber State.currentStep?
  rw [currentLot_none h]
  rcases s.cell? c with _ | k
  · rfl
  · exact Bool.and_false _

theorem Causes.kit_stops {x : Causes} (h : x.kit = true) : x.isEmpty = false := by
  unfold Causes.isEmpty
  rw [h]
  simp

theorem kit_empty {n : Nat} (hk : s.cell? c = some k) (hc : s.queues[c].current = none) (hq : s.queues[c].behind = []) :
    settle [.refresh c, .eligibility c] (s.withCell c { k with kit := n }) = .next (transmit
      { s.modCell c fun k => { k with kit := n, causes := {}, waiting := {} } with pass := { s.pass with pending := true } }) := by
  have told : refreshCell c (s.withCell c { k with kit := n }) = (s.withCell c { k with kit := n, causes := {}, waiting := {} }, []) :=
    (refreshCell_empty withCell_cell hc).trans (congrArg (·, []) ((modCell_whole withCell_cell).trans withCell_again))
  rw [modCell_whole hk]
  exact settle_of_run (fuel := 2) (by decide) ((run_links (fuel := 0) (ns := []) told hq (outOfChamber_empty hc)).trans (run_nil ..))

/-- R45, R48: a RUNNING cell that is told of its inputs and has another kit than its product's. -/
theorem settle_kit_pauses (hk : s.cell? c = some k) (hs : s.inService k.handlerPort = true) (hl : s.currentLot? c = some l)
    (hg : s.product? l.product = some g) (hm : s.marginSteady k.testerPort) (hn : g.kit ≠ k.kit) (hr : k.state = .running)
    (hq : s.queues[c].behind = []) (hch : k.noChanges) :
    ∃ u x, settle [.refresh c, .eligibility c] s = .next (transmit u) ∧ x.kit = true
      ∧ u.cell? c = some (k.pausedAt x (s.timer s.params.withdraw)) ∧ .halt ∈ u.ports[k.handlerPort].out ∧ u.pass.pending = true := by
  have kit : (s.deriveCauses c k).kit = true := by
    unfold State.deriveCauses
    rw [hl]
    dsimp only
    rw [hg]
    simpa using hn
  obtain ⟨up, -⟩ := deriveCauses_links hl k
  rw [hs] at up
  have told := refreshCell_pauses hk hl hm hr hch (Causes.kit_stops kit)
  have cell := consulted_cell (p := k.testerPort) hk
  obtain ⟨ls, ss, computed⟩ := computeMargin_exists (p := k.testerPort) (s := s)
  rw [computed] at told cell
  obtain ⟨u, ran, -, -, ports, pending, paused⟩ := links_paused told cell hq
  exact ⟨u, _, settle_of_run (fuel := 2) (by decide) ((ran 0 []).trans (run_nil ..)), kit, paused,
    ports ▸ pausedFor_halts up hs, pending⟩

/-- R45, R49: a PAUSED cell that is told of its inputs and has nothing left to stop it. -/
theorem settle_resumes (hk : s.cell? c = some k) (hl : s.currentLot? c = some l) (hp : k.state = .paused)
    (hsoak : k.soak = .soaked) (hx : k.causes.handlerLink = false) (h : s.onlyTemp k l g d)
    (hseg : k.segment.isSome = true) (ht : s.tally? l.id = some t) (hstep : t.step = l.step) (hq : s.queues[c].behind = []) :
    ∃ u, settle [.refresh c, .eligibility c] s = .next (transmit u) ∧ .continue_ ∈ u.ports[k.handlerPort].out
      ∧ u.cell? c = some (Cell.resumed d { k with causes := {}, waiting := {} }) := by
  obtain ⟨⟨handler, -, -, -, step, -⟩, -, steady⟩ := id h
  obtain ⟨u, k', ran, cell, -, -, -, -, resumes⟩ := links_paused_up hk hl steady hp hx hq
  obtain ⟨sends, rfl⟩ := resumes t d (deriveCauses_onlyTemp hl h hsoak) ht (by rw [hstep]; exact step) hseg handler
  exact ⟨u, settle_of_run (fuel := 3) (by decide) (ran (fuel := 0) (ns := []) (run_nil ..)), sends, cell⟩

end
end Sys2Proof.Machine

section
open Sys2Proof Sys2Proof.Machine

/-- Settles O41: an index by the changes of its sites, an edge by what it blanks, and a new kit by what its cell makes of it. -/
theorem indexPhaseCleanKit : Obligations.IndexPhaseCleanKit := by
  intro p c k s hs hl hc hk
  have told {f : CellNo → Told} : takeHandler p true s (forCell p s f) = settle (f c).2 (f c).1 := by
    rw [forCell_formed hc]
    exact takeHandler_taken hl hs
  refine ⟨?_, ?_, ?_, told.trans (settle_nil _), told.trans (settle_nil _), ?_, ?_⟩
  · intro mask h
    refine told.trans ?_
    rw [takeIndex_counts hk h]
    exact settle_nil _
  · intro mask l g d t hr hlot h8 only soak causes waiting fed tally step behind
    obtain ⟨ls, ss, rs, n, b, ran⟩ := index_runs hk hr hlot h8 only soak causes waiting fed tally step behind
    refine ⟨_, k.atIndex d mask, told.trans ran, rfl, atIndex_eq, List.length_map .., fun i x hx => ?_⟩
    show (k.sites.map (Site.changed d))[i]? = _
    rw [List.getElem?_map, hx]
    rfl
  · intro x flag sites lo hi kit dock mode hflag hdata behind kept held
    obtain ⟨b, hb⟩ : ∃ b, flagOf flag.toNat = some b := by
      rcases hflag with rfl | rfl
      · exact ⟨false, rfl⟩
      · exact ⟨true, rfl⟩
    have taken := (hKit_told (x := x) hs hl hc hb).trans (congrArg (fun t => settle (kitForCell c x.toNat b t).2 (kitForCell c x.toNat b t).1)
      (portKit_eq hdata))
    have port := cellOfHandler_port hc hk
    have present (q : Port) : kept.inService q = s.inService q := modPort_inService rfl
    refine ⟨fun same => ⟨fun rests => ?_, fun l g flagged hheld hlot hg => ⟨fun misfits => ?_, fun t d fits fed tally step => ?_⟩⟩,
      fun other => ⟨fun none => ?_, fun l g hlot hg steady => ⟨fun misfits hr changes => ?_, fun t d hp soak up only _ fed tally step => ?_⟩⟩⟩
    · have still : b = false ∨ ¬ held := by
        refine rests.imp_left fun h => ?_
        subst h
        exact (Option.some.inj hb).symm
      refine taken.trans ?_
      rw [kit_rests (s := kept) hk same still]
      exact settle_nil _
    · refine taken.trans ?_
      rw [kit_misfits (s := kept) hk same hlot hg misfits]
      exact settle_nil _
    · subst flagged
      obtain rfl : true = b := Option.some.inj hb
      refine taken.trans ?_
      rw [kit_blanks (s := kept) hk same hheld hlot hg fits fed tally step]
      exact settle_nil _
    · refine taken.trans ?_
      rw [kitForCell_other (s := kept) hk other]
      exact kit_empty (s := kept) hk none behind
    · have serves : s.inService k.handlerPort = true := by
        rw [port]
        exact (Bool.and_eq_true_iff.mp hs).1
      obtain ⟨u, y, settles, kit, cell, halts, pending⟩ := settle_kit_pauses (s := kept.withCell c { k with kit := x.toNat })
        withCell_cell ((present _).trans serves) hlot hg (marginSteady_congr (s := s) rfl rfl steady) misfits hr behind changes
      refine ⟨u, _, taken.trans ?_, cell, kit, port ▸ halts, pending, rfl⟩
      rw [kitForCell_other (s := kept) hk other]
      exact settles
    · have left : (kept.withCell c { k with kit := x.toNat }).onlyTemp { k with kit := x.toNat } l g d := by
        obtain ⟨⟨handler, tester, order⟩, passes, margin⟩ := only
        exact ⟨⟨(present _).trans handler, (present _).trans tester, order⟩, passes, marginSteady_congr (s := s) rfl rfl margin⟩
      obtain ⟨u, settles, sends, cell⟩ := settle_resumes (s := kept.withCell c { k with kit := x.toNat })
        withCell_cell hlot hp soak up left fed tally step behind
      refine ⟨u, taken.trans ?_, port ▸ sends, cell⟩
      rw [kitForCell_other (s := kept) hk other]
      exact settles
  · intro mask hr hp hm
    refine told.trans ?_
    rw [takeClean_rests hk hr hp hm]
    exact settle_nil _
  · intro mask l t d hf fed hlot tally step edge
    refine told.trans ?_
    rw [takeClean_blanks hk hf fed hlot tally step edge]
    exact settle_nil _

end
end

