-- ==== Sys2Proof/Proofs/Announces.lean ====
section
-- In order: the check's memory bound leaves no room for a thread per proof.
set_option Elab.async false
/-! ## An ANNOUNCE that brings its port IN_SERVICE (R29 to R32, R37, R42, R83) -/

namespace Sys2Proof.Machine

section
variable {s : State} {c : CellNo} {k : Cell} {l : Lot} {p : Port} {d : StepDef} {g : Product} {t : Tally} {role : Role} {id : Nat}
  {a : AnnounceData} {msg : AnnounceMsg}

/-! ### The port (R29, R32) -/

/-- R32: the record of a port that an ANNOUNCE has brought IN_SERVICE. -/
def PortRec.enrolled (role : Role) (id : Nat) (a : AnnounceData) (r : PortRec) : PortRec :=
  { r with state := .inService, announceTimer := none, role := some role, equip := some id, data := some a }

/-- R32: the state in which an ANNOUNCE has brought its port IN_SERVICE. -/
def State.enrolled (s : State) (p : Port) (role : Role) (id : Nat) (a : AnnounceData) : State :=
  place (.portState p .awaitAnnounce .inService (some role) (some id) none s.ports[p].checkFailed none none)
    (s.modPort p (PortRec.enrolled role id a))

theorem takeAnnounce_enrols (h : announceData msg = some (role, id, a)) (hs : s.ports[p].state = .awaitAnnounce)
    (hk : s.ports[p].role = none ∨ (s.ports[p].role = some role ∧ s.ports[p].equip = some id)) (hd : s.duplicate p (some id) = false) :
    takeAnnounce p msg s = announced p id a (s.enrolled p role id a) := by
  have own : (s.ports[p].role.isSome && !(s.ports[p].role == some role && s.ports[p].equip == some id)) = false := by
    rcases hk with hr | ⟨hr, he⟩
    · rw [hr]; rfl
    · rw [hr, he]; simp
  have report : reportPort p .awaitAnnounce none (s.modPort p (PortRec.enrolled role id a)) = s.enrolled p role id a := by
    unfold reportPort reportPortAs State.enrolled
    rw [modPort_self]
    rfl
  unfold takeAnnounce
  rw [h]
  dsimp only
  rw [if_neg (by rw [own]; decide), if_neg (by rw [hd]; decide), hs]
  exact congrArg (announced p id a) report

theorem enrolled_exists (s : State) (p : Port) (role : Role) (id : Nat) (a : AnnounceData) :
    ∃ rs n, s.enrolled p role id a = { s.modPort p (PortRec.enrolled role id a) with reports := rs, dropped := n } := place_exists ..

theorem duplicate_none (h : ∀ q : Port, q ≠ p → s.ports[q].state = .inService → s.ports[q].equip ≠ some id) :
    s.duplicate p (some id) = false := by
  rw [Bool.eq_false_iff]
  intro twin
  obtain ⟨q, apart, serves, -, same⟩ := duplicate_iff.mp twin
  exact h q apart serves same

/-! ### A handler in no cell (R37) -/

theorem testerPort_enrolled {n : Nat} (h : s.testerPort? n = none) : (s.enrolled p .handler id a).testerPort? n = none := by
  obtain ⟨rs, m, enrolled⟩ := enrolled_exists s p .handler id a
  rw [enrolled]
  unfold State.testerPort? at h ⊢
  rw [List.find?_eq_none] at h ⊢
  intro q hq
  by_cases own : q = p
  · subst own
    show ¬ ((s.modPort q (PortRec.enrolled .handler id a)).inService q && (s.modPort q (PortRec.enrolled .handler id a)).ports[q].role == some .tester
      && (s.modPort q (PortRec.enrolled .handler id a)).ports[q].equip == some n) = true
    rw [modPort_self]
    simp [PortRec.enrolled]
  · have other := modPort_other s own (PortRec.enrolled .handler id a)
    have := h q hq
    unfold State.inService at this ⊢
    rwa [show ({ s.modPort p (PortRec.enrolled .handler id a) with reports := rs, dropped := m } : State).ports[q] = s.ports[q] from other]

theorem setClaim_same {st : ClaimStatus} (h : ∀ x ∈ s.claims, x.port = p → x.status = st) : setClaim p st s = s := by
  have same : s.claims.map (fun x => if x.port == p then { x with status := st } else x) = s.claims := by
    refine (List.map_congr_left fun x hx => ?_).trans (List.map_id _)
    split
    · next own => rw [← h x hx (beq_iff_eq.mp own)]; rfl
    · rfl
  unfold setClaim
  rw [same]

section
variable {n : Nat} (free : ∀ x ∈ s.claims, x.port ≠ p)
include free

theorem takeClaim_first (apart : s.cellOfHandler? p = none) : takeClaim p n s = ({ s with
    claims := s.claims ++ if n = 0 then [] else [{ port := p, tester := n, status := .waiting }] }, [.judgeClaim p]) := by
  have unfound : s.claims.find? (·.port == p) = none := List.find?_eq_none.mpr fun x hx => by
    rw [beq_iff_eq]
    exact free x hx
  have all : s.claims.filter (·.port != p) = s.claims := List.filter_eq_self.mpr fun x hx => bne_iff_ne.mpr (free x hx)
  unfold takeClaim
  dsimp only
  rw [unfound, all, Option.any_none, if_neg Bool.false_ne_true,
    show ({ s with claims := if n = 0 then s.claims else s.claims ++ [{ port := p, tester := n, status := .waiting }] } : State).cellOfHandler? p
      = none from apart]
  dsimp only
  split
  · rw [List.append_nil]
  · rfl

/-- R37: a first claim on a tester that is not IN_SERVICE waits. -/
theorem judgeClaim_waits (away : s.testerPort? n = none) : deliver (.judgeClaim p)
      { s with claims := s.claims ++ if n = 0 then [] else [{ port := p, tester := n, status := .waiting }] }
    = ({ s with claims := s.claims ++ if n = 0 then [] else [{ port := p, tester := n, status := .waiting }] }, []) := by
  have unfound : s.claims.find? (·.port == p) = none := List.find?_eq_none.mpr fun x hx => by
    rw [beq_iff_eq]
    exact free x hx
  show judgeClaim p _ = _
  by_cases hn : n = 0
  · rw [if_pos hn, List.append_nil]
    unfold judgeClaim
    rw [unfound]
  · rw [if_neg hn]
    have waiting := setClaim_same (p := p) (st := .waiting)
      (s := { s with claims := s.claims ++ [{ port := p, tester := n, status := .waiting }] }) fun x hx own => by
        rcases List.mem_append.mp hx with old | new
        · exact absurd own (free x old)
        · rw [List.mem_singleton.mp new]
    unfold judgeClaim
    dsimp only
    rw [List.find?_append, unfound, Option.none_or, List.find?_singleton, if_pos (beq_self_eq_true p)]
    dsimp only
    rw [if_neg (by decide),
      show ({ s with claims := s.claims ++ [{ port := p, tester := n, status := .waiting }] } : State).testerPort? n = none from away]
    dsimp only
    rw [waiting]

end

theorem handler_joins {sites kit dock : Nat} {lo hi : Int} {mode : Mode} (apart : s.outside p) (free : ∀ x ∈ s.claims, x.port ≠ p)
    (away : s.testerPort? dock = none) (ha : a = .handler sites lo hi kit dock mode) :
    settle (announced p id a (s.enrolled p .handler id a)).2 (announced p id a (s.enrolled p .handler id a)).1 = .next (transmit
      { s.enrolled p .handler id a with
        claims := s.claims ++ if dock = 0 then [] else [{ port := p, tester := dock, status := .waiting }] }) := by
  have absent := testerPort_enrolled (p := p) (id := id) (a := a) away
  obtain ⟨rs, n, enrolled⟩ := enrolled_exists s p .handler id a
  rw [enrolled] at absent ⊢
  have alone : State.cellOfHandler? { s.modPort p (PortRec.enrolled .handler id a) with reports := rs, dropped := n } p = none :=
    outside_handler (s := s) apart
  have joins := takeClaim_first (n := dock) (s := { s.modPort p (PortRec.enrolled .handler id a) with reports := rs, dropped := n }) free alone
  have waits := judgeClaim_waits (n := dock) (s := { s.modPort p (PortRec.enrolled .handler id a) with reports := rs, dropped := n }) free absent
  have told : announced p id a { s.modPort p (PortRec.enrolled .handler id a) with reports := rs, dropped := n }
      = takeClaim p dock { s.modPort p (PortRec.enrolled .handler id a) with reports := rs, dropped := n } := by
    subst ha
    unfold announced handlerAnnounced
    dsimp only
    rw [alone]
  rw [told, joins]
  exact settle_of_run (fuel := 1) (by decide) ((run_quiet waits).trans (run_nil ..))

/-! ### The slot record of a tester (R83) -/

section
variable {y : Calibration}

/-- R83: the slot record that an ANNOUNCE sets up, with its margin. -/
def freshSlot (id failures : Nat) (barred : Bool) (y : Calibration) (now : Nat) : Slot :=
  { use := .inUse, equip := some id, failures := failures, barred := barred, cal := some y, margin := some (y.margin now) }

theorem releaseParked_none (h : ∀ q : Port, q ≠ p → s.slots[q].equip ≠ some id) : releaseParked p id s = s := by
  have same : (Vector.ofFn fun q : Fin 32 => if q ≠ p ∧ s.slots[q].use = .parked ∧ s.slots[q].equip = some id then {} else s.slots[q])
      = s.slots := by
    refine Vector.ext fun i hi => ?_
    rw [Vector.getElem_ofFn]
    exact if_neg fun ⟨apart, _, held⟩ => h ⟨i, hi⟩ apart held
  unfold releaseParked
  rw [same]

theorem heldRecord_none (h : ∀ q : Port, s.slots[q].equip ≠ some id) : s.heldRecord p id = none := by
  have unheld (x : Slot) (hx : x ∈ s.slots.toList) : x.equip ≠ some id := by
    obtain ⟨i, hi, rfl⟩ := Vector.mem_iff_getElem.mp (Vector.mem_toList_iff.mp hx)
    exact h ⟨i, hi⟩
  unfold State.heldRecord
  rw [if_neg (h p), List.find?_eq_none.mpr fun x hx => by rw [Bool.and_eq_true, beq_iff_eq, beq_iff_eq]; exact fun held => unheld x hx held.2,
    List.find?_eq_none.mpr fun x hx => by rw [beq_iff_eq]; exact unheld x hx]
  rfl

theorem setUpTester_first (apart : s.cellOfTester? p = none) (free : ∀ q : Port, s.slots[q].equip ≠ some id)
    (idle : s.slots[p].inFlight = false) :
    setUpTester p id y s = s.modSlot p fun _ => freshSlot id 0 false y s.floorTime := by
  have parked : releaseParked p id (parkTester p s) = s.modSlot p Slot.park := by
    rw [parkTester_idle idle]
    refine releaseParked_none fun q hq => ?_
    rw [modSlot_other s hq]
    exact free q
  unfold setUpTester
  rw [heldRecord_none free, parked]
  dsimp only
  rw [modSlot_twice]
  refine (computeMargin_outside (y := y) (s := s.modSlot p _) apart (by rw [modSlot_self]) (by rw [modSlot_self])).trans ?_
  rw [modSlot_twice]
  rfl

theorem setUpTester_again (own : s.slots[p].equip = some id) : ∃ ss rs n,
    setUpTester p id y s = computeMargin p { s with slots := ss, reports := rs, dropped := n }
      ∧ ss[p] = { use := .inUse, equip := some id, failures := s.slots[p].failures, barred := s.slots[p].barred, cal := some y } := by
  have held : s.heldRecord p id = some s.slots[p] := if_pos own
  obtain ⟨rs, n, parked⟩ := parkTester_reported (p := p) (s := s)
  refine ⟨((releaseParked p id (parkTester p s)).modSlot p fun _ =>
    { use := .inUse, equip := some id, failures := s.slots[p].failures, barred := s.slots[p].barred, cal := some y }).slots, rs, n, ?_, ?_⟩
  · unfold setUpTester
    rw [held, parked]
    rfl
  · rw [modSlot_self]

end

/-! ### A tester in no cell (R32, R83) -/

theorem tester_joins {y : Calibration} (apart : s.outside p) (free : ∀ q : Port, s.slots[q].equip ≠ some id) (idle : s.slots[p].inFlight = false)
    (unnamed : ∀ x ∈ s.claims, x.tester ≠ id) :
    settle [.testerTold p, .service p, .retryClaims id] (setUpTester p id y (s.enrolled p .tester id a)) = .next (transmit
      ((s.enrolled p .tester id a).modSlot p fun _ => freshSlot id 0 false y s.floorTime)) := by
  obtain ⟨rs, n, enrolled⟩ := enrolled_exists s p .tester id a
  have alone : State.cellOfTester? { s.modPort p (PortRec.enrolled .tester id a) with reports := rs, dropped := n } p = none :=
    outside_tester (s := s) apart
  rw [enrolled, setUpTester_first alone free idle]
  generalize hw : State.modSlot _ p _ = w
  have told : deliver (.testerTold p) w = (w, []) := deliver_testerTold_outside (by rw [← hw]; exact alone)
  have served : deliver (.service p) w = (w, []) := deliver_service_none (by rw [← hw, modSlot_self]; rfl)
  have retried : deliver (.retryClaims id) w = (w, []) := deliver_retryClaims_formed fun x hx named => by
    rw [← hw] at hx
    exact absurd named (unnamed x hx)
  rw [← hw] at *
  exact settle_of_run (fuel := 3) (by decide) ((run_quiet told).trans ((run_quiet served).trans ((run_quiet retried).trans (run_nil ..))))

/-! ### The tester of a PAUSED cell (R42, R83) -/

/-- R45: the cause set of a cell whose tester has been set up afresh, where its margin passes. -/
theorem deriveCauses_passing {y : Calibration} (hl : s.currentLot? c = some l) (h : s.inOrder k l g d) (hs : k.soak = .soaked)
    (hy : s.slots[k.testerPort].cal = some y) (hp : y.passes s.floorTime d = true) : s.deriveCauses c k = {} := by
  have passes : s.marginPasses k.testerPort d = true := by
    unfold State.marginPasses
    rw [hy]
    exact hp
  rw [deriveCauses_inOrder hl h hs, passes]
  rfl

theorem deriveCauses_unsoaked (hl : s.currentLot? c = some l) (h : k.soak ≠ .soaked) : (s.deriveCauses c k).isEmpty = false := by
  unfold State.deriveCauses Causes.isEmpty
  rw [hl]
  simp [h]

section
variable {y : Calibration} {f : Nat} {b : Bool}
variable (hk : s.cell? c = some k) (hc : s.cellOfTester? k.testerPort = some c) (hl : s.currentLot? c = some l) (hp : k.state = .paused)
  (hx : k.causes.handlerLink = false) (hq : s.queues[c].behind = []) (formed : ∀ x ∈ s.claims, x.tester = id → x.status = .formed)
include hk hc hl hp hx hq formed

/-- R42, R83: what a PAUSED cell makes of a slot record that has been set up afresh. -/
theorem tester_told (hm : s.marginSteady k.testerPort) (slot : s.slots[k.testerPort] = freshSlot id f b y s.floorTime) :
    ∃ u k', settle [.testerTold k.testerPort, .service k.testerPort, .retryClaims id] s = .next (transmit u)
      ∧ u.slots[k.testerPort] = freshSlot id f b y s.floorTime
      ∧ u.cell? c = some k' ∧ k'.causes.testerLink = !s.inService k.testerPort
      ∧ (k.soak ≠ .soaked → k' = { k with causes := k'.causes, waiting := {} })
      ∧ ∀ t g d, k.soak = .soaked → s.inOrder k l g d → y.passes s.floorTime d = true → k.segment.isSome = true → s.tally? l.id = some t →
          t.step = l.step → .continue_ ∈ u.ports[k.handlerPort].out ∧ k' = Cell.resumed d { k with causes := {}, waiting := {} } := by
  have cal : s.slots[k.testerPort].cal = some y := by rw [slot]; rfl
  have inUse : s.slots[k.testerPort].use = .inUse := by rw [slot]; rfl
  obtain ⟨u, k', ran, cell, causes, slots, claims, waits, resumes⟩ := links_paused_up hk hl hm hp hx hq
  have own : u.slots[k.testerPort] = freshSlot id f b y s.floorTime := by
    rw [slots, computeMargin_own inUse cal, slot]
    rfl
  have served : deliver (.service k.testerPort) u = (u, []) := deliver_service_none (by rw [own]; rfl)
  have retried : deliver (.retryClaims id) u = (u, []) := deliver_retryClaims_formed (by rw [claims]; exact formed)
  refine ⟨u, k', settle_of_run (fuel := 6) (by decide) ?_, own, cell, ?_, fun h => waits (deriveCauses_unsoaked hl h),
    fun t g d soak order passes fed tally step => ?_⟩
  · rw [run, deliver_testerTold hc]
    exact ran ((run_quiet served).trans ((run_quiet retried).trans (run_nil ..)))
  · rw [causes]
    exact (deriveCauses_links hl k).2
  · have ⟨handler, _, _, _, stepDef, _⟩ := order
    exact resumes t d (deriveCauses_passing hl order soak cal passes) tally (by rw [step]; exact stepDef) fed handler

/-- R42, R83: the slot record set up for the tester of a PAUSED cell, and what the cell makes of it. -/
theorem tester_returns (own : s.slots[k.testerPort].equip = some id) :
    ∃ u k', settle [.testerTold k.testerPort, .service k.testerPort, .retryClaims id] (setUpTester k.testerPort id y s) = .next (transmit u)
      ∧ u.slots[k.testerPort] = freshSlot id s.slots[k.testerPort].failures s.slots[k.testerPort].barred y s.floorTime
      ∧ u.cell? c = some k' ∧ k'.causes.testerLink = !s.inService k.testerPort
      ∧ (k.soak ≠ .soaked → k' = { k with causes := k'.causes, waiting := {} })
      ∧ ∀ t g d, k.soak = .soaked → s.inOrder k l g d → y.passes s.floorTime d = true → k.segment.isSome = true → s.tally? l.id = some t →
          t.step = l.step → .continue_ ∈ u.ports[k.handlerPort].out ∧ k' = Cell.resumed d { k with causes := {}, waiting := {} } := by
  obtain ⟨ss, rs, n, set, slot⟩ := setUpTester_again (y := y) own
  have steady := marginSteady_computed (p := k.testerPort) (s := { s with slots := ss, reports := rs, dropped := n })
  have margin := computeMargin_own (p := k.testerPort) (s := { s with slots := ss, reports := rs, dropped := n })
    (show ss[k.testerPort].use = .inUse by rw [slot]) (show ss[k.testerPort].cal = some y by rw [slot])
  obtain ⟨l', hl', marked⟩ := currentLot_consulted (p := k.testerPort) (s := { s with slots := ss, reports := rs, dropped := n }) hl
  obtain ⟨lots, slots, computed⟩ := computeMargin_exists (p := k.testerPort) (s := { s with slots := ss, reports := rs, dropped := n })
  rw [computed] at steady margin hl'
  rw [set, computed]
  have fresh : slots[k.testerPort] = freshSlot id s.slots[k.testerPort].failures s.slots[k.testerPort].barred y s.floorTime := by
    refine (show slots[k.testerPort] = _ from margin).trans ?_
    rw [slot]
    rfl
  obtain ⟨lotId, product, step, -⟩ := marked.route
  obtain ⟨u, k', settles, uslots, cell, link, waits, resumes⟩ := tester_told
    (s := { s with slots := slots, reports := rs, dropped := n, lots := lots }) hk hc hl' hp hx hq formed steady fresh
  refine ⟨u, k', settles, uslots, cell, link, waits, fun t g d soak order passes fed tally onStep => ?_⟩
  obtain ⟨handler, tester, mode, known, stepDef, kit, barred, on⟩ := order
  have barred' : slots[k.testerPort].barred = false := by
    rw [fresh]
    exact barred
  refine resumes t g d soak ⟨handler, tester, mode, ?_, ?_, kit, barred', on⟩ passes fed (by rw [lotId]; exact tally) (by rw [step]; exact onStep)
  · rw [product]
    exact known
  · rw [step]
    unfold State.stepDef? at stepDef ⊢
    rw [product]
    exact stepDef

end

end
end Sys2Proof.Machine
end

