-- ==== Sys2Proof/Proofs/HandlerReturns.lean ====
section
-- In order: the check's memory bound leaves no room for a thread per proof.
set_option Elab.async false
/-! ## The fresh ANNOUNCE of the handler of a formed cell (R42, R49) -/

namespace Sys2Proof.Machine

section
variable {s : State} {c : CellNo} {k k2 : Cell} {l : Lot} {p : Port} {d : StepDef} {g : Product} {t : Tally} {id : Nat}

/-! ### Messages to a port in service, one after the other (R34) -/

/-- R34: messages that join those a port has still to be sent. -/
def PortRec.sent (ms : List Down) (r : PortRec) : PortRec := { r with out := r.out ++ ms }

theorem send_served {m : Down} (h : s.inService p = true) : send p m s = s.modPort p (PortRec.sent [m]) := if_pos h

theorem sent_inService {ms : List Down} {q : Port} : (s.modPort p (PortRec.sent ms)).inService q = s.inService q := modPort_inService rfl

theorem send_sent {ms : List Down} {m : Down} (h : s.inService p = true) :
    send p m (s.modPort p (PortRec.sent ms)) = s.modPort p (PortRec.sent (ms ++ [m])) := by
  rw [send_served (sent_inService.trans h), modPort_twice]
  refine modPort_congr ?_
  unfold PortRec.sent
  rw [List.append_assoc]

/-! ### The sets of a cell whose handler has been sent something (R45) -/

theorem deriveCauses_sent {ms : List Down} : (s.modPort p (PortRec.sent ms)).deriveCauses c k = s.deriveCauses c k := by
  unfold State.deriveCauses
  rw [sent_inService, sent_inService]
  rfl

theorem deriveCauses_withCell {e : CellNo} : (s.withCell e k2).deriveCauses c k = s.deriveCauses c k := by
  have enable : (s.withCell e k2).cells[c].enable = s.cells[c].enable := by
    unfold State.withCell
    by_cases h : e = c
    · subst h; simp
    · have : e.val ≠ c.val := fun x => h (Fin.ext x)
      simp [this]
  unfold State.deriveCauses
  rw [enable]
  rfl

/-! ### The setpoint and the mask sent again (R42, R46) -/

/-- R46: a cell record that the setpoint of a step has been written into, with a soak state. -/
def Cell.aimed (d : StepDef) (x : Soak) (k : Cell) : Cell :=
  { k with setpoint := some d.setpoint, band := some d.band, soakTime := some d.soak, soak := x, soakTimer := none }

theorem writeSetpoint_moved (hk : s.cell? c = some k) (h : k.setpoint ≠ some d.setpoint) :
    writeSetpoint c d s = send k.handlerPort (.setpoint d.setpoint) (s.withCell c (k.aimed d .out)) := by
  rw [writeSetpoint_new hk h, modCell_whole hk]
  rfl

theorem writeSetpoint_kept (hk : s.cell? c = some k) (h : k.setpoint = some d.setpoint) (hs : k.soak = .soaked) :
    writeSetpoint c d s = send k.handlerPort (.setpoint d.setpoint) (s.withCell c (k.aimed d .soaked)) := by
  unfold writeSetpoint
  rw [hk]
  dsimp only
  rw [modCell_whole hk]
  simp [h, hs, expired, Cell.aimed]

theorem sendReturn_sent {x : Soak} (hd : s.currentStep? c = some d) (hs : s.inService k.handlerPort = true)
    (hw : writeSetpoint c d s = send k.handlerPort (.setpoint d.setpoint) (s.withCell c (k.aimed d x))) :
    sendReturn c k s = (s.withCell c (k.aimed d x)).modPort k.handlerPort (PortRec.sent [.setpoint d.setpoint, .mask k.targetMask]) := by
  have serves : (s.withCell c (k.aimed d x)).inService k.handlerPort = true := hs
  unfold sendReturn sendSetpoint
  rw [hd]
  dsimp only
  rw [hw, send_served serves, send_sent serves]
  rfl

/-- R42: a PAUSED cell whose handler's link has come up again, with the causes that are left. -/
theorem refreshPaused_back {x : Soak} (hl : s.currentLot? c = some l) (hd : s.stepDef? l l.step = some d) (hs : s.inService k.handlerPort = true)
    (hx : k.causes.handlerLink = true)
    (hw : writeSetpoint c d s = send k.handlerPort (.setpoint d.setpoint) (s.withCell c (k.aimed d x))) :
    refreshPaused c k s = if (s.deriveCauses c (k.aimed d x)).isEmpty then
        resumeRunning c ((s.withCell c { k.aimed d x with causes := s.deriveCauses c (k.aimed d x), waiting := {} }).modPort k.handlerPort
          (PortRec.sent [.setpoint d.setpoint, .mask k.targetMask]))
      else (reportCell c (some .paused)
        ((s.withCell c { k.aimed d x with causes := s.deriveCauses c (k.aimed d x), waiting := {} }).modPort k.handlerPort
          (PortRec.sent [.setpoint d.setpoint, .mask k.targetMask, .halt])), []) := by
  have step : s.currentStep? c = some d := by
    unfold State.currentStep?
    rw [hl]
    exact hd
  have link : (s.deriveCauses c (k.aimed d x)).handlerLink = false := by
    rw [(deriveCauses_links hl _).1, show (k.aimed d x).handlerPort = k.handlerPort from rfl, hs]
    rfl
  have other : s.deriveCauses c (k.aimed d x) ≠ k.causes := fun h => by
    rw [h, hx] at link
    exact Bool.noConfusion link
  have cell : ((s.withCell c (k.aimed d x)).modPort k.handlerPort (PortRec.sent [.setpoint d.setpoint, .mask k.targetMask])).cell? c
      = some (k.aimed d x) := withCell_cell
  have sets : writeSets c (s.deriveCauses c (k.aimed d x)) {}
        ((s.withCell c (k.aimed d x)).modPort k.handlerPort (PortRec.sent [.setpoint d.setpoint, .mask k.targetMask]))
      = (s.withCell c { k.aimed d x with causes := s.deriveCauses c (k.aimed d x), waiting := {} }).modPort k.handlerPort
          (PortRec.sent [.setpoint d.setpoint, .mask k.targetMask]) := by
    refine (modCell_whole cell).trans ?_
    simp [State.withCell, State.modPort]
  have serves : (s.withCell c { k.aimed d x with causes := s.deriveCauses c (k.aimed d x), waiting := {} }).inService k.handlerPort = true := hs
  unfold refreshPaused
  rw [hx, hs]
  dsimp only
  rw [if_pos (show (true && true) = true from rfl), sendReturn_sent step hs hw, cell, Option.getD_some, deriveCauses_sent,
    deriveCauses_withCell, sets, link, if_pos (show (true && true && !false) = true from rfl), if_neg other, send_sent serves]
  rfl

theorem resumedAt_sent {ms : List Down} (h : s.inService k.handlerPort = true) :
    resumedAt c k l d (s.modPort k.handlerPort (PortRec.sent ms))
      = ((s.modPort k.handlerPort (PortRec.sent (ms ++ [.continue_]))).withCell c (k.resumed d)).modTally l.id
          fun t => { t with divider := 0 } := by
  unfold resumedAt
  rw [send_sent h]

/-- R49: a cell that resumes when its handler has been sent something. -/
theorem resumeRunning_sent {ms : List Down} (hk : s.cell? c = some k) (hl : s.currentLot? c = some l) (ht : s.tally? l.id = some t)
    (hd : s.stepDef? l t.step = some d) (hseg : k.segment.isSome = true) (hs : s.inService k.handlerPort = true) :
    ∃ u, resumeRunning c (s.modPort k.handlerPort (PortRec.sent ms)) = (u, [.preemptCheck c]) ∧ u.queues = s.queues ∧ u.claims = s.claims
      ∧ u.ports[k.handlerPort] = PortRec.sent (ms ++ [.continue_]) s.ports[k.handlerPort] ∧ u.cell? c = some (k.resumed d)
      ∧ u.tally? l.id = some { t with divider := 0 } := by
  obtain ⟨rs, n, resumes⟩ := resumeRunning_resumes (s := s.modPort k.handlerPort (PortRec.sent ms)) hk hl ht hd hseg
  have tally := modTally_tally (s := s) (n := l.id) (f := fun t => { t with divider := 0 }) (fun _ => rfl) l.id
  rw [ht, Option.map_some, if_pos rfl] at tally
  rw [resumedAt_sent hs] at resumes
  exact ⟨_, resumes, rfl, rfl, modPort_self .., withCell_cell, tally⟩

/-! ### The cell (R42, R49) -/

theorem deliver_judgeClaim_kept {x : Claim} (hf : s.claims.find? (·.port == p) = some x) (hx : x.status = .formed) :
    deliver (.judgeClaim p) s = (s, []) := by
  show judgeClaim p s = _
  unfold judgeClaim
  rw [hf]
  exact if_pos hx

/-- R39, R42, R65: the notices of an announced handler, where the cell has settled and keeps its claim. -/
theorem settle_claimed {u : State} {x : Claim} (ht : refreshCell c s = (u, [])) (hq : u.queues[c].behind = []) (ho : u.outOfChamber c = false)
    (hf : u.claims.find? (·.port == p) = some x) (hx : x.status = .formed) :
    settle [.refresh c, .eligibility c, .judgeClaim p] s = .next (transmit u.trigger) :=
  settle_of_run (fuel := 3) (by decide) ((run_links (fuel := 1) (ns := [.judgeClaim p]) ht hq ho).trans
    ((run_quiet (deliver_judgeClaim_kept (s := u.trigger) hf hx)).trans (run_nil ..)))

section
variable {x : Claim} (hk : s.cell? c = some k) (hl : s.currentLot? c = some l) (hm : s.marginSteady k.testerPort)
  (hp : k.state = .paused) (hx : k.causes.handlerLink = true) (hs : s.inService k.handlerPort = true)
  (hd : s.stepDef? l l.step = some d) (hq : s.queues[c].behind = []) (hf : s.claims.find? (·.port == k.handlerPort) = some x)
  (formed : x.status = .formed)
include hk hl hm hp hx hs hd hq hf formed

/-- R42, R46: a PAUSED cell whose step needs another setpoint than the chamber has been sent. -/
theorem settle_back_moved (h : k.setpoint ≠ some d.setpoint) : ∃ u k',
    settle [.refresh c, .eligibility c, .judgeClaim k.handlerPort] s = .next (transmit u) ∧ u.claims = s.claims
      ∧ u.ports[k.handlerPort] = PortRec.sent [.setpoint d.setpoint, .mask k.targetMask, .halt] s.ports[k.handlerPort]
      ∧ u.cell? c = some k' ∧ k'.causes.handlerLink = false
      ∧ k' = { k.aimed d .out with causes := k'.causes, waiting := {} } := by
  obtain ⟨l', hl', marked⟩ := currentLot_consulted (p := k.testerPort) hl
  obtain ⟨-, product, step, -⟩ := marked.route
  have told := refreshCell_paused hk hl hm hp
  have cell := consulted_cell (p := k.testerPort) hk
  obtain ⟨ls, ss, computed⟩ := computeMargin_exists (p := k.testerPort) (s := s)
  rw [computed] at told hl' cell
  have onStep : s.stepDef? l' l'.step = some d := by
    rw [step]
    unfold State.stepDef? at hd ⊢
    rw [product]
    exact hd
  have back := refreshPaused_back (s := { s with lots := ls, slots := ss }) hl' onStep hs hx (writeSetpoint_moved cell h)
  rw [if_neg (by rw [deriveCauses_unsoaked hl' (k := k.aimed d .out) (fun h => Soak.noConfusion h)]; decide)] at back
  have link := (deriveCauses_links (s := { s with lots := ls, slots := ss }) hl' (k.aimed d .out)).1
  generalize State.deriveCauses { s with lots := ls, slots := ss } c (k.aimed d .out) = y at back link
  obtain ⟨rs, n, reported⟩ := reportCell_exists (c := c) (x := some .paused)
    (s := (State.withCell { s with lots := ls, slots := ss } c { k.aimed d .out with causes := y, waiting := {} }).modPort k.handlerPort
          (PortRec.sent [.setpoint d.setpoint, .mask k.targetMask, .halt]))
  rw [back, reported] at told
  have settles := settle_claimed told hq
    (outOfChamber_unstarted withCell_cell (by rw [show (k.aimed d .out).state = k.state from rfl, hp]; decide)) hf formed
  refine ⟨_, { k.aimed d .out with causes := y, waiting := {} }, settles, rfl, ?_, withCell_cell, ?_, rfl⟩
  · exact modPort_self ..
  · exact link.trans (by rw [show (k.aimed d .out).handlerPort = k.handlerPort from rfl,
      show State.inService { s with lots := ls, slots := ss } k.handlerPort = s.inService k.handlerPort from rfl, hs]; rfl)

omit hk hl hm hp hx hs hd hq hf formed in
/-- R49: the notices of an announced handler, where the cell has resumed and keeps its claim. -/
theorem settle_resumed {u : State} {k' : Cell} (ht : refreshCell c s = (u, [.preemptCheck c])) (hc : u.cell? c = some k') (hr : k'.state = .running)
    (hq : u.queues[c].behind = []) (hf : u.claims.find? (·.port == p) = some x) (hx : x.status = .formed) :
    settle [.refresh c, .eligibility c, .judgeClaim p] s = .next (transmit u.trigger) := by
  have disabled : u.meetsPreemption c = false := by
    unfold State.meetsPreemption
    rw [hq]
    simp
  have quiet := eligibilityChanged_quiet (c := c) hq (outOfChamber_unstarted hc (by rw [hr]; decide))
  refine settle_of_run (fuel := 4) (by decide) ?_
  rw [run, show deliver (.refresh c) s = _ from ht]
  exact (run_quiet (preemptCheck_quiet disabled)).trans ((run_quiet (n := .eligibility c) quiet).trans
    ((run_quiet (deliver_judgeClaim_kept (s := u.trigger) hf hx)).trans (run_nil ..)))

/-- R42, R49: a PAUSED cell that has nothing but its handler's link to stop it. -/
theorem settle_back_resumes (h : k.setpoint = some d.setpoint) (soak : k.soak = .soaked) (order : s.inOrder k l g d)
    (passes : s.marginPasses k.testerPort d = true) (hseg : k.segment.isSome = true) (ht : s.tally? l.id = some t) (hstep : t.step = l.step) :
    ∃ u, settle [.refresh c, .eligibility c, .judgeClaim k.handlerPort] s = .next (transmit u) ∧ u.claims = s.claims
      ∧ u.ports[k.handlerPort] = PortRec.sent [.setpoint d.setpoint, .mask k.targetMask, .continue_] s.ports[k.handlerPort]
      ∧ u.cell? c = some (Cell.resumed d { k.aimed d .soaked with causes := {}, waiting := {} })
      ∧ u.tally? l.id = some { t with divider := 0 } := by
  obtain ⟨l', hl', marked⟩ := currentLot_consulted (p := k.testerPort) hl
  obtain ⟨lotId, product, step, -⟩ := marked.route
  have told := refreshCell_paused hk hl hm hp
  have cell := consulted_cell (p := k.testerPort) hk
  have causes : s.deriveCauses c (k.aimed d .soaked) = {} := by
    refine (deriveCauses_inOrder (k := k.aimed d .soaked) hl order rfl).trans ?_
    rw [show (k.aimed d .soaked).testerPort = k.testerPort from rfl, passes]
    rfl
  replace causes := (consulted_causes hl hm (k.aimed d .soaked)).trans causes
  obtain ⟨ls, ss, computed⟩ := computeMargin_exists (p := k.testerPort) (s := s)
  rw [computed] at told hl' cell causes
  have onStep (n : Nat) (hn : n = l.step) : s.stepDef? l' n = some d := by
    rw [hn]
    unfold State.stepDef? at hd ⊢
    rw [product]
    exact hd
  have back := refreshPaused_back (s := { s with lots := ls, slots := ss }) hl' (onStep _ step) hs hx (writeSetpoint_kept cell h soak)
  rw [causes, if_pos (show ({} : Causes).isEmpty = true from rfl)] at back
  obtain ⟨u, resumes, queues, claims, ports, runs, tally⟩ := resumeRunning_sent (ms := [.setpoint d.setpoint, .mask k.targetMask])
    (s := State.withCell { s with lots := ls, slots := ss } c { k.aimed d .soaked with causes := {}, waiting := {} })
    (k := { k.aimed d .soaked with causes := {}, waiting := {} }) withCell_cell hl' (by rw [lotId]; exact ht) (onStep _ hstep) hseg hs
  have resumed : refreshCell c s = (u, [.preemptCheck c]) := told.trans (back.trans resumes)
  refine ⟨u.trigger, settle_resumed resumed runs rfl (by rw [queues]; exact hq) (by rw [claims]; exact hf) formed, claims, ports, runs, ?_⟩
  rw [← lotId]
  exact tally

end

/-! ### The announce -/

/-- R42: a cell record under the fresh announce of its handler. -/
def Cell.refitted (sites kit : Nat) (m : Mode) (k : Cell) : Cell :=
  { k with kit := kit, mode := m, sites := k.sites.take sites ++ List.replicate (sites - k.sites.length) {} }

theorem changeMode_quiet {m : Mode} (hk : s.cell? c = some k) (h : k.state = .idle ∨ (k.state = .paused ∧ m = .remote)) :
    changeMode c m s = (s.withCell c { k with mode := m }, []) := by
  have written : s.modCell c (fun k => { k with mode := m }) = s.withCell c { k with mode := m } := modCell_whole hk
  unfold changeMode
  rw [hk]
  dsimp only
  rw [written]
  rcases h with h | ⟨h, rfl⟩
  · rw [h]
    repeat' split
    any_goals rfl
    any_goals contradiction
  · rw [h]
    split
    · rfl
    · rfl

theorem resizeSites_unstarted {n : Nat} (hk : s.cell? c = some k) (h : k.state ≠ .running) :
    resizeSites c n s = s.withCell c { k with sites := k.sites.take n ++ List.replicate (n - k.sites.length) {} } := by
  have written : s.modCell c (fun k => { k with sites := k.sites.take n ++ freshSites (n - k.sites.length) })
      = s.withCell c { k with sites := k.sites.take n ++ freshSites (n - k.sites.length) } := modCell_whole hk
  unfold resizeSites
  rw [hk]
  dsimp only
  rw [if_neg h]
  exact written

theorem refreshHandler_refits {sites kit : Nat} {m : Mode} (hk : s.cell? c = some k) (h : k.state = .idle ∨ (k.state = .paused ∧ m = .remote)) :
    refreshHandler c sites kit m s = (s.withCell c (k.refitted sites kit m), [.refresh c, .eligibility c]) := by
  have stopped : k.state ≠ .running := by
    rcases h with h | ⟨h, -⟩ <;> rw [h] <;> decide
  have fitted : s.modCell c (fun k => { k with kit := kit }) = s.withCell c { k with kit := kit } := modCell_whole hk
  have resized := resizeSites_unstarted (n := sites) (s := s.withCell c { k with kit := kit }) withCell_cell stopped
  rw [withCell_again] at resized
  have moded := changeMode_quiet (m := m) (s := s.withCell c { k with
    kit := kit, sites := k.sites.take sites ++ List.replicate (sites - k.sites.length) {} }) withCell_cell h
  rw [withCell_again] at moded
  unfold refreshHandler
  rw [fitted, resized, moded]
  rfl

/-- R37, R42: the handler of a formed cell that announces the claim it has. -/
theorem announced_refits {sites kit dock : Nat} {lo hi : Int} {m : Mode} {x : Claim} (hk : s.cell? c = some k)
    (hc : s.cellOfHandler? k.handlerPort = some c) (hf : s.claims.find? (·.port == k.handlerPort) = some x) (hx : x.tester = dock)
    (hd : dock = k.testerId) (h : k.state = .idle ∨ (k.state = .paused ∧ m = .remote)) :
    announced k.handlerPort id (.handler sites lo hi kit dock m) s
      = (s.withCell c (k.refitted sites kit m), [.refresh c, .eligibility c, .judgeClaim k.handlerPort]) := by
  have kept : takeClaim k.handlerPort dock s = (s, [.judgeClaim k.handlerPort]) := by
    unfold takeClaim
    rw [hf]
    exact if_pos (beq_iff_eq.mpr hx)
  have own : (s.cell? c).any (·.testerId == dock) = true := by
    rw [hk, Option.any_some, hd]
    exact beq_self_eq_true _
  unfold announced handlerAnnounced
  dsimp only
  rw [hc, kept]
  dsimp only
  rw [if_pos own, refreshHandler_refits hk h]
  rfl

/-- R42: an IDLE cell whose handler has come back. -/
theorem settle_idle_back {x : Claim} (hk : s.cell? c = some k) (hc : s.queues[c].current = none) (hq : s.queues[c].behind = [])
    (hf : s.claims.find? (·.port == p) = some x) (hx : x.status = .formed) :
    settle [.refresh c, .eligibility c, .judgeClaim p] s = .next (transmit (s.withCell c { k with causes := {}, waiting := {} }).trigger) := by
  have told : refreshCell c s = (s.withCell c { k with causes := {}, waiting := {} }, []) :=
    (refreshCell_empty hk hc).trans (congrArg (·, []) (modCell_whole hk))
  exact settle_claimed told hq (outOfChamber_empty hc) hf hx

/-! ### The data of an ANNOUNCE in range (R29 to R31) -/

theorem handlerData_fits {id : BitVec 32} {sites : Byte} {lo hi kit : BitVec 16} {dock : BitVec 32} {mode : Byte} {m : Mode}
    (hm : modeOf mode = some m) : handlerData id sites lo hi kit dock mode =
      if id ≠ 0 ∧ 1 ≤ sites.toNat ∧ sites.toNat ≤ 8 ∧ tempOf lo ≤ tempOf hi ∧ dock ≠ id then
        some (id.toNat, .handler sites.toNat (tempOf lo) (tempOf hi) kit.toNat dock.toNat m)
      else none := by
  unfold handlerData
  rw [hm]

theorem announceData_handler {id : BitVec 32} {sites : Byte} {lo hi kit : BitVec 16} {dock : BitVec 32} {mode : Byte} {m : Mode}
    (hm : modeOf mode = some m) (h : (announceData (.handler id sites lo hi kit dock mode)).isSome) :
    announceData (.handler id sites lo hi kit dock mode)
      = some (.handler, id.toNat, .handler sites.toNat (tempOf lo) (tempOf hi) kit.toNat dock.toNat m) := by
  have whole : announceData (.handler id sites lo hi kit dock mode) = (handlerData id sites lo hi kit dock mode).map fun x => (.handler, x) := rfl
  rw [whole, handlerData_fits hm] at h ⊢
  split at h
  · next fits => rw [if_pos fits]; rfl
  · exact absurd h (by decide)

theorem announceData_tester {id : BitVec 32} {channels : Byte} {temp hours validity base kt kh : BitVec 16}
    (h : (announceData (.tester id channels temp hours validity base kt kh)).isSome) :
    announceData (.tester id channels temp hours validity base kt kh)
      = some (.tester, id.toNat, .tester channels.toNat (tempOf temp) hours.toNat validity.toNat base.toNat kt.toNat kh.toNat) := by
  have whole : announceData (.tester id channels temp hours validity base kt kh)
      = (testerData id channels temp hours validity base kt kh).map fun x => (.tester, x) := rfl
  rw [whole] at h ⊢
  unfold testerData at h ⊢
  split at h
  · next fits => rw [if_pos fits]; rfl
  · exact absurd h (by decide)

theorem inFlight_none {x : Slot} (hs : x.swap = none) (hl : ∀ g v t, x.staged ≠ .loading g v t) : x.inFlight = false := by
  have still : x.isLoading = false := by
    unfold Slot.isLoading
    split
    · next g v t loading => exact absurd loading (hl g v t)
    · rfl
  unfold Slot.inFlight
  rw [still, hs]
  rfl

/-! ### The enrolled port -/

section
variable {role : Role} {a : AnnounceData}

theorem enrolled_record : (s.enrolled p role id a).ports[p] = PortRec.enrolled role id a s.ports[p] := by
  obtain ⟨rs, n, enrolled⟩ := enrolled_exists s p role id a
  rw [enrolled]
  exact modPort_self ..

theorem enrolled_serves : (s.enrolled p role id a).inService p = true := by
  unfold State.inService
  rw [enrolled_record]
  rfl

theorem enrolled_floorTime : (s.enrolled p role id a).floorTime = s.floorTime := by
  obtain ⟨rs, n, enrolled⟩ := enrolled_exists s p role id a
  rw [enrolled]
  rfl

theorem enrolled_inService {q : Port} (h : q ≠ p) : (s.enrolled p role id a).inService q = s.inService q := by
  obtain ⟨rs, n, enrolled⟩ := enrolled_exists s p role id a
  rw [enrolled]
  unfold State.inService
  rw [show State.ports { s.modPort p (PortRec.enrolled role id a) with reports := rs, dropped := n } = (s.modPort p (PortRec.enrolled role id a)).ports from rfl,
    modPort_other s h]

end

/-- R32, R83: what the ANNOUNCE of a tester owes. -/
theorem announced_tester {channels hours validity base kt kh : Nat} {temp : Int} :
    announced p id (.tester channels temp hours validity base kt kh) s
      = (setUpTester p id (announcedCal s.floorTime temp hours validity base kt kh) s, [.testerTold p, .service p, .retryClaims id]) := rfl

/-- R42, R83: the fresh ANNOUNCE of the tester of a PAUSED cell. -/
theorem paused_tester_returns {a : AnnounceData} {y : Calibration} (hk : s.cell? c = some k) (hc : s.cellOfTester? k.testerPort = some c)
    (hl : s.currentLot? c = some l) (hp : k.state = .paused) (hx : k.causes.handlerLink = false) (hq : s.queues[c].behind = [])
    (own : s.slots[k.testerPort].equip = some id) (formed : ∀ x ∈ s.claims, x.tester = id → x.status = .formed) :
    ∃ u k', settle [.testerTold k.testerPort, .service k.testerPort, .retryClaims id]
        (setUpTester k.testerPort id y (s.enrolled k.testerPort .tester id a)) = .next (transmit u)
      ∧ u.slots[k.testerPort] = freshSlot id s.slots[k.testerPort].failures s.slots[k.testerPort].barred y s.floorTime
      ∧ u.cell? c = some k' ∧ k'.causes.testerLink = false
      ∧ (k.soak ≠ .soaked → k' = { k with causes := k'.causes, waiting := {} })
      ∧ ∀ t g d, k.handlerPort ≠ k.testerPort → k.soak = .soaked →
          (s.inService k.handlerPort = true ∧ k.mode = .remote ∧ s.product? l.product = some g ∧ s.stepDef? l l.step = some d ∧ k.kit = g.kit
            ∧ s.slots[k.testerPort].barred = false ∧ k.anyOn = true) →
          y.passes s.floorTime d = true → k.segment.isSome = true → s.tally? l.id = some t → t.step = l.step →
          .continue_ ∈ u.ports[k.handlerPort].out ∧ k' = Cell.resumed d { k with causes := {}, waiting := {} } := by
  have serves := enrolled_serves (s := s) (p := k.testerPort) (role := .tester) (id := id) (a := a)
  have handlers (h : k.handlerPort ≠ k.testerPort) := enrolled_inService (s := s) (role := .tester) (id := id) (a := a) h
  obtain ⟨rs, n, enrolled⟩ := enrolled_exists s k.testerPort .tester id a
  rw [enrolled] at serves handlers ⊢
  obtain ⟨u, k', settles, slot, cell, link, waits, resumes⟩ := tester_returns (y := y)
    (s := { s.modPort k.testerPort (PortRec.enrolled .tester id a) with reports := rs, dropped := n }) hk hc hl hp hx hq formed own
  refine ⟨u, k', settles, slot, cell, ?_, waits, fun t g d apart soak order passes fed tally step => ?_⟩
  · rw [link, serves]
    rfl
  · obtain ⟨handler, mode, product, stepDef, kit, free, on⟩ := order
    exact resumes t g d soak ⟨(handlers apart).trans handler, serves, mode, product, stepDef, kit, free, on⟩ passes fed tally step

/-! ### The ANNOUNCE of the handler of a formed cell -/

section
variable {msg : AnnounceMsg} {sites kit dock : Nat} {lo hi : Int} {m : Mode} {x : Claim}
  (hmsg : announceData msg = some (.handler, id, .handler sites lo hi kit dock m)) (hk : s.cell? c = some k)
  (hc : s.cellOfHandler? k.handlerPort = some c) (hs : s.ports[k.handlerPort].state = .awaitAnnounce)
  (hlock : s.ports[k.handlerPort].controlLock = true) (role : s.ports[k.handlerPort].role = some .handler)
  (equip : s.ports[k.handlerPort].equip = some id) (alone : s.duplicate k.handlerPort (some id) = false)
  (hf : s.claims.find? (·.port == k.handlerPort) = some x) (hx : x.tester = dock) (hdock : dock = k.testerId)
include hmsg hk hc hs hlock role equip alone hf hx hdock

/-- R32, R37, R42: what the ANNOUNCE comes to. -/
theorem handler_returns (h : k.state = .idle ∨ (k.state = .paused ∧ m = .remote)) :
    ∃ rs n, exec (.announce k.handlerPort msg) s = settle [.refresh c, .eligibility c, .judgeClaim k.handlerPort]
      (State.withCell { s.modPort k.handlerPort (PortRec.enrolled .handler id (.handler sites lo hi kit dock m)) with reports := rs, dropped := n }
        c (k.refitted sites kit m)) := by
  obtain ⟨rs, n, enrolled⟩ := enrolled_exists s k.handlerPort .handler id (.handler sites lo hi kit dock m)
  refine ⟨rs, n, ?_⟩
  rw [announce_taken hlock hs, takeAnnounce_enrols hmsg hs (.inr ⟨role, equip⟩) alone, enrolled,
    announced_refits (s := { s.modPort k.handlerPort (PortRec.enrolled .handler id (.handler sites lo hi kit dock m)) with reports := rs, dropped := n })
      hk hc hf hx hdock h]

variable (formed : x.status = .formed) (hq : s.queues[c].behind = [])
include formed hq

theorem idle_handler_returns (idle : k.state = .idle) (hn : s.queues[c].current = none) :
    ∃ u, exec (.announce k.handlerPort msg) s = .next (transmit u) ∧ u.claims = s.claims
      ∧ u.ports[k.handlerPort] = PortRec.enrolled .handler id (.handler sites lo hi kit dock m) s.ports[k.handlerPort] ∧ u.pass.pending = true
      ∧ u.cell? c = some { k.refitted sites kit m with causes := {}, waiting := {} } := by
  obtain ⟨rs, n, announced⟩ := handler_returns hmsg hk hc hs hlock role equip alone hf hx hdock (.inl idle)
  have settles := settle_idle_back (s := State.withCell
    { s.modPort k.handlerPort (PortRec.enrolled .handler id (.handler sites lo hi kit dock m)) with reports := rs, dropped := n } c (k.refitted sites kit m))
    withCell_cell hn hq hf formed
  exact ⟨_, announced.trans settles, rfl, modPort_self .., rfl, withCell_cell⟩

section
variable (paused : k.state = .paused) (link : k.causes.handlerLink = true) (remote : m = .remote) (hl : s.currentLot? c = some l)
  (hd : s.stepDef? l l.step = some d) (hm : s.marginSteady k.testerPort)
include paused link remote hl hd hm

theorem paused_handler_moved (h : k.setpoint ≠ some d.setpoint) :
    ∃ u k', exec (.announce k.handlerPort msg) s = .next (transmit u) ∧ u.claims = s.claims
      ∧ u.ports[k.handlerPort] = PortRec.sent [.setpoint d.setpoint, .mask (k.refitted sites kit m).targetMask, .halt]
          (PortRec.enrolled .handler id (.handler sites lo hi kit dock m) s.ports[k.handlerPort])
      ∧ u.cell? c = some k' ∧ k'.causes.handlerLink = false
      ∧ k' = { (k.refitted sites kit m).aimed d .out with causes := k'.causes, waiting := {} } := by
  obtain ⟨rs, n, announced⟩ := handler_returns hmsg hk hc hs hlock role equip alone hf hx hdock (.inr ⟨paused, remote⟩)
  have record := modPort_self s k.handlerPort (PortRec.enrolled .handler id (.handler sites lo hi kit dock m))
  have serves : (s.modPort k.handlerPort (PortRec.enrolled .handler id (.handler sites lo hi kit dock m))).inService k.handlerPort = true := by
    unfold State.inService
    rw [record]
    rfl
  obtain ⟨u, k', settles, claims, ports, cell, up, rest⟩ := settle_back_moved (s := State.withCell
    { s.modPort k.handlerPort (PortRec.enrolled .handler id (.handler sites lo hi kit dock m)) with reports := rs, dropped := n } c (k.refitted sites kit m))
    withCell_cell hl (marginSteady_congr (s := s) rfl rfl hm) paused link serves hd hq hf formed h
  exact ⟨u, k', announced.trans settles, claims, ports.trans (congrArg (PortRec.sent _) record), cell, up, rest⟩

theorem paused_handler_resumes (h : k.setpoint = some d.setpoint) (soak : k.soak = .soaked) (apart : k.handlerPort ≠ k.testerPort)
    (tester : s.inService k.testerPort = true) (product : s.product? l.product = some g) (fits : kit = g.kit)
    (passes : s.marginPasses k.testerPort d = true) (free : s.slots[k.testerPort].barred = false) (on : (k.refitted sites kit m).anyOn = true)
    (hseg : k.segment.isSome = true) (ht : s.tally? l.id = some t) (hstep : t.step = l.step) :
    ∃ u, exec (.announce k.handlerPort msg) s = .next (transmit u) ∧ u.claims = s.claims
      ∧ u.ports[k.handlerPort] = PortRec.sent [.setpoint d.setpoint, .mask (k.refitted sites kit m).targetMask, .continue_]
          (PortRec.enrolled .handler id (.handler sites lo hi kit dock m) s.ports[k.handlerPort])
      ∧ u.cell? c = some (Cell.resumed d { (k.refitted sites kit m).aimed d .soaked with causes := {}, waiting := {} })
      ∧ u.tally? l.id = some { t with divider := 0 } := by
  obtain ⟨rs, n, announced⟩ := handler_returns hmsg hk hc hs hlock role equip alone hf hx hdock (.inr ⟨paused, remote⟩)
  have record := modPort_self s k.handlerPort (PortRec.enrolled .handler id (.handler sites lo hi kit dock m))
  have serves : (s.modPort k.handlerPort (PortRec.enrolled .handler id (.handler sites lo hi kit dock m))).inService k.handlerPort = true := by
    unfold State.inService
    rw [record]
    rfl
  have other : (s.modPort k.handlerPort (PortRec.enrolled .handler id (.handler sites lo hi kit dock m))).inService k.testerPort = true := by
    unfold State.inService at tester ⊢
    rw [modPort_other s apart.symm]
    exact tester
  obtain ⟨u, settles, claims, ports, cell, tally⟩ := settle_back_resumes (s := State.withCell
    { s.modPort k.handlerPort (PortRec.enrolled .handler id (.handler sites lo hi kit dock m)) with reports := rs, dropped := n } c (k.refitted sites kit m))
    withCell_cell hl (marginSteady_congr (s := s) rfl rfl hm) paused link serves hd hq hf formed h soak
    ⟨serves, other, remote, product, hd, fits, free, on⟩ passes hseg ht hstep
  exact ⟨u, announced.trans settles, claims, ports.trans (congrArg (PortRec.sent _) record), cell, tally⟩

end

end

end
end Sys2Proof.Machine

section
open Sys2Proof Sys2Proof.Machine

/-- Settles O31: the port is enrolled, and what its announce then owes is settled by the role and by the cell. -/
theorem announceAdmits : Obligations.AnnounceAdmits := by
  refine ⟨?_, ?_, ?_, ?_⟩
  · intro p s id sites lo hi kit dock mode m hs hl hk hid h1 h8 hlo hdock hm alone apart free away
    have data := announceData_handler (kit := kit) hm (show (announceData (.handler id sites lo hi kit dock mode)).isSome by
      have whole : announceData (.handler id sites lo hi kit dock mode) = (handlerData id sites lo hi kit dock mode).map fun x => (.handler, x) := rfl
      rw [whole, handlerData_fits hm, if_pos ⟨hid, h1, h8, hlo, hdock⟩]
      rfl)
    rw [announce_taken hl hs, takeAnnounce_enrols data hs hk (duplicate_none alone), handler_joins apart free away rfl]
    have named : dock.toNat = 0 ↔ dock = 0 := ⟨fun h => BitVec.eq_of_toNat_eq h, fun h => by rw [h]; rfl⟩
    rw [if_congr named (rfl : ([] : List Claim) = []) rfl]
    rfl
  · intro p s id channels temp hours validity base kt kh hs hl hk hid h1 h8 hv1 hv2 alone apart unnamed free unswapped unloading cal
    have data := announceData_tester (temp := temp) (hours := hours) (base := base) (kt := kt) (kh := kh)
      (show (announceData (.tester id channels temp hours validity base kt kh)).isSome by
        have whole : announceData (.tester id channels temp hours validity base kt kh)
            = (testerData id channels temp hours validity base kt kh).map fun x => (.tester, x) := rfl
        rw [whole]
        unfold testerData
        rw [if_pos ⟨hid, h1, h8, hv1, hv2⟩]
        rfl)
    rw [announce_taken hl hs, takeAnnounce_enrols data hs (.inl hk) (duplicate_none alone), announced_tester, enrolled_floorTime]
    dsimp only
    have joins := tester_joins (a := .tester channels.toNat (tempOf temp) hours.toNat validity.toNat base.toNat kt.toNat kh.toNat)
      (y := announcedCal s.floorTime (tempOf temp) hours.toNat validity.toNat base.toNat kt.toNat kh.toNat)
      apart free (inFlight_none unswapped unloading) unnamed
    exact joins
  · intro c k s id sites lo hi kit dock mode m x p k1 fresh hk hc apart hs hl role equip hm hdata alone dockId hf named formed behind comes
    have data := announceData_handler hm hdata
    have record : fresh = PortRec.enrolled .handler id.toNat (.handler sites.toNat (tempOf lo) (tempOf hi) kit.toNat dock.toNat m) s.ports[p] := by
      unfold PortRec.enrolled
      rw [← role, ← equip]
    refine ⟨fun idle none => ?_, ?_⟩
    · obtain ⟨u, announces, claims, port, pending, cell⟩ :=
        idle_handler_returns data hk hc hs hl role equip alone hf (named.trans dockId.symm) dockId formed behind idle none
      exact ⟨u, ⟨announces, claims⟩, port.trans record.symm, pending, cell⟩
    · intro l d paused link remote hlot step steady sends
      refine ⟨fun moved => ?_, ?_⟩
      · obtain ⟨u, k', announces, claims, port, cell, up, rest⟩ :=
          paused_handler_moved data hk hc hs hl role equip alone hf (named.trans dockId.symm) dockId formed behind paused link remote hlot step steady moved
        refine ⟨u, k', ⟨announces, claims⟩, ?_, cell, up, rest⟩
        rw [← record] at port
        exact port
      · intro g t same soak tester product fits passes free on _ fed tally onStep
        obtain ⟨u, announces, claims, port, cell, divided⟩ :=
          paused_handler_resumes data hk hc hs hl role equip alone hf (named.trans dockId.symm) dockId formed behind paused link remote hlot step
            steady same soak apart tester product fits passes free on fed tally onStep
        refine ⟨u, _, ⟨announces, claims⟩, ?_, cell, divided, ?_⟩
        · rw [← record] at port
          exact port
        · unfold Cell.resumed Cell.aimed
          rw [← same, ← soak]
          rfl
  · intro c k l g d s id channels temp hours validity base kt kh p cal hk hc apart hs hl role equip hdata alone own formed paused up hlot
      behind product step
    have data := announceData_tester hdata
    obtain ⟨u, k', settles, slot, cell, link, waits, resumes⟩ := paused_tester_returns (a :=
        .tester channels.toNat (tempOf temp) hours.toNat validity.toNat base.toNat kt.toNat kh.toNat)
      (y := announcedCal s.floorTime (tempOf temp) hours.toNat validity.toNat base.toNat kt.toNat kh.toNat)
      hk hc hlot paused up behind own formed
    refine ⟨u, k', ?_, slot, cell, link, waits, fun t soak handler mode kit passes free on _ fed tally onStep => ?_⟩
    · rw [announce_taken hl hs, takeAnnounce_enrols data hs (.inr ⟨role, equip⟩) alone, announced_tester, enrolled_floorTime]
      dsimp only
      exact settles
    · exact resumes t g d apart soak ⟨handler, mode, product, step, kit, free, on⟩ passes fed tally onStep

end
end

