-- ==== Sys2Proof/Proofs/LotsSentWaiting.lean ====
section
-- In order: the check's memory bound leaves no room for a thread per proof.
set_option Elab.async false
/-! ## Lots that are sent WAITING one after the other, and a COUNT_LOST hold (R129, R136) -/

namespace Sys2Proof.Machine

section
variable {s t : State} {c : CellNo} {k : Cell} {l o : Lot} {n i : Nat} {ids : List Nat}

/-! ### Moves to WAITING -/

/-- A state that differs in lots, the wait list, the pass and the report queue alone. -/
def Rehoused (s t : State) : Prop := ∃ ls ws ps rs m, t = { s with lots := ls, waitList := ws, pass := ps, reports := rs, dropped := m }

theorem Rehoused.refl (s : State) : Rehoused s s := ⟨_, _, _, _, _, rfl⟩

theorem Rehoused.trans {u : State} (h : Rehoused s t) (h' : Rehoused t u) : Rehoused s u := by
  obtain ⟨ls, ws, ps, rs, m, rfl⟩ := h
  obtain ⟨ls', ws', ps', rs', m', rfl⟩ := h'
  exact ⟨_, _, _, _, _, rfl⟩

theorem moveLot_rehoused {d : LotState} {x : Location} : Rehoused s (s.moveLot n d x) := ⟨_, _, _, _, _, moveLot_eq s n d x none⟩

theorem toWaiting_rehoused : Rehoused s (s.toWaiting n) := by
  have joined : Rehoused s ((s.moveLot n .waiting .absent).joinWait n) :=
    moveLot_rehoused.trans ⟨_, _, _, _, _, rfl⟩
  unfold State.toWaiting
  dsimp only
  split
  · split
    · exact joined.trans (Rehoused.trans ⟨_, _, _, _, _, rfl⟩ moveLot_rehoused)
    · exact joined
  · exact joined

theorem Rehoused.stopped (h : Rehoused s t) {o' : Lot} (hi : o'.id = o.id) (ho : o'.overflow = o.overflow) : t.stopped o' = s.stopped o := by
  obtain ⟨ls, ws, ps, rs, m, rfl⟩ := h
  unfold State.stopped
  rw [hi, ho]

/-- R136: the record of a lot that has gone WAITING. -/
def Lot.sentWaiting (l : Lot) : Lot := { l with state := .waiting, location := .absent }

theorem toWaiting_own (hl : s.lot? l.id = some l) (hs : s.stopped l = false) :
    (s.toWaiting l.id).lot? l.id = some l.sentWaiting ∧ l.id ∈ (s.toWaiting l.id).waitList := by
  rw [toWaiting_free hl hs]
  refine ⟨?_, mem_joinWait _⟩
  show (s.moveLot l.id .waiting .absent).lot? l.id = _
  rw [moveLot_lot, hl, Option.map_some, if_pos rfl]
  rfl

theorem toWaiting_keeps (h : i ≠ n) (hi : i ∈ s.waitList) : i ∈ (s.toWaiting n).waitList := by
  have joined : i ∈ ((s.moveLot n .waiting .absent).joinWait n).waitList := by
    refine (mem_insertAsc ..).mpr (.inr (List.mem_filter.mpr ⟨?_, bne_iff_ne.mpr h⟩))
    rw [moveLot_waitList]
    exact hi
  unfold State.toWaiting
  dsimp only
  split
  · split
    · rw [moveLot_waitList]
      exact List.mem_filter.mpr ⟨joined, bne_iff_ne.mpr h⟩
    · exact joined
  · exact joined

/-- R41: lots are sent WAITING one after the other. -/
def State.sendWaiting (s : State) (ids : List Nat) : State := ids.foldl (fun s id => s.toWaiting id) s

theorem sendWaiting_cons : s.sendWaiting (n :: ids) = (s.toWaiting n).sendWaiting ids := rfl

theorem sendWaiting_rehoused : Rehoused s (s.sendWaiting ids) := by
  induction ids generalizing s with
  | nil => exact .refl s
  | cons n ids ih => exact toWaiting_rehoused.trans ih

theorem sendWaiting_other (h : i ∉ ids) : (s.sendWaiting ids).lot? i = s.lot? i := by
  induction ids generalizing s with
  | nil => rfl
  | cons n ids ih =>
    obtain ⟨apart, rest⟩ := not_or.mp (mt List.mem_cons.mpr h)
    rw [sendWaiting_cons, ih rest, toWaiting_lot _ _ _ apart]

theorem sendWaiting_keeps (h : i ∉ ids) (hi : i ∈ s.waitList) : i ∈ (s.sendWaiting ids).waitList := by
  induction ids generalizing s with
  | nil => exact hi
  | cons n ids ih =>
    obtain ⟨apart, rest⟩ := not_or.mp (mt List.mem_cons.mpr h)
    exact ih rest (toWaiting_keeps apart hi)

/-- R41, R136: a lot of the list that nothing stops waits in the end. -/
theorem sendWaiting_own (h : o.id ∈ ids) (hl : s.lot? o.id = some o) (hs : s.stopped o = false) :
    (s.sendWaiting ids).lot? o.id = some o.sentWaiting ∧ o.id ∈ (s.sendWaiting ids).waitList := by
  induction ids generalizing s o with
  | nil => exact absurd h List.not_mem_nil
  | cons n ids ih =>
    rw [sendWaiting_cons]
    by_cases own : n = o.id
    · subst own
      obtain ⟨lot, waits⟩ := toWaiting_own hl hs
      by_cases again : o.id ∈ ids
      · exact ih (o := o.sentWaiting) again lot ((toWaiting_rehoused.stopped rfl rfl).trans hs)
      · exact ⟨(sendWaiting_other again).trans lot, sendWaiting_keeps again waits⟩
    · have later : o.id ∈ ids := (List.mem_cons.mp h).resolve_left fun e => own e.symm
      exact ih later ((toWaiting_lot _ _ _ fun e => own e.symm).trans hl) ((toWaiting_rehoused.stopped rfl rfl).trans hs)

/-! ### A COUNT_LOST hold (R129, R130) -/

/-- R129: the record of a COUNT_LOST hold on a lot's step. -/
def lostRecord (id lot step now : Nat) : Hold :=
  { id := id, lot := lot, reason := .countLost, cls := 0, step := step, severity := .atEnd, origin := .automatic
    occurrences := 1, raised := now, capture := none, note := none }

section
variable (room : l.holds.length < 8) (space : s.holds.length < 512)
  (new : ∀ h ∈ s.holds, ¬ (h.lot = l.id ∧ h.reason = .countLost ∧ h.cls = 0 ∧ h.step = i))
include room space new

theorem judgeRaise_lost : s.judgeRaise (lostRequest l.id i) l = .stored (lostRecord (lowestFree 1 s.holds) l.id i s.floorTime) := by
  have unmatched : s.matching? (lostRequest l.id i) = none := List.find?_eq_none.mpr fun h hh => by
    rw [Bool.and_eq_true, Bool.and_eq_true, Bool.and_eq_true, beq_iff_eq, beq_iff_eq, beq_iff_eq, beq_iff_eq]
    exact fun ⟨⟨⟨lot, reason⟩, cls⟩, step⟩ => new h hh ⟨lot, reason, cls, step⟩
  unfold State.judgeRaise
  rw [unmatched]
  exact if_pos ⟨room, space⟩

theorem storeHold_lost {u : State} (hu : u.holds = s.holds) (hf : u.floorTime = s.floorTime) : storeHold (lostRequest l.id i) l u
    = ({ u with holds := insertAsc Hold.id (lostRecord (lowestFree 1 s.holds) l.id i s.floorTime) u.holds } : State).modLot l.id
        fun l => { l with holds := l.holds ++ [lowestFree 1 s.holds] } := by
  have judged := judgeRaise_lost (s := u) room (by rw [hu]; exact space) (by rw [hu]; exact new)
  unfold storeHold
  rw [judged, hu, hf]
  rfl

end

theorem holdEffect_fed (hl : s.lot? l.id = some l) (ha : l.state = .active) (hq : l.location = .queue c 0) (hk : s.cell? c = some k)
    (hs : k.state ≠ .starting) : holdEffect l.id false s = (s, []) := by
  have cell : l.location.cell? = some c := by rw [hq]; rfl
  have own : s.activeCell? l = some k := by
    unfold State.activeCell?
    rw [cell]
    exact hk
  unfold holdEffect
  rw [hl]
  dsimp only
  rw [ha]
  dsimp only
  rw [cell, own]
  dsimp only
  cases hst : k.state with
  | starting => exact absurd hst hs
  | _ => rfl

/-- R130: the record of a lot whose step's acceptance is withdrawn and which carries one more hold. -/
def Lot.lossHeld (i n : Nat) (l : Lot) : Lot :=
  let w := l.withStep i fun r => if r.recon = .accepted then { r with recon := .none } else r
  { w with holds := w.holds ++ [n] }

theorem lossHeld_same (l : Lot) (i n : Nat) : l.lossHeld i n = { l with steps := (l.lossHeld i n).steps, holds := l.holds ++ [n] } := by
  have same := withStep_same (l := l) i fun r => if r.recon = .accepted then { r with recon := .none } else r
  unfold Lot.lossHeld
  dsimp only
  rw [same]

theorem lossHeld_countLost (l : Lot) (i n : Nat) : ((l.lossHeld i n).stepRec i).countLost = (l.stepRec i).countLost := by
  show ((l.withStep i fun r => if r.recon = .accepted then { r with recon := .none } else r).stepRec i).countLost = _
  rw [withStep_stepRec]
  split
  · split <;> rfl
  · rfl

/-- R129, R130: a COUNT_LOST hold is stored on a lot, and has its effect there. -/
theorem raise_stores (hl : s.lot? l.id = some l) (room : l.holds.length < 8) (space : s.holds.length < 512)
    (new : ∀ h ∈ s.holds, ¬ (h.lot = l.id ∧ h.reason = .countLost ∧ h.cls = 0 ∧ h.step = i)) :
    ∃ ls rs m, deliver (.raise (lostRequest l.id i)) s = holdEffect l.id false { s with
        lots := ls, reports := rs, dropped := m
        holds := insertAsc Hold.id (lostRecord (lowestFree 1 s.holds) l.id i s.floorTime) s.holds }
      ∧ ∀ n, State.lot? { s with lots := ls } n = (s.lot? n).map fun r => if n = l.id then r.lossHeld i (lowestFree 1 s.holds) else r := by
  have judged := judgeRaise_lost room space new
  generalize hw : withdrawAcceptance (lostRequest l.id i) s = w
  have withdrawn : w = s.modStep l.id i fun r => if r.recon = .accepted then { r with recon := .none } else r := by rw [← hw]; rfl
  have stored := storeHold_lost (u := w) room space new (by rw [withdrawn]; rfl) (by rw [withdrawn]; rfl)
  obtain ⟨rs, m, placed⟩ := place_exists (raisedReport (lostRequest l.id i) (s.judgeRaise (lostRequest l.id i) l) (s.stateAfterHold l false) s.floorTime)
    (storeHold (lostRequest l.id i) l w)
  have lots (n : Nat) : (storeHold (lostRequest l.id i) l w).lot? n
      = (s.lot? n).map fun r => if n = l.id then r.lossHeld i (lowestFree 1 s.holds) else r := by
    rw [stored]
    refine (modLot_lot _ (f := fun l => { l with holds := l.holds ++ [lowestFree 1 s.holds] }) (fun _ => rfl) n).trans ?_
    show (w.lot? n).map _ = _
    rw [withdrawn, modStep_lot, Option.map_map]
    congr 1
    funext r
    by_cases own : n = l.id
    · rw [Function.comp_apply, if_pos own, if_pos own, if_pos own]
      rfl
    · rw [Function.comp_apply, if_neg own, if_neg own, if_neg own]
  obtain ⟨ls, shape⟩ : ∃ ls, storeHold (lostRequest l.id i) l w = { s with
      lots := ls, holds := insertAsc Hold.id (lostRecord (lowestFree 1 s.holds) l.id i s.floorTime) s.holds } := by
    rw [stored, withdrawn]
    exact ⟨_, rfl⟩
  have told : deliver (.raise (lostRequest l.id i)) s = holdEffect l.id false (place (raisedReport (lostRequest l.id i)
      (s.judgeRaise (lostRequest l.id i) l) (s.stateAfterHold l false) s.floorTime) (storeHold (lostRequest l.id i) l w)) := by
    show raiseHold _ s = _
    unfold raiseHold
    rw [show s.lot? (lostRequest l.id i).lot = some l from hl, hw]
    dsimp only
    rw [judged]
    rfl
  rw [placed] at told
  rw [shape] at told lots
  exact ⟨ls, rs, m, told, lots⟩

theorem lossHeld_own {n : Nat} : (l.lossHeld i n).id = l.id ∧ (l.lossHeld i n).state = l.state ∧ (l.lossHeld i n).location = l.location
    ∧ (l.lossHeld i n).product = l.product ∧ (l.lossHeld i n).step = l.step := by
  rw [lossHeld_same l i n]
  exact ⟨rfl, rfl, rfl, rfl, rfl⟩

/-- R129, R130, R135: a COUNT_LOST hold is stored on a fed lot, which stays where it is. -/
theorem raise_lost (hl : s.lot? l.id = some l) (ha : l.state = .active) (hq : l.location = .queue c 0) (hk : s.cell? c = some k)
    (hs : k.state ≠ .starting) (room : l.holds.length < 8) (space : s.holds.length < 512)
    (new : ∀ h ∈ s.holds, ¬ (h.lot = l.id ∧ h.reason = .countLost ∧ h.cls = 0 ∧ h.step = i)) :
    ∃ ls rs m, deliver (.raise (lostRequest l.id i)) s = ({ s with
        lots := ls, reports := rs, dropped := m
        holds := insertAsc Hold.id (lostRecord (lowestFree 1 s.holds) l.id i s.floorTime) s.holds }, [])
      ∧ ∀ n, State.lot? { s with lots := ls } n = (s.lot? n).map fun r => if n = l.id then r.lossHeld i (lowestFree 1 s.holds) else r := by
  obtain ⟨ls, rs, m, told, lots⟩ := raise_stores hl room space new
  have own := (lots l.id).trans (by rw [hl, Option.map_some, if_pos rfl])
  obtain ⟨id, state, location, -⟩ := lossHeld_own (l := l) (i := i) (n := lowestFree 1 s.holds)
  have rests := holdEffect_fed (c := c) (k := k) (l := l.lossHeld i (lowestFree 1 s.holds)) (s := { s with
      lots := ls, holds := insertAsc Hold.id (lostRecord (lowestFree 1 s.holds) l.id i s.floorTime) s.holds, reports := rs, dropped := m })
    (by rw [id]; exact own) (state.trans ha) (location.trans hq) hk hs
  rw [id] at rests
  exact ⟨ls, rs, m, told.trans rests, lots⟩

theorem holdEffect_unfed (hl : s.lot? l.id = some l) (ha : l.state = .active) (hq : l.location = .queue c 0) (hk : s.cell? c = some k)
    (hs : k.state = .starting) : holdEffect l.id false s = (s, [.leave c .held none]) := by
  have cell : l.location.cell? = some c := by rw [hq]; rfl
  have own : s.activeCell? l = some k := by
    unfold State.activeCell?
    rw [cell]
    exact hk
  unfold holdEffect
  rw [hl]
  dsimp only
  rw [ha]
  dsimp only
  rw [cell, own]
  dsimp only
  rw [hs]

/-- R129, R130, R135: a COUNT_LOST hold is stored on an unfed lot, which is to leave its cell. -/
theorem raise_unfed (hl : s.lot? l.id = some l) (ha : l.state = .active) (hq : l.location = .queue c 0) (hk : s.cell? c = some k)
    (hs : k.state = .starting) (room : l.holds.length < 8) (space : s.holds.length < 512)
    (new : ∀ h ∈ s.holds, ¬ (h.lot = l.id ∧ h.reason = .countLost ∧ h.cls = 0 ∧ h.step = i)) :
    ∃ ls hs rs m, deliver (.raise (lostRequest l.id i)) s = ({ s with lots := ls, holds := hs, reports := rs, dropped := m }, [.leave c .held none])
      ∧ ∃ l', State.lot? { s with lots := ls } l.id = some l' ∧ l'.product = l.product ∧ l'.step = l.step := by
  obtain ⟨ls, rs, m, told, lots⟩ := raise_stores hl room space new
  have own := (lots l.id).trans (by rw [hl, Option.map_some, if_pos rfl])
  obtain ⟨id, state, location, product, step⟩ := lossHeld_own (l := l) (i := i) (n := lowestFree 1 s.holds)
  have leaves := holdEffect_unfed (c := c) (k := k) (l := l.lossHeld i (lowestFree 1 s.holds)) (s := { s with
      lots := ls, holds := insertAsc Hold.id (lostRecord (lowestFree 1 s.holds) l.id i s.floorTime) s.holds, reports := rs, dropped := m })
    (by rw [id]; exact own) (state.trans ha) (location.trans hq) hk hs
  rw [id] at leaves
  exact ⟨ls, _, rs, m, told.trans leaves, _, own, product, step⟩

end
end Sys2Proof.Machine
end

