-- ==== Sys2Proof/Proofs/Dissolutions.lean ====
section
-- In order: the check's memory bound leaves no room for a thread per proof.
set_option Elab.async false
/-! ## A cell dissolves (R40, R41) -/

namespace Sys2Proof.Machine

section
variable {s v : State} {c : CellNo} {k : Cell} {l o : Lot} {n i : Nat} {why : DissolveCause} {lost : Bool}

/-! ### The rest of a dissolution (R40, R41) -/

/-- The lots of a cell that are not its current one. -/
def State.othersOf (s : State) (c : CellNo) : List Nat := s.saves[c].toList ++ s.queues[c].behind

/-- R41: the queue and the save context of a cell are empty. -/
def State.emptied (s : State) (c : CellNo) : State := (s.modQueue c fun _ => {}).setSave c none

theorem dissolveLots_unfed (hc : s.queues[c].current = some n) :
    dissolveLots c false s = (s.emptied c).sendWaiting (n :: s.othersOf c) := by
  unfold dissolveLots
  dsimp only
  rw [hc]
  rfl

theorem dissolveLots_fed (hc : s.queues[c].current = some n) :
    dissolveLots c true s = ((s.emptied c).moveLot n .held .absent).sendWaiting (s.othersOf c) := by
  unfold dissolveLots
  dsimp only
  rw [hc]
  rfl

theorem dissolveLots_rehoused (hc : s.queues[c].current = some n) : Rehoused (s.emptied c) (dissolveLots c lost s) := by
  cases lost with
  | false =>
    rw [dissolveLots_unfed hc]
    exact sendWaiting_rehoused
  | true =>
    rw [dissolveLots_fed hc]
    exact moveLot_rehoused.trans sendWaiting_rehoused

/-- R41: what a dissolution leaves owed: the claims on a tester that is still there, and the handler's new claim. -/
def dissolveOwes (why : DissolveCause) (k : Cell) (s : State) : List Notice :=
  (if s.inService k.testerPort then [.retryClaims k.testerId] else []) ++ (if why = .dockChanged then [.judgeClaim k.handlerPort] else [])

/-- R40, R41: the state in which a cell has gone, with its lots elsewhere. -/
structure Gone (c : CellNo) (k : Cell) (s u : State) : Prop where
  cell : u.cell? c = none
  other : ∀ e, e ≠ c → u.cell? e = s.cell? e
  queue : u.queues[c] = {}
  save : u.saves[c] = none
  request : u.slots[k.testerPort].request = none
  order : u.tallyWait = s.tallyWait.filter (· != c)
  pending : u.pass.pending = true
  claims : u.claims = s.claims
  ports : u.ports = s.ports

/-- R40: the state in which a cell's record is free, its tester is asked for nothing, and it waits for no tally. -/
def State.vacated (s : State) (c : CellNo) (k : Cell) : State :=
  { (setRequest k.testerPort none s).modCellRec c fun r => { r with formed := none } with tallyWait := s.tallyWait.filter (· != c) }

theorem vacated_cell : (s.vacated c k).cell? c = none := by simp [State.vacated, State.modCellRec, State.cell?]

theorem vacated_other {e : CellNo} (he : e ≠ c) : (s.vacated c k).cell? e = s.cell? e := by
  have apart : c.val ≠ e.val := fun h => he (Fin.ext h.symm)
  simp [State.vacated, State.modCellRec, State.cell?, setRequest, State.modSlot, apart]

theorem vacated_request : (s.vacated c k).slots[k.testerPort].request = none := by
  simp [State.vacated, State.modCellRec, setRequest, State.modSlot]

theorem emptied_queue : (s.emptied c).queues[c] = {} := by simp [State.emptied, State.modQueue, State.setSave]

theorem emptied_save : (s.emptied c).saves[c] = none := by simp [State.emptied, State.modQueue, State.setSave]

theorem dissolveRest_vacates (hk : s.cell? c = some k) : ∃ rs m, deliver (.dissolveRest c why lost) s
    = (State.trigger { (dissolveLots c lost s).vacated c k with reports := rs, dropped := m },
        dissolveOwes why k ((dissolveLots c lost s).vacated c k)) := by
  obtain ⟨rs, m, placed⟩ := place_exists (.cellState c (some k.state) none k.handlerId k.testerId none none {} {} (some why))
    ((dissolveLots c lost s).vacated c k)
  refine ⟨rs, m, ?_⟩
  show dissolveRest c why lost s = _
  unfold dissolveRest
  rw [hk]
  have owed := congrArg (fun u : State => (u.trigger, dissolveOwes why k u)) placed
  exact owed

theorem dissolveOwes_congr (h : v.ports = s.ports) : dissolveOwes why k v = dissolveOwes why k s := by
  unfold dissolveOwes State.inService
  rw [h]

theorem dissolveLots_frame (hc : s.queues[c].current = some n) : (dissolveLots c lost s).cells = s.cells
    ∧ (dissolveLots c lost s).queues[c] = {} ∧ (dissolveLots c lost s).saves[c] = none ∧ (dissolveLots c lost s).tallyWait = s.tallyWait
    ∧ (dissolveLots c lost s).claims = s.claims ∧ (dissolveLots c lost s).ports = s.ports ∧ (dissolveLots c lost s).holds = s.holds := by
  obtain ⟨ls, ws, ps, rs, m, left⟩ := dissolveLots_rehoused (lost := lost) hc
  rw [left]
  exact ⟨rfl, emptied_queue, emptied_save, rfl, rfl, rfl, rfl⟩

theorem vacated_frame : (s.vacated c k).lots = s.lots ∧ (s.vacated c k).waitList = s.waitList ∧ (s.vacated c k).queues = s.queues
    ∧ (s.vacated c k).saves = s.saves ∧ (s.vacated c k).claims = s.claims ∧ (s.vacated c k).ports = s.ports ∧ (s.vacated c k).holds = s.holds
    ∧ (s.vacated c k).tallyWait = s.tallyWait.filter (· != c) := ⟨rfl, rfl, rfl, rfl, rfl, rfl, rfl, rfl⟩

theorem dissolveRest_gone (hk : s.cell? c = some k) (hc : s.queues[c].current = some n) :
    ∃ u, deliver (.dissolveRest c why lost) s = (u, dissolveOwes why k s) ∧ Gone c k s u ∧ u.holds = s.holds ∧ u.lots = (dissolveLots c lost s).lots
      ∧ u.waitList = (dissolveLots c lost s).waitList := by
  obtain ⟨rs, m, told⟩ := dissolveRest_vacates (why := why) (lost := lost) hk
  obtain ⟨cells, queue, save, order, claims, ports, holds⟩ := dissolveLots_frame (lost := lost) hc
  generalize dissolveLots c lost s = w at told cells queue save order claims ports holds ⊢
  obtain ⟨lots', waits', queues', saves', claims', ports', holds', order'⟩ := vacated_frame (s := w) (c := c) (k := k)
  have cell := vacated_cell (s := w) (c := c) (k := k)
  have other (e : CellNo) (he : e ≠ c) : (w.vacated c k).cell? e = s.cell? e := (vacated_other he).trans (by unfold State.cell?; rw [cells])
  have request := vacated_request (s := w) (c := c) (k := k)
  rw [← queues'] at queue
  rw [← saves'] at save
  rw [order] at order'
  generalize w.vacated c k = x at told lots' waits' queue save claims' ports' holds' order' cell other request
  rw [dissolveOwes_congr (ports'.trans ports)] at told
  exact ⟨_, told, ⟨cell, other, queue, save, request, order', rfl, claims'.trans claims, ports'.trans ports⟩, holds'.trans holds, lots', waits'⟩

/-! ### A cell whose lot is not fed (R40) -/

/-- R41: the lots of a dissolved cell that were not its current one, and that nothing stops, wait. -/
def State.restWait (s : State) (c : CellNo) (l : Lot) (u : State) : Prop :=
  ∀ n o, n ∈ s.othersOf c → s.lot? n = some o → n ≠ l.id → s.stopped o = false → n ∈ u.waitList ∧ u.holdsLot n .waiting .absent

theorem dissolves_unfed (hk : s.cell? c = some k) (hl : s.currentLot? c = some l) (free : s.stopped l = false) (hn : k.segment = none) :
    ∃ u, (∀ fuel ns, run (fuel + 2) (.dissolve c why :: ns) s = run fuel (dissolveOwes why k s ++ ns) u) ∧ Gone c k s u
      ∧ u.lot? l.id = some l.sentWaiting ∧ l.id ∈ u.waitList ∧ s.restWait c l u := by
  obtain ⟨hc, hlot⟩ := currentLot_id hl
  obtain ⟨u, told, gone, -, lots, waits⟩ := dissolveRest_gone (why := why) (lost := false) hk hc
  rw [dissolveLots_unfed hc] at lots waits
  have lot (n : Nat) : u.lot? n = ((s.emptied c).sendWaiting (l.id :: s.othersOf c)).lot? n := by
    unfold State.lot?
    rw [lots]
  have begun : deliver (.dissolve c why) s = (s, [.dissolveRest c why false]) := by
    show dissolveCell c why s = _
    unfold dissolveCell
    rw [hk, show s.current? c = some l.id from hc]
    dsimp only
    rw [hn]
  have own := sendWaiting_own (s := s.emptied c) (ids := l.id :: s.othersOf c) List.mem_cons_self hlot free
  refine ⟨u, fun fuel ns => ?_, gone, (lot l.id).trans own.1, waits ▸ own.2, fun n o hmem ho _ hs => ?_⟩
  · rw [run, begun, List.singleton_append, run, told]
  · obtain rfl := lot_id ho
    have sent := sendWaiting_own (s := s.emptied c) (ids := l.id :: s.othersOf c) (List.mem_cons_of_mem _ hmem) ho hs
    exact ⟨waits ▸ sent.2, o.sentWaiting, (lot o.id).trans sent.1, rfl, rfl⟩

/-! ### A cell whose lot is fed (R40, R129) -/

theorem hold_free (hs : s.tablesSorted) : s.hold? (lowestFree 1 s.holds) = none := by
  obtain ⟨-, -, -, ascends, positive⟩ := hs
  refine List.find?_eq_none.mpr fun h hh => ?_
  rw [beq_iff_eq]
  exact (lowestFree_free ascends positive).2 h hh

theorem hold_stored (hs : s.tablesSorted) {x : Hold} (hx : x.id = lowestFree 1 s.holds) (hv : v.holds = insertAsc Hold.id x s.holds) :
    v.hold? (lowestFree 1 s.holds) = some x := by
  obtain ⟨-, -, -, ascends, positive⟩ := hs
  unfold State.hold?
  rw [hv]
  refine (find_insertAsc Hold.id x s.holds _ fun h hh => ?_).trans (if_pos hx)
  rw [hx]
  exact (lowestFree_free ascends positive).2 h hh

theorem stopped_stored {x : Hold} (hx : x.lot ≠ o.id) (hv : v.holds = insertAsc Hold.id x s.holds) : v.stopped o = s.stopped o := by
  have stops : v.holds.any (fun h => h.lot == o.id && h.severity != .ship) = s.holds.any fun h => h.lot == o.id && h.severity != .ship := by
    rw [hv, Bool.eq_iff_iff, List.any_eq_true, List.any_eq_true]
    refine ⟨fun ⟨h, hh, ho⟩ => ?_, fun ⟨h, hh, ho⟩ => ⟨h, (mem_insertAsc ..).mpr (.inr hh), ho⟩⟩
    rcases (mem_insertAsc ..).mp hh with rfl | old
    · exact absurd (beq_iff_eq.mp (Bool.and_eq_true_iff.mp ho).1) hx
    · exact ⟨h, old, ho⟩
  unfold State.stopped
  rw [stops]

/-- R40: the record of a lot whose step's counts are lost. -/
def Lot.countsLost (i : Nat) (l : Lot) : Lot := l.withStep i fun r => { r with countLost := true }

/-- R40, R53: the record of a cell whose segment has closed. -/
def Cell.closed (k : Cell) : Cell := { k with segment := none, drainTimer := none }

section
variable {g : Segment}

theorem loseSegment_lot (m : Nat) : (loseSegment c g s).lot? m = (s.lot? m).map fun r => if m = g.lot then r.countsLost g.step else r :=
  modStep_lot (s := s) g.lot g.step m fun r => { r with countLost := true }

theorem loseSegment_cell (hk : s.cell? c = some k) : (loseSegment c g s).cell? c = some k.closed := by
  refine (modCell_cell ..).trans ?_
  rw [show (s.modStep g.lot g.step fun r => { r with countLost := true }).cell? c = some k from hk]
  rfl

theorem loseSegment_other {e : CellNo} (he : e ≠ c) : (loseSegment c g s).cell? e = s.cell? e := modCell_other _ he _

theorem countsLost_same : l.countsLost i = { l with steps := (l.countsLost i).steps } := withStep_same ..

theorem countsLost_marks (hi : i < 6) : ((l.countsLost i).stepRec i).countLost = true := by
  unfold Lot.countsLost
  rw [withStep_stepRec, if_pos ⟨rfl, hi⟩]

end

/-- R40, R129: the segment closes and a COUNT_LOST hold is stored on its lot. -/
theorem lose_and_raise {now : Nat} (hk : s.cell? c = some k) (hl : s.lot? l.id = some l) (hs : k.state ≠ .starting) (ha : l.state = .active)
    (hq : l.location = .queue c 0) (loss : s.takesLoss l i) :
    ∃ v, deliver (.raise (lostRequest l.id i)) (loseSegment c { lot := l.id, step := i, feedTime := now } s) = (v, [])
      ∧ (v.cell? c = some k.closed ∧ ∀ e, e ≠ c → v.cell? e = s.cell? e)
      ∧ (v.queues = s.queues ∧ v.saves = s.saves ∧ v.slots = s.slots ∧ v.tallyWait = s.tallyWait ∧ v.claims = s.claims ∧ v.ports = s.ports)
      ∧ v.holds = insertAsc Hold.id (lostRecord (lowestFree 1 s.holds) l.id i s.floorTime) s.holds
      ∧ (∀ m, m ≠ l.id → v.lot? m = s.lot? m)
      ∧ v.lot? l.id = some ((l.countsLost i).lossHeld i (lowestFree 1 s.holds)) := by
  obtain ⟨-, -, room, space, new⟩ := loss
  have lots := loseSegment_lot (s := s) (c := c) (g := { lot := l.id, step := i, feedTime := now })
  have cell := loseSegment_cell (g := { lot := l.id, step := i, feedTime := now }) hk
  have others (e : CellNo) := loseSegment_other (s := s) (c := c) (e := e) (g := { lot := l.id, step := i, feedTime := now })
  obtain ⟨id, state, location, holds⟩ : (l.countsLost i).id = l.id ∧ (l.countsLost i).state = l.state ∧ (l.countsLost i).location = l.location
      ∧ (l.countsLost i).holds = l.holds := by
    rw [countsLost_same]
    exact ⟨rfl, rfl, rfl, rfl⟩
  have frame : (loseSegment c { lot := l.id, step := i, feedTime := now } s).queues = s.queues
      ∧ (loseSegment c { lot := l.id, step := i, feedTime := now } s).saves = s.saves
      ∧ (loseSegment c { lot := l.id, step := i, feedTime := now } s).slots = s.slots
      ∧ (loseSegment c { lot := l.id, step := i, feedTime := now } s).tallyWait = s.tallyWait
      ∧ (loseSegment c { lot := l.id, step := i, feedTime := now } s).claims = s.claims
      ∧ (loseSegment c { lot := l.id, step := i, feedTime := now } s).ports = s.ports
      ∧ (loseSegment c { lot := l.id, step := i, feedTime := now } s).holds = s.holds
      ∧ (loseSegment c { lot := l.id, step := i, feedTime := now } s).floorTime = s.floorTime := ⟨rfl, rfl, rfl, rfl, rfl, rfl, rfl, rfl⟩
  generalize loseSegment c { lot := l.id, step := i, feedTime := now } s = w at lots cell others frame ⊢
  obtain ⟨queues, saves, slots, order, claims, ports, held, clock⟩ := frame
  have own : w.lot? (l.countsLost i).id = some (l.countsLost i) := by
    rw [id, lots, hl, Option.map_some, if_pos rfl]
  obtain ⟨ls, rs, m, told, raised⟩ := raise_lost (i := i) own (state.trans ha) (location.trans hq) cell hs (by rw [holds]; exact room)
    (by rw [held]; exact space) (by rw [held, id]; exact new)
  rw [id, held, clock] at told
  rw [id, held] at raised
  refine ⟨_, told, ⟨cell, others⟩, ⟨queues, saves, slots, order, claims, ports⟩, rfl, fun n hn => ?_, ?_⟩
  · refine (raised n).trans ?_
    rw [lots]
    cases s.lot? n with
    | none => rfl
    | some r => rw [Option.map_some, if_neg hn, Option.map_some, if_neg hn]
  · refine (raised l.id).trans ?_
    rw [id] at own
    rw [own, Option.map_some, if_pos rfl]

theorem dissolve_begins {g : Segment} (hk : s.cell? c = some k) (hc : s.queues[c].current = some n) (hg : k.segment = some g) :
    deliver (.dissolve c why) s = (loseSegment c g s, [.raise (lostRequest g.lot g.step), .dissolveRest c why true]) := by
  show dissolveCell c why s = _
  unfold dissolveCell
  rw [hk, show s.current? c = some n from hc]
  dsimp only
  rw [hg]

theorem dissolves_fed {now : Nat} (hk : s.cell? c = some k) (hl : s.currentLot? c = some l)
    (hg : k.segment = some { lot := l.id, step := i, feedTime := now }) (hs : k.state ≠ .starting) (ha : l.state = .active)
    (hq : l.location = .queue c 0) (apart : l.id ∉ s.othersOf c) (loss : s.takesLoss l i) :
    ∃ u, (∀ fuel ns, run (fuel + 3) (.dissolve c why :: ns) s = run fuel (dissolveOwes why k s ++ ns) u) ∧ Gone c k s u
      ∧ s.losesCounts u l i ∧ s.restWait c l u := by
  obtain ⟨hc, hlot⟩ := currentLot_id hl
  obtain ⟨v, raised, ⟨cell, others⟩, ⟨queues, saves, -, order, claims, ports⟩, holds, lots, own⟩ :=
    lose_and_raise (now := now) hk hlot hs ha hq loss
  have current : v.queues[c].current = some l.id := by rw [queues]; exact hc
  obtain ⟨u, told, gone, kept, lots', waits⟩ := dissolveRest_gone (why := why) (lost := true) cell current
  have rest : v.othersOf c = s.othersOf c := by
    unfold State.othersOf
    rw [queues, saves]
  rw [dissolveLots_fed current, rest] at lots' waits
  have lot (n : Nat) : u.lot? n = (((v.emptied c).moveLot l.id .held .absent).sendWaiting (s.othersOf c)).lot? n := by
    unfold State.lot?
    rw [lots']
  have moved (n : Nat) : ((v.emptied c).moveLot l.id .held .absent).lot? n
      = (v.lot? n).map fun r => if n = l.id then { r with state := .held, location := .absent } else r := moveLot_lot (s := v.emptied c) ..
  refine ⟨u, fun fuel ns => ?_, ?_, ?_, fun n o hmem ho hn hstop => ?_⟩
  · rw [run, dissolve_begins hk hc hg]
    show run (fuel + 2) (.raise (lostRequest l.id i) :: .dissolveRest c why true :: ns) _ = _
    rw [run, raised, List.nil_append, run, told, dissolveOwes_congr ports]
    rfl
  · exact ⟨gone.cell, fun e he => (gone.other e he).trans (others e he), gone.queue, gone.save, gone.request, order ▸ gone.order, gone.pending,
      gone.claims.trans claims, gone.ports.trans ports⟩
  · obtain ⟨step, sorted, -, -, -⟩ := id loss
    have held := (lot l.id).trans ((sendWaiting_other apart).trans ((moved l.id).trans (by rw [own, Option.map_some, if_pos rfl])))
    have record := hold_stored (v := u) sorted (x := lostRecord (lowestFree 1 s.holds) l.id i s.floorTime) rfl (kept.trans holds)
    refine ⟨lowestFree 1 s.holds, _, hold_free sorted, record, held, rfl, rfl, ?_, ?_⟩
    · rw [lossHeld_same, countsLost_same]
    · exact (lossHeld_countLost (l.countsLost i) i (lowestFree 1 s.holds)).trans (countsLost_marks step)
  · obtain rfl := lot_id ho
    have untouched : ((v.emptied c).moveLot l.id .held .absent).lot? o.id = some o := by
      rw [moved, lots _ hn, ho, Option.map_some, if_neg hn]
    have free : ((v.emptied c).moveLot l.id .held .absent).stopped o = false :=
      (moveLot_rehoused.stopped (s := v.emptied c) rfl rfl).trans ((stopped_stored (s := s) (v := v) (fun h => hn h.symm) holds).trans hstop)
    obtain ⟨waiting, listed⟩ := sendWaiting_own hmem untouched free
    exact ⟨waits ▸ listed, o.sentWaiting, (lot o.id).trans waiting, rfl, rfl⟩

/-! ### The whole dissolution -/

/-- R40, R41: what a dissolution leaves free and waiting, by the state before. -/
def State.frees (s : State) (c : CellNo) (k : Cell) (l : Lot) (u : State) : Prop :=
  u.queues[c] = {} ∧ u.saves[c] = none ∧ u.slots[k.testerPort].request = none ∧ u.tallyWait = s.tallyWait.filter (· != c)
    ∧ u.pass.pending = true ∧ s.restWait c l u

/-- R40, R41: what a dissolution comes to, as an outcome, by the state before. -/
def State.dissolvesTo (s : State) (c : CellNo) (k : Cell) (l : Lot) (x : Host.Outcome State Fault Refusal) (claims : List Claim) : Prop :=
  (k.segment = none → ∃ u : State, x = .next (transmit u) ∧ s.frees c k l u ∧ u.cell? c = none ∧ u.claims = claims
      ∧ u.lot? l.id = some { l with state := .waiting, location := .absent } ∧ l.id ∈ u.waitList)
    ∧ ∀ i' now, k.segment = some { lot := l.id, step := i', feedTime := now } → k.state ≠ .starting → k.state ≠ .idle →
        l.state = .active → l.location = .queue c 0 → l.id ∉ s.othersOf c → s.takesLoss l i' →
      ∃ u : State, x = .next (transmit u) ∧ s.frees c k l u ∧ u.cell? c = none ∧ u.claims = claims ∧ s.losesCounts u l i'

/-- R39: what a dissolution owes changes nothing where every claim on the tester, and every new one of the handler, is FORMED. -/
theorem run_owed {u : State} (hc : u.claims = v.claims) (tester : v.inService k.testerPort = true → ∀ x ∈ v.claims, x.tester = k.testerId → x.status = .formed)
    (handler : why = .dockChanged → ∀ x ∈ v.claims, x.port = k.handlerPort → x.status = .formed) :
    run 2 (dissolveOwes why k v) u = some u := by
  have retried : v.inService k.testerPort = true → deliver (.retryClaims k.testerId) u = (u, []) := fun h =>
    deliver_retryClaims_formed (by rw [hc]; exact tester h)
  have judged : why = .dockChanged → deliver (.judgeClaim k.handlerPort) u = (u, []) := fun h =>
    deliver_judgeClaim_formed (by rw [hc]; exact handler h)
  unfold dissolveOwes
  by_cases ht : v.inService k.testerPort = true <;> by_cases hw : why = .dockChanged
  · rw [if_pos ht, if_pos hw]
    exact (run_quiet (retried ht)).trans ((run_quiet (judged hw)).trans (run_nil ..))
  · rw [if_pos ht, if_neg hw]
    exact (run_quiet (retried ht)).trans (run_nil ..)
  · rw [if_neg ht, if_pos hw]
    exact (run_quiet (judged hw)).trans (run_nil ..)
  · rw [if_neg ht, if_neg hw]
    exact run_nil ..

/-- R40, R41: a cell dissolves with nothing left owed. -/
theorem settle_dissolves (hk : s.cell? c = some k) (hl : s.currentLot? c = some l) (free : s.stopped l = false)
    (tester : s.inService k.testerPort = true → ∀ x ∈ s.claims, x.tester = k.testerId → x.status = .formed)
    (handler : why = .dockChanged → ∀ x ∈ s.claims, x.port = k.handlerPort → x.status = .formed) :
    s.dissolvesTo c k l (settle [.dissolve c why] s) s.claims := by
  refine ⟨fun hn => ?_, fun i now hg hs _ ha hq apart loss => ?_⟩
  · obtain ⟨u, ran, gone, lot, waits, rest⟩ := dissolves_unfed (why := why) hk hl free hn
    refine ⟨u, settle_of_run (fuel := 4) (by decide) ((ran 2 []).trans ?_),
      ⟨gone.queue, gone.save, gone.request, gone.order, gone.pending, rest⟩, gone.cell, gone.claims, lot, waits⟩
    rw [List.append_nil]
    exact run_owed gone.claims tester handler
  · obtain ⟨u, ran, gone, loses, rest⟩ := dissolves_fed (why := why) hk hl hg hs ha hq apart loss
    refine ⟨u, settle_of_run (fuel := 5) (by decide) ((ran 2 []).trans ?_),
      ⟨gone.queue, gone.save, gone.request, gone.order, gone.pending, rest⟩, gone.cell, gone.claims, loses⟩
    rw [List.append_nil]
    exact run_owed gone.claims tester handler

/-- A state that differs in ports, claims, pins, slot records and reports alone, and in a count that R24 leaves free. -/
def Departing (s v : State) : Prop :=
  ∃ ps cs pn ss rs m f, v = { s with ports := ps, claims := cs, pins := pn, slots := ss, reports := rs, dropped := m, freeCount := f }

theorem Departing.dissolvesTo (h : Departing s v) {x : Host.Outcome State Fault Refusal} {claims : List Claim}
    (hx : v.dissolvesTo c k l x claims) : s.dissolvesTo c k l x claims := by
  obtain ⟨ps, cs, pn, ss, rs, m, f, rfl⟩ := h
  exact hx

theorem Departing.dissolves (h : Departing s v) (hk : s.cell? c = some k) (hl : s.currentLot? c = some l) (free : s.stopped l = false)
    (tester : v.inService k.testerPort = true → ∀ x ∈ v.claims, x.tester = k.testerId → x.status = .formed)
    (handler : why = .dockChanged → ∀ x ∈ v.claims, x.port = k.handlerPort → x.status = .formed) :
    s.dissolvesTo c k l (settle [.dissolve c why] v) v.claims := by
  refine h.dissolvesTo (settle_dissolves ?_ ?_ ?_ tester handler)
  all_goals obtain ⟨ps, cs, pn, ss, rs, m, f, rfl⟩ := h
  · exact hk
  · exact hl
  · exact free

/-! ### What dissolves a cell (R20, R32, R37) -/

theorem takeClaim_dissolves {p : Port} (hc : s.cellOfHandler? p = some c) (named : ∀ x ∈ s.claims, x.port = p → x.tester ≠ 0) :
    takeClaim p 0 s = ({ s with claims := s.claims.filter (·.port != p) }, [.dissolve c .dockChanged]) := by
  have renamed : (s.claims.find? (·.port == p)).any (·.tester == 0) = false := by
    cases hf : s.claims.find? (·.port == p) with
    | none => rfl
    | some x =>
      have own : x.port = p := beq_iff_eq.mp (List.find?_some hf :)
      exact beq_eq_false_iff_ne.mpr (named x (List.mem_of_find?_eq_some hf) own)
  unfold takeClaim
  dsimp only
  rw [renamed, if_neg Bool.false_ne_true, if_pos rfl,
    show ({ s with claims := s.claims.filter (·.port != p) } : State).cellOfHandler? p = some c from hc]

theorem undocked_told {p : Port} (hc : s.cellOfHandler? p = some c) (hs : s.serves p .handler = true) (hlock : s.ports[p].controlLock = true)
    (named : ∀ x ∈ s.claims, x.port = p → x.tester ≠ 0) :
    exec (.hDock p 0) s = settle [.dissolve c .dockChanged] { s with claims := s.claims.filter (·.port != p) } := by
  show execHDock p 0 s = _
  unfold execHDock
  rw [show (0 : BitVec 32).toNat = 0 from rfl, takeClaim_dissolves hc named]
  exact takeHandler_taken hlock hs

/-- R37: the handler of a cell docks at no tester. -/
theorem undocked_dissolves (hk : s.cell? c = some k) (hc : s.cellOfHandler? k.handlerPort = some c) (hl : s.currentLot? c = some l)
    (free : s.stopped l = false) (hs : s.serves k.handlerPort .handler = true) (hlock : s.ports[k.handlerPort].controlLock = true)
    (named : ∀ x ∈ s.claims, x.port = k.handlerPort → x.tester ≠ 0)
    (alone : ∀ x ∈ s.claims.filter fun x => x.port != k.handlerPort, x.tester ≠ k.testerId) :
    s.dissolvesTo c k l (exec (.hDock k.handlerPort 0) s) (s.claims.filter fun x => x.port != k.handlerPort) := by
  have departing : Departing s { s with claims := s.claims.filter (·.port != k.handlerPort) } := ⟨_, _, _, _, _, _, _, rfl⟩
  rw [undocked_told hc hs hlock named]
  refine departing.dissolves hk hl free (fun _ x hx h => absurd h (alone x hx)) fun _ x hx h => ?_
  exact absurd h (bne_iff_ne.mp (List.mem_filter.mp hx).2)

/-- R20, R32: the port of a handler departs from its cell. -/
theorem departed_handler {p : Port} {equip : Option Nat} (hc : s.cellOfHandler? p = some c) : departed p (some .handler) equip s
    = ({ s with claims := s.claims.filter (·.port != p) }, [.dissolve c .handlerGone]) := by
  unfold departed
  dsimp only
  rw [show ({ s with claims := s.claims.filter (·.port != p) } : State).cellOfHandler? p = some c from hc]

/-- R20, R32, R91: the port of a tester departs from its cell. -/
theorem departed_tester {p : Port} {equip : Option Nat} (hc : s.cellOfTester? p = some c) : ∃ rs m, departed p (some .tester) equip s
    = ({ s.parted p (some .tester) equip with reports := rs, dropped := m }, [.dissolve c .testerGone]) := by
  obtain ⟨rs, m, left⟩ := departed_reported (s := s) (p := p) (role := some .tester) (equip := equip)
  have owned : (parkTester p s).cellOfTester? p = some c := (cellOfTester_congr parkTester_cells).trans hc
  have owed : (departed p (some .tester) equip s).2 = [.dissolve c .testerGone] :=
    congrArg (fun x : Option CellNo => match x with | some c => [Notice.dissolve c .testerGone] | none => []) owned
  exact ⟨rs, m, Prod.ext left owed⟩

/-- R20: a fall, by what it leaves of the port record before the equipment departs. -/
theorem presenceFell_departs {p : Port} (h : s.ports[p].state ≠ .absent) : ∃ f rs m, presenceFell p s
    = departed p s.ports[p].role s.ports[p].equip
        { s with ports := s.ports.set p (s.ports[p].fallen (abandonedCheck s p)), freeCount := f, reports := rs, dropped := m } := by
  obtain ⟨f, fallen⟩ := clearCheck_fallen (s := s) (p := p) (abandonedCheck s p)
  obtain ⟨rs, m, told⟩ := reportPort_reported (s := { s.modPort p (fun r => r.fallen (abandonedCheck s p)) with freeCount := f })
    (p := p) (x := s.ports[p].state) (e := abandonedCheck s p)
  refine ⟨f, rs, m, ?_⟩
  unfold presenceFell
  rw [if_neg h]
  dsimp only
  rw [fallen, told]
  rfl

theorem fallen_unserved {p : Port} {x : Option LastCheck} (h : v.ports = s.ports.set p (s.ports[p].fallen x)) : v.inService p = false := by
  unfold State.inService
  rw [h, ports_set_self]
  rfl

/-- R20, R40: a presence fall at the port of a cell's handler. -/
theorem handlerFall_dissolves (hk : s.cell? c = some k) (hc : s.cellOfHandler? k.handlerPort = some c) (hl : s.currentLot? c = some l)
    (free : s.stopped l = false) (present : s.ports[k.handlerPort].state ≠ .absent) (hr : s.ports[k.handlerPort].role = some .handler)
    (alone : ∀ x ∈ s.claims.filter fun x => x.port != k.handlerPort, x.tester ≠ k.testerId) :
    s.dissolvesTo c k l (exec (.presenceFall k.handlerPort) s) (s.claims.filter fun x => x.port != k.handlerPort) := by
  obtain ⟨f, rs, m, fell⟩ := presenceFell_departs (s := { s with pins := s.pins.setPresence k.handlerPort false }) present
  dsimp only at fell
  rw [hr, departed_handler (by exact hc)] at fell
  have told := congrArg (fun x : Told => settle x.2 x.1) fell
  refine Eq.subst (motive := fun x => s.dissolvesTo c k l x _) told.symm ?_
  have departing : Departing s { s with
      pins := s.pins.setPresence k.handlerPort false
      ports := s.ports.set k.handlerPort (s.ports[k.handlerPort].fallen
        (abandonedCheck { s with pins := s.pins.setPresence k.handlerPort false } k.handlerPort))
      freeCount := f, reports := rs, dropped := m, claims := s.claims.filter (·.port != k.handlerPort) } := ⟨_, _, _, _, _, _, _, rfl⟩
  exact departing.dissolves hk hl free (fun _ x hx h => absurd h (alone x hx)) nofun

/-- R20, R40, R91: a presence fall at the port of a cell's tester. -/
theorem testerFall_dissolves (hk : s.cell? c = some k) (hc : s.cellOfTester? k.testerPort = some c) (hl : s.currentLot? c = some l)
    (free : s.stopped l = false) (present : s.ports[k.testerPort].state ≠ .absent) (hr : s.ports[k.testerPort].role = some .tester) :
    s.dissolvesTo c k l (exec (.presenceFall k.testerPort) s)
      (s.claims.map fun x => if some x.tester = s.ports[k.testerPort].equip then { x with status := .waiting } else x) := by
  obtain ⟨f, rs, m, fell⟩ := presenceFell_departs (s := { s with pins := s.pins.setPresence k.testerPort false }) present
  dsimp only at fell
  rw [hr] at fell
  obtain ⟨rs', m', gone⟩ := departed_tester (c := c) (p := k.testerPort) (equip := s.ports[k.testerPort].equip) (s := { s with
      pins := s.pins.setPresence k.testerPort false
      ports := s.ports.set k.testerPort (s.ports[k.testerPort].fallen
        (abandonedCheck { s with pins := s.pins.setPresence k.testerPort false } k.testerPort))
      freeCount := f, reports := rs, dropped := m }) hc
  have told := congrArg (fun x : Told => settle x.2 x.1) (fell.trans gone)
  refine Eq.subst (motive := fun x => s.dissolvesTo c k l x _) told.symm ?_
  refine Departing.dissolves (v := { State.parted { s with
      pins := s.pins.setPresence k.testerPort false
      ports := s.ports.set k.testerPort (s.ports[k.testerPort].fallen
        (abandonedCheck { s with pins := s.pins.setPresence k.testerPort false } k.testerPort))
      freeCount := f, reports := rs, dropped := m } k.testerPort (some .tester) s.ports[k.testerPort].equip with reports := rs', dropped := m' })
    ⟨_, _, _, _, _, _, _, rfl⟩ hk hl free (fun h => ?_) nofun
  exact absurd h (Bool.eq_false_iff.mp (fallen_unserved rfl))

/-- R31, R37: what an ANNOUNCE in range that docks at no tester holds. -/
theorem announceData_undocked {id : BitVec 32} {sites mode : Byte} {lo hi kit : BitVec 16}
    (h : (announceData (.handler id sites lo hi kit 0 mode)).isSome) :
    ∃ m, announceData (.handler id sites lo hi kit 0 mode)
      = some (.handler, id.toNat, .handler sites.toNat (tempOf lo) (tempOf hi) kit.toNat 0 m) := by
  cases hm : modeOf mode with
  | some m => exact ⟨m, announceData_handler hm h⟩
  | none =>
    have unread : announceData (.handler id sites lo hi kit 0 mode) = none := by
      show (handlerData id sites lo hi kit 0 mode).map _ = none
      unfold handlerData
      rw [hm]
      rfl
    rw [unread] at h
    exact absurd h (by decide)

/-- R37: the handler of a cell is announced with no tester. -/
theorem handlerAnnounced_undocked {p : Port} {sites kit : Nat} {mode : Mode} (hk : s.cell? c = some k) (hc : s.cellOfHandler? p = some c)
    (named : ∀ x ∈ s.claims, x.port = p → x.tester ≠ 0) (ht : k.testerId ≠ 0) : handlerAnnounced p sites kit 0 mode s
      = ({ s with claims := s.claims.filter (·.port != p) }, [.dissolve c .dockChanged]) := by
  have elsewhere : (s.cell? c).any (·.testerId == 0) = false := by
    rw [hk]
    exact beq_eq_false_iff_ne.mpr ht
  unfold handlerAnnounced
  rw [hc, takeClaim_dissolves hc named]
  dsimp only
  rw [elsewhere, if_neg Bool.false_ne_true]

/-- R29, R37: the handler of a cell announces itself with no tester. -/
theorem announce_dissolves {id : BitVec 32} {sites mode : Byte} {lo hi kit : BitVec 16} (hk : s.cell? c = some k)
    (hc : s.cellOfHandler? k.handlerPort = some c) (hl : s.currentLot? c = some l) (free : s.stopped l = false)
    (hs : s.ports[k.handlerPort].state = .awaitAnnounce) (hlock : s.ports[k.handlerPort].controlLock = true)
    (hr : s.ports[k.handlerPort].role = some .handler) (he : s.ports[k.handlerPort].equip = some id.toNat)
    (hd : (announceData (.handler id sites lo hi kit 0 mode)).isSome) (single : s.duplicate k.handlerPort (some id.toNat) = false)
    (named : ∀ x ∈ s.claims, x.port = k.handlerPort → x.tester ≠ 0) (ht : k.testerId ≠ 0)
    (alone : ∀ x ∈ s.claims.filter fun x => x.port != k.handlerPort, x.tester ≠ k.testerId) :
    s.dissolvesTo c k l (exec (.announce k.handlerPort (.handler id sites lo hi kit 0 mode)) s)
      (s.claims.filter fun x => x.port != k.handlerPort) := by
  obtain ⟨m, data⟩ := announceData_undocked hd
  obtain ⟨rs, n, enrolled⟩ := enrolled_exists s k.handlerPort .handler id.toNat (.handler sites.toNat (tempOf lo) (tempOf hi) kit.toNat 0 m)
  have taken := takeAnnounce_enrols data hs (.inr ⟨hr, he⟩) single
  rw [enrolled] at taken
  have undocked := taken.trans (handlerAnnounced_undocked (p := k.handlerPort) (sites := sites.toNat) (kit := kit.toNat) (mode := m)
    (s := { s.modPort k.handlerPort (PortRec.enrolled .handler id.toNat (.handler sites.toNat (tempOf lo) (tempOf hi) kit.toNat 0 m)) with
      reports := rs, dropped := n }) hk hc named ht)
  have told := (announce_taken hlock hs).trans (congrArg (fun x : Told => settle x.2 x.1) undocked)
  refine Eq.subst (motive := fun x => s.dissolvesTo c k l x _) told.symm ?_
  have departing : Departing s { s.modPort k.handlerPort
      (PortRec.enrolled .handler id.toNat (.handler sites.toNat (tempOf lo) (tempOf hi) kit.toNat 0 m)) with
        reports := rs, dropped := n, claims := s.claims.filter (·.port != k.handlerPort) } := ⟨_, _, _, _, _, _, _, rfl⟩
  refine departing.dissolves hk hl free (fun _ x hx h => absurd h (alone x hx)) fun _ x hx h => ?_
  exact absurd h (bne_iff_ne.mp (List.mem_filter.mp hx).2)

/-! ### A claim in conflict forms a cell (R38, R39) -/

/-- R38: the lowest free cell record. -/
theorem lowest_free (hc : s.cell? c = none) (below : ∀ e : CellNo, e < c → (s.cell? e).isSome) :
    (allCells.find? fun e => (s.cell? e).isNone) = some c := by
  unfold allCells
  refine List.find?_eq_some_iff_getElem.mpr ⟨Option.isNone_iff_eq_none.mpr hc, c.val, ?_, List.getElem_ofFn .., fun j hj => ?_⟩
  · exact c.isLt.trans_eq List.length_ofFn.symm
  · rw [List.getElem_ofFn, Bool.not_eq_true', Option.isNone_eq_false_iff]
    exact below ⟨j, hj.trans c.isLt⟩ hj

theorem cellOfHandler_none {p : Port} (h : ∀ e x, s.cell? e = some x → x.handlerPort ≠ p) : s.cellOfHandler? p = none :=
  List.find?_eq_none.mpr fun e _ own => by
    obtain ⟨x, hx, same⟩ := (Option.any_eq_true _ _).mp own
    exact h e x hx (beq_iff_eq.mp same)

theorem cellOfTester_none {q : Port} (h : ∀ e x, s.cell? e = some x → x.testerPort ≠ q) : s.cellOfTester? q = none :=
  List.find?_eq_none.mpr fun e _ own => by
    obtain ⟨x, hx, same⟩ := (Option.any_eq_true _ _).mp own
    exact h e x hx (beq_iff_eq.mp same)

/-- R38: the state in which a claim has formed a cell. -/
def State.paired (s : State) (c : CellNo) (p q : Port) : State :=
  (setClaim p .formed s).modCellRec c fun r => { r with formed := some (s.newCell p q) }

theorem judgeClaim_forms {y : Claim} {q : Port} (hf : s.claims.find? (·.port == y.port) = some y) (hy : y.status ≠ .formed)
    (ht : s.testerPort? y.tester = some q) (hq : s.cellOfTester? q = none) (hh : s.cellOfHandler? y.port = none)
    (hs : s.inService y.port = true) (hc : (allCells.find? fun e => (s.cell? e).isNone) = some c) :
    deliver (.judgeClaim y.port) s = (reportCell c none (s.paired c y.port q), [.eligibility c]) := by
  show judgeClaim y.port s = _
  unfold judgeClaim
  rw [hf]
  dsimp only
  rw [if_neg hy, ht]
  dsimp only
  rw [hq]
  dsimp only
  rw [hc]
  dsimp only
  rw [hs, hh]
  rfl

theorem paired_cell {p q : Port} : (s.paired c p q).cell? c = some (s.newCell p q) := by
  simp [State.paired, State.modCellRec, State.cell?]

/-- R38, R39, R65: a claim is judged and forms the cell of an empty record. -/
theorem run_forms {y : Claim} {q : Port} (hf : s.claims.find? (·.port == y.port) = some y) (hy : y.status ≠ .formed)
    (ht : s.testerPort? y.tester = some q) (hq : s.cellOfTester? q = none) (hh : s.cellOfHandler? y.port = none)
    (hs : s.inService y.port = true) (hc : (allCells.find? fun e => (s.cell? e).isNone) = some c) (empty : s.queues[c] = {}) :
    ∃ rs m w, w = ({ s.paired c y.port q with reports := rs, dropped := m } : State)
      ∧ ∀ fuel ns, run (fuel + 2) (.judgeClaim y.port :: ns) s = run fuel ns w.trigger := by
  obtain ⟨rs, m, told⟩ := reportCell_exists (s := s.paired c y.port q) (c := c) (x := none)
  have formed := judgeClaim_forms hf hy ht hq hh hs hc
  rw [told] at formed
  refine ⟨rs, m, _, rfl, ?_⟩
  have kept : State.queues { s.paired c y.port q with reports := rs, dropped := m } = s.queues := rfl
  generalize ({ s.paired c y.port q with reports := rs, dropped := m } : State) = w at formed kept ⊢
  have vacant : w.queues[c] = {} := by rw [kept]; exact empty
  have eligible : deliver (.eligibility c) w = (w.trigger, []) :=
    eligibilityChanged_quiet (by rw [vacant]) (outOfChamber_empty (by rw [vacant]))
  intro fuel ns
  rw [run, formed, List.singleton_append, run_quiet eligible]

/-- R39: a claim that waits alone for a tester is judged again, before the claim of a handler that has none. -/
theorem run_retries {y : Claim} {n : Nat} {p : Port} (waits : s.claims.filter (fun x => x.tester == n && x.status != .formed) = [y]) (fuel : Nat) :
    run (fuel + 1) [.retryClaims n, .judgeClaim p] s = run fuel [.judgeClaim y.port, .judgeClaim p] s := by
  have owed : deliver (.retryClaims n) s = (s, [.judgeClaim y.port]) :=
    congrArg (fun cs : List Claim => (s, cs.map fun x : Claim => Notice.judgeClaim x.port)) waits
  rw [run, owed]
  rfl

theorem newCell_handler {p q : Port} {sites kit dock : Nat} {lo hi : Int} {mode : Mode}
    (hd : s.ports[p].data = some (.handler sites lo hi kit dock mode)) : s.newCell p q
      = { handlerPort := p, testerPort := q, handlerId := s.ports[p].equip.getD 0, testerId := s.ports[q].equip.getD 0, mode := mode,
          kit := kit, sites := List.replicate sites {} } := by
  unfold State.newCell
  dsimp only
  rw [hd]
  rfl

theorem newCell_congr {p q : Port} (h : v.ports = s.ports) : v.newCell p q = s.newCell p q := by
  unfold State.newCell
  rw [h]

theorem restWait_congr {u w : State} (hw : w.waitList = u.waitList) (hl : w.lots = u.lots) (h : s.restWait c l u) : s.restWait c l w := by
  intro n o hmem ho hn hs
  obtain ⟨listed, l', lot, state⟩ := h n o hmem ho hn hs
  refine ⟨hw ▸ listed, l', ?_, state⟩
  rw [← lot]
  unfold State.lot?
  rw [hl]

section
variable {y : Claim} {q : Port}

/-- R38, R39: the claim on the tester of a cell that is gone forms a cell in its record. -/
theorem Gone.forms {u : State} (gone : Gone c k s u) (hf : s.claims.find? (·.port == y.port) = some y)
    (waits : s.claims.filter (fun x => x.tester == k.testerId && x.status != .formed) = [y]) (ht : s.testerPort? k.testerId = some q)
    (hs : s.inService y.port = true) (below : ∀ e : CellNo, e < c → (s.cell? e).isSome)
    (apart : ∀ e x, e ≠ c → s.cell? e = some x → x.handlerPort ≠ y.port ∧ x.testerPort ≠ q) (absent : ∀ x ∈ s.claims, x.port ≠ k.handlerPort) :
    ∃ rs m w, w = ({ u.paired c y.port q with reports := rs, dropped := m } : State)
      ∧ run 4 [.retryClaims k.testerId, .judgeClaim k.handlerPort] u = some w.trigger := by
  obtain ⟨cell, other, queue, -, -, -, -, claims, ports⟩ := gone
  have owned : y ∈ s.claims.filter (fun x => x.tester == k.testerId && x.status != .formed) := waits ▸ List.mem_singleton_self y
  obtain ⟨-, unformed⟩ := List.mem_filter.mp owned
  rw [Bool.and_eq_true, beq_iff_eq, bne_iff_ne] at unformed
  obtain ⟨docked, unformed⟩ := unformed
  have others (e : CellNo) (x : Cell) (hx : u.cell? e = some x) : x.handlerPort ≠ y.port ∧ x.testerPort ≠ q := by
    by_cases he : e = c
    · subst he
      rw [cell] at hx
      exact absurd hx nofun
    · exact apart e x he ((other e he).symm.trans hx)
  have lower (e : CellNo) (he : e < c) : (u.cell? e).isSome := by
    rw [other e (Fin.ne_of_lt he)]
    exact below e he
  have found : u.testerPort? y.tester = some q := by
    rw [docked, ← ht]
    unfold State.testerPort? State.inService
    rw [ports]
  have serves : u.inService y.port = true := by
    rw [← hs]
    unfold State.inService
    rw [ports]
  obtain ⟨rs, m, w, formed, ran⟩ := run_forms (by rw [claims]; exact hf) unformed found (cellOfTester_none fun e x hx => (others e x hx).2)
    (cellOfHandler_none fun e x hx => (others e x hx).1) serves (lowest_free cell lower) queue
  refine ⟨rs, m, w, formed, ?_⟩
  have listed : w.trigger.claims = s.claims.map fun x => if x.port == y.port then { x with status := .formed } else x := by
    rw [formed, ← claims]
    rfl
  have judged : deliver (.judgeClaim k.handlerPort) w.trigger = (w.trigger, []) := deliver_judgeClaim_formed fun x hx h => by
    rw [listed] at hx
    obtain ⟨x', hx', rfl⟩ := List.mem_map.mp hx
    refine absurd ?_ (absent x' hx')
    rw [← h]
    split <;> rfl
  rw [run_retries (by rw [claims]; exact waits), ran, run_quiet judged, run_nil]

/-- R37 to R39: the handler of a cell docks at no tester, and a claim in conflict for its tester forms a cell. -/
theorem undocked_forms {sites kit dock : Nat} {lo hi : Int} {mode : Mode} (hk : s.cell? c = some k)
    (hc : s.cellOfHandler? k.handlerPort = some c) (hl : s.currentLot? c = some l) (free : s.stopped l = false)
    (hs : s.serves k.handlerPort .handler = true) (hlock : s.ports[k.handlerPort].controlLock = true)
    (hq : s.inService k.testerPort = true) (named : ∀ x ∈ s.claims, x.port = k.handlerPort → x.tester ≠ 0)
    (waits : (s.claims.filter fun x => x.port != k.handlerPort).filter (fun x => x.tester == k.testerId && x.status != .formed) = [y])
    (hf : (s.claims.filter fun x => x.port != k.handlerPort).find? (·.port == y.port) = some y) (hy : s.inService y.port = true)
    (ht : s.testerPort? k.testerId = some k.testerPort) (hd : s.ports[y.port].data = some (.handler sites lo hi kit dock mode))
    (below : ∀ e : CellNo, e < c → (s.cell? e).isSome)
    (apart : ∀ e x, e ≠ c → s.cell? e = some x → x.handlerPort ≠ y.port ∧ x.testerPort ≠ k.testerPort) (hn : k.segment = none) :
    ∃ u : State, exec (.hDock k.handlerPort 0) s = .next (transmit u) ∧ s.frees c k l u
      ∧ u.claims = (s.claims.filter fun x => x.port != k.handlerPort).map (fun x => if x.port = y.port then { x with status := .formed } else x)
      ∧ u.cell? c = some
          { handlerPort := y.port, testerPort := k.testerPort, handlerId := s.ports[y.port].equip.getD 0
            testerId := s.ports[k.testerPort].equip.getD 0, mode := mode, kit := kit, sites := List.replicate sites {} } := by
  obtain ⟨u, ran, gone, -, -, rest⟩ := dissolves_unfed (why := .dockChanged) (s := { s with claims := s.claims.filter (·.port != k.handlerPort) })
    hk hl free hn
  have owes : dissolveOwes .dockChanged k { s with claims := s.claims.filter (·.port != k.handlerPort) }
      = [.retryClaims k.testerId, .judgeClaim k.handlerPort] := by
    unfold dissolveOwes
    rw [show State.inService { s with claims := s.claims.filter (·.port != k.handlerPort) } k.testerPort = true from hq]
    rfl
  obtain ⟨rs, m, w, formed, settled⟩ := gone.forms hf waits ht hy below apart fun x hx => bne_iff_ne.mp (List.mem_filter.mp hx).2
  have whole : run 6 [.dissolve c .dockChanged] { s with claims := s.claims.filter (·.port != k.handlerPort) } = some w.trigger := by
    rw [ran 4 [], List.append_nil, owes]
    exact settled
  refine ⟨w.trigger, (undocked_told hc hs hlock named).trans (settle_of_run (by decide) whole), ?_, ?_, ?_⟩
  · refine ⟨?_, ?_, ?_, ?_, rfl, restWait_congr ?_ ?_ rest⟩
    all_goals rw [formed]
    · exact gone.queue
    · exact gone.save
    · exact gone.request
    · exact gone.order
    · rfl
    · rfl
  · have listed : w.trigger.claims = u.claims.map fun x => if x.port == y.port then { x with status := .formed } else x := by
      rw [formed]
      rfl
    rw [listed, gone.claims]
    exact List.map_congr_left fun x _ => by simp only [beq_iff_eq]
  · have cell : w.trigger.cell? c = (u.paired c y.port k.testerPort).cell? c := by
      rw [formed]
      rfl
    rw [cell, paired_cell, newCell_congr gone.ports]
    exact congrArg some (newCell_handler (s := { s with claims := s.claims.filter (·.port != k.handlerPort) }) hd)

end

end
end Sys2Proof.Machine

section
open Sys2Proof Sys2Proof.Machine

/-- Settles O30, by the dissolution of an unfed and of a fed cell, what each of its causes leaves owed, and the claim judged again. -/
theorem dissolutionAndRetry : Obligations.DissolutionAndRetry := by
  intro c k l s hk hh ht hl free p q others alone heard rest frees dissolves
  refine ⟨?_, ?_, ?_, ?_, ?_⟩
  · intro ⟨hs, lock, _, named⟩ apart
    exact undocked_dissolves hk hh hl free hs lock named apart
  · intro id sites lo hi kit mode hs lock hr he hd single named docked apart
    exact announce_dissolves hk hh hl free hs lock hr he hd single named docked apart
  · intro present hr apart
    exact handlerFall_dissolves hk hh hl free present hr apart
  · intro present hr
    exact testerFall_dissolves hk ht hl free present hr
  · intro y sites lo hi kit dock mode ⟨hs, lock, served, named⟩ waits found serves port data below apart unfed
    exact undocked_forms hk hh hl free hs lock served named waits found serves port data below apart unfed

end
end

