-- ==== Sys2Proof/Proofs/LongQueues.lean ====
section
-- In order: the check's memory bound leaves no room for a thread per proof.
set_option Elab.async false
/-! ## A cell that cannot start its lots

Entry 0 of a director-owned cell whose handler's link is down is filled with each queued lot in turn, and R47 sends each one away
again. A queue with many entries keeps the notices of one taking from coming to rest within the model's bound. -/

namespace Sys2Proof.Machine

section
variable {s t : State} {c : CellNo} {n N : Nat}

/-- A director-owned cell whose handler's link is down, and a lot whose step is defined. -/
structure Clogged (c : CellNo) (n : Nat) (s : State) : Prop where
  cell : ∃ k, s.cell? c = some k ∧ k.noChanges ∧ s.inService k.handlerPort = false ∧ s.marginSteady k.testerPort
  director : s.director c = true
  lot : ∃ l d, s.lot? n = some l ∧ s.stepDef? l l.step = some d

theorem Clogged.same (h : Clogged c n s) (same : SameInputs s t) : Clogged c n t := by
  obtain ⟨⟨k, hk, hn, down, steady⟩, director, l, d, hl, hd⟩ := h
  obtain ⟨k', hk', hp, hq, -, -, sites⟩ := same.cell hk
  obtain ⟨l', hl', route⟩ := same.lot hl
  obtain ⟨-, -, step, -⟩ := id route
  refine ⟨⟨k', hk', ?_, ?_, ?_⟩, (same.director c).trans director, l', d, hl', ?_⟩
  · unfold Cell.noChanges
    rw [sites]
    exact hn
  · rw [same.inService, hp, down]
  · rw [hq]
    exact same.marginSteady steady
  · rw [same.stepDef? route, step, hd]

/-- The dispatch queue of a cell and its save context are as they were. -/
def SameQueues (s t : State) : Prop := t.queues = s.queues ∧ t.saves = s.saves

/-! ### The notices of one lot -/

theorem toEntry0_queue {ids : List Nat} : (toEntry0 c n ids s).queues[c] = { current := some n, behind := ids } := by
  unfold toEntry0
  rw [renumber_queues, moveLot_queues]
  exact Vector.getElem_set_self _

theorem toEntry0_saves {ids : List Nat} : (toEntry0 c n ids s).saves = s.saves := by
  unfold toEntry0
  rw [renumber_saves, moveLot_saves, modQueue_saves]

/-- R74: the lot at entry 1 moves up. -/
theorem fill_takesNext {ids : List Nat} (h : Clogged c n s) (hq : s.queues[c] = { current := none, behind := n :: ids }) (hv : s.saves[c] = none) :
    deliver (.fill c false) s = ((toEntry0 c n ids s).trigger, [.start c]) := by
  obtain ⟨⟨k, hk, -⟩, director, -⟩ := h
  show fillEntry c false s = _
  unfold fillEntry moveUp
  rw [hk, show s.current? c = none from congrArg DispatchQueue.current hq]
  dsimp only
  rw [if_pos director, hv, hq]

theorem writeSetpoint_state {d : StepDef} : ((writeSetpoint c d s).cell? c).map Cell.state = (s.cell? c).map Cell.state := by
  unfold writeSetpoint
  split
  · rfl
  · unfold State.cell?
    rw [send_cells]
    exact (congrArg (Option.map Cell.state) (modCell_cell ..)).trans (Option.map_map ..)

theorem sendSetpoint_cell {k : Cell} (hk : s.cell? c = some k) : ∃ k', (sendSetpoint c s).cell? c = some k' ∧ k'.state = k.state := by
  have state : ((sendSetpoint c s).cell? c).map Cell.state = (s.cell? c).map Cell.state := by
    unfold sendSetpoint
    split
    · rfl
    · exact writeSetpoint_state
  rw [hk] at state
  exact Option.map_eq_some_iff.mp state

theorem sendSetpoint_queues : SameQueues s (sendSetpoint c s) := by
  unfold sendSetpoint writeSetpoint
  repeat' split
  · exact ⟨rfl, rfl⟩
  · exact ⟨rfl, rfl⟩
  · exact ⟨send_queues .., send_saves ..⟩

theorem askFor_queues {p : Port} {d : StepDef} : SameQueues s (askFor c n p d s) := by
  obtain ⟨ls, ts, w, asked⟩ := askTally_exists (c := c) (s := s) (n := n)
  obtain ⟨ss, ps, r, m, served⟩ := serve_exists (p := p) (s := setRequest p (some d.program) (askTally c n s))
  unfold askFor
  rw [served, asked]
  exact ⟨rfl, rfl⟩

theorem computeMargin_queues {p : Port} : SameQueues s (computeMargin p s) := by
  obtain ⟨ls, ss, computed⟩ := computeMargin_exists (p := p) (s := s)
  rw [computed]
  exact ⟨rfl, rfl⟩

/-- R76: the lot at entry 0 is started. -/
theorem start_refreshes (h : Clogged c n s) (hc : s.current? c = some n) : ∃ t, deliver (.start c) s = (t, [.refresh c]) ∧ SameInputs s t
    ∧ SameQueues s t ∧ ∃ k, t.cell? c = some k ∧ k.state = .starting := by
  obtain ⟨⟨k, hk, hn, -, steady⟩, -, l, d, hl, hd⟩ := h
  have step : s.currentStep? c = some d := by
    unfold State.currentStep? State.currentLot?
    rw [hc, Option.bind_some, hl]
    exact hd
  have started : SameInputs s (startCell c s) := (SameInputs.refl s).startCell
  have asked : SameInputs s (askFor c n k.testerPort d (startCell c s)) := started.askFor
  have quiet := asked.marginSteady steady
  have judged := asked.consultMargin quiet
  obtain ⟨k₁, cell, state⟩ : ∃ k', (consultMargin k.testerPort (askFor c n k.testerPort d (startCell c s))).1.cell? c = some k' ∧ k'.state = .starting := by
    obtain ⟨k', cell, state⟩ := sendSetpoint_cell (s := s.modCell c fun k => { k with state := .starting }) (c := c)
      (k := { k with state := .starting }) (by rw [modCell_cell, hk]; rfl)
    refine ⟨k', ?_, state⟩
    rw [← cell]
    unfold State.cell?
    show (computeMargin _ _).cells[c].formed = _
    rw [computeMargin_cells, askFor_cells.1]
    rfl
  have frame : SameQueues s (consultMargin k.testerPort (askFor c n k.testerPort d (startCell c s))).1 := by
    obtain ⟨q₁, v₁⟩ := sendSetpoint_queues (s := s.modCell c fun k => { k with state := .starting }) (c := c)
    obtain ⟨q₂, v₂⟩ := askFor_queues (c := c) (n := n) (p := k.testerPort) (d := d) (s := startCell c s)
    obtain ⟨q₃, v₃⟩ := computeMargin_queues (p := k.testerPort) (s := askFor c n k.testerPort d (startCell c s))
    exact ⟨q₃.trans (q₂.trans q₁), v₃.trans (v₂.trans v₁)⟩
  have unowed := consultMargin_quiet quiet
  have whole : deliver (.start c) s = startLot c s := rfl
  rw [whole]
  unfold startLot
  rw [hk, hc, step]
  dsimp only
  rw [show sendSetpoint c (s.modCell c fun k => { k with state := .starting }) = startCell c s from rfl,
    show serve k.testerPort (setRequest k.testerPort (some d.program) (askTally c n (startCell c s))) = askFor c n k.testerPort d (startCell c s) from rfl]
  generalize consultMargin k.testerPort (askFor c n k.testerPort d (startCell c s)) = m at *
  obtain ⟨u, ns⟩ := m
  dsimp only at *
  subst unowed
  generalize u.deriveCauses c _ = x
  generalize u.deriveWaiting c _ = w
  obtain ⟨k', hk', -, -, -, -, sites⟩ := judged.cell hk
  obtain rfl : k' = k₁ := Option.some.inj (hk'.symm.trans cell)
  have entered : (reportCell c (some k.state) (writeSets c x w u)).cell? c = some { k' with causes := x, waiting := w } := by
    rw [reportCell_cell, writeSets_cell, hk']
    rfl
  have settled := leaveRunning_quiet entered (by unfold Cell.noChanges; rw [sites]; exact hn)
  rw [settled]
  exact ⟨_, rfl, judged.writeSets.reportCell, ⟨(reportCell_queues ..).trans frame.1, (reportCell_saves ..).trans frame.2⟩, _, entered, state⟩

/-- R47: the lot of a STARTING cell whose handler's link is down is to leave. -/
theorem refresh_leaves {k : Cell} (h : Clogged c n s) (hk : s.cell? c = some k) (hs : k.state = .starting) (hc : s.current? c = some n) :
    deliver (.refresh c) s = ((consultMargin k.testerPort s).1, [.leave c .waiting none]) ∧ SameInputs s (consultMargin k.testerPort s).1
      ∧ SameQueues s (consultMargin k.testerPort s).1 := by
  obtain ⟨⟨k', hk', -, down, steady⟩, -, l, d, hl, -⟩ := h
  obtain rfl : k' = k := Option.some.inj (hk'.symm.trans hk)
  have kept := (SameInputs.refl s).consultMargin steady
  have frame := computeMargin_queues (p := k'.testerPort) (s := s)
  have lot : s.currentLot? c = some l := by
    unfold State.currentLot?
    rw [hc, Option.bind_some, hl]
  refine ⟨?_, kept, frame⟩
  obtain ⟨l', hl', -⟩ := kept.lot hl
  have lot' : (consultMargin k'.testerPort s).1.currentLot? c = some l' := by
    unfold State.currentLot? State.current?
    rw [show (consultMargin k'.testerPort s).1.queues = s.queues from frame.1]
    rw [show s.queues[c].current = some n from hc, Option.bind_some, hl']
  have unowed := consultMargin_quiet steady
  have leaves : (consultMargin k'.testerPort s).1.leavesUnfed c ((consultMargin k'.testerPort s).1.deriveCauses c k') = true := by
    unfold State.leavesUnfed State.deriveCauses
    rw [lot']
    dsimp only
    rw [kept.inService, down]
    rfl
  show refreshCell c s = _
  unfold refreshCell refreshStarting
  rw [hk, lot]
  dsimp only
  rw [hs]
  dsimp only
  rw [if_pos leaves, unowed]
  rfl

/-- R53: the lot leaves for the wait list, and entry 0 is free again. -/
theorem leave_fills {ids : List Nat} (h : Clogged c n s) (hq : s.queues[c] = { current := some n, behind := ids }) :
    ∃ t, deliver (.leave c .waiting none) s = (t, [.fill c false]) ∧ SameInputs s t ∧ t.queues[c] = { current := none, behind := ids }
      ∧ t.saves = s.saves := by
  obtain ⟨⟨k, hk, -⟩, -⟩ := h
  refine ⟨((clearCurrent c s).toWaiting n).trigger, ?_, ((SameInputs.refl s).clearCurrent.toWaiting).trigger, ?_, ?_⟩
  · show leaveCell c .waiting none s = _
    unfold leaveCell
    rw [hk, show s.current? c = some n from congrArg DispatchQueue.current hq]
    rfl
  · rw [trigger_queues, toWaiting_queues]
    refine (Vector.getElem_set_self _).trans ?_
    rw [hq]
  · rw [trigger_saves, toWaiting_saves]
    rfl

/-! ### A whole queue -/

/-- The queue of a cell that cannot start its lots holds one lot a number of times, with entry 0 free. -/
def Lined (c : CellNo) (n N : Nat) (s : State) : Prop :=
  Clogged c n s ∧ s.queues[c] = { current := none, behind := List.replicate N n } ∧ s.saves[c] = none

/-- R47, R53, R74, R76: each queued lot takes four notices. -/
theorem run_lined (h : Lined c n (N + 1) s) :
    ∃ t, Lined c n N t ∧ ∀ fuel ns, run (fuel + 4) (.fill c false :: ns) s = run fuel (.fill c false :: ns) t := by
  obtain ⟨clogged, queue, save⟩ := h
  have filled := fill_takesNext (ids := List.replicate N n) clogged queue save
  have moved : SameInputs s (toEntry0 c n (List.replicate N n) s).trigger := (SameInputs.refl s).toEntry0.trigger
  have lined : (toEntry0 c n (List.replicate N n) s).trigger.queues[c] = { current := some n, behind := List.replicate N n } := toEntry0_queue
  have saved : (toEntry0 c n (List.replicate N n) s).trigger.saves = s.saves := toEntry0_saves
  generalize (toEntry0 c n (List.replicate N n) s).trigger = s₁ at filled moved lined saved
  obtain ⟨s₂, started, same₂, ⟨queues₂, saves₂⟩, k, cell, state⟩ := start_refreshes (clogged.same moved) (congrArg DispatchQueue.current lined)
  have clogged₂ := (clogged.same moved).same same₂
  have lined₂ : s₂.queues[c] = { current := some n, behind := List.replicate N n } := by rw [queues₂]; exact lined
  obtain ⟨judged, same₃, queues₃, saves₃⟩ := refresh_leaves clogged₂ cell state (congrArg DispatchQueue.current lined₂)
  have clogged₃ := clogged₂.same same₃
  generalize (consultMargin k.testerPort s₂).1 = s₃ at judged same₃ queues₃ saves₃ clogged₃
  have lined₃ : s₃.queues[c] = { current := some n, behind := List.replicate N n } := by rw [queues₃]; exact lined₂
  obtain ⟨s₄, left, same₄, lined₄, saves₄⟩ := leave_fills clogged₃ lined₃
  refine ⟨s₄, ⟨clogged₃.same same₄, lined₄, ?_⟩, fun fuel ns => ?_⟩
  · rw [saves₄, saves₃, saves₂, saved]
    exact save
  · rw [run, filled, List.singleton_append, run, started, List.singleton_append, run, judged, List.singleton_append, run, left,
      List.singleton_append]

/-- A long queue does not come to rest within a bound of four notices a lot. -/
theorem run_lined_none {ns : List Notice} (h : Lined c n N s) : run (4 * N) (.fill c false :: ns) s = none := by
  induction N generalizing s with
  | zero => rfl
  | succ N ih =>
    obtain ⟨t, lined, ran⟩ := run_lined h
    exact (ran (4 * N) ns).trans (ih lined)

/-! ### A drain that loses the counts of a lot in another cell -/

section
variable {e : CellNo} {k x : Cell} {l : Lot} {i : Nat}

theorem Clogged.restocked {ls : List Lot} {hs : List Hold} {rs : List Report} {m : Nat} (h : Clogged c n s) (hl : s.lot? n = some l)
    (kept : ∃ l', State.lot? { s with lots := ls } n = some l' ∧ l'.product = l.product ∧ l'.step = l.step) :
    Clogged c n { s with lots := ls, holds := hs, reports := rs, dropped := m } := by
  obtain ⟨⟨k, hk, hn, down, steady⟩, director, l₀, d, hl₀, hd⟩ := h
  obtain rfl : l₀ = l := Option.some.inj (hl₀.symm.trans hl)
  obtain ⟨l', hl', product, step⟩ := kept
  refine ⟨⟨k, hk, hn, down, marginSteady_iff.mpr (marginSteady_iff.mp steady :)⟩, director, l', d, hl', ?_⟩
  rw [step, ← hd]
  unfold State.stepDef?
  rw [product]
  rfl

/-- R50, R52: a DRAINING cell whose handler's link is down loses its counts. -/
theorem refresh_loses (hk : s.cell? c = some k) (hs : k.state = .draining) (hl : s.currentLot? c = some l)
    (down : s.inService k.handlerPort = false) (hm : consultMargin k.testerPort s = (s, [])) :
    deliver (.refresh c) s = (writeSets c (s.deriveCauses c k) {} s, [.countsLost c]) := by
  have lost : (s.deriveCauses c k).handlerLink = true := by
    unfold State.deriveCauses
    rw [hl]
    dsimp only
    rw [down]
    rfl
  show refreshCell c s = _
  unfold refreshCell
  rw [hk, hl]
  dsimp only
  rw [hs, hm]
  dsimp only
  unfold refreshDraining
  dsimp only
  rw [lost]
  rfl

theorem loseCounts_told {g : Segment} (hk : s.cell? c = some k) (hs : k.state = .draining) (hg : k.segment = some g) :
    deliver (.countsLost c) s = (loseSegment c g s, [.raise (lostRequest g.lot g.step), .leave c .held none]) := by
  show loseCounts c s = _
  unfold loseCounts
  rw [hk]
  dsimp only
  rw [hg]
  exact if_pos hs

theorem leave_held {ids : List Nat} (h : Clogged c n s) (hq : s.queues[c] = { current := some n, behind := ids }) (hv : s.saves[c] = none) :
    ∃ t, deliver (.leave c .held none) s = (t, [.fill c false]) ∧ SameInputs s t ∧ t.queues[c] = { current := none, behind := ids }
      ∧ t.saves[c] = none := by
  obtain ⟨⟨k, hk, -⟩, -⟩ := h
  refine ⟨((clearCurrent c s).moveLot n .held .absent).trigger, ?_, ((SameInputs.refl s).clearCurrent.moveLot).trigger, ?_, ?_⟩
  · show leaveCell c .held none s = _
    unfold leaveCell
    rw [hk, show s.current? c = some n from congrArg DispatchQueue.current hq]
    rfl
  · rw [trigger_queues, moveLot_queues]
    refine (Vector.getElem_set_self _).trans ?_
    rw [hq]
  · rw [trigger_saves, moveLot_saves]
    exact hv

/-- R52, R129, R135: a drain loses the counts of a segment whose lot stands unfed at entry 0 of another cell, and that entry is to be
filled. -/
theorem run_loses {m : Lot} {now : Nat} (hk : s.cell? c = some k) (hs : k.state = .draining) (hm : s.currentLot? c = some m)
    (down : s.inService k.handlerPort = false) (steady : consultMargin k.testerPort s = (s, []))
    (hg : k.segment = some { lot := l.id, step := i, feedTime := now }) (apart : e ≠ c) (hx : s.cell? e = some x) (hst : x.state = .starting)
    (clogged : Clogged e l.id s) (hq : s.queues[e] = { current := some l.id, behind := List.replicate N l.id }) (hv : s.saves[e] = none)
    (hl : s.lot? l.id = some l) (ha : l.state = .active) (hloc : l.location = .queue e 0) (room : l.holds.length < 8) (empty : s.holds = []) :
    ∃ t, Lined e l.id N t ∧ ∀ fuel ns, run (fuel + 4) (.refresh c :: ns) s = run fuel (.fill e false :: .leave c .held none :: ns) t := by
  have drained := refresh_loses hk hs hm down steady
  generalize s.deriveCauses c k = y at drained
  have lost := loseCounts_told (s := writeSets c y {} s) (k := { k with causes := y, waiting := {} }) (by rw [writeSets_cell, hk]; rfl) hs hg
  have same : SameInputs s (loseSegment c { lot := l.id, step := i, feedTime := now } (writeSets c y {} s)) :=
    (SameInputs.refl s).writeSets.modStep.modCell
  have clogged₁ := clogged.same same
  have lot : (loseSegment c { lot := l.id, step := i, feedTime := now } (writeSets c y {} s)).lot? l.id = some (l.countsLost i) :=
    (loseSegment_lot l.id).trans (by rw [show (writeSets c y {} s).lot? l.id = some l from hl, Option.map_some, if_pos rfl])
  have cell : (loseSegment c { lot := l.id, step := i, feedTime := now } (writeSets c y {} s)).cell? e = some x :=
    (loseSegment_other apart).trans ((modCell_other s apart _).trans hx)
  obtain ⟨id, state, location, holds⟩ : (l.countsLost i).id = l.id ∧ (l.countsLost i).state = l.state ∧ (l.countsLost i).location = l.location
      ∧ (l.countsLost i).holds = l.holds := by
    rw [countsLost_same]
    exact ⟨rfl, rfl, rfl, rfl⟩
  have queue : (loseSegment c { lot := l.id, step := i, feedTime := now } (writeSets c y {} s)).queues[e]
      = { current := some l.id, behind := List.replicate N l.id } := hq
  have save : (loseSegment c { lot := l.id, step := i, feedTime := now } (writeSets c y {} s)).saves[e] = none := hv
  have unheld : (loseSegment c { lot := l.id, step := i, feedTime := now } (writeSets c y {} s)).holds = [] := empty
  generalize loseSegment c { lot := l.id, step := i, feedTime := now } (writeSets c y {} s) = w at lost clogged₁ lot cell queue save unheld
  have owned : w.lot? (l.countsLost i).id = some (l.countsLost i) := by rw [id]; exact lot
  obtain ⟨ls, hs', rs, d, raised, kept⟩ := raise_unfed (i := i) owned (state.trans ha) (location.trans hloc) cell hst (by rw [holds]; exact room)
    (by rw [unheld]; decide) (by rw [unheld]; exact fun _ h => absurd h List.not_mem_nil)
  rw [id] at raised kept
  have clogged₂ := clogged₁.restocked (hs := hs') (rs := rs) (m := d) lot kept
  obtain ⟨t, left, same', queue', save'⟩ := leave_held clogged₂ queue save
  refine ⟨t, ⟨clogged₂.same same', queue', save'⟩, fun fuel ns => ?_⟩
  rw [run, drained, List.singleton_append, run, lost]
  show run (fuel + 2) (.raise (lostRequest l.id i) :: .leave c .held none :: ns) w = _
  rw [run, raised, List.singleton_append, run, left, List.singleton_append]

end

/-! ### A lock lost in service (R21, R22) -/

/-- R22: the port record after its control lane has lost its lock. -/
def PortRec.controlLost (r : PortRec) (ended : Option LastCheck) : PortRec :=
  { PortRec.checkGone { r with controlLock := false } ended with state := .training }

theorem controlLost_told {p : Port} {f : Nat} (hs : s.ports[p].state = .inService) (hl : s.ports[p].controlLock = true)
    (hf : losesLock .control (.malformed f) = true) (hc : s.cellOfPort? p = some c) :
    ∃ n rs m, exec (.lockLost p .control (.malformed f) false) s = settle [.refresh c, .eligibility c]
      { s with ports := s.ports.set p (s.ports[p].controlLost (abandonedCheck s p)), freeCount := n, reports := rs, dropped := m } := by
  obtain ⟨n, cleared⟩ := clearCheck_eq (s := setLock p .control false s) (p := p) (abandonedCheck s p)
  have written : ((setLock p .control false s).modPort p fun r => r.checkGone (abandonedCheck s p)).modPort p (fun r => { r with state := .training })
      = s.modPort p fun r => r.controlLost (abandonedCheck s p) :=
    (modPort_twice _ _).trans (modPort_twice (fun r => { r with controlLock := false }) _)
  have trained : (clearCheck p (abandonedCheck s p) (setLock p .control false s)).modPort p (fun r => { r with state := .training })
      = { s.modPort p (fun r => r.controlLost (abandonedCheck s p)) with freeCount := n } := by
    rw [cleared]
    exact congrArg (fun u : State => ({ u with freeCount := n } : State)) written
  have unlocked : (State.ports { s.modPort p (fun r => r.controlLost (abandonedCheck s p)) with freeCount := n })[p].controlLock = false :=
    congrArg PortRec.controlLock (modPort_self s p fun r => r.controlLost (abandonedCheck s p))
  have stays := enterTraining_stays (x := s.ports[p].state) (e := abandonedCheck s p) (Bool.and_eq_false_imp.mpr fun h => absurd h (Bool.eq_false_iff.mp unlocked))
  obtain ⟨rs, m, told⟩ := reportPort_reported (p := p) (x := s.ports[p].state) (e := abandonedCheck s p)
    (s := { s.modPort p (fun r => r.controlLost (abandonedCheck s p)) with freeCount := n })
  rw [told] at stays
  refine ⟨n, rs, m, ?_⟩
  have lost : lockLoss p false .control s
      = ({ s.modPort p (fun r => r.controlLost (abandonedCheck s p)) with freeCount := n, reports := rs, dropped := m },
          [.refresh c, .eligibility c]) := by
    unfold lockLoss
    dsimp only
    rw [if_pos (.inr (.inr hs)), if_pos (.inl hs), trained, stays]
    exact congrArg (Prod.mk _) (linkDown_told hc rfl)
  show execLockLost p .control (.malformed f) false s = _
  unfold execLockLost
  rw [lost, hs, hl, hf]
  rfl

/-! ### The floor of the refutation -/

/-- A product of one step. -/
def crowdProduct : Product :=
  { id := 1, kit := 0, bins := Vector.replicate 16 0, retest := 0, tolerance := 0
    steps := [{ setpoint := 0, band := 0, soak := 0, program := 1, ceiling := 0, extCeiling := none, extDelta := none, blank := 0, edges := 0,
                divider := 1, smin := 0, consecutive := 0, reportDivider := 0, limits := [] }] }

/-- A lot at entry 0 of cell 1. -/
def crowdLot : Lot :=
  { id := 3, product := 1, entered := 1, quantity := 1, priority := .normal, seq := 1, state := .active, tally := true, location := .queue 1 0 }

/-- A DRAINING cell with the segment of a lot that stands in another cell. -/
def crowdDrain : Cell :=
  { handlerPort := 0, testerPort := 1, handlerId := 1, testerId := 2, state := .draining, mode := .remote, kit := 0
    segment := some { lot := 3, step := 0, feedTime := 0 }, sites := [] }

/-- A STARTING cell whose handler's link is down. -/
def crowdStart : Cell :=
  { handlerPort := 2, testerPort := 3, handlerId := 3, testerId := 4, state := .starting, mode := .remote, kit := 0, sites := [] }

/-- Cell 0 is DRAINING with the segment of the lot of cell 1, where that lot is queued `N` times over. -/
def crowdFloor (N : Nat) : State :=
  { State.reset with
    products := [crowdProduct]
    lots := [crowdLot]
    ports := State.reset.ports.set 0 { state := .inService, controlLock := true }
    cells := (State.reset.cells.set 0 { formed := some crowdDrain }).set 1 { formed := some crowdStart }
    queues := (State.reset.queues.set 0 { current := some 3, behind := [] }).set 1 { current := some 3, behind := List.replicate N 3 } }

theorem consultMargin_unused {p : Port} (h : s.slots[p].use ≠ .inUse) : consultMargin p s = (s, []) := by
  have same := computeMargin_unused (s := s) (p := p) fun _ used => absurd used h
  have steady : marginDiffers p s s = false := bne_self_eq_false ..
  unfold consultMargin
  rw [same, steady]
  rfl

/-- The records that the run reads. -/
structure Crowded (N : Nat) (s : State) : Prop where
  drain : s.cell? 0 = some crowdDrain
  start : s.cell? 1 = some crowdStart
  director : s.director 1 = true
  lot : s.lot? 3 = some crowdLot
  step : (s.stepDef? crowdLot 0).isSome
  held : s.queues[(0 : CellNo)].current = some 3
  queue : s.queues[(1 : CellNo)] = { current := some 3, behind := List.replicate N 3 }
  save : s.saves[(1 : CellNo)] = none
  holds : s.holds = []
  testers : s.slots[(1 : Port)].use ≠ .inUse ∧ s.slots[(3 : Port)].use ≠ .inUse
  handlers : s.inService 0 = false ∧ s.inService 2 = false

theorem Crowded.clogged (h : Crowded N s) : Clogged 1 3 s := by
  obtain ⟨d, hd⟩ := Option.isSome_iff_exists.mp h.step
  have steady : s.marginSteady 3 := marginSteady_iff.mpr fun _ used => absurd used h.testers.2
  exact ⟨⟨crowdStart, h.start, nofun, h.handlers.2, steady⟩, h.director, crowdLot, d, h.lot, hd⟩

theorem Crowded.run_none (h : Crowded N s) (ns : List Notice) : run (4 * N + 4) (.refresh 0 :: ns) s = none := by
  have current : s.currentLot? 0 = some crowdLot := by
    unfold State.currentLot? State.current?
    rw [h.held, Option.bind_some, h.lot]
  obtain ⟨t, lined, ran⟩ := run_loses (e := 1) (l := crowdLot) (N := N) h.drain rfl current h.handlers.1 (consultMargin_unused h.testers.1) rfl
    (by decide) h.start rfl h.clogged h.queue h.save h.lot rfl rfl (by decide) h.holds
  rw [ran]
  exact run_lined_none lined

theorem crowdFloor_lost {x : Option LastCheck} {N n m : Nat} {rs : List Report} : Crowded N { crowdFloor N with
    ports := (crowdFloor N).ports.set 0 ((crowdFloor N).ports[0].controlLost x), freeCount := n, reports := rs, dropped := m } where
  drain := rfl
  start := rfl
  director := rfl
  lot := rfl
  step := rfl
  held := rfl
  queue := rfl
  save := rfl
  holds := rfl
  testers := ⟨nofun, nofun⟩
  handlers := ⟨rfl, rfl⟩

theorem settle_unsettled {ns : List Notice} (h : run Config.noticeBound ns s = none) : settle ns s = .fault .unsettled := by
  unfold settle
  rw [h]

/-- The notices of the lock's loss do not come to rest when the queue holds more lots than a quarter of their bound. -/
theorem crowdFloor_unsettled : exec (.lockLost 0 .control (.malformed 8) false) (crowdFloor 16383) = .fault .unsettled := by
  obtain ⟨n, rs, m, told⟩ := controlLost_told (s := crowdFloor 16383) (p := 0) (c := 0) (f := 8) (by decide +kernel) (by decide +kernel) (by decide)
    (by decide +kernel)
  have stuck := crowdFloor_lost (x := abandonedCheck (crowdFloor 16383) 0) (N := 16383) (n := n) (m := m) (rs := rs) |>.run_none [.eligibility 0]
  exact told.trans (settle_unsettled stuck)

end
end Sys2Proof.Machine

section
open Sys2Proof Sys2Proof.Machine

/-- Refutes O27: nothing bounds the queue of another cell. A DRAINING cell whose handler's lock is lost holds the segment of a lot that
stands at entry 0 of a STARTING cell; the COUNT_LOST hold sends that lot away, and each of the 16383 entries behind it takes entry 0 and
leaves again, four notices each, so that the taking does not come to rest within the model's bound and has no next state. -/
theorem not_lockChanges : ¬ Obligations.LockChanges := by
  intro h
  obtain ⟨-, lost⟩ := h 0 .control (crowdFloor 16383)
  obtain ⟨-, -, formed⟩ := lost (.malformed 8) (by decide) (by decide +kernel)
  have steady : (crowdFloor 16383).marginSteady 1 := marginSteady_iff.mpr fun _ used => absurd used (by decide +kernel)
  obtain ⟨u, next, -⟩ := formed 0 crowdDrain (by decide +kernel) (by decide +kernel) (by decide +kernel) (by decide) (by decide +kernel)
    (by decide +kernel) rfl nofun steady
  rw [crowdFloor_unsettled] at next
  exact absurd next nofun

end
end
